-- ==== Sys2Proof/Word.lean ====
section
/-! DEFINITION. The bit vectors of the block: bytes, the 32-bit command word and the operand widths of
30_encoding.md R54, R55. Everything else the spec calls a natural number is a `Nat`. -/

namespace Sys2Proof

/-- One byte of a buffer, of DATA or of DATA_OUT (20_memory.md R33). -/
abbrev Byte := BitVec 8

/-- The 32-bit command word (30_encoding.md R54). -/
abbrev CmdWord := BitVec 32

/-- One element of the operand vector V, a value below 2^64 (30_encoding.md R55). -/
abbrev U64 := BitVec 64

/-- A 16-bit sequence counter (10_state.md R27). -/
abbrev U16 := BitVec 16

end Sys2Proof
end

