-- ==== Sys2Proof/Syntax.lean ====
section
/-! DEFINITION. The commands of the block: one constructor of `Instr` per row of opcode_table.json
(30_encoding.md R56), and `Command`, the form in which a port carries one (R54, R55). -/

namespace Sys2Proof

/-- A ring selector: 0 = IN, 1 = OUT, 2 = TM (10_state.md R19). -/
inductive RingSel where
  | inb
  | outb
  | tm
  deriving DecidableEq, Repr

/-- A reader cursor R0 .. R3 (10_state.md R23). -/
inductive RdSel where
  | r0
  | r1
  | r2
  | r3
  deriving DecidableEq, Repr

/-- The target of CUR_SET: a reader, or 4 = W0 (40_cursor_ber.md R85). -/
inductive CurTarget where
  | rd (c : RdSel)
  | w0
  deriving DecidableEq, Repr

/-- The eight message kinds (30_encoding.md R62). -/
inductive Kind where
  | commandMessage
  | commandResult
  | tmStatusMessage
  | tmEventMessage
  | addressPacket
  | exchangePacket
  | counterAdjustmentPacket
  | receiptPacket
  deriving DecidableEq, Repr

/-- A command as a port carries it: the word, the operand vector V and the byte list DATA (30_encoding.md R54, R55).
A command without DATA has the empty list (log 7). -/
structure Command where
  word : CmdWord
  v : List U64
  data : List Byte
  deriving DecidableEq, Repr

/-- The commands, in the order of the table (30_encoding.md R56). -/
inductive Instr where
  | regRd (index : BitVec 8)
  | rbWrite (r : RingSel) (data : List Byte)
  | rbPeek (r : RingSel) (size offset : U64)
  | rbRead (r : RingSel) (size : U64)
  | rbErase (r : RingSel) (size : U64)
  | rbStatus (r : RingSel)
  | curSet (t : CurTarget) (start stop : U64)
  | scrLoad (data : List Byte)
  | rdU8 (c : RdSel)
  | rdU16be (c : RdSel)
  | rdU16le (c : RdSel)
  | rdU32be (c : RdSel)
  | rdU32le (c : RdSel)
  | rdU64be (c : RdSel)
  | rdU64le (c : RdSel)
  | rdBer (c : RdSel)
  | rdSlice (src dst : RdSel) (len : U64)
  | rdBytes (c : RdSel) (n : U64)
  | wrU8 (value : BitVec 8)
  | wrU16be (value : BitVec 16)
  | wrU16le (value : BitVec 16)
  | wrU32be (value : BitVec 32)
  | wrU32le (value : BitVec 32)
  | wrU64be (value : U64)
  | wrU64le (value : U64)
  | wrBer (value : U64)
  | wrBytes (data : List Byte)
  | asmTake
  | asmCommit (r : RingSel)
  | discover (r : RingSel)
  | decCmdmsg (src dst : RdSel)
  | decCmdresult (src dst : RdSel)
  | decTmstatus (src dst : RdSel)
  | decTmevent (src dst : RdSel)
  | decAddress (src dst : RdSel)
  | decExchange (src dst : RdSel)
  | decCounteradj (src : RdSel)
  | decReceipt (src : RdSel)
  | beginCmdmsg
  | beginCmdresult
  | beginTmstatus (seg max comp msg : U64)
  | beginTmevent (comp msg event ts : U64)
  | beginAddress (at_ src sc dc da sg dg tst ts : U64)
  | beginExchange (st ect ws seq : U64)
  | beginCounteradj (st ect ctr : U64)
  | beginReceipt (st ect last : U64)
  | endFrame
  | agHandle
  | agSendNetwork (ws src sc dc da tst ts : U64) (payload : List Byte)
  | agSendGroup (ws src sc dc da sg dg tst ts : U64) (payload : List Byte)
  | agSendMulticast (ws src sc dc tst ts : U64) (payload : List Byte)
  deriving DecidableEq, Repr

end Sys2Proof
end

