-- ==== Sys2Proof/Decode.lean ====
section
/-! DEFINITION. The decoder of command words and their operands (30_encoding.md R54 to R57) and, after it, the encoder
written from the same opcode map. What depends on the configuration (a TM selector on a Uav, a register index, the bound
on SCR_LOAD's DATA, the agent opcodes) is checked where the command runs. -/

namespace Sys2Proof

/-- Why a command decodes to nothing. Each is an IllegalCommand of 60_exceptions.md R179. -/
inductive DecodeError where
  /-- OP is not in the map (30_encoding.md R57) -/
  | unassignedOpcode
  /-- a word field the opcode does not use is not zero (R55) -/
  | unusedFieldNonZero
  /-- TGT is no ring, reader or CUR_SET target (R56) -/
  | targetOutOfRange
  /-- MOD is no reader (R56) -/
  | modOutOfRange
  /-- V has the wrong length (R55) -/
  | operandCount
  /-- a V element exceeds the bound of its opcode (R55) -/
  | operandRange
  /-- DATA is given to an opcode that takes none (R55) -/
  | dataNotTaken
  deriving DecidableEq, Repr

/-- The fields of the word (30_encoding.md R54). -/
def Command.op (c : Command) : BitVec 8 := c.word.extractLsb' 24 8
def Command.tgt (c : Command) : BitVec 4 := c.word.extractLsb' 20 4
def Command.mod (c : Command) : BitVec 4 := c.word.extractLsb' 16 4
def Command.imm (c : Command) : BitVec 16 := c.word.extractLsb' 0 16

/-- Ring selectors (30_encoding.md R54: 0 = IN, 1 = OUT, 2 = TM). -/
def ringOfField (f : BitVec 4) : Option RingSel :=
  match f.toNat with
  | 0 => some .inb
  | 1 => some .outb
  | 2 => some .tm
  | _ => none

/-- Reader selectors (30_encoding.md R54: 0 .. 3 = R0 .. R3). -/
def readerOfField (f : BitVec 4) : Option RdSel :=
  match f.toNat with
  | 0 => some .r0
  | 1 => some .r1
  | 2 => some .r2
  | 3 => some .r3
  | _ => none

/-- Targets of CUR_SET (30_encoding.md R54: a reader or 4 = W0). -/
def curTargetOfField (f : BitVec 4) : Option CurTarget :=
  if f = 4 then some .w0 else (readerOfField f).map .rd

/-- Format CMD-N: OP only (30_encoding.md R56). -/
def formatN (c : Command) (k : Except DecodeError Instr) : Except DecodeError Instr :=
  if c.tgt = 0 ∧ c.mod = 0 ∧ c.imm = 0 then k else .error .unusedFieldNonZero

/-- Format CMD-T with a ring in TGT. -/
def formatRing (c : Command) (k : RingSel → Except DecodeError Instr) : Except DecodeError Instr :=
  if c.mod = 0 ∧ c.imm = 0 then
    match ringOfField c.tgt with
    | some r => k r
    | none => .error .targetOutOfRange
  else .error .unusedFieldNonZero

/-- Format CMD-T with a reader in TGT. -/
def formatReader (c : Command) (k : RdSel → Except DecodeError Instr) : Except DecodeError Instr :=
  if c.mod = 0 ∧ c.imm = 0 then
    match readerOfField c.tgt with
    | some r => k r
    | none => .error .targetOutOfRange
  else .error .unusedFieldNonZero

/-- Format CMD-T of CUR_SET. -/
def formatCur (c : Command) (k : CurTarget → Except DecodeError Instr) : Except DecodeError Instr :=
  if c.mod = 0 ∧ c.imm = 0 then
    match curTargetOfField c.tgt with
    | some t => k t
    | none => .error .targetOutOfRange
  else .error .unusedFieldNonZero

/-- Format CMD-TM: a source reader in TGT and a destination reader in MOD. -/
def formatReaders (c : Command) (k : RdSel → RdSel → Except DecodeError Instr) : Except DecodeError Instr :=
  if c.imm = 0 then
    match readerOfField c.tgt with
    | none => .error .targetOutOfRange
    | some src =>
      match readerOfField c.mod with
      | none => .error .modOutOfRange
      | some dst => k src dst
  else .error .unusedFieldNonZero

/-- Format CMD-I: a register index in IMM[7:0]; IMM[15:8] must be 0 (46_system.md R173). -/
def formatI (c : Command) (k : BitVec 8 → Except DecodeError Instr) : Except DecodeError Instr :=
  if c.tgt = 0 ∧ c.mod = 0 ∧ c.imm.extractLsb' 8 8 = 0 then k (c.imm.extractLsb' 0 8)
  else .error .unusedFieldNonZero

/-- An opcode that takes no DATA (30_encoding.md R55). -/
def noData (c : Command) (k : Except DecodeError Instr) : Except DecodeError Instr :=
  if c.data = [] then k else .error .dataNotTaken

/-- The V lengths of the map (30_encoding.md R56). -/
def args0 (c : Command) (i : Instr) : Except DecodeError Instr :=
  match c.v with
  | [] => .ok i
  | _ => .error .operandCount

def args1 (c : Command) (k : U64 → Instr) : Except DecodeError Instr :=
  match c.v with
  | [a] => .ok (k a)
  | _ => .error .operandCount

def args2 (c : Command) (k : U64 → U64 → Instr) : Except DecodeError Instr :=
  match c.v with
  | [a, b] => .ok (k a b)
  | _ => .error .operandCount

def args3 (c : Command) (k : U64 → U64 → U64 → Instr) : Except DecodeError Instr :=
  match c.v with
  | [a, b, d] => .ok (k a b d)
  | _ => .error .operandCount

def args4 (c : Command) (k : U64 → U64 → U64 → U64 → Instr) : Except DecodeError Instr :=
  match c.v with
  | [a, b, d, e] => .ok (k a b d e)
  | _ => .error .operandCount

def args6 (c : Command) (k : U64 → U64 → U64 → U64 → U64 → U64 → Instr) : Except DecodeError Instr :=
  match c.v with
  | [a, b, d, e, f, g] => .ok (k a b d e f g)
  | _ => .error .operandCount

def args7 (c : Command) (k : U64 → U64 → U64 → U64 → U64 → U64 → U64 → Instr) : Except DecodeError Instr :=
  match c.v with
  | [a, b, d, e, f, g, h] => .ok (k a b d e f g h)
  | _ => .error .operandCount

def args9 (c : Command) (k : U64 → U64 → U64 → U64 → U64 → U64 → U64 → U64 → U64 → Instr) :
    Except DecodeError Instr :=
  match c.v with
  | [a, b, d, e, f, g, h, i, j] => .ok (k a b d e f g h i j)
  | _ => .error .operandCount

/-- V = [value] with value < 2^w (30_encoding.md R55, R56). -/
def argWidth (w : Nat) (c : Command) (k : BitVec w → Instr) : Except DecodeError Instr :=
  match c.v with
  | [a] => if a.toNat < 2 ^ w then .ok (k (a.setWidth w)) else .error .operandRange
  | _ => .error .operandCount

/-- The decoder: the opcode map of 30_encoding.md R56. -/
def decode (c : Command) : Except DecodeError Instr :=
  match c.op.toNat with
  | 0x01 => formatI c fun x => noData c <| args0 c (.regRd x)
  | 0x10 => formatRing c fun r => args0 c (.rbWrite r c.data)
  | 0x11 => formatRing c fun r => noData c <| args2 c (.rbPeek r)
  | 0x12 => formatRing c fun r => noData c <| args1 c (.rbRead r)
  | 0x13 => formatRing c fun r => noData c <| args1 c (.rbErase r)
  | 0x14 => formatRing c fun r => noData c <| args0 c (.rbStatus r)
  | 0x20 => formatCur c fun t => noData c <| args2 c (.curSet t)
  | 0x21 => formatN c <| args0 c (.scrLoad c.data)
  | 0x22 => formatReader c fun r => noData c <| args0 c (.rdU8 r)
  | 0x23 => formatReader c fun r => noData c <| args0 c (.rdU16be r)
  | 0x24 => formatReader c fun r => noData c <| args0 c (.rdU16le r)
  | 0x25 => formatReader c fun r => noData c <| args0 c (.rdU32be r)
  | 0x26 => formatReader c fun r => noData c <| args0 c (.rdU32le r)
  | 0x27 => formatReader c fun r => noData c <| args0 c (.rdU64be r)
  | 0x28 => formatReader c fun r => noData c <| args0 c (.rdU64le r)
  | 0x29 => formatReader c fun r => noData c <| args0 c (.rdBer r)
  | 0x2A => formatReaders c fun src dst => noData c <| args1 c (.rdSlice src dst)
  | 0x2B => formatReader c fun r => noData c <| args1 c (.rdBytes r)
  | 0x30 => formatN c <| noData c <| argWidth 8 c .wrU8
  | 0x31 => formatN c <| noData c <| argWidth 16 c .wrU16be
  | 0x32 => formatN c <| noData c <| argWidth 16 c .wrU16le
  | 0x33 => formatN c <| noData c <| argWidth 32 c .wrU32be
  | 0x34 => formatN c <| noData c <| argWidth 32 c .wrU32le
  | 0x35 => formatN c <| noData c <| args1 c .wrU64be
  | 0x36 => formatN c <| noData c <| args1 c .wrU64le
  | 0x37 => formatN c <| noData c <| args1 c .wrBer
  | 0x38 => formatN c <| args0 c (.wrBytes c.data)
  | 0x39 => formatN c <| noData c <| args0 c .asmTake
  | 0x3A => formatRing c fun r => noData c <| args0 c (.asmCommit r)
  | 0x40 => formatRing c fun r => noData c <| args0 c (.discover r)
  | 0x50 => formatReaders c fun src dst => noData c <| args0 c (.decCmdmsg src dst)
  | 0x51 => formatReaders c fun src dst => noData c <| args0 c (.decCmdresult src dst)
  | 0x52 => formatReaders c fun src dst => noData c <| args0 c (.decTmstatus src dst)
  | 0x53 => formatReaders c fun src dst => noData c <| args0 c (.decTmevent src dst)
  | 0x54 => formatReaders c fun src dst => noData c <| args0 c (.decAddress src dst)
  | 0x55 => formatReaders c fun src dst => noData c <| args0 c (.decExchange src dst)
  | 0x56 => formatReader c fun src => noData c <| args0 c (.decCounteradj src)
  | 0x57 => formatReader c fun src => noData c <| args0 c (.decReceipt src)
  | 0x60 => formatN c <| noData c <| args0 c .beginCmdmsg
  | 0x61 => formatN c <| noData c <| args0 c .beginCmdresult
  | 0x62 => formatN c <| noData c <| args4 c .beginTmstatus
  | 0x63 => formatN c <| noData c <| args4 c .beginTmevent
  | 0x64 => formatN c <| noData c <| args9 c .beginAddress
  | 0x65 => formatN c <| noData c <| args4 c .beginExchange
  | 0x66 => formatN c <| noData c <| args3 c .beginCounteradj
  | 0x67 => formatN c <| noData c <| args3 c .beginReceipt
  | 0x68 => formatN c <| noData c <| args0 c .endFrame
  | 0x70 => formatN c <| noData c <| args0 c .agHandle
  | 0x71 => formatN c <| args7 c fun ws src sc dc da tst ts => .agSendNetwork ws src sc dc da tst ts c.data
  | 0x72 => formatN c <| args9 c fun ws src sc dc da sg dg tst ts => .agSendGroup ws src sc dc da sg dg tst ts c.data
  | 0x73 => formatN c <| args6 c fun ws src sc dc tst ts => .agSendMulticast ws src sc dc tst ts c.data
  | _ => .error .unassignedOpcode

/-- The TGT field of a ring, a reader and a CUR_SET target (30_encoding.md R54). -/
def RingSel.field : RingSel → BitVec 4
  | .inb => 0
  | .outb => 1
  | .tm => 2

def RdSel.field : RdSel → BitVec 4
  | .r0 => 0
  | .r1 => 1
  | .r2 => 2
  | .r3 => 3

def CurTarget.field : CurTarget → BitVec 4
  | .rd c => c.field
  | .w0 => 4

/-- A command word from its fields (30_encoding.md R54). -/
def cmdWord (op : BitVec 8) (tgt mod : BitVec 4) (imm : BitVec 16) : CmdWord := op ++ tgt ++ mod ++ imm

/-- The encoder: the words, operands and DATA of a command (30_encoding.md R56). -/
def encode : Instr → Command
  | .regRd x => ⟨cmdWord 0x01 0 0 (x.setWidth 16), [], []⟩
  | .rbWrite r d => ⟨cmdWord 0x10 r.field 0 0, [], d⟩
  | .rbPeek r n off => ⟨cmdWord 0x11 r.field 0 0, [n, off], []⟩
  | .rbRead r n => ⟨cmdWord 0x12 r.field 0 0, [n], []⟩
  | .rbErase r n => ⟨cmdWord 0x13 r.field 0 0, [n], []⟩
  | .rbStatus r => ⟨cmdWord 0x14 r.field 0 0, [], []⟩
  | .curSet t a b => ⟨cmdWord 0x20 t.field 0 0, [a, b], []⟩
  | .scrLoad d => ⟨cmdWord 0x21 0 0 0, [], d⟩
  | .rdU8 c => ⟨cmdWord 0x22 c.field 0 0, [], []⟩
  | .rdU16be c => ⟨cmdWord 0x23 c.field 0 0, [], []⟩
  | .rdU16le c => ⟨cmdWord 0x24 c.field 0 0, [], []⟩
  | .rdU32be c => ⟨cmdWord 0x25 c.field 0 0, [], []⟩
  | .rdU32le c => ⟨cmdWord 0x26 c.field 0 0, [], []⟩
  | .rdU64be c => ⟨cmdWord 0x27 c.field 0 0, [], []⟩
  | .rdU64le c => ⟨cmdWord 0x28 c.field 0 0, [], []⟩
  | .rdBer c => ⟨cmdWord 0x29 c.field 0 0, [], []⟩
  | .rdSlice src dst n => ⟨cmdWord 0x2A src.field dst.field 0, [n], []⟩
  | .rdBytes c n => ⟨cmdWord 0x2B c.field 0 0, [n], []⟩
  | .wrU8 v => ⟨cmdWord 0x30 0 0 0, [v.setWidth 64], []⟩
  | .wrU16be v => ⟨cmdWord 0x31 0 0 0, [v.setWidth 64], []⟩
  | .wrU16le v => ⟨cmdWord 0x32 0 0 0, [v.setWidth 64], []⟩
  | .wrU32be v => ⟨cmdWord 0x33 0 0 0, [v.setWidth 64], []⟩
  | .wrU32le v => ⟨cmdWord 0x34 0 0 0, [v.setWidth 64], []⟩
  | .wrU64be v => ⟨cmdWord 0x35 0 0 0, [v], []⟩
  | .wrU64le v => ⟨cmdWord 0x36 0 0 0, [v], []⟩
  | .wrBer v => ⟨cmdWord 0x37 0 0 0, [v], []⟩
  | .wrBytes d => ⟨cmdWord 0x38 0 0 0, [], d⟩
  | .asmTake => ⟨cmdWord 0x39 0 0 0, [], []⟩
  | .asmCommit r => ⟨cmdWord 0x3A r.field 0 0, [], []⟩
  | .discover r => ⟨cmdWord 0x40 r.field 0 0, [], []⟩
  | .decCmdmsg src dst => ⟨cmdWord 0x50 src.field dst.field 0, [], []⟩
  | .decCmdresult src dst => ⟨cmdWord 0x51 src.field dst.field 0, [], []⟩
  | .decTmstatus src dst => ⟨cmdWord 0x52 src.field dst.field 0, [], []⟩
  | .decTmevent src dst => ⟨cmdWord 0x53 src.field dst.field 0, [], []⟩
  | .decAddress src dst => ⟨cmdWord 0x54 src.field dst.field 0, [], []⟩
  | .decExchange src dst => ⟨cmdWord 0x55 src.field dst.field 0, [], []⟩
  | .decCounteradj src => ⟨cmdWord 0x56 src.field 0 0, [], []⟩
  | .decReceipt src => ⟨cmdWord 0x57 src.field 0 0, [], []⟩
  | .beginCmdmsg => ⟨cmdWord 0x60 0 0 0, [], []⟩
  | .beginCmdresult => ⟨cmdWord 0x61 0 0 0, [], []⟩
  | .beginTmstatus a b d e => ⟨cmdWord 0x62 0 0 0, [a, b, d, e], []⟩
  | .beginTmevent a b d e => ⟨cmdWord 0x63 0 0 0, [a, b, d, e], []⟩
  | .beginAddress a b d e f g h i j => ⟨cmdWord 0x64 0 0 0, [a, b, d, e, f, g, h, i, j], []⟩
  | .beginExchange a b d e => ⟨cmdWord 0x65 0 0 0, [a, b, d, e], []⟩
  | .beginCounteradj a b d => ⟨cmdWord 0x66 0 0 0, [a, b, d], []⟩
  | .beginReceipt a b d => ⟨cmdWord 0x67 0 0 0, [a, b, d], []⟩
  | .endFrame => ⟨cmdWord 0x68 0 0 0, [], []⟩
  | .agHandle => ⟨cmdWord 0x70 0 0 0, [], []⟩
  | .agSendNetwork ws src sc dc da tst ts d => ⟨cmdWord 0x71 0 0 0, [ws, src, sc, dc, da, tst, ts], d⟩
  | .agSendGroup ws src sc dc da sg dg tst ts d =>
    ⟨cmdWord 0x72 0 0 0, [ws, src, sc, dc, da, sg, dg, tst, ts], d⟩
  | .agSendMulticast ws src sc dc tst ts d => ⟨cmdWord 0x73 0 0 0, [ws, src, sc, dc, tst, ts], d⟩

/-- How many V elements an opcode takes; 0 for an unassigned one (30_encoding.md R56). -/
def operandCount (op : Nat) : Nat :=
  match op with
  | 0x11 => 2
  | 0x12 => 1
  | 0x13 => 1
  | 0x20 => 2
  | 0x2A => 1
  | 0x2B => 1
  | 0x30 => 1
  | 0x31 => 1
  | 0x32 => 1
  | 0x33 => 1
  | 0x34 => 1
  | 0x35 => 1
  | 0x36 => 1
  | 0x37 => 1
  | 0x62 => 4
  | 0x63 => 4
  | 0x64 => 9
  | 0x65 => 4
  | 0x66 => 3
  | 0x67 => 3
  | 0x71 => 7
  | 0x72 => 9
  | 0x73 => 6
  | _ => 0

/-- The command whose word is the low `nbits` bits of `w` and whose operands are all zero: V of as many zeros as the
opcode takes, DATA empty. -/
def commandOfTableWord (nbits w : Nat) : Command :=
  let word : CmdWord := BitVec.ofNat 32 (w % 2 ^ nbits)
  { word := word, v := List.replicate (operandCount (word.extractLsb' 24 8).toNat) 0, data := [] }

/-- The instruction the decoder reads from a word of opcode_table.json with zero operands. -/
def decodeTableWord (nbits w : Nat) : Option Instr :=
  match decode (commandOfTableWord nbits w) with
  | .ok i => some i
  | .error _ => none

end Sys2Proof
end

