-- ==== Sys2Proof/Config.lean ====
section
/-! DEFINITION. What is fixed when an instance is made (00_scope.md R8 to R16, 70_reset_and_hazards.md R194), and the
two things the spec leaves free: the trailer function and the order of grants. -/

namespace Sys2Proof

/-- ROLE: the agent the instance is (00_scope.md R10). -/
inductive Role where
  | uav
  | gc
  deriving DecidableEq, Repr

/-- errorControlType: Crc16 = 1, ReedSolomon = 2 (30_encoding.md R63). -/
inductive Ect where
  | crc16
  | reedSolomon
  deriving DecidableEq, Repr

/-- The trailer unit attached to the instance. `external` is the collaborator of 00_scope.md R12, of which nothing is
known but its output length; `zero` is the test configuration TrailerFn_zero of the same rule. -/
inductive TrailerUnit where
  | external
  | zero
  deriving DecidableEq, Repr

/-- The parameters of an instance. No command changes them (70_reset_and_hazards.md R194). -/
structure Config where
  /-- ROLE (00_scope.md R10) -/
  role : Role
  /-- MAX_PACKET (00_scope.md R8) -/
  maxPacket : Nat
  /-- K_IN, K_OUT and K_TM (00_scope.md R9) -/
  kIn : Nat
  kOut : Nat
  kTm : Nat
  /-- OUT_ECT (00_scope.md R13) -/
  outEct : Ect
  /-- whether the companion agent unit is there (00_scope.md R4) -/
  hasAgent : Bool
  /-- TrailerFn (00_scope.md R12) -/
  trailer : TrailerUnit
  deriving DecidableEq, Repr

/-- Byte `k` of TrailerFn(ect, bytes) of the external trailer unit: a free value, a function of its arguments alone
(00_scope.md R12, 93_implementation_defined.md I1). Log 3. -/
opaque Config.trailerByte (ect : Ect) (bytes : List Byte) (k : Nat) : Byte

/-- The arbiter's choice at its `n`-th grant when both ports have a command pending: true grants the transport port.
A free value: the order of the two ports is not fixed (20_memory.md R47, 92_eei_decisions.md D5). Log 4. -/
opaque Config.grantsTransport (n : Nat) : Bool

/-- CAP_IN, CAP_OUT, CAP_TM (00_scope.md R9). -/
def Config.capIn (c : Config) : Nat := c.kIn * c.maxPacket
def Config.capOut (c : Config) : Nat := c.kOut * c.maxPacket
def Config.capTm (c : Config) : Nat := c.kTm * c.maxPacket

/-- ASM_SIZE (00_scope.md R14). -/
def Config.asmSize (c : Config) : Nat := c.maxPacket + 2

/-- The legal configurations. 16 ≤ MAX_PACKET and K ≥ 1 are 00_scope.md R8, R9; the upper bounds are DEDUCED from the
widths of the register map (10_state.md R31: CFG_MAX_PACKET and W0.end have 16 bits, RB_CAP 64). Log 2. -/
def Config.wf (c : Config) : Bool :=
  decide (16 ≤ c.maxPacket) && decide (c.asmSize < 2 ^ 16) &&
  decide (1 ≤ c.kIn) && decide (1 ≤ c.kOut) && decide (1 ≤ c.kTm) &&
  decide (c.capIn < 2 ^ 64) && decide (c.capOut < 2 ^ 64) && decide (c.capTm < 2 ^ 64)

/-- The configuration of `State.reset`: MAX_PACKET has its default 1024 (00_scope.md R8); the others are DESIGN CHOICE
(unsafe for a statement about `State.reset` alone, log 1). -/
def Config.initial : Config :=
  { role := .uav, maxPacket := 1024, kIn := 1, kOut := 1, kTm := 1, outEct := .crc16, hasAgent := true,
    trailer := .external }

end Sys2Proof
end

