-- ==== Sys2Proof/Machine/State.lean ====
section
/-! DEFINITION. The state of one block instance (10_state.md) as plain data, its reset value (R32), and the ways a step
can stop. -/

namespace Sys2Proof.Machine

/-- A byte buffer: its written cells as (index, byte) pairs in strictly rising order of index. An unlisted cell holds
*no value* (10_state.md R19, R22, R24). -/
abbrev Memory := List Host.Cell

/-- A cursor: 10_state.md R23, R24 (`stop` is the spec's `end`). -/
structure Cursor where
  start : Nat
  cur : Nat
  stop : Nat
  deriving DecidableEq, Repr

/-- A ring buffer (10_state.md R19). -/
structure Ring where
  data : Memory
  rd : Nat
  wr : Nat
  free : Nat
  deriving DecidableEq, Repr

/-- An open frame (10_state.md R25): `trailer` is the spec's T; `ect` is none where the spec has 0. -/
structure FrameEntry where
  kind : Kind
  start : Nat
  bodyStart : Nat
  savedEnd : Nat
  trailer : Nat
  ect : Option Ect
  deriving DecidableEq, Repr

/-- The status codes by name (60_exceptions.md R175); their numbers are `statusCode` (Machine/Bytes.lean). -/
inductive Status where
  | ok
  | unexpectedEndOfStream
  | notEnoughSpace
  | invalidBerLength
  | invalidDataHeader
  | invalidAddressType
  | invalidStreamType
  | invalidErrorControlType
  | invalidWindowSize
  | invalidSequenceCounter
  | outOfRange
  | noFrame
  | incomplete
  | frameTooLarge
  | sequenceMismatch
  | illegalCommand
  | frameStackError
  | unexpectedStream
  deriving DecidableEq, Repr

/-- The kinds of handler events by name (45_agent.md R157); their numbers are `eventCode` (Machine/Bytes.lean). -/
inductive EventKind where
  | address
  | tmStatus
  | tmEvent
  | tmSeqMismatch
  | receipt
  | counterAdj
  | subframeError
  deriving DecidableEq, Repr

/-- A handler event (45_agent.md R157). -/
structure Event where
  kind : EventKind
  values : List Nat
  bytes : List Byte
  deriving DecidableEq, Repr

/-- What a command returns: STATUS, RESULT, DATA_OUT and EVENTS (00_scope.md R7). -/
structure Response where
  status : Status
  result : List Nat
  dataOut : List Byte
  events : List Event
  deriving DecidableEq, Repr

/-- The two request ports (20_memory.md R45). -/
inductive Port where
  | command
  | transport
  deriving DecidableEq, Repr

/-- The state of an instance. The fields down to `agb` are the spec's (10_state.md); the rest are the model's own
(logs 1, 4, 5, 6, 10). -/
structure State where
  /-- RB[IN], RB[OUT] and RB[TM] (10_state.md R19) -/
  inRing : Ring
  outRing : Ring
  tmRing : Ring
  /-- SCR and SCR_LEN (10_state.md R22) -/
  scr : Memory
  scrLen : Nat
  /-- R0 to R3 (10_state.md R23) -/
  r0 : Cursor
  r1 : Cursor
  r2 : Cursor
  r3 : Cursor
  /-- ASM and W0 (10_state.md R24) -/
  asm : Memory
  w0 : Cursor
  /-- FSTACK, newest entry first (10_state.md R25) -/
  fstack : List FrameEntry
  /-- STATUS (10_state.md R26) -/
  status : BitVec 8
  /-- the agent registers (10_state.md R27) -/
  cmdInCtr : U16
  tmCtr : U16
  outCtr : U16
  lastSent : U16
  lastSentValid : Bool
  readyToSend : Bool
  /-- AGB, the agent unit's private buffer of ASM_SIZE bytes (10_state.md R30, 20_memory.md R33, log 13) -/
  agb : Memory
  /-- the response of the last command and the port it answers (00_scope.md R7, log 6) -/
  resp : Option Response
  granted : Option Port
  /-- the commands pending at each port, oldest first (20_memory.md R47, log 5) -/
  cmdQ : List Command
  tpQ : List Command
  /-- the reset input (70_reset_and_hazards.md R192, log 10) -/
  resetIn : Bool
  /-- grants so far: the argument of the arbiter's free choice (log 4) -/
  grants : Nat
  /-- the parameters of the instance, written by no command (70_reset_and_hazards.md R194, log 1) -/
  cfg : Config
  deriving DecidableEq, Repr

/-- Why a step stops with a fault. -/
inductive Fault where
  /-- A command would read a buffer cell that holds no value. Raised by `collect` (Machine/Ops.lean), which makes every read
  of a buffer. Safe: the spec says no command reads such a cell (10_state.md R20, R22), and from a state that meets
  `State.Inv` none does. Log 8. -/
  | noValue
  deriving DecidableEq, Repr

/-- Why a step refuses an instruction. -/
inductive Refusal where
  /-- An instruction without a meaning. Raised by a refused arm of `exec`; there is none. Safe. -/
  | notModelled (mnemonic : String)
  deriving DecidableEq, Repr

/-- An empty ring of capacity `cap` (10_state.md R21). -/
def Ring.empty (cap : Nat) : Ring := { data := [], rd := 0, wr := 0, free := cap }

/-- The reset state of an instance with configuration `cfg` (10_state.md R32). -/
def State.resetOf (cfg : Config) : State :=
  { inRing := Ring.empty cfg.capIn
    outRing := Ring.empty cfg.capOut
    tmRing := Ring.empty cfg.capTm
    scr := []
    scrLen := 0
    r0 := ⟨0, 0, 0⟩
    r1 := ⟨0, 0, 0⟩
    r2 := ⟨0, 0, 0⟩
    r3 := ⟨0, 0, 0⟩
    asm := []
    w0 := ⟨0, 0, cfg.asmSize⟩
    fstack := []
    status := 0
    cmdInCtr := 0
    tmCtr := 0
    outCtr := 0
    lastSent := 0
    lastSentValid := false
    readyToSend := false
    agb := []
    resp := none
    granted := none
    cmdQ := []
    tpQ := []
    resetIn := false
    grants := 0
    cfg := cfg }

/-- The machine right after reset, in the configuration `Config.initial` (log 1). -/
def State.reset : State := State.resetOf Config.initial

end Sys2Proof.Machine
end

