-- ==== Sys2Proof/Machine/Bytes.lean ====
section
/-! DEFINITION. Byte orders, BER byte forms and the wire constants (00_scope.md §7, R11; 30_encoding.md R60 to R63;
40_cursor_ber.md R84). -/

namespace Sys2Proof.Machine

/-- `le_n` of a byte list: the first byte is the least significant (00_scope.md §7). -/
def leNat : List Byte → Nat
  | [] => 0
  | b :: bs => b.toNat + 256 * leNat bs

/-- `be_n` of a byte list: the first byte is the most significant (00_scope.md §7). -/
def beNat (bs : List Byte) : Nat := leNat bs.reverse

/-- ToLE(v, n): the `n` low bytes of `v`, least significant first (40_cursor_ber.md R84). -/
def toLE : Nat → Nat → List Byte
  | _, 0 => []
  | v, n + 1 => BitVec.ofNat 8 v :: toLE (v / 256) n

/-- ToBE(v, n): the `n` low bytes of `v`, most significant first (40_cursor_ber.md R84). -/
def toBE (v n : Nat) : List Byte := (toLE v n).reverse

/-- The least n ≥ 1 with v < 256^n, for n up to `fuel` + 1. -/
def byteLenAux : Nat → Nat → Nat
  | 0, _ => 1
  | fuel + 1, v => if v < 256 then 1 else byteLenAux fuel (v / 256) + 1

/-- N of the minimal long form: the least n ≥ 1 with v < 256^n (30_encoding.md R61; v < 2^64). -/
def byteLen (v : Nat) : Nat := byteLenAux 7 v

/-- `ber_min(v)` (30_encoding.md R61). -/
def berMin (v : Nat) : List Byte :=
  if v < 128 then [BitVec.ofNat 8 v] else BitVec.ofNat 8 (0x80 + byteLen v) :: toLE v (byteLen v)

/-- The 16-bit codes of the eight message kinds (30_encoding.md R62; 90_conflicts.md C2). -/
def codeOf : Kind → Nat
  | .commandMessage => 0x0c65
  | .commandResult => 0x0c66
  | .tmStatusMessage => 0x1c72
  | .tmEventMessage => 0x0c78
  | .addressPacket => 0xac5e
  | .exchangePacket => 0x6c5a
  | .counterAdjustmentPacket => 0x6c5b
  | .receiptPacket => 0x3c5c

/-- A code field on the wire, high byte first (20_memory.md R35). -/
def codeBytes (k : Kind) : List Byte := toBE (codeOf k) 2

/-- SEP_IN, SEP_OUT and SEP_TM (00_scope.md R11). -/
def sepIn : Role → Nat
  | .uav => 0x4f07
  | .gc => 0xacac

def sepOut : Role → Nat
  | .uav => 0xacac
  | .gc => 0x4f07

def sepTm : Nat := 0x043d

/-- A separator in the byte stream, high byte first (20_memory.md R38). -/
def sepBytes (sep : Nat) : List Byte := toBE sep 2

/-- The value of an errorControlType and the trailer size T(ect) (30_encoding.md R63). -/
def ectCode : Ect → Nat
  | .crc16 => 1
  | .reedSolomon => 2

def trailerSize : Ect → Nat
  | .crc16 => 2
  | .reedSolomon => 4

/-- errorControlType from a field value (30_encoding.md R63). -/
def ectOf (n : Nat) : Option Ect :=
  match n with
  | 1 => some .crc16
  | 2 => some .reedSolomon
  | _ => none

/-- The legal values of streamType and addressType (30_encoding.md R63). -/
def streamTypeLegal (n : Nat) : Bool := decide (n = 0) || decide (n = 1)

def addressTypeLegal (n : Nat) : Bool := decide (n = 3) || decide (n = 4) || decide (n = 6)

/-- destAddress is present for NetworkAddress and GroupAddress, the groups for GroupAddress (30_encoding.md R71). -/
def hasDest (at_ : Nat) : Bool := decide (at_ = 4) || decide (at_ = 6)

def hasGroups (at_ : Nat) : Bool := decide (at_ = 6)

/-- The range limits of 30_encoding.md R63. -/
def maxWindow : Nat := 32767
def maxCounter : Nat := 65535

/-- TrailerFn(ect, bytes) of the instance's trailer unit (00_scope.md R12). -/
def trailerFn (u : TrailerUnit) (ect : Ect) (bytes : List Byte) : List Byte :=
  match u with
  | .external => (List.range (trailerSize ect)).map (Config.trailerByte ect bytes)
  | .zero => List.replicate (trailerSize ect) 0

/-- The number of a status (60_exceptions.md R175). -/
def statusCode : Status → Nat
  | .ok => 0
  | .unexpectedEndOfStream => 1
  | .notEnoughSpace => 2
  | .invalidBerLength => 3
  | .invalidDataHeader => 4
  | .invalidAddressType => 5
  | .invalidStreamType => 6
  | .invalidErrorControlType => 7
  | .invalidWindowSize => 8
  | .invalidSequenceCounter => 9
  | .outOfRange => 10
  | .noFrame => 11
  | .incomplete => 12
  | .frameTooLarge => 13
  | .sequenceMismatch => 14
  | .illegalCommand => 15
  | .frameStackError => 16
  | .unexpectedStream => 17

/-- The kind number of a handler event (45_agent.md R157). -/
def eventCode : EventKind → Nat
  | .address => 1
  | .tmStatus => 2
  | .tmEvent => 3
  | .tmSeqMismatch => 4
  | .receipt => 5
  | .counterAdj => 6
  | .subframeError => 7

end Sys2Proof.Machine
end

