-- ==== Sys2Proof/Machine/Ops.lean ====
section
/-! DEFINITION. The operations every meaning is built from: buffers, the two endings of a command (`raise` and
`finish`, 00_scope.md §8), the ring functions of 41_ring.md §1, and the updates of State. -/

namespace Sys2Proof.Machine

/-- The outcome of a step. -/
abbrev Out := Host.Outcome State Fault Refusal

/-- Why an internal function gives no value: Err(S) of 00_scope.md §8, or a read of a cell that holds no value. -/
inductive Stop where
  | raised (st : Status)
  | noValue
  deriving DecidableEq, Repr

/-- The result of an internal function: Ok(v) or a stop (00_scope.md §8). -/
abbrev Res (α : Type) := Except Stop α

/-! ### Buffers -/

/-- The byte a cell holds; none where it holds no value. The one read of a single cell. -/
def Memory.read : Memory → Nat → Option Byte
  | [], _ => none
  | (k, b) :: rest, a => if a = k then some b else Memory.read rest a

/-- The one write of a single cell; it keeps the indices rising. -/
def Memory.write : Memory → Nat → Byte → Memory
  | [], a, v => [(a, v)]
  | (k, b) :: rest, a, v =>
    if a < k then (a, v) :: (k, b) :: rest
    else if a = k then (a, v) :: rest
    else (k, b) :: Memory.write rest a v

/-- The canonical form: strictly rising indices, each at least `lo`. -/
def Memory.risingFrom : Nat → Memory → Bool
  | _, [] => true
  | lo, (k, _) :: rest => decide (lo ≤ k) && Memory.risingFrom (k + 1) rest

def Memory.wf (m : Memory) : Bool := Memory.risingFrom 0 m

/-- The bytes at a list of indices, in order. A cell with no value stops the read. -/
def collect (m : Memory) : List Nat → Res (List Byte)
  | [] => .ok []
  | a :: rest =>
    match m.read a with
    | none => .error .noValue
    | some b =>
      match collect m rest with
      | .ok bs => .ok (b :: bs)
      | .error e => .error e

/-- MemRead(B, i, n) (00_scope.md §7). -/
def memRead (m : Memory) (i n : Nat) : Res (List Byte) := collect m (List.range' i n)

/-- MemWrite(B, i, L) (00_scope.md §7). -/
def memWrite : Memory → Nat → List Byte → Memory
  | m, _, [] => m
  | m, i, b :: bs => memWrite (m.write i b) (i + 1) bs

/-! ### The two endings of a command -/

/-- `finish st` with its response, on the state with the command's writes (00_scope.md §8, 60_exceptions.md R177). -/
def finish (st : Status) (result : List Nat) (dataOut : List Byte) (events : List Event) (s : State) : State :=
  { s with status := BitVec.ofNat 8 (statusCode st), resp := some ⟨st, result, dataOut, events⟩ }

/-- `raise st` on the state before the command: STATUS alone changes and the response is empty (00_scope.md §8,
60_exceptions.md R177). -/
def raise (st : Status) (s : State) : State := finish st [] [] [] s

/-- How a command that may `raise` ends: `s` is the state before it, `r` the state it would leave. -/
def conclude (s : State) (r : Res State) : Out :=
  match r with
  | .ok t => .next t
  | .error (.raised st) => .next (raise st s)
  | .error .noValue => .fault .noValue

/-! ### Rings (41_ring.md §1). `cap` is CAP_r. -/

/-- readable(r) (10_state.md R19). -/
def Ring.readable (cap : Nat) (rb : Ring) : Nat := cap - rb.free

/-- The state change of RingErase: the `n` oldest bytes leave the readable window (41_ring.md R109). -/
def Ring.drop (cap n : Nat) (rb : Ring) : Ring :=
  { rb with rd := (rb.rd + n) % cap, free := rb.free + n }

/-- RingErase(r, n) (41_ring.md R109). -/
def ringErase (cap n : Nat) (rb : Ring) : Res Ring :=
  if n > rb.readable cap then .error (.raised .outOfRange) else .ok (rb.drop cap n)

/-- RingPeek(r, n, off) (41_ring.md R110). -/
def ringPeek (cap n off : Nat) (rb : Ring) : Res (List Byte) :=
  if off + n > rb.readable cap then .error (.raised .outOfRange)
  else collect rb.data ((List.range' (rb.rd + off) n).map (· % cap))

/-- The cell writes of RingWrite: L[k] at index (i + k) mod CAP (41_ring.md R111). -/
def ringStore (cap : Nat) : Memory → Nat → List Byte → Memory
  | m, _, [] => m
  | m, i, b :: bs => ringStore cap (m.write (i % cap) b) (i + 1) bs

/-- The bytes of L that RingWrite keeps: the last CAP of them when there are more (41_ring.md R111). -/
def ringKept (cap : Nat) (bytes : List Byte) : List Byte := bytes.drop (bytes.length - cap)

/-- RingWrite after the discard: append `bytes` at the write offset (41_ring.md R111). -/
def Ring.append (cap : Nat) (bytes : List Byte) (rb : Ring) : Ring :=
  { data := ringStore cap rb.data rb.wr bytes
    rd := rb.rd
    wr := (rb.wr + bytes.length) % cap
    free := rb.free - bytes.length }

/-- RingWrite(r, L): total (41_ring.md R111). -/
def ringWrite (cap : Nat) (bytes : List Byte) (rb : Ring) : Ring :=
  let kept := ringKept cap bytes
  if kept.length > rb.free then (rb.drop cap (kept.length - rb.free)).append cap kept else rb.append cap kept

/-! ### Updates and reads of State -/

/-- Ring `r` (10_state.md R19). -/
def State.ring (s : State) : RingSel → Ring
  | .inb => s.inRing
  | .outb => s.outRing
  | .tm => s.tmRing

/-- CAP_r (00_scope.md R9). -/
def State.cap (s : State) : RingSel → Nat
  | .inb => s.cfg.capIn
  | .outb => s.cfg.capOut
  | .tm => s.cfg.capTm

/-- readable(r). -/
def State.readable (s : State) (r : RingSel) : Nat := (s.ring r).readable (s.cap r)

def State.setRing (s : State) (r : RingSel) (rb : Ring) : State :=
  match r with
  | .inb => { s with inRing := rb }
  | .outb => { s with outRing := rb }
  | .tm => { s with tmRing := rb }

/-- RingWrite on ring `r` of the state. -/
def State.push (s : State) (r : RingSel) (bytes : List Byte) : State :=
  s.setRing r (ringWrite (s.cap r) bytes (s.ring r))

/-- Reader `c` (10_state.md R23). -/
def State.reader (s : State) : RdSel → Cursor
  | .r0 => s.r0
  | .r1 => s.r1
  | .r2 => s.r2
  | .r3 => s.r3

def State.setReader (s : State) (c : RdSel) (x : Cursor) : State :=
  match c with
  | .r0 => { s with r0 := x }
  | .r1 => { s with r1 := x }
  | .r2 => { s with r2 := x }
  | .r3 => { s with r3 := x }

/-- SCR takes `bytes`; the readers are reset to them (40_cursor_ber.md R86, 42_framer.md R122). The cells beyond keep
what they held. -/
def State.loadScr (s : State) (bytes : List Byte) : State :=
  { s with
    scr := memWrite s.scr 0 bytes
    scrLen := bytes.length
    r0 := ⟨0, 0, bytes.length⟩
    r1 := ⟨0, 0, 0⟩
    r2 := ⟨0, 0, 0⟩
    r3 := ⟨0, 0, 0⟩ }

/-- A new writer and ASM (40_cursor_ber.md R79). -/
def State.setWriter (s : State) (w : Memory × Cursor) : State := { s with asm := w.1, w0 := w.2 }

/-- A new AGB (45_agent.md R158). -/
def State.setAgb (s : State) (m : Memory) : State := { s with agb := m }

/-- Reset, applied between two commands: every piece of the spec's state takes its reset value, the configuration stays,
and the pending commands are not lost (70_reset_and_hazards.md R192, R194). Log 10. -/
def State.applyReset (s : State) : State :=
  { State.resetOf s.cfg with cmdQ := s.cmdQ, tpQ := s.tpQ, grants := s.grants }

/-- The arbiter: the next command granted, and the state with it taken from its port's queue; none when no command is
pending. Each port's commands are granted in order; between the ports the choice is free (20_memory.md R47). -/
def State.grant (s : State) : Option (Port × Command × State) :=
  match s.cmdQ, s.tpQ with
  | [], [] => none
  | c :: cs, [] => some (.command, c, { s with cmdQ := cs, granted := some .command, grants := s.grants + 1 })
  | [], t :: ts => some (.transport, t, { s with tpQ := ts, granted := some .transport, grants := s.grants + 1 })
  | c :: cs, t :: ts =>
    if Config.grantsTransport s.grants then
      some (.transport, t, { s with tpQ := ts, granted := some .transport, grants := s.grants + 1 })
    else some (.command, c, { s with cmdQ := cs, granted := some .command, grants := s.grants + 1 })

end Sys2Proof.Machine
end

