-- ==== Sys2Proof/WellFormed.lean ====
section
/-! DEFINITION. Which commands an instance has: the legality checks of 30_encoding.md R56 and 60_exceptions.md R179 that
depend on the configuration. The others (field ranges, V length, V element ranges) hold of every `Instr` by its types,
and the decoder makes them. -/

namespace Sys2Proof

/-- Ring TM exists only when ROLE = Gc (10_state.md R19). -/
def RingSel.present (cfg : Config) : RingSel → Bool
  | .inb => true
  | .outb => true
  | .tm => decide (cfg.role = .gc)

/-- The legal REG_RD indices of an instance (10_state.md R31; the agent registers go with the agent unit, 00_scope.md
R4). -/
def Config.hasReg (cfg : Config) (index : BitVec 8) : Bool :=
  let gc := decide (cfg.role = .gc)
  let i := index.toNat
  decide (i ≤ 0x05) || (decide (i = 0x06) && gc) ||
  -- 0x10 + r, 0x14 + r, 0x18 + r, 0x1C + r, 0x20 + r
  (decide (0x10 ≤ i) && decide (i ≤ 0x22) &&
    (decide (i % 4 = 0) || decide (i % 4 = 1) || (decide (i % 4 = 2) && gc))) ||
  decide (i = 0x30) ||
  -- 0x40 + 4c, 0x41 + 4c, 0x42 + 4c
  (decide (0x40 ≤ i) && decide (i ≤ 0x4E) && decide (i % 4 ≠ 3)) ||
  (decide (0x50 ≤ i) && decide (i ≤ 0x52)) || decide (i = 0x58) ||
  (cfg.hasAgent && ((decide (i = 0x60) && !gc) || (decide (i = 0x61) && gc) ||
    (decide (0x62 ≤ i) && decide (i ≤ 0x64))))

/-- Whether the instance has the command with these operands. A command that fails it raises IllegalCommand
(60_exceptions.md R179). -/
def Instr.wellFormed (cfg : Config) : Instr → Bool
  | .regRd index => cfg.hasReg index
  | .rbWrite r _ => r.present cfg
  | .rbPeek r _ _ => r.present cfg
  | .rbRead r _ => r.present cfg
  | .rbErase r _ => r.present cfg
  | .rbStatus r => r.present cfg
  | .curSet _ _ _ => true
  | .scrLoad data => decide (data.length ≤ cfg.maxPacket)
  | .rdU8 _ => true
  | .rdU16be _ => true
  | .rdU16le _ => true
  | .rdU32be _ => true
  | .rdU32le _ => true
  | .rdU64be _ => true
  | .rdU64le _ => true
  | .rdBer _ => true
  | .rdSlice _ _ _ => true
  | .rdBytes _ _ => true
  | .wrU8 _ => true
  | .wrU16be _ => true
  | .wrU16le _ => true
  | .wrU32be _ => true
  | .wrU32le _ => true
  | .wrU64be _ => true
  | .wrU64le _ => true
  | .wrBer _ => true
  | .wrBytes _ => true
  | .asmTake => true
  | .asmCommit r => r.present cfg
  | .discover r => r.present cfg
  | .decCmdmsg _ _ => true
  | .decCmdresult _ _ => true
  | .decTmstatus _ _ => true
  | .decTmevent _ _ => true
  | .decAddress _ _ => true
  | .decExchange _ _ => true
  | .decCounteradj _ => true
  | .decReceipt _ => true
  | .beginCmdmsg => true
  | .beginCmdresult => true
  | .beginTmstatus _ _ _ _ => true
  | .beginTmevent _ _ _ _ => true
  | .beginAddress _ _ _ _ _ _ _ _ _ => true
  | .beginExchange _ _ _ _ => true
  | .beginCounteradj _ _ _ => true
  | .beginReceipt _ _ _ => true
  | .endFrame => true
  | .agHandle => cfg.hasAgent
  | .agSendNetwork _ _ _ _ _ _ _ _ => cfg.hasAgent
  | .agSendGroup _ _ _ _ _ _ _ _ _ _ => cfg.hasAgent
  | .agSendMulticast _ _ _ _ _ _ _ => cfg.hasAgent

end Sys2Proof
end

