-- ==== Sys2Proof/Machine/Operands.lean ====
section
/-! DEFINITION. The operand forms: reader and writer cursors and the BER codec over them (40_cursor_ber.md §1), and the
checks that an instance has what a command names (60_exceptions.md R179). -/

namespace Sys2Proof.Machine

/-! ### Readers -/

/-- avail(c) (00_scope.md §7). -/
def Cursor.avail (c : Cursor) : Nat := c.stop - c.cur

/-- ReadN(c, n) over SCR (40_cursor_ber.md R78). -/
def readN (scr : Memory) (c : Cursor) (n : Nat) : Res (List Byte × Cursor) :=
  if n > c.avail then .error (.raised .unexpectedEndOfStream)
  else do
    let bytes ← memRead scr c.cur n
    return (bytes, { c with cur := c.cur + n })

/-- BerDecode(B, i, e): the value and the index after it (40_cursor_ber.md R80). -/
def berDecode (m : Memory) (i e : Nat) : Res (Nat × Nat) :=
  if e - i < 1 then .error (.raised .unexpectedEndOfStream)
  else
    match m.read i with
    | none => .error .noValue
    | some h =>
      if h.toNat < 0x80 then .ok (h.toNat, i + 1)
      else
        let n := h.toNat - 0x80
        if n = 0 ∨ n > 8 then .error (.raised .invalidBerLength)
        else if e - (i + 1) < n then .error (.raised .unexpectedEndOfStream)
        else do
          let bytes ← memRead m (i + 1) n
          return (leNat bytes, i + 1 + n)

/-- ReadBer(c) (40_cursor_ber.md R81). -/
def readBer (scr : Memory) (c : Cursor) : Res (Nat × Cursor) := do
  let (v, i) ← berDecode scr c.cur c.stop
  return (v, { c with cur := i })

/-! ### The writer: ASM and a copy of W0 -/

/-- The writer of the state. -/
def State.writer (s : State) : Memory × Cursor := (s.asm, s.w0)

/-- WriteN(w, L) (40_cursor_ber.md R79). -/
def writeN (w : Memory × Cursor) (bytes : List Byte) : Res (Memory × Cursor) :=
  if bytes.length > w.2.avail then .error (.raised .notEnoughSpace)
  else .ok (memWrite w.1 w.2.cur bytes, { w.2 with cur := w.2.cur + bytes.length })

/-- WriteBer(w, v) (40_cursor_ber.md R82). -/
def writeBer (w : Memory × Cursor) (v : Nat) : Res (Memory × Cursor) := writeN w (berMin v)

/-- The bytes assembled so far: ASM[W0.start .. W0.cur) (10_state.md R24). -/
def State.assembled (s : State) : Res (List Byte) := memRead s.asm s.w0.start (s.w0.cur - s.w0.start)

/-- The writer emptied: W0.cur back at W0.start (40_cursor_ber.md R108, 41_ring.md R117). -/
def State.rewind (s : State) : State := { s with w0 := { s.w0 with cur := s.w0.start } }

/-! ### What an instance has -/

/-- A command that names a ring: IllegalCommand, before any other check, when the instance lacks it
(60_exceptions.md R179). -/
def withRing (s : State) (r : RingSel) (k : Out) : Out :=
  if r.present s.cfg then k else .next (raise .illegalCommand s)

/-- A command of the agent unit: IllegalCommand when the instance has none (60_exceptions.md R179, 00_scope.md R4). -/
def withAgent (s : State) (k : Out) : Out :=
  if s.cfg.hasAgent then k else .next (raise .illegalCommand s)

/-- What the transport port may issue: RB_WRITE IN, RB_STATUS OUT and RB_READ OUT (20_memory.md R46). -/
def portAllows (p : Port) (i : Instr) : Bool :=
  match p with
  | .command => true
  | .transport =>
    match i with
    | .rbWrite .inb _ => true
    | .rbStatus .outb => true
    | .rbRead .outb _ => true
    | _ => false

end Sys2Proof.Machine
end

