-- ==== Sys2Proof/Machine/Decoders.lean ====
section
/-! DEFINITION. The packet decoders (43_decode.md). Each is a function from SCR and a reader value to the fields, the
trailer and the payload view, used by its command and by the agent (45_agent.md R160). -/

namespace Sys2Proof.Machine

/-- What a decoder reads: RESULT, DATA_OUT (the trailer), the payload view, and the source reader past the message
(43_decode.md R130). -/
structure Decoded where
  fields : List Nat
  trailer : List Byte
  payload : Cursor
  after : Cursor
  deriving DecidableEq, Repr

/-- DecHeader(c, K): the length, the body view and c past the message (43_decode.md R128). -/
def decHeader (scr : Memory) (c : Cursor) (k : Kind) : Res (Nat × Cursor × Cursor) := do
  let (bytes, c1) ← readN scr c 2
  if beNat bytes ≠ codeOf k then .error (.raised .invalidDataHeader)
  else do
    let (len, c2) ← readBer scr c1
    if len > c2.avail then .error (.raised .unexpectedEndOfStream)
    else return (len, ⟨c2.cur, c2.cur, c2.cur + len⟩, { c with cur := c2.cur + len })

/-- The PacketHeader fields after the length (30_encoding.md R66). -/
structure PktHeader where
  reserved : Nat
  st : Nat
  ect : Ect
  trailer : List Byte
  deriving DecidableEq, Repr

/-- DecPktHeader(b): the header fields, and b without the trailer (43_decode.md R129). -/
def decPktHeader (scr : Memory) (b : Cursor) : Res (PktHeader × Cursor) := do
  let (reserved, b) ← readBer scr b
  let (st, b) ← readBer scr b
  if streamTypeLegal st = false then .error (.raised .invalidStreamType)
  else do
    let (e, b) ← readBer scr b
    match ectOf e with
    | none => .error (.raised .invalidErrorControlType)
    | some ect =>
      let t := trailerSize ect
      if b.avail < t then .error (.raised .unexpectedEndOfStream)
      else do
        let trailer ← memRead scr (b.stop - t) t
        return (⟨reserved, st, ect, trailer⟩, { b with stop := b.stop - t })

/-- DEC_CMDMSG and DEC_CMDRESULT: the whole body is the payload (43_decode.md R132, R133). -/
def decBody (k : Kind) (scr : Memory) (c : Cursor) : Res Decoded := do
  let (len, b, after) ← decHeader scr c k
  return ⟨[len], [], b, after⟩

/-- DEC_TMSTATUS and DEC_TMEVENT: four numbers, then the parameters (43_decode.md R134, R135). -/
def decFour (k : Kind) (scr : Memory) (c : Cursor) : Res Decoded := do
  let (len, b, after) ← decHeader scr c k
  let (f1, b) ← readBer scr b
  let (f2, b) ← readBer scr b
  let (f3, b) ← readBer scr b
  let (f4, b) ← readBer scr b
  return ⟨[len, f1, f2, f3, f4], [], b, after⟩

/-- An address field that a type may not carry: 0 when absent (43_decode.md R136). -/
def readBerIf (present : Bool) (scr : Memory) (b : Cursor) : Res (Nat × Cursor) :=
  if present then readBer scr b else .ok (0, b)

/-- DEC_ADDRESS (43_decode.md R136). -/
def decAddress (scr : Memory) (c : Cursor) : Res Decoded := do
  let (len, b, after) ← decHeader scr c .addressPacket
  let (at_, b) ← readBer scr b
  if addressTypeLegal at_ = false then .error (.raised .invalidAddressType)
  else do
    let (src, b) ← readBer scr b
    let (sc, b) ← readBer scr b
    let (dc, b) ← readBer scr b
    let (da, b) ← readBerIf (hasDest at_) scr b
    let (sg, b) ← readBerIf (hasGroups at_) scr b
    let (dg, b) ← readBerIf (hasGroups at_) scr b
    let (tst, b) ← readBer scr b
    let (ts, b) ← readBer scr b
    return ⟨[len, at_, src, sc, dc, da, sg, dg, tst, ts], [], b, after⟩

/-- DEC_EXCHANGE (43_decode.md R137). -/
def decExchange (scr : Memory) (c : Cursor) : Res Decoded := do
  let (len, b, after) ← decHeader scr c .exchangePacket
  let (h, b) ← decPktHeader scr b
  let (ws, b) ← readBer scr b
  if ws > maxWindow then .error (.raised .invalidWindowSize)
  else do
    let (seq, b) ← readBer scr b
    if seq > maxCounter then .error (.raised .invalidSequenceCounter)
    else return ⟨[len, h.reserved, h.st, ectCode h.ect, ws, seq], h.trailer, b, after⟩

/-- DEC_COUNTERADJ and DEC_RECEIPT: one counter; bytes before the trailer are ignored (43_decode.md R138, R139). -/
def decCounter (k : Kind) (scr : Memory) (c : Cursor) : Res Decoded := do
  let (len, b, after) ← decHeader scr c k
  let (h, b) ← decPktHeader scr b
  let (ctr, b) ← readBer scr b
  if ctr > maxCounter then .error (.raised .invalidSequenceCounter)
  else return ⟨[len, h.reserved, h.st, ectCode h.ect, ctr], h.trailer, b, after⟩

/-- The end of a payload-bearing decoder: Rs past the message, then Rd at the payload (43_decode.md R130). -/
def decodeTo (dec : Memory → Cursor → Res Decoded) (src dst : RdSel) (s : State) : Out :=
  conclude s do
    let d ← dec s.scr (s.reader src)
    return finish .ok d.fields d.trailer []
      ((s.setReader src d.after).setReader dst ⟨d.payload.cur, d.payload.cur, d.payload.stop⟩)

/-- The end of a decoder without payload (43_decode.md R138, R139). -/
def decodeOnly (dec : Memory → Cursor → Res Decoded) (src : RdSel) (s : State) : Out :=
  conclude s do
    let d ← dec s.scr (s.reader src)
    return finish .ok d.fields d.trailer [] (s.setReader src d.after)

/-- DEC_CMDMSG (43_decode.md R132). -/
def execDecCmdmsg (src dst : RdSel) (s : State) : Out := decodeTo (decBody .commandMessage) src dst s

/-- DEC_CMDRESULT (43_decode.md R133). -/
def execDecCmdresult (src dst : RdSel) (s : State) : Out := decodeTo (decBody .commandResult) src dst s

/-- DEC_TMSTATUS (43_decode.md R134). -/
def execDecTmstatus (src dst : RdSel) (s : State) : Out := decodeTo (decFour .tmStatusMessage) src dst s

/-- DEC_TMEVENT (43_decode.md R135). -/
def execDecTmevent (src dst : RdSel) (s : State) : Out := decodeTo (decFour .tmEventMessage) src dst s

/-- DEC_ADDRESS (43_decode.md R136). -/
def execDecAddress (src dst : RdSel) (s : State) : Out := decodeTo decAddress src dst s

/-- DEC_EXCHANGE (43_decode.md R137). -/
def execDecExchange (src dst : RdSel) (s : State) : Out := decodeTo decExchange src dst s

/-- DEC_COUNTERADJ (43_decode.md R138). -/
def execDecCounteradj (src : RdSel) (s : State) : Out := decodeOnly (decCounter .counterAdjustmentPacket) src s

/-- DEC_RECEIPT (43_decode.md R139). -/
def execDecReceipt (src : RdSel) (s : State) : Out := decodeOnly (decCounter .receiptPacket) src s

end Sys2Proof.Machine
end

