-- ==== Sys2Proof/Machine/Encoders.lean ====
section
/-! DEFINITION. The packet encoders: one BEGIN command per message kind and END_FRAME (44_encode.md). -/

namespace Sys2Proof.Machine

/-- FSTACK_DEPTH (00_scope.md R15). -/
def fstackDepth : Nat := 4

/-- Begin(K, H, T, ect): code, length placeholder 0x00 and header fields at W0.cur; the entry on FSTACK; the trailer
reserved by lowering W0.end (44_encode.md R143). `ect` is none for T = 0. -/
def beginFrame (k : Kind) (header : List Byte) (ect : Option Ect) (s : State) : Res State :=
  let t := (ect.map trailerSize).getD 0
  if s.fstack.length = fstackDepth then .error (.raised .frameStackError)
  else if s.w0.avail < 3 + header.length + t then .error (.raised .notEnoughSpace)
  else
    let at_ := s.w0.cur
    .ok { s with
      asm := memWrite s.asm at_ (codeBytes k ++ [0x00] ++ header)
      w0 := { s.w0 with cur := at_ + 3 + header.length, stop := s.w0.stop - t }
      fstack := ⟨k, at_, at_ + 3, s.w0.stop, t, ect⟩ :: s.fstack }

/-- A BEGIN command whose operand ranges have been checked (44_encode.md R144). -/
def beginWith (k : Kind) (header : List Byte) (ect : Option Ect) (s : State) : Res State := do
  let t ← beginFrame k header ect s
  return finish .ok [] [] [] t

/-- The address fields of an AddressPacket, in wire order (30_encoding.md R71). -/
def addressHeader (at_ src sc dc da sg dg tst ts : Nat) : List Byte :=
  berMin at_ ++ berMin src ++ berMin sc ++ berMin dc ++
  (if hasDest at_ then berMin da else []) ++
  (if hasGroups at_ then berMin sg ++ berMin dg else []) ++
  berMin tst ++ berMin ts

/-- reserved = 1, streamType and errorControlType (30_encoding.md R66). -/
def pktHeader (st : Nat) (ect : Ect) : List Byte := berMin 1 ++ berMin st ++ berMin (ectCode ect)

/-- The checks of streamType and errorControlType that open the three PacketHeader BEGINs (44_encode.md R150 to
R152). -/
def checkStreamEct (st e : Nat) (k : Ect → Res State) : Res State :=
  if streamTypeLegal st = false then .error (.raised .invalidStreamType)
  else
    match ectOf e with
    | none => .error (.raised .invalidErrorControlType)
    | some ect => k ect

/-- BEGIN_CMDMSG (44_encode.md R145). -/
def execBeginCmdmsg (s : State) : Out := conclude s <| beginWith .commandMessage [] none s

/-- BEGIN_CMDRESULT (44_encode.md R146). -/
def execBeginCmdresult (s : State) : Out := conclude s <| beginWith .commandResult [] none s

/-- BEGIN_TMSTATUS (44_encode.md R147). -/
def execBeginTmstatus (seg max comp msg : U64) (s : State) : Out :=
  conclude s <| beginWith .tmStatusMessage
    (berMin seg.toNat ++ berMin max.toNat ++ berMin comp.toNat ++ berMin msg.toNat) none s

/-- BEGIN_TMEVENT (44_encode.md R148). -/
def execBeginTmevent (comp msg event ts : U64) (s : State) : Out :=
  conclude s <| beginWith .tmEventMessage
    (berMin comp.toNat ++ berMin msg.toNat ++ berMin event.toNat ++ berMin ts.toNat) none s

/-- BEGIN_ADDRESS (44_encode.md R149). -/
def execBeginAddress (at_ src sc dc da sg dg tst ts : U64) (s : State) : Out :=
  conclude s <|
    if addressTypeLegal at_.toNat = false then .error (.raised .invalidAddressType)
    else
      beginWith .addressPacket
        (addressHeader at_.toNat src.toNat sc.toNat dc.toNat da.toNat sg.toNat dg.toNat tst.toNat ts.toNat) none s

/-- BEGIN_EXCHANGE (44_encode.md R150). -/
def execBeginExchange (st ect ws seq : U64) (s : State) : Out :=
  conclude s <| checkStreamEct st.toNat ect.toNat fun e =>
    if ws.toNat > maxWindow then .error (.raised .invalidWindowSize)
    else if seq.toNat > maxCounter then .error (.raised .invalidSequenceCounter)
    else beginWith .exchangePacket (pktHeader st.toNat e ++ berMin ws.toNat ++ berMin seq.toNat) (some e) s

/-- BEGIN_COUNTERADJ (44_encode.md R151). -/
def execBeginCounteradj (st ect ctr : U64) (s : State) : Out :=
  conclude s <| checkStreamEct st.toNat ect.toNat fun e =>
    if ctr.toNat > maxCounter then .error (.raised .invalidSequenceCounter)
    else beginWith .counterAdjustmentPacket (pktHeader st.toNat e ++ berMin ctr.toNat) (some e) s

/-- BEGIN_RECEIPT (44_encode.md R152). -/
def execBeginReceipt (st ect last : U64) (s : State) : Out :=
  conclude s <| checkStreamEct st.toNat ect.toNat fun e =>
    if last.toNat > maxCounter then .error (.raised .invalidSequenceCounter)
    else beginWith .receiptPacket (pktHeader st.toNat e ++ berMin last.toNat) (some e) s

/-- Abort(e): the frame is dropped from the writer and its entry popped (44_encode.md R153). -/
def abortFrame (e : FrameEntry) (rest : List FrameEntry) (s : State) : State :=
  { s with w0 := { s.w0 with cur := e.start, stop := e.savedEnd }, fstack := rest }

/-- The successful end of END_FRAME: the body moves right by k - 1, the length and the trailer are placed
(44_encode.md R153). `lb` is the length field, `fsize` the frame size. -/
def closeFrame (e : FrameEntry) (rest : List FrameEntry) (lb : List Byte) (fsize : Nat) (s : State) : Res State := do
  let body ← memRead s.asm e.bodyStart (s.w0.cur - e.bodyStart)
  let asm := memWrite s.asm (e.bodyStart + (lb.length - 1)) body
  let asm := memWrite asm (e.start + 2) lb
  let cur := s.w0.cur + (lb.length - 1)
  let framed ← memRead asm e.start (cur - e.start)
  let tr := match e.ect with
    | none => []
    | some ect => trailerFn s.cfg.trailer ect framed
  return finish .ok [fsize] [] [] { s with
    asm := memWrite asm cur tr
    w0 := { s.w0 with cur := cur + e.trailer, stop := e.savedEnd }
    fstack := rest }

/-- END_FRAME: with no open frame it raises; the two size failures `finish` (44_encode.md R153, 60_exceptions.md R178;
log 17). -/
def execEndFrame (s : State) : Out :=
  conclude s <|
    match s.fstack with
    | [] => .error (.raised .frameStackError)
    | e :: rest =>
      let len := (s.w0.cur - e.bodyStart) + e.trailer
      let lb := berMin len
      let k := lb.length
      let fsize := 2 + k + len
      if fsize > s.cfg.maxPacket then .ok (finish .frameTooLarge [] [] [] (abortFrame e rest s))
      else if s.w0.cur + (k - 1) + e.trailer > e.savedEnd then
        .ok (finish .notEnoughSpace [] [] [] (abortFrame e rest s))
      else closeFrame e rest lb fsize s

end Sys2Proof.Machine
end

