-- ==== Sys2Proof/Machine/Flags.lean ====
section
/-! DEFINITION. The two status flags READY_TO_SEND and LAST_SENT_VALID (10_state.md R28), and the sequence counters they
go with (R27). The block has no arithmetic condition codes. -/

namespace Sys2Proof.Machine

/-- AGENT_FLAGS: bit 0 READY_TO_SEND, bit 1 LAST_SENT_VALID, the rest 0 (10_state.md R31). READY_TO_SEND reads 0 on a
Uav. -/
def State.agentFlags (s : State) : Nat :=
  (if s.readyToSend && decide (s.cfg.role = .gc) then 1 else 0) + (if s.lastSentValid then 2 else 0)

/-- A receipt matches: LAST_SENT_VALID = 1 and the counter is LAST_SENT (45_agent.md R163). -/
def State.receiptMatches (s : State) (last : Nat) : Bool := s.lastSentValid && decide (last = s.lastSent.toNat)

/-- READY_TO_SEND is set by a matching receipt and left alone by another (45_agent.md R163, 90_conflicts.md C10). -/
def State.noteReceipt (s : State) (last : Nat) : State :=
  if s.receiptMatches last then { s with readyToSend := true } else s

/-- The registers a completed send writes: LAST_SENT, LAST_SENT_VALID, OUT_CTR and, on a Gc, READY_TO_SEND
(45_agent.md R166). -/
def State.noteSent (s : State) : State :=
  { s with
    lastSent := s.outCtr
    lastSentValid := true
    outCtr := s.outCtr + 1
    readyToSend := if s.cfg.role = .gc then false else s.readyToSend }

/-- CMD_IN_CTR and TM_CTR advance modulo 2^16 (45_agent.md R161, R162). -/
def State.advanceCmdIn (s : State) : State := { s with cmdInCtr := s.cmdInCtr + 1 }

def State.advanceTm (s : State) : State := { s with tmCtr := s.tmCtr + 1 }

/-- CMD_IN_CTR takes the counter of a CounterAdjustmentPacket (45_agent.md R161). -/
def State.setCmdIn (s : State) (ctr : Nat) : State := { s with cmdInCtr := BitVec.ofNat 16 ctr }

end Sys2Proof.Machine
end

