-- ==== Sys2Proof/Machine/Framer.lean ====
section
/-! DEFINITION. Frame discovery (42_framer.md). -/

namespace Sys2Proof.Machine

/-- SEP(r) (42_framer.md R121). -/
def sepOf (role : Role) : RingSel → Nat
  | .inb => sepIn role
  | .outb => sepOut role
  | .tm => sepTm

/-- What a discovery cycle leaves: its status, the ring, and the frame it took (empty unless the status is OK). -/
structure Cycle where
  status : Status
  ring : Ring
  frame : List Byte
  deriving DecidableEq, Repr

/-- Step 1 of Discover: discard bytes until the two oldest are the separator. True when found; false when fewer than 2
bytes are left. `fuel` bounds the turns; readable(r) of them are enough (42_framer.md R122, R125). -/
def scan (cap sep : Nat) : Nat → Ring → Res (Ring × Bool)
  | 0, rb => .ok (rb, false)
  | fuel + 1, rb =>
    if rb.readable cap < 2 then .ok (rb, false)
    else do
      let bytes ← ringPeek cap 2 0 rb
      if bytes = sepBytes sep then return (rb, true) else scan cap sep fuel (rb.drop cap 1)

/-- Steps 3 and 4 of Discover, with the length field read: `size` further length bytes and the declared length `len`
(42_framer.md R122). -/
def takeFrame (cap maxPacket size len : Nat) (rb : Ring) : Res Cycle :=
  let total := 3 + size + len
  if total > maxPacket then .ok ⟨.frameTooLarge, rb.drop cap 2, []⟩
  else if rb.readable cap < 2 + total then .ok ⟨.incomplete, rb, []⟩
  else do
    let rb := rb.drop cap 2
    let frame ← ringPeek cap total 0 rb
    return ⟨.ok, rb.drop cap total, frame⟩

/-- Steps 2 to 4 of Discover, with the separator at the read cursor (42_framer.md R122). -/
def readHeader (cap maxPacket : Nat) (rb : Ring) : Res Cycle :=
  if rb.readable cap < 5 then .ok ⟨.incomplete, rb, []⟩
  else do
    let header ← ringPeek cap 3 2 rb
    let h := (header.getD 2 0).toNat
    if h < 0x80 then takeFrame cap maxPacket 0 h rb
    else
      let size := h - 0x80
      if size = 0 ∨ size > 8 then return ⟨.invalidBerLength, rb.drop cap 2, []⟩
      else if rb.readable cap < 5 + size then return ⟨.incomplete, rb, []⟩
      else do
        let bytes ← ringPeek cap size 5 rb
        takeFrame cap maxPacket size (leNat bytes) rb

/-- Discover on a ring (42_framer.md R122). -/
def discoverRing (cap maxPacket sep : Nat) (rb : Ring) : Res Cycle := do
  let (rb, found) ← scan cap sep (rb.readable cap) rb
  if found then readHeader cap maxPacket rb else return ⟨.noFrame, rb, []⟩

/-- Discover(r, S) on the state: the status, and the state with the ring's and, on OK, SCR's and the readers' writes
(42_framer.md R122, R123). -/
def discover (r : RingSel) (sep : Nat) (s : State) : Res (Status × State) := do
  let c ← discoverRing (s.cap r) s.cfg.maxPacket sep (s.ring r)
  let s := s.setRing r c.ring
  return (c.status, if c.status = .ok then s.loadScr c.frame else s)

/-- be16(MemRead(SCR, 0, 2)): the code of the frame in SCR (42_framer.md R124). -/
def State.frameCode (s : State) : Res Nat := do
  let bytes ← memRead s.scr 0 2
  return beNat bytes

/-- DISCOVER ends with `finish`, whatever the status (42_framer.md R124). -/
def execDiscover (r : RingSel) (s : State) : Out :=
  withRing s r <| conclude s do
    let (st, t) ← discover r (sepOf s.cfg.role r) s
    if st = .ok then do
      let code ← t.frameCode
      return finish .ok [code, t.scrLen] [] [] t
    else return finish st [] [] [] t

end Sys2Proof.Machine
end

