-- ==== Sys2Proof/Machine/Agent.lean ====
section
/-! DEFINITION. The agent sequencing unit (45_agent.md). Every frame it originates is written into its private buffer AGB
and queued in OUT from there (10_state.md R30, log 13). -/

namespace Sys2Proof.Machine

/-! ### Byte builders (45_agent.md R158) -/

/-- DMsg(K, H, body). -/
def dMsg (k : Kind) (header body : List Byte) : List Byte :=
  codeBytes k ++ berMin (header.length + body.length) ++ header ++ body

/-- `pre` of PMsg: the message up to its trailer. -/
def pMsgPre (k : Kind) (st : Nat) (header body : List Byte) (ect : Ect) : List Byte :=
  codeBytes k ++ berMin (3 + header.length + body.length + trailerSize ect) ++ pktHeader st ect ++ header ++ body

/-- PMsg(K, H, body, ect) with streamType `st`. -/
def pMsg (u : TrailerUnit) (k : Kind) (st : Nat) (header body : List Byte) (ect : Ect) : List Byte :=
  pMsgPre k st header body ect ++ trailerFn u ect (pMsgPre k st header body ect)

/-- A frame the unit originates: it is built in AGB from cell 0 on, read back from there, and appended to OUT behind
SEP_OUT. The cells of AGB keep it; no command reads them before it has written them (45_agent.md R158, R161, R166;
10_state.md R30; log 13). -/
def State.queueFrame (s : State) (x : List Byte) : Res State := do
  let agb := memWrite s.agb 0 x
  let built ← memRead agb 0 x.length
  return (s.setAgb agb).push .outb (sepBytes (sepOut s.cfg.role) ++ built)

/-! ### AG_HANDLE (45_agent.md §3) -/

/-- The state and the response an agent command has so far. -/
structure Progress where
  state : State
  result : List Nat
  dataOut : List Byte
  events : List Event

/-- `finish st` of an agent command. -/
def Progress.finish (p : Progress) (st : Status) : Res State :=
  .ok (Machine.finish st p.result p.dataOut p.events p.state)

def Progress.out (p : Progress) (v : Nat) : Progress := { p with result := p.result ++ [v] }

def Progress.outb (p : Progress) (bytes : List Byte) : Progress := { p with dataOut := p.dataOut ++ bytes }

def Progress.emit (p : Progress) (k : EventKind) (values : List Nat) (bytes : List Byte) : Progress :=
  { p with events := p.events ++ [⟨k, values, bytes⟩] }

/-- A dispatcher takes an Err(S) of a decoder as `finish S` (45_agent.md R160). -/
def Progress.orFinish {α : Type} (p : Progress) (r : Res α) (k : α → Res State) : Res State :=
  match r with
  | .ok a => k a
  | .error (.raised st) => p.finish st
  | .error .noValue => .error .noValue

/-- The private reader copy {0, 0, SCR_LEN} (45_agent.md R160). -/
def State.frameView (s : State) : Cursor := ⟨0, 0, s.scrLen⟩

/-- The bytes of a view. -/
def viewBytes (scr : Memory) (c : Cursor) : Res (List Byte) := memRead scr c.cur c.avail

/-- DecAddrSeq(p): the AddressPackets of a payload view, each with its fields and a copy of its payload
(45_agent.md R160, 43_decode.md R140). Each packet takes 3 bytes or more, so avail(p) turns are enough. -/
def decAddrSeq (scr : Memory) : Nat → Cursor → Res (List (List Nat × List Byte))
  | 0, _ => .ok []
  | fuel + 1, c =>
    if c.avail = 0 then .ok []
    else do
      let d ← decAddress scr c
      let payload ← viewBytes scr d.payload
      let rest ← decAddrSeq scr fuel d.after
      return ((d.fields.drop 1, payload) :: rest)

/-- One ADDRESS event per packet, in order (45_agent.md R157, R161). -/
def addressEvents (packets : List (List Nat × List Byte)) : List Event :=
  packets.map fun a => ⟨.address, a.1, a.2⟩

/-- UavDispatch on an ExchangePacket (45_agent.md R161). -/
def uavExchange (p : Progress) : Res State :=
  let s := p.state
  p.orFinish (decExchange s.scr s.frameView) fun d =>
    let st := d.fields.getD 2 0
    let seq := d.fields.getD 5 0
    let p := p.outb d.trailer
    if st ≠ 0 then p.finish .unexpectedStream
    else if seq ≠ s.cmdInCtr.toNat then do
      let p := (p.out s.cmdInCtr.toNat).out seq
      let t ← s.queueFrame (pMsg s.cfg.trailer .counterAdjustmentPacket 0 (berMin s.cmdInCtr.toNat) [] s.cfg.outEct)
      { p with state := t }.finish .sequenceMismatch
    else
      p.orFinish (decAddrSeq s.scr d.payload.avail d.payload) fun packets =>
        { p with state := s.advanceCmdIn, events := p.events ++ addressEvents packets }.finish .ok

/-- UavDispatch on a CounterAdjustmentPacket (45_agent.md R161). -/
def uavCounterAdj (p : Progress) : Res State :=
  let s := p.state
  p.orFinish (decCounter .counterAdjustmentPacket s.scr s.frameView) fun d =>
    { p.outb d.trailer with state := s.setCmdIn (d.fields.getD 4 0) }.finish .ok

/-- UavDispatch (45_agent.md R161). -/
def uavDispatch (code : Nat) (p : Progress) : Res State :=
  if code = codeOf .exchangePacket then uavExchange p
  else if code = codeOf .counterAdjustmentPacket then uavCounterAdj p
  else p.finish .invalidDataHeader

/-- What TmRescan emits for a sub-frame it took (45_agent.md R164). -/
def subFrameEvent (s : State) : Res Event := do
  let code ← s.frameCode
  let report (kind : EventKind) (r : Res Decoded) : Res Event :=
    match r with
    | .ok d => do
      let params ← viewBytes s.scr d.payload
      return ⟨kind, d.fields.drop 1, params⟩
    | .error (.raised st) => .ok ⟨.subframeError, [statusCode st], []⟩
    | .error .noValue => .error .noValue
  if code = codeOf .tmStatusMessage then report .tmStatus (decFour .tmStatusMessage s.scr s.frameView)
  else if code = codeOf .tmEventMessage then report .tmEvent (decFour .tmEventMessage s.scr s.frameView)
  else return ⟨.subframeError, [statusCode .invalidDataHeader], []⟩

/-- TmRescan: the telemetry sub-channel scan (45_agent.md R164). Each turn but the last consumes 2 bytes or more of TM,
so readable(TM) + 1 turns are enough. -/
def tmRescan : Nat → State → List Event → Res (State × List Event)
  | 0, s, events => .ok (s, events)
  | fuel + 1, s, events => do
    let (st, t) ← discover .tm sepTm s
    match st with
    | .noFrame => return (t, events)
    | .incomplete => return (t, events)
    | .ok => do
      let e ← subFrameEvent t
      tmRescan fuel t (events ++ [e])
    | other => tmRescan fuel t (events ++ [⟨.subframeError, [statusCode other], []⟩])

/-- GcDispatch on a telemetry ExchangePacket (45_agent.md R162). -/
def gcExchange (p : Progress) : Res State :=
  let s := p.state
  p.orFinish (decExchange s.scr s.frameView) fun d =>
    let st := d.fields.getD 2 0
    let seq := d.fields.getD 5 0
    let p := p.outb d.trailer
    if st ≠ 1 then p.finish .unexpectedStream
    else
      p.orFinish (decAddrSeq s.scr d.payload.avail d.payload) fun packets => do
        let p := if seq ≠ s.tmCtr.toNat then p.emit .tmSeqMismatch [s.tmCtr.toNat, seq] [] else p
        let t := packets.foldl (fun u a => u.push .tm a.2) s.advanceTm
        let (t, events) ← tmRescan (t.readable .tm + 1) t p.events
        { p with state := t, events := events }.finish .ok

/-- GcReceipt (45_agent.md R163). -/
def gcReceipt (p : Progress) : Res State :=
  let s := p.state
  p.orFinish (decCounter .receiptPacket s.scr s.frameView) fun d =>
    let st := d.fields.getD 2 0
    let last := d.fields.getD 4 0
    let p := p.outb d.trailer
    if st ≠ 0 then p.finish .unexpectedStream
    else
      ({ p with state := s.noteReceipt last }.emit .receipt
        [last, if s.receiptMatches last then 1 else 0] []).finish .ok

/-- GcDispatch on a CounterAdjustmentPacket (45_agent.md R162). -/
def gcCounterAdj (p : Progress) : Res State :=
  let s := p.state
  p.orFinish (decCounter .counterAdjustmentPacket s.scr s.frameView) fun d =>
    ((p.outb d.trailer).emit .counterAdj [d.fields.getD 4 0] []).finish .ok

/-- GcDispatch (45_agent.md R162). -/
def gcDispatch (code : Nat) (p : Progress) : Res State :=
  if code = codeOf .exchangePacket then gcExchange p
  else if code = codeOf .receiptPacket then gcReceipt p
  else if code = codeOf .counterAdjustmentPacket then gcCounterAdj p
  else p.finish .invalidDataHeader

/-- AG_HANDLE (45_agent.md R159). -/
def execAgHandle (s : State) : Out :=
  withAgent s <| conclude s do
    let (st, t) ← discover .inb (sepIn s.cfg.role) s
    if st ≠ .ok then return finish st [] [] [] t
    else do
      let code ← t.frameCode
      let p : Progress := ⟨t, [code, t.scrLen], [], []⟩
      match s.cfg.role with
      | .uav => uavDispatch code p
      | .gc => gcDispatch code p

/-! ### The send commands (45_agent.md §4) -/

/-- The streamType an agent sends: 0 on a Gc, 1 on a Uav (45_agent.md R166). -/
def sendStream : Role → Nat
  | .gc => 0
  | .uav => 1

/-- X of Send: the ExchangePacket around one AddressPacket around the payload (45_agent.md R166). -/
def sendPacket (s : State) (ws : Nat) (address payload : List Byte) : List Byte :=
  pMsg s.cfg.trailer .exchangePacket (sendStream s.cfg.role) (berMin ws ++ berMin s.outCtr.toNat)
    (dMsg .addressPacket address payload) s.cfg.outEct

/-- Send(at, F, payload), with the AddressPacket's fields as bytes (45_agent.md R166). -/
def send (ws : Nat) (address payload : List Byte) (s : State) : Out :=
  withAgent s <| conclude s <|
    if ws > maxWindow then .error (.raised .invalidWindowSize)
    else
      let x := sendPacket s ws address payload
      if x.length > s.cfg.maxPacket then .error (.raised .frameTooLarge)
      else do
        let t ← s.queueFrame x
        return finish .ok [s.outCtr.toNat, x.length] [] [] t.noteSent

/-- AG_SEND_NETWORK: addressType NetworkAddress = 4 (45_agent.md R167). -/
def execAgSendNetwork (ws src sc dc da tst ts : U64) (payload : List Byte) (s : State) : Out :=
  send ws.toNat (addressHeader 4 src.toNat sc.toNat dc.toNat da.toNat 0 0 tst.toNat ts.toNat) payload s

/-- AG_SEND_GROUP: addressType GroupAddress = 6 (45_agent.md R168). -/
def execAgSendGroup (ws src sc dc da sg dg tst ts : U64) (payload : List Byte) (s : State) : Out :=
  send ws.toNat
    (addressHeader 6 src.toNat sc.toNat dc.toNat da.toNat sg.toNat dg.toNat tst.toNat ts.toNat) payload s

/-- AG_SEND_MULTICAST: addressType Broadcast = 3 (45_agent.md R169). -/
def execAgSendMulticast (ws src sc dc tst ts : U64) (payload : List Byte) (s : State) : Out :=
  send ws.toNat (addressHeader 3 src.toNat sc.toNat dc.toNat 0 0 0 tst.toNat ts.toNat) payload s

end Sys2Proof.Machine
end

