-- ==== Sys2Proof/Machine/Cursor.lean ====
section
/-! DEFINITION. Cursor set-up, fixed-width fields, BER values, slices and bytes (40_cursor_ber.md §2 to §6). -/

namespace Sys2Proof.Machine

/-- CUR_SET (40_cursor_ber.md R85). -/
def execCurSet (t : CurTarget) (start stop : U64) (s : State) : Out :=
  let view : Cursor := ⟨start.toNat, start.toNat, stop.toNat⟩
  match t with
  | .rd c =>
    conclude s <|
      if start.toNat ≤ stop.toNat ∧ stop.toNat ≤ s.scrLen then .ok (finish .ok [] [] [] (s.setReader c view))
      else .error (.raised .outOfRange)
  | .w0 =>
    conclude s <|
      if s.fstack ≠ [] then .error (.raised .frameStackError)
      else if start.toNat ≤ stop.toNat ∧ stop.toNat ≤ s.cfg.asmSize then
        .ok (finish .ok [] [] [] { s with w0 := view })
      else .error (.raised .outOfRange)

/-- SCR_LOAD (40_cursor_ber.md R86); DATA longer than MAX_PACKET is an illegal command (30_encoding.md R55). -/
def execScrLoad (data : List Byte) (s : State) : Out :=
  if data.length > s.cfg.maxPacket then .next (raise .illegalCommand s)
  else .next (finish .ok [] [] [] (s.loadScr data))

/-- The template of the fixed-width reads (40_cursor_ber.md R87). -/
def readFixed (n : Nat) (value : List Byte → Nat) (c : RdSel) (s : State) : Out :=
  conclude s do
    let (bytes, c') ← readN s.scr (s.reader c) n
    return finish .ok [value bytes] [] [] (s.setReader c c')

/-- RD_U8 (40_cursor_ber.md R88). -/
def execRdU8 (c : RdSel) (s : State) : Out := readFixed 1 beNat c s

/-- RD_U16BE (40_cursor_ber.md R89). -/
def execRdU16be (c : RdSel) (s : State) : Out := readFixed 2 beNat c s

/-- RD_U16LE (40_cursor_ber.md R90). -/
def execRdU16le (c : RdSel) (s : State) : Out := readFixed 2 leNat c s

/-- RD_U32BE (40_cursor_ber.md R91). -/
def execRdU32be (c : RdSel) (s : State) : Out := readFixed 4 beNat c s

/-- RD_U32LE (40_cursor_ber.md R92). -/
def execRdU32le (c : RdSel) (s : State) : Out := readFixed 4 leNat c s

/-- RD_U64BE (40_cursor_ber.md R93). -/
def execRdU64be (c : RdSel) (s : State) : Out := readFixed 8 beNat c s

/-- RD_U64LE (40_cursor_ber.md R94). -/
def execRdU64le (c : RdSel) (s : State) : Out := readFixed 8 leNat c s

/-- RD_BER (40_cursor_ber.md R95). -/
def execRdBer (c : RdSel) (s : State) : Out :=
  conclude s do
    let (v, c') ← readBer s.scr (s.reader c)
    return finish .ok [v] [] [] (s.setReader c c')

/-- RD_SLICE: the destination is written last (40_cursor_ber.md R96). -/
def execRdSlice (src dst : RdSel) (len : U64) (s : State) : Out :=
  let c := s.reader src
  conclude s <|
    if len.toNat > c.avail then .error (.raised .unexpectedEndOfStream)
    else
      .ok (finish .ok [] [] []
        ((s.setReader src { c with cur := c.cur + len.toNat }).setReader dst ⟨c.cur, c.cur, c.cur + len.toNat⟩))

/-- RD_BYTES (40_cursor_ber.md R97). -/
def execRdBytes (c : RdSel) (n : U64) (s : State) : Out :=
  conclude s do
    let (bytes, c') ← readN s.scr (s.reader c) n.toNat
    return finish .ok [] bytes [] (s.setReader c c')

/-- The template of the writer commands (40_cursor_ber.md R98): the bytes go through W0. -/
def writeThrough (bytes : List Byte) (s : State) : Out :=
  conclude s do
    let w ← writeN s.writer bytes
    return finish .ok [] [] [] (s.setWriter w)

/-- WR_U8 (40_cursor_ber.md R99). -/
def execWrU8 (value : BitVec 8) (s : State) : Out := writeThrough (toBE value.toNat 1) s

/-- WR_U16BE (40_cursor_ber.md R100). -/
def execWrU16be (value : BitVec 16) (s : State) : Out := writeThrough (toBE value.toNat 2) s

/-- WR_U16LE (40_cursor_ber.md R101). -/
def execWrU16le (value : BitVec 16) (s : State) : Out := writeThrough (toLE value.toNat 2) s

/-- WR_U32BE (40_cursor_ber.md R102). -/
def execWrU32be (value : BitVec 32) (s : State) : Out := writeThrough (toBE value.toNat 4) s

/-- WR_U32LE (40_cursor_ber.md R103). -/
def execWrU32le (value : BitVec 32) (s : State) : Out := writeThrough (toLE value.toNat 4) s

/-- WR_U64BE (40_cursor_ber.md R104). -/
def execWrU64be (value : U64) (s : State) : Out := writeThrough (toBE value.toNat 8) s

/-- WR_U64LE (40_cursor_ber.md R105). -/
def execWrU64le (value : U64) (s : State) : Out := writeThrough (toLE value.toNat 8) s

/-- WR_BER (40_cursor_ber.md R106). -/
def execWrBer (value : U64) (s : State) : Out :=
  conclude s do
    let w ← writeBer s.writer value.toNat
    return finish .ok [] [] [] (s.setWriter w)

/-- WR_BYTES (40_cursor_ber.md R107). -/
def execWrBytes (data : List Byte) (s : State) : Out := writeThrough data s

/-- ASM_TAKE (40_cursor_ber.md R108). -/
def execAsmTake (s : State) : Out :=
  conclude s <|
    if s.fstack ≠ [] then .error (.raised .frameStackError)
    else do
      let bytes ← s.assembled
      return finish .ok [] bytes [] s.rewind

end Sys2Proof.Machine
end

