-- ==== Sys2Proof/Machine/RingCommands.lean ====
section
/-! DEFINITION. The ring-buffer commands (41_ring.md §2). -/

namespace Sys2Proof.Machine

/-- RB_WRITE (41_ring.md R112). -/
def execRbWrite (r : RingSel) (data : List Byte) (s : State) : Out :=
  withRing s r <| .next (finish .ok [] [] [] (s.push r data))

/-- RB_PEEK (41_ring.md R113). -/
def execRbPeek (r : RingSel) (size offset : U64) (s : State) : Out :=
  withRing s r <| conclude s do
    let bytes ← ringPeek (s.cap r) size.toNat offset.toNat (s.ring r)
    return finish .ok [] bytes [] s

/-- RB_READ (41_ring.md R114). -/
def execRbRead (r : RingSel) (size : U64) (s : State) : Out :=
  withRing s r <| conclude s do
    let bytes ← ringPeek (s.cap r) size.toNat 0 (s.ring r)
    let rb ← ringErase (s.cap r) size.toNat (s.ring r)
    return finish .ok [] bytes [] (s.setRing r rb)

/-- RB_ERASE (41_ring.md R115). -/
def execRbErase (r : RingSel) (size : U64) (s : State) : Out :=
  withRing s r <| conclude s do
    let rb ← ringErase (s.cap r) size.toNat (s.ring r)
    return finish .ok [] [] [] (s.setRing r rb)

/-- RB_STATUS (41_ring.md R116). -/
def execRbStatus (r : RingSel) (s : State) : Out :=
  withRing s r <| .next (finish .ok [s.readable r, (s.ring r).free] [] [] s)

/-- ASM_COMMIT (41_ring.md R117). -/
def execAsmCommit (r : RingSel) (s : State) : Out :=
  withRing s r <| conclude s <|
    if s.fstack ≠ [] then .error (.raised .frameStackError)
    else do
      let bytes ← s.assembled
      return finish .ok [] [] [] (s.push r bytes).rewind

end Sys2Proof.Machine
end

