-- ==== Sys2Proof/Machine/System.lean ====
section
/-! DEFINITION. The system command REG_RD and the register map (46_system.md, 10_state.md R31). -/

namespace Sys2Proof.Machine

/-- CFG_ROLE (10_state.md R31). -/
def roleCode : Role → Nat
  | .uav => 0
  | .gc => 1

/-- A register that a Gc has and a Uav lacks, and the other way round (10_state.md R31). -/
def onGc (s : State) (v : Nat) : Option Nat :=
  match s.cfg.role with
  | .gc => some v
  | .uav => none

def onUav (s : State) (v : Nat) : Option Nat :=
  match s.cfg.role with
  | .uav => some v
  | .gc => none

/-- A register of the agent unit (10_state.md R27, 00_scope.md R4). -/
def onAgent (s : State) (v : Option Nat) : Option Nat := if s.cfg.hasAgent then v else none

/-- The register map: the value at an index, none for an index the instance does not have (10_state.md R31). -/
def State.reg (s : State) (index : BitVec 8) : Option Nat :=
  match index.toNat with
  | 0x00 => some s.status.toNat
  | 0x01 => some (roleCode s.cfg.role)
  | 0x02 => some s.cfg.maxPacket
  | 0x03 => some (ectCode s.cfg.outEct)
  | 0x04 => some (sepIn s.cfg.role)
  | 0x05 => some (sepOut s.cfg.role)
  | 0x06 => onGc s sepTm
  | 0x10 => some (s.cap .inb)
  | 0x11 => some (s.cap .outb)
  | 0x12 => onGc s (s.cap .tm)
  | 0x14 => some (s.readable .inb)
  | 0x15 => some (s.readable .outb)
  | 0x16 => onGc s (s.readable .tm)
  | 0x18 => some s.inRing.free
  | 0x19 => some s.outRing.free
  | 0x1A => onGc s s.tmRing.free
  | 0x1C => some s.inRing.rd
  | 0x1D => some s.outRing.rd
  | 0x1E => onGc s s.tmRing.rd
  | 0x20 => some s.inRing.wr
  | 0x21 => some s.outRing.wr
  | 0x22 => onGc s s.tmRing.wr
  | 0x30 => some s.scrLen
  | 0x40 => some s.r0.start
  | 0x41 => some s.r0.cur
  | 0x42 => some s.r0.stop
  | 0x44 => some s.r1.start
  | 0x45 => some s.r1.cur
  | 0x46 => some s.r1.stop
  | 0x48 => some s.r2.start
  | 0x49 => some s.r2.cur
  | 0x4A => some s.r2.stop
  | 0x4C => some s.r3.start
  | 0x4D => some s.r3.cur
  | 0x4E => some s.r3.stop
  | 0x50 => some s.w0.start
  | 0x51 => some s.w0.cur
  | 0x52 => some s.w0.stop
  | 0x58 => some s.fstack.length
  | 0x60 => onAgent s (onUav s s.cmdInCtr.toNat)
  | 0x61 => onAgent s (onGc s s.tmCtr.toNat)
  | 0x62 => onAgent s (some s.outCtr.toNat)
  | 0x63 => onAgent s (some s.lastSent.toNat)
  | 0x64 => onAgent s (some s.agentFlags)
  | _ => none

/-- REG_RD (46_system.md R173). STATUS is read before the command writes its own. -/
def execRegRd (index : BitVec 8) (s : State) : Out :=
  match s.reg index with
  | none => .next (raise .illegalCommand s)
  | some v => .next (finish .ok [v] [] [] s)

end Sys2Proof.Machine
end

