-- ==== Sys2Proof/Machine/Dispatch.lean ====
section
/-! DEFINITION. The meaning of every command: one arm per constructor of `Instr`. -/

namespace Sys2Proof.Machine

def exec (i : Instr) (s : State) : Host.Outcome State Fault Refusal :=
  match i with
  | .regRd index => Sys2Proof.Machine.execRegRd index s
  | .rbWrite r data => Sys2Proof.Machine.execRbWrite r data s
  | .rbPeek r size offset => Sys2Proof.Machine.execRbPeek r size offset s
  | .rbRead r size => Sys2Proof.Machine.execRbRead r size s
  | .rbErase r size => Sys2Proof.Machine.execRbErase r size s
  | .rbStatus r => Sys2Proof.Machine.execRbStatus r s
  | .curSet t start stop => Sys2Proof.Machine.execCurSet t start stop s
  | .scrLoad data => Sys2Proof.Machine.execScrLoad data s
  | .rdU8 c => Sys2Proof.Machine.execRdU8 c s
  | .rdU16be c => Sys2Proof.Machine.execRdU16be c s
  | .rdU16le c => Sys2Proof.Machine.execRdU16le c s
  | .rdU32be c => Sys2Proof.Machine.execRdU32be c s
  | .rdU32le c => Sys2Proof.Machine.execRdU32le c s
  | .rdU64be c => Sys2Proof.Machine.execRdU64be c s
  | .rdU64le c => Sys2Proof.Machine.execRdU64le c s
  | .rdBer c => Sys2Proof.Machine.execRdBer c s
  | .rdSlice src dst len => Sys2Proof.Machine.execRdSlice src dst len s
  | .rdBytes c n => Sys2Proof.Machine.execRdBytes c n s
  | .wrU8 value => Sys2Proof.Machine.execWrU8 value s
  | .wrU16be value => Sys2Proof.Machine.execWrU16be value s
  | .wrU16le value => Sys2Proof.Machine.execWrU16le value s
  | .wrU32be value => Sys2Proof.Machine.execWrU32be value s
  | .wrU32le value => Sys2Proof.Machine.execWrU32le value s
  | .wrU64be value => Sys2Proof.Machine.execWrU64be value s
  | .wrU64le value => Sys2Proof.Machine.execWrU64le value s
  | .wrBer value => Sys2Proof.Machine.execWrBer value s
  | .wrBytes data => Sys2Proof.Machine.execWrBytes data s
  | .asmTake => Sys2Proof.Machine.execAsmTake s
  | .asmCommit r => Sys2Proof.Machine.execAsmCommit r s
  | .discover r => Sys2Proof.Machine.execDiscover r s
  | .decCmdmsg src dst => Sys2Proof.Machine.execDecCmdmsg src dst s
  | .decCmdresult src dst => Sys2Proof.Machine.execDecCmdresult src dst s
  | .decTmstatus src dst => Sys2Proof.Machine.execDecTmstatus src dst s
  | .decTmevent src dst => Sys2Proof.Machine.execDecTmevent src dst s
  | .decAddress src dst => Sys2Proof.Machine.execDecAddress src dst s
  | .decExchange src dst => Sys2Proof.Machine.execDecExchange src dst s
  | .decCounteradj src => Sys2Proof.Machine.execDecCounteradj src s
  | .decReceipt src => Sys2Proof.Machine.execDecReceipt src s
  | .beginCmdmsg => Sys2Proof.Machine.execBeginCmdmsg s
  | .beginCmdresult => Sys2Proof.Machine.execBeginCmdresult s
  | .beginTmstatus seg max comp msg => Sys2Proof.Machine.execBeginTmstatus seg max comp msg s
  | .beginTmevent comp msg event ts => Sys2Proof.Machine.execBeginTmevent comp msg event ts s
  | .beginAddress at_ src sc dc da sg dg tst ts => Sys2Proof.Machine.execBeginAddress at_ src sc dc da sg dg tst ts s
  | .beginExchange st ect ws seq => Sys2Proof.Machine.execBeginExchange st ect ws seq s
  | .beginCounteradj st ect ctr => Sys2Proof.Machine.execBeginCounteradj st ect ctr s
  | .beginReceipt st ect last => Sys2Proof.Machine.execBeginReceipt st ect last s
  | .endFrame => Sys2Proof.Machine.execEndFrame s
  | .agHandle => Sys2Proof.Machine.execAgHandle s
  | .agSendNetwork ws src sc dc da tst ts payload => Sys2Proof.Machine.execAgSendNetwork ws src sc dc da tst ts payload s
  | .agSendGroup ws src sc dc da sg dg tst ts payload => Sys2Proof.Machine.execAgSendGroup ws src sc dc da sg dg tst ts payload s
  | .agSendMulticast ws src sc dc tst ts payload => Sys2Proof.Machine.execAgSendMulticast ws src sc dc tst ts payload s

end Sys2Proof.Machine
end

