-- ==== Sys2Proof/Machine/Issue.lean ====
section
/-! DEFINITION. One grant of the arbiter: which command runs next and how it is issued (20_memory.md §6). -/

namespace Sys2Proof.Machine

/-- A granted command: decoded, checked against its port and run. One that does not decode, or that its port may not
issue, raises IllegalCommand (60_exceptions.md R179, 20_memory.md R46). -/
def issue (p : Port) (c : Command) (s : State) : Out :=
  match decode c with
  | .error _ => .next (raise .illegalCommand s)
  | .ok i => if portAllows p i then exec i s else .next (raise .illegalCommand s)

/-- What the block does next: the reset input first, between two commands (70_reset_and_hazards.md R192); then the command
the arbiter grants (20_memory.md R47); with none pending it is idle and holds its state (60_exceptions.md R190). -/
def tick (s : State) : Out :=
  if s.resetIn then .next s.applyReset
  else
    match s.grant with
    | none => .next s
    | some (p, c, t) => issue p c t

/-- A command placed so that the very next grant takes it: first at the command port, nothing pending at the transport
port, no reset pending. -/
def State.withNextCommand (s : State) (c : Command) : State :=
  { s with cmdQ := c :: s.cmdQ, tpQ := [], resetIn := false }

end Sys2Proof.Machine
end

