-- ==== Sys2Proof/Machine/Step.lean ====
section
/-! DEFINITION. One step of the block: one whole command (00_scope.md R6, 20_memory.md R42). -/

namespace Sys2Proof.Machine

/-- One step. -/
def step (s : State) : Host.Outcome State Fault Refusal := tick s

/-- The state whose next step runs the instruction with word `w` and zero operands (log 5). -/
def State.withFetchWord (s : State) (nbits w : Nat) : State := s.withNextCommand (commandOfTableWord nbits w)

end Sys2Proof.Machine
end

