-- ==== Sys2Proof/Safety.lean ====
section
/-! DEFINITION. The terms statements are made in: what a buffer holds, the wire forms of 30_encoding.md as relations on
byte lists, the table of legal commands, the invariant of State, and the shape of a safe step. -/

namespace Sys2Proof.Machine

/-! ### Buffers -/

/-- `bytes` stand in the cells from `i` on. -/
def Memory.Holds (m : Memory) (i : Nat) (bytes : List Byte) : Prop :=
  ∀ k, k < bytes.length → m.read (i + k) = bytes[k]?

/-- `m'` is `m` with `bytes` stored from cell `i` on, every other cell reading as before (00_scope.md §7, MemWrite). -/
def Memory.Stores (m m' : Memory) (i : Nat) (bytes : List Byte) : Prop :=
  ∀ a, m'.read a = if i ≤ a ∧ a < i + bytes.length then bytes[a - i]? else m.read a

/-- The readable bytes of a ring, oldest first (10_state.md R20). -/
def Ring.contents (cap : Nat) (rb : Ring) : List Byte :=
  (List.range (rb.readable cap)).map fun k => (rb.data.read ((rb.rd + k) % cap)).getD 0

/-- The readable bytes of ring `r` of a state. -/
def State.contents (s : State) (r : RingSel) : List Byte := (s.ring r).contents (s.cap r)

/-! ### Wire forms -/

/-- `bytes` is a BER value, in any form a decoder accepts, and `v` its value (30_encoding.md R60). -/
def BerForm (bytes : List Byte) (v : Nat) : Prop :=
  (∃ h : Byte, bytes = [h] ∧ h.toNat < 128 ∧ v = h.toNat) ∨
  (∃ (h : Byte) (vals : List Byte), bytes = h :: vals ∧ 1 ≤ vals.length ∧ vals.length ≤ 8 ∧
    h.toNat = 128 + vals.length ∧ v = Nat.ofDigits 256 (vals.map (·.toNat)))

/-- `bytes` is a sequence of BER values with the values `vs` (30_encoding.md R64). -/
def FieldsForm : List Byte → List Nat → Prop
  | bytes, [] => bytes = []
  | bytes, v :: vs => ∃ b rest, bytes = b ++ rest ∧ BerForm b v ∧ FieldsForm rest vs

/-- The code of a message kind as it stands on the wire (30_encoding.md R62). -/
def wireCode : Kind → List Byte
  | .commandMessage => [0x0C, 0x65]
  | .commandResult => [0x0C, 0x66]
  | .tmStatusMessage => [0x1C, 0x72]
  | .tmEventMessage => [0x0C, 0x78]
  | .addressPacket => [0xAC, 0x5E]
  | .exchangePacket => [0x6C, 0x5A]
  | .counterAdjustmentPacket => [0x6C, 0x5B]
  | .receiptPacket => [0x3C, 0x5C]

/-- The separator of a ring as it stands in the byte stream (00_scope.md R11, 20_memory.md R38). -/
def wireSep : Role → RingSel → List Byte
  | .uav, .inb => [0x4F, 0x07]
  | .uav, .outb => [0xAC, 0xAC]
  | .gc, .inb => [0xAC, 0xAC]
  | .gc, .outb => [0x4F, 0x07]
  | _, .tm => [0x04, 0x3D]

/-- `msg` is a message of kind `k` whose body is `body` (30_encoding.md R65, R66). -/
def MsgForm (k : Kind) (body msg : List Byte) : Prop :=
  ∃ len, BerForm len body.length ∧ msg = wireCode k ++ len ++ body

/-- The address fields of an AddressPacket that its type carries, in wire order (30_encoding.md R71). -/
def addressFields (at_ src sc dc da sg dg tst ts : Nat) : List Nat :=
  [at_, src, sc, dc] ++ (if at_ = 4 ∨ at_ = 6 then [da] else []) ++ (if at_ = 6 then [sg, dg] else []) ++ [tst, ts]

/-- `msg` is an AddressPacket with payload `payload`; `vals` are its nine address values as they are reported, an absent
field as 0 (30_encoding.md R71, 43_decode.md R136). -/
def AddressForm (msg : List Byte) (vals : List Nat) (payload : List Byte) : Prop :=
  ∃ (at_ src sc dc da sg dg tst ts : Nat) (header : List Byte),
    (at_ = 3 ∨ at_ = 4 ∨ at_ = 6) ∧ (at_ = 3 → da = 0) ∧ (at_ ≠ 6 → sg = 0 ∧ dg = 0) ∧
    vals = [at_, src, sc, dc, da, sg, dg, tst, ts] ∧
    FieldsForm header (addressFields at_ src sc dc da sg dg tst ts) ∧
    MsgForm .addressPacket (header ++ payload) msg

/-- `msg` is a PacketHeader message of kind `k` with reserved, streamType and errorControlType `rsv`, `st`, `ect`, the
kind-specific values `vals`, then `payload` and the trailer (30_encoding.md R66, R72 to R74). -/
def PacketForm (k : Kind) (rsv st : Nat) (ect : Ect) (vals : List Nat) (payload trailer msg : List Byte) : Prop :=
  ∃ header, st ≤ 1 ∧ FieldsForm header ([rsv, st, ectCode ect] ++ vals) ∧ trailer.length = trailerSize ect ∧
    MsgForm k (header ++ payload ++ trailer) msg

/-! ### What a decoder rejects (43_decode.md R128 to R139) -/

/-- `bytes` does not start with a whole BER value, and `e` says why (40_cursor_ber.md R80). -/
def BadBer (bytes : List Byte) (e : Status) : Prop :=
  (bytes = [] ∧ e = .unexpectedEndOfStream) ∨
  ∃ (h : Byte) (rest : List Byte), bytes = h :: rest ∧
    (((h.toNat = 0x80 ∨ 0x89 ≤ h.toNat) ∧ e = .invalidBerLength) ∨
     (0x81 ≤ h.toNat ∧ h.toNat ≤ 0x88 ∧ rest.length < h.toNat - 0x80 ∧ e = .unexpectedEndOfStream))

/-- What a decoder does with a value it has read: nothing, or the status it rejects it with (43_decode.md R131). -/
abbrev FieldCheck := Nat → Option Status

def anyValue : FieldCheck := fun _ => none

def inRange (limit : Nat) (e : Status) : FieldCheck := fun v => if v ≤ limit then none else some e

def oneOf (legal : List Nat) (e : Status) : FieldCheck := fun v => if v ∈ legal then none else some e

/-- Reading one BER value per check from `bytes`, each checked as soon as it is read, fails first with `e`: the bytes left
do not start with a BER value, or its check rejects it (43_decode.md R131). -/
def FieldsFail : List FieldCheck → List Byte → Status → Prop
  | [], _, _ => False
  | check :: checks, bytes, e =>
    BadBer bytes e ∨
    ∃ field v rest, bytes = field ++ rest ∧ BerForm field v ∧
      (check v = some e ∨ (check v = none ∧ FieldsFail checks rest e))

/-- The body of an AddressPacket fails: its type, or one of the 5, 6 or 8 fields that follow a type 3, 4 or 6
(43_decode.md R136). -/
def AddressFails (body : List Byte) (e : Status) : Prop :=
  FieldsFail [oneOf [3, 4, 6] .invalidAddressType] body e ∨
  ∃ field at_ rest, body = field ++ rest ∧ BerForm field at_ ∧
    ((at_ = 3 ∧ FieldsFail (List.replicate 5 anyValue) rest e) ∨
     (at_ = 4 ∧ FieldsFail (List.replicate 6 anyValue) rest e) ∨
     (at_ = 6 ∧ FieldsFail (List.replicate 8 anyValue) rest e))

/-- The body of a PacketHeader message fails: a header field, a body shorter than its trailer, or one of the fields of the
kind, read from what stands before the trailer (43_decode.md R129). -/
def PacketFails (checks : List FieldCheck) (body : List Byte) (e : Status) : Prop :=
  FieldsFail [anyValue, oneOf [0, 1] .invalidStreamType, oneOf [1, 2] .invalidErrorControlType] body e ∨
  ∃ (header : List Byte) (rsv st : Nat) (ect : Ect) (tail : List Byte), body = header ++ tail ∧ st ≤ 1 ∧
    FieldsForm header [rsv, st, ectCode ect] ∧
    ((tail.length < trailerSize ect ∧ e = .unexpectedEndOfStream) ∨
     ∃ fields trailer, tail = fields ++ trailer ∧ trailer.length = trailerSize ect ∧ FieldsFail checks fields e)

/-- The body of a message of kind `k` fails with `e` (43_decode.md R132 to R139). -/
def BodyFails : Kind → List Byte → Status → Prop
  | .commandMessage => fun _ _ => False
  | .commandResult => fun _ _ => False
  | .tmStatusMessage => FieldsFail (List.replicate 4 anyValue)
  | .tmEventMessage => FieldsFail (List.replicate 4 anyValue)
  | .addressPacket => AddressFails
  | .exchangePacket => PacketFails [inRange 32767 .invalidWindowSize, inRange 65535 .invalidSequenceCounter]
  | .counterAdjustmentPacket => PacketFails [inRange 65535 .invalidSequenceCounter]
  | .receiptPacket => PacketFails [inRange 65535 .invalidSequenceCounter]

/-- Decoding a message of kind `k` from the view `bytes` fails first with `e`: fewer than two bytes, another code, no BER
value behind the code, fewer bytes left than the length declares, or the body (43_decode.md R128, R131). -/
def MsgFails (k : Kind) (bytes : List Byte) (e : Status) : Prop :=
  (bytes.length < 2 ∧ e = .unexpectedEndOfStream) ∨
  (∃ b0 b1 rest, bytes = b0 :: b1 :: rest ∧ [b0, b1] ≠ wireCode k ∧ e = .invalidDataHeader) ∨
  (∃ rest, bytes = wireCode k ++ rest ∧ BadBer rest e) ∨
  (∃ len n more, bytes = wireCode k ++ len ++ more ∧ BerForm len n ∧ more.length < n ∧ e = .unexpectedEndOfStream) ∨
  (∃ msg body more, bytes = msg ++ more ∧ MsgForm k body msg ∧ BodyFails k body e)

/-! ### Frames in a stream -/

/-- `msg` is a telemetry sub-frame and `event` what the ground agent reports of it (30_encoding.md R69, R70, R76;
45_agent.md R157, R164). -/
def SubFrameForm (msg : List Byte) (event : Event) : Prop :=
  ∃ (a b c d : Nat) (header params : List Byte), FieldsForm header [a, b, c, d] ∧
    ((MsgForm .tmStatusMessage (header ++ params) msg ∧ event = ⟨.tmStatus, [a, b, c, d], params⟩) ∨
     (MsgForm .tmEventMessage (header ++ params) msg ∧ event = ⟨.tmEvent, [a, b, c, d], params⟩))

/-- `stream` is `garbage`, the first separator in it, and `rest` (42_framer.md R122 step 1). -/
def FirstSep (sep stream garbage rest : List Byte) : Prop :=
  stream = garbage ++ sep ++ rest ∧ ∀ k, k < garbage.length → (stream.drop k).take 2 ≠ sep

/-- `stream` holds no separator. -/
def NoSep (sep stream : List Byte) : Prop := ∀ k, (stream.drop k).take 2 ≠ sep

/-- `frame` is a whole frame: a code, a length in any BER form, and as many body bytes as it declares (42_framer.md
R122). -/
def WholeFrame (frame : List Byte) : Prop :=
  ∃ c0 c1 len body, frame = [c0, c1] ++ len ++ body ∧ BerForm len body.length

/-- What stands behind a separator is not a whole frame yet: fewer than 3 header bytes, a long length not yet there, or a
body not yet there (42_framer.md R122 steps 2 and 4). -/
def Partial (maxPacket : Nat) (rest : List Byte) : Prop :=
  rest.length < 3 ∨
  (∃ c0 c1 h more, rest = c0 :: c1 :: h :: more ∧ 0x81 ≤ h.toNat ∧ h.toNat ≤ 0x88 ∧ more.length < h.toNat - 0x80) ∨
  (∃ c0 c1 len more n, rest = [c0, c1] ++ len ++ more ∧ BerForm len n ∧ 2 + len.length + n ≤ maxPacket ∧ more.length < n)

/-- What the ground agent reports of a sub-frame it took: its numbers and parameters, the status of the decoder that
rejected its body, or InvalidDataHeader = 4 for another code (45_agent.md R157, R164). -/
def SubFrameReport (frame : List Byte) (event : Event) : Prop :=
  SubFrameForm frame event ∨
  (∃ k body e, (k = .tmStatusMessage ∨ k = .tmEventMessage) ∧ MsgForm k body frame ∧ BodyFails k body e ∧
    event = ⟨.subframeError, [statusCode e], []⟩) ∨
  (∃ c0 c1 rest, frame = c0 :: c1 :: rest ∧ [c0, c1] ≠ wireCode .tmStatusMessage ∧ [c0, c1] ≠ wireCode .tmEventMessage ∧
    event = ⟨.subframeError, [4], []⟩)

/-- TmRescan over the stream that TM holds takes `frames`, reports `events` and leaves `left` in TM (45_agent.md R164): it
ends with at most the last byte of a stream without a separator, or with the separator and a frame not yet whole; a bad
length octet (InvalidBerLength = 3) and a frame above MAX_PACKET (FrameTooLarge = 13) are reported, and it goes on behind
the separator; a whole frame is taken and reported, and it goes on behind it. -/
inductive TmScan (maxPacket : Nat) : List Byte → List (List Byte) → List Event → List Byte → Prop where
  | noSep {stream : List Byte} (h : NoSep [0x04, 0x3D] stream) :
      TmScan maxPacket stream [] [] (stream.drop (stream.length - 1))
  | incomplete {stream garbage rest : List Byte} (h : FirstSep [0x04, 0x3D] stream garbage rest)
      (hp : Partial maxPacket rest) : TmScan maxPacket stream [] [] ([0x04, 0x3D] ++ rest)
  | badLength {stream garbage rest more left : List Byte} {c0 c1 h : Byte} {frames : List (List Byte)}
      {events : List Event} (hs : FirstSep [0x04, 0x3D] stream garbage rest) (he : rest = c0 :: c1 :: h :: more)
      (hh : h.toNat = 0x80 ∨ 0x89 ≤ h.toNat) (next : TmScan maxPacket rest frames events left) :
      TmScan maxPacket stream frames (⟨.subframeError, [3], []⟩ :: events) left
  | tooLarge {stream garbage rest len more left : List Byte} {c0 c1 : Byte} {n : Nat} {frames : List (List Byte)}
      {events : List Event} (hs : FirstSep [0x04, 0x3D] stream garbage rest) (he : rest = [c0, c1] ++ len ++ more)
      (hb : BerForm len n) (hn : maxPacket < 2 + len.length + n) (next : TmScan maxPacket rest frames events left) :
      TmScan maxPacket stream frames (⟨.subframeError, [13], []⟩ :: events) left
  | frame {stream garbage frame rest left : List Byte} {event : Event} {frames : List (List Byte)} {events : List Event}
      (hs : FirstSep [0x04, 0x3D] stream garbage (frame ++ rest)) (hf : WholeFrame frame)
      (hm : frame.length ≤ maxPacket) (hr : SubFrameReport frame event) (next : TmScan maxPacket rest frames events left) :
      TmScan maxPacket stream (frame :: frames) (event :: events) left

/-- The row of the event table that an event meets: its kind number, the role of the agent that emits it, how many values
it carries, and whether it carries bytes (45_agent.md R157). -/
def EventForm (role : Role) (event : Event) : Prop :=
  (eventCode event.kind = 1 ∧ role = .uav ∧ event.values.length = 9) ∨
  (eventCode event.kind = 2 ∧ role = .gc ∧ event.values.length = 4) ∨
  (eventCode event.kind = 3 ∧ role = .gc ∧ event.values.length = 4) ∨
  (eventCode event.kind = 4 ∧ role = .gc ∧ event.values.length = 2 ∧ event.bytes = []) ∨
  (eventCode event.kind = 5 ∧ role = .gc ∧ (∃ last matched, event.values = [last, matched] ∧ matched ≤ 1) ∧
    event.bytes = []) ∨
  (eventCode event.kind = 6 ∧ role = .gc ∧ event.values.length = 1 ∧ event.bytes = []) ∨
  (eventCode event.kind = 7 ∧ role = .gc ∧ (∃ code, event.values = [code] ∧ 1 ≤ code ∧ code ≤ 17) ∧ event.bytes = [])

/-- The frame a send puts behind the separator: the ExchangePacket around the AddressPacket with the address values
`vals`, around the payload (45_agent.md R158, R166; 30_encoding.md R66, R71, R72). -/
def sentFrame (s : State) (ws : Nat) (vals : List Nat) (payload : List Byte) : List Byte :=
  let header := (vals.map berMin).flatten
  let address := [0xAC, 0x5E] ++ berMin (header.length + payload.length) ++ header ++ payload
  let st : Byte := match s.cfg.role with
    | .gc => 0
    | .uav => 1
  let ect : Byte := match s.cfg.outEct with
    | .crc16 => 1
    | .reedSolomon => 2
  let t := match s.cfg.outEct with
    | .crc16 => 2
    | .reedSolomon => 4
  let body := [0x01, st, ect] ++ berMin ws ++ berMin s.outCtr.toNat ++ address
  let pre := [0x6C, 0x5A] ++ berMin (body.length + t) ++ body
  pre ++ trailerFn s.cfg.trailer s.cfg.outEct pre

/-- Ring `r` with its `n` oldest bytes consumed: the read offset and the free space advance; the write offset and the cells
are those before (41_ring.md R109). -/
def State.consumed (s : State) (r : RingSel) (n : Nat) : Ring :=
  { s.ring r with rd := ((s.ring r).rd + n) % s.cap r, free := (s.ring r).free + n }

/-- The state after a discovery cycle took a frame of `n` bytes from ring `r`: `rb` is the ring left, `m` the new SCR
(42_framer.md R123). -/
def State.took (s : State) (r : RingSel) (rb : Ring) (m : Memory) (n : Nat) : State :=
  { s.setRing r rb with
    scr := m, scrLen := n, r0 := ⟨0, 0, n⟩, r1 := ⟨0, 0, 0⟩, r2 := ⟨0, 0, 0⟩, r3 := ⟨0, 0, 0⟩ }

/-- The state after a decoder read a message of `n` bytes through `src` and set `dst` to the payload in the cells `lo` up to
`hi` (43_decode.md R130). -/
def State.decoded (s : State) (src dst : RdSel) (n lo hi : Nat) : State :=
  (s.setReader src { s.reader src with cur := (s.reader src).cur + n }).setReader dst ⟨lo, lo, hi⟩

/-- The trailer size of an open frame (30_encoding.md R63). -/
def frameTrailer : Option Ect → Nat
  | none => 0
  | some .crc16 => 2
  | some .reedSolomon => 4

/-- `i` is a BEGIN command whose values are in range; `header` is what it writes behind the length placeholder and `ect` the
errorControlType of its trailer (44_encode.md R145 to R152). -/
def BeginForm (i : Instr) (header : List Byte) (ect : Option Ect) : Prop :=
  ((i = .beginCmdmsg ∨ i = .beginCmdresult) ∧ header = [] ∧ ect = none) ∨
  (∃ a b c d : U64, (i = .beginTmstatus a b c d ∨ i = .beginTmevent a b c d) ∧
    header = ([a.toNat, b.toNat, c.toNat, d.toNat].map berMin).flatten ∧ ect = none) ∨
  (∃ a b c d e f g h j : U64, i = .beginAddress a b c d e f g h j ∧ (a = 3 ∨ a = 4 ∨ a = 6) ∧
    header = ((addressFields a.toNat b.toNat c.toNat d.toNat e.toNat f.toNat g.toNat h.toNat j.toNat).map
      berMin).flatten ∧ ect = none) ∨
  (∃ (st ws seq : U64) (x : Ect), i = .beginExchange st (BitVec.ofNat 64 (ectCode x)) ws seq ∧ (st = 0 ∨ st = 1) ∧
    ws.toNat ≤ 32767 ∧ seq.toNat ≤ 65535 ∧
    header = ([1, st.toNat, ectCode x, ws.toNat, seq.toNat].map berMin).flatten ∧ ect = some x) ∨
  (∃ (st ctr : U64) (x : Ect), (i = .beginCounteradj st (BitVec.ofNat 64 (ectCode x)) ctr ∨
      i = .beginReceipt st (BitVec.ofNat 64 (ectCode x)) ctr) ∧ (st = 0 ∨ st = 1) ∧ ctr.toNat ≤ 65535 ∧
    header = ([1, st.toNat, ectCode x, ctr.toNat].map berMin).flatten ∧ ect = some x)

/-- The command opens a frame: it stores the code, the placeholder 0x00 and `header` in ASM at W0.cur, pushes the entry,
reserves the trailer, gives an empty response with STATUS OK, and changes nothing else (44_encode.md R143). -/
def OpensFrame (i : Instr) (k : Kind) (header : List Byte) (ect : Option Ect) (s : State) : Prop :=
  ∃ m, s.asm.Stores m s.w0.cur (wireCode k ++ [0x00] ++ header) ∧
    exec i s = .next (finish .ok [] [] [] { s with
      asm := m
      w0 := { s.w0 with cur := s.w0.cur + 3 + header.length, stop := s.w0.stop - frameTrailer ect }
      fstack := ⟨k, s.w0.cur, s.w0.cur + 3, s.w0.stop, frameTrailer ect, ect⟩ :: s.fstack })

/-- The command stores `bytes` in ASM at W0.cur, advances W0.cur past them, gives an empty response with STATUS OK, and
changes nothing else (40_cursor_ber.md R79, R98). -/
def WritesAtW0 (i : Instr) (bytes : List Byte) (s : State) : Prop :=
  ∃ m, s.asm.Stores m s.w0.cur bytes ∧
    exec i s = .next (finish .ok [] [] [] { s with asm := m, w0 := { s.w0 with cur := s.w0.cur + bytes.length } })

/-! ### The table of legal commands -/

/-- What the TGT field of an opcode names (30_encoding.md R54, R56). -/
inductive TgtUse where
  | unused
  | ring
  | reader
  | cursor
  deriving DecidableEq, Repr

/-- The number of legal values of TGT, from 0 on. -/
def TgtUse.count : TgtUse → Nat
  | .unused => 1
  | .ring => 3
  | .reader => 4
  | .cursor => 5

/-- One row of the opcode map: the opcode, its use of TGT, MOD and IMM, the widths of the V elements, and whether it
takes DATA (30_encoding.md R56). -/
structure OpRow where
  op : Nat
  tgt : TgtUse
  mod : Bool
  imm : Bool
  v : List Nat
  data : Bool
  deriving DecidableEq, Repr

/-- The rows of 30_encoding.md R56: one list per opcode group. -/
def ringRows : List OpRow :=
  [⟨0x10, .ring, false, false, [], true⟩, ⟨0x11, .ring, false, false, [64, 64], false⟩,
   ⟨0x12, .ring, false, false, [64], false⟩, ⟨0x13, .ring, false, false, [64], false⟩,
   ⟨0x14, .ring, false, false, [], false⟩, ⟨0x3A, .ring, false, false, [], false⟩,
   ⟨0x40, .ring, false, false, [], false⟩]

def cursorRows : List OpRow :=
  [⟨0x20, .cursor, false, false, [64, 64], false⟩, ⟨0x21, .unused, false, false, [], true⟩] ++
  [0x22, 0x23, 0x24, 0x25, 0x26, 0x27, 0x28, 0x29, 0x56, 0x57].map (fun op => ⟨op, .reader, false, false, [], false⟩) ++
  [⟨0x2A, .reader, true, false, [64], false⟩, ⟨0x2B, .reader, false, false, [64], false⟩] ++
  [0x50, 0x51, 0x52, 0x53, 0x54, 0x55].map (fun op => ⟨op, .reader, true, false, [], false⟩)

def plainRows : List OpRow :=
  [⟨0x01, .unused, false, true, [], false⟩, ⟨0x30, .unused, false, false, [8], false⟩,
   ⟨0x31, .unused, false, false, [16], false⟩, ⟨0x32, .unused, false, false, [16], false⟩,
   ⟨0x33, .unused, false, false, [32], false⟩, ⟨0x34, .unused, false, false, [32], false⟩,
   ⟨0x35, .unused, false, false, [64], false⟩, ⟨0x36, .unused, false, false, [64], false⟩,
   ⟨0x37, .unused, false, false, [64], false⟩, ⟨0x38, .unused, false, false, [], true⟩,
   ⟨0x39, .unused, false, false, [], false⟩, ⟨0x60, .unused, false, false, [], false⟩,
   ⟨0x61, .unused, false, false, [], false⟩, ⟨0x62, .unused, false, false, List.replicate 4 64, false⟩,
   ⟨0x63, .unused, false, false, List.replicate 4 64, false⟩, ⟨0x64, .unused, false, false, List.replicate 9 64, false⟩,
   ⟨0x65, .unused, false, false, List.replicate 4 64, false⟩, ⟨0x66, .unused, false, false, List.replicate 3 64, false⟩,
   ⟨0x67, .unused, false, false, List.replicate 3 64, false⟩, ⟨0x68, .unused, false, false, [], false⟩,
   ⟨0x70, .unused, false, false, [], false⟩, ⟨0x71, .unused, false, false, List.replicate 7 64, true⟩,
   ⟨0x72, .unused, false, false, List.replicate 9 64, true⟩, ⟨0x73, .unused, false, false, List.replicate 6 64, true⟩]

def opRows : List OpRow := ringRows ++ cursorRows ++ plainRows

/-- A command fits a row: every field the row does not use is zero, the others are in range (30_encoding.md R55, R56). -/
def OpRow.accepts (row : OpRow) (c : Command) : Prop :=
  c.word.toNat / 2 ^ 24 = row.op ∧
  c.word.toNat / 2 ^ 20 % 16 < row.tgt.count ∧
  c.word.toNat / 2 ^ 16 % 16 < (if row.mod then 4 else 1) ∧
  c.word.toNat % 2 ^ 16 < (if row.imm then 2 ^ 8 else 1) ∧
  List.Forall₂ (fun (x : U64) (w : Nat) => x.toNat < 2 ^ w) c.v row.v ∧
  (row.data = false → c.data = [])

/-! ### The invariant of State -/

/-- A buffer of `size` cells in its canonical form. -/
def Memory.Inv (size : Nat) (m : Memory) : Prop := m.wf = true ∧ ∀ c ∈ m, c.1 < size

/-- Every cell from `lo` up to `hi` holds a byte. -/
def Memory.Written (m : Memory) (lo hi : Nat) : Prop := ∀ k, k < hi → lo ≤ k → (m.read k).isSome = true

/-- The invariant of a ring (10_state.md R19, R20). -/
structure Ring.Inv (cap : Nat) (rb : Ring) : Prop where
  mem : rb.data.Inv cap
  rd : rb.rd < cap
  wr : rb.wr < cap
  free : rb.free ≤ cap
  offsets : rb.wr = (rb.rd + rb.readable cap) % cap
  held : ∀ k, k < rb.readable cap → (rb.data.read ((rb.rd + k) % cap)).isSome = true

/-- The invariant of a cursor over `hi` cells (10_state.md R23, R24). -/
def Cursor.Inv (hi : Nat) (c : Cursor) : Prop := c.start ≤ c.cur ∧ c.cur ≤ c.stop ∧ c.stop ≤ hi

/-- Whether a kind has a PacketHeader (30_encoding.md R62). -/
def hasTrailer : Kind → Bool
  | .commandMessage => false
  | .commandResult => false
  | .tmStatusMessage => false
  | .tmEventMessage => false
  | .addressPacket => false
  | .exchangePacket => true
  | .counterAdjustmentPacket => true
  | .receiptPacket => true

/-- The open frames fit inside each other and inside the writer, whose current index and limit are `cur` and `stop`
(10_state.md R25, 44_encode.md R143). -/
def framesFit (asmSize start : Nat) : List FrameEntry → Nat → Nat → Prop
  | [], cur, stop => start ≤ cur ∧ cur ≤ stop ∧ stop ≤ asmSize
  | e :: rest, cur, stop =>
    e.bodyStart = e.start + 3 ∧ e.bodyStart ≤ cur ∧ cur ≤ stop ∧ e.savedEnd = stop + e.trailer ∧
    e.trailer = frameTrailer e.ect ∧ e.ect.isSome = hasTrailer e.kind ∧
    framesFit asmSize start rest e.start e.savedEnd

/-- What every state a run reaches meets (10_state.md R19 to R30; the agent clauses are 45_agent.md R161 to R166). -/
structure State.Inv (s : State) : Prop where
  cfg : s.cfg.wf = true
  rings : ∀ r, (s.ring r).Inv (s.cap r)
  tmAbsent : s.cfg.role = .uav → s.tmRing = Ring.empty s.cfg.capTm
  scr : s.scr.Inv s.cfg.maxPacket
  scrLen : s.scrLen ≤ s.cfg.maxPacket
  scrHeld : s.scr.Written 0 s.scrLen
  readers : ∀ c, (s.reader c).Inv s.scrLen
  asm : s.asm.Inv s.cfg.asmSize
  asmHeld : s.asm.Written s.w0.start s.w0.cur
  frames : framesFit s.cfg.asmSize s.w0.start s.fstack s.w0.cur s.w0.stop
  placeholders : ∀ e ∈ s.fstack, s.asm.Holds e.start (wireCode e.kind ++ [0x00])
  depth : s.fstack.length ≤ fstackDepth
  agb : s.agb.Inv s.cfg.asmSize
  status : s.status.toNat ≤ 17
  response : ∀ r, s.resp = some r → s.status = BitVec.ofNat 8 (statusCode r.status)
  uav : s.cfg.role = .uav → s.tmCtr = 0 ∧ s.readyToSend = false
  gc : s.cfg.role = .gc → s.cmdInCtr = 0
  noAgent : s.cfg.hasAgent = false → s.cmdInCtr = 0 ∧ s.tmCtr = 0 ∧ s.lastSentValid = false ∧ s.agb = []
  sent : s.lastSentValid = true → s.outCtr = s.lastSent + 1
  unsent : s.lastSentValid = false → s.outCtr = 0 ∧ s.lastSent = 0 ∧ s.readyToSend = false

/-! ### Safe steps -/

/-- The step goes on: no fault and no refusal. -/
def Out.Goes (o : Out) : Prop := ∃ t, o = .next t

/-- The commands of a list, one after the other, each on the state the one before it left. -/
def execAll : List Instr → State → Out
  | [], s => .next s
  | i :: rest, s =>
    match exec i s with
    | .next t => execAll rest t
    | other => other

/-- The DATA_OUT of each command of a list and the state after them; none when one does not go on. -/
def execOuts : List Instr → State → Option (List (List Byte) × State)
  | [], s => some ([], s)
  | i :: rest, s =>
    match exec i s with
    | .next t => (execOuts rest t).map fun p => (((t.resp.map (·.dataOut)).getD []) :: p.1, p.2)
    | _ => none

end Sys2Proof.Machine
end

