-- ==== Sys2Proof/Certificates/Slice0/Obligations.lean ====
section
/-! DEFINITION. The statements for the provers. Each cites the rules of spec/ it formalises; OBLIGATIONS.json lists them.
The conclusion of a statement about a command is the very next state `exec` answers, written as an update of the state
before it: whatever the update does not name is unchanged. -/

section Statements

open Sys2Proof Sys2Proof.Machine

/-! ### Encoding -/

/-- Words written out from the fields of 30_encoding.md R54 and the map of R56, each with its instruction. -/
def Obligations.WrittenWordsDecode : Prop :=
  decode ⟨0b00000001_0000_0000_0000000001010010, [], []⟩ = .ok (.regRd 0x52) ∧
  decode ⟨0b00010001_0001_0000_0000000000000000, [7, 9], []⟩ = .ok (.rbPeek .outb 7 9) ∧
  decode ⟨0b00100000_0100_0000_0000000000000000, [3, 8], []⟩ = .ok (.curSet .w0 3 8) ∧
  decode ⟨0b00101010_0010_0011_0000000000000000, [5], []⟩ = .ok (.rdSlice .r2 .r3 5) ∧
  decode ⟨0b00110001_0000_0000_0000000000000000, [0x4f07], []⟩ = .ok (.wrU16be 0x4f07) ∧
  decode ⟨0b00110001_0000_0000_0000000000000000, [0x10000], []⟩ = .error .operandRange ∧
  decode ⟨0b01000000_0010_0000_0000000000000000, [], []⟩ = .ok (.discover .tm) ∧
  decode ⟨0b01010101_0000_0001_0000000000000000, [], []⟩ = .ok (.decExchange .r0 .r1) ∧
  decode ⟨0b01010110_0000_0001_0000000000000000, [], []⟩ = .error .unusedFieldNonZero ∧
  decode ⟨0b01100101_0000_0000_0000000000000000, [0, 1, 16, 0], []⟩ = .ok (.beginExchange 0 1 16 0) ∧
  decode ⟨0b01110011_0000_0000_0000000000000000, [16, 1, 2, 3, 0, 4], [0xEE]⟩ =
    .ok (.agSendMulticast 16 1 2 3 0 4 [0xEE])

/-- Every instruction, with every operand at every value its encoding admits, decodes from its encoding
(30_encoding.md R54 to R56). -/
def Obligations.DecodeOfEncode : Prop := ∀ i : Instr, decode (encode i) = .ok i

/-- A command that decodes is the encoding of what it decodes to: no field is ignored, no second word means the same
(30_encoding.md R55, R57). -/
def Obligations.EncodeOfDecode : Prop := ∀ (c : Command) (i : Instr), decode c = .ok i → encode i = c

/-- The decoder accepts exactly the commands that fit a row of the opcode map (30_encoding.md R55 to R57). -/
def Obligations.DecodesExactlyTheMap : Prop :=
  ∀ c : Command, (∃ i, decode c = .ok i) ↔ ∃ row ∈ opRows, row.accepts c

/-! ### Steps -/

/-- A command alone at its port is granted, and the step is `exec` of the instruction it decodes to, on the state with the
command taken from its queue (20_memory.md R42, R46, R47). -/
def Obligations.StepRunsTheDecodedCommand : Prop :=
  (∀ (c : Command) (cs : List Command) (i : Instr) (s : State),
    s.resetIn = false → s.cmdQ = c :: cs → s.tpQ = [] → decode c = .ok i →
    step s = exec i { s with cmdQ := cs, granted := some .command, grants := s.grants + 1 }) ∧
  (∀ (c : Command) (cs : List Command) (i : Instr) (s : State),
    s.resetIn = false → s.cmdQ = [] → s.tpQ = c :: cs → decode c = .ok i → portAllows .transport i = true →
    step s = exec i { s with tpQ := cs, granted := some .transport, grants := s.grants + 1 })

/-- With a command pending at both ports the step grants the first of one of the two queues; which one, the value of
`Config.grantsTransport` decides, of which nothing is known (20_memory.md R47; log 4). With none pending the block is idle
and holds its state (60_exceptions.md R190). -/
def Obligations.StepGrantsOneOfTwoPorts : Prop :=
  (∀ (c d : Command) (cs ds : List Command) (s : State),
    s.resetIn = false → s.cmdQ = c :: cs → s.tpQ = d :: ds →
    (Config.grantsTransport s.grants = false →
      step s = issue .command c { s with cmdQ := cs, granted := some .command, grants := s.grants + 1 }) ∧
    (Config.grantsTransport s.grants = true →
      step s = issue .transport d { s with tpQ := ds, granted := some .transport, grants := s.grants + 1 })) ∧
  (∀ s : State, s.resetIn = false → s.cmdQ = [] → s.tpQ = [] → step s = .next s)

/-- Reset, before whatever command is pending, puts every piece of the spec's state to its reset value (10_state.md R32,
70_reset_and_hazards.md R192) and keeps the configuration (R194). The model's choices: that the step takes no command,
keeps the pending ones and clears the reset input (log 10); the values of ring TM, the counters and the flags that a role
or an instance without agent unit lacks (log 11); that AGB holds no value (log 13). -/
def Obligations.ResetStep : Prop :=
  ∀ s : State, s.resetIn = true → ∃ t, step s = .next t ∧
    t.inRing = ⟨[], 0, 0, s.cfg.kIn * s.cfg.maxPacket⟩ ∧ t.outRing = ⟨[], 0, 0, s.cfg.kOut * s.cfg.maxPacket⟩ ∧
    t.tmRing = ⟨[], 0, 0, s.cfg.kTm * s.cfg.maxPacket⟩ ∧ t.scrLen = 0 ∧ t.scr = [] ∧ t.asm = [] ∧ t.agb = [] ∧
    (∀ c, t.reader c = ⟨0, 0, 0⟩) ∧ t.w0 = ⟨0, 0, s.cfg.maxPacket + 2⟩ ∧ t.fstack = [] ∧ t.status = 0 ∧
    t.cmdInCtr = 0 ∧ t.tmCtr = 0 ∧ t.outCtr = 0 ∧ t.lastSent = 0 ∧ t.readyToSend = false ∧ t.lastSentValid = false ∧
    t.cmdQ = s.cmdQ ∧ t.tpQ = s.tpQ ∧ t.cfg = s.cfg ∧ t.resetIn = false

/-- IllegalCommand is raised before any other check, and changes nothing but STATUS and the response, in each case of
60_exceptions.md R179. Two readings are the model's: the indices 0x60 to 0x64 are illegal on an instance without agent unit
(log 12), and an element of V has at most 64 bits, so none of 2^64 or more is among the commands (log 16). -/
def Obligations.IllegalCommands : Prop :=
  (∀ (p : Port) (c : Command) (s : State), (¬ ∃ row ∈ opRows, row.accepts c) →
    issue p c s = .next (raise .illegalCommand s)) ∧
  (∀ (c : Command) (i : Instr) (s : State), decode c = .ok i →
    (∀ data, i ≠ .rbWrite .inb data) → i ≠ .rbStatus .outb → (∀ n, i ≠ .rbRead .outb n) →
    issue .transport c s = .next (raise .illegalCommand s)) ∧
  (∀ (i : Instr) (s : State), s.cfg.role = .uav →
    ((∃ data, i = .rbWrite .tm data) ∨ (∃ n off, i = .rbPeek .tm n off) ∨ (∃ n, i = .rbRead .tm n) ∨
      (∃ n, i = .rbErase .tm n) ∨ i = .rbStatus .tm ∨ i = .asmCommit .tm ∨ i = .discover .tm) →
    exec i s = .next (raise .illegalCommand s)) ∧
  (∀ (data : List Byte) (s : State), s.cfg.maxPacket < data.length →
    exec (.scrLoad data) s = .next (raise .illegalCommand s)) ∧
  (∀ (index : BitVec 8) (s : State), s.cfg.hasReg index = false →
    exec (.regRd index) s = .next (raise .illegalCommand s)) ∧
  (∀ (c : Command) (i : Instr) (s : State), decode c = .ok i → s.cfg.hasAgent = false →
    0x70 ≤ c.word.toNat / 2 ^ 24 → exec i s = .next (raise .illegalCommand s))

/-- A command that fails leaves every piece of state but STATUS as it was, unless it is one of the three that `finish` a
failure (60_exceptions.md R177, R178). -/
def Obligations.FailuresRaise : Prop :=
  ∀ (i : Instr) (s t : State), (∀ r, i ≠ .discover r) → i ≠ .endFrame → i ≠ .agHandle →
    exec i s = .next t → t.status ≠ 0 →
    ∃ st, st ≠ .ok ∧ t = { s with status := BitVec.ofNat 8 (statusCode st), resp := some ⟨st, [], [], []⟩ }

/-! ### Invariants and whole-machine rules -/

/-- The reset state of every legal configuration meets the invariant (10_state.md R32; the configuration of State.reset is
the model's choice, log 1). -/
def Obligations.ResetMeetsInv : Prop := (∀ cfg : Config, cfg.wf = true → (State.resetOf cfg).Inv) ∧ State.reset.Inv

/-- Every step keeps the invariant: the rings, buffers, cursors and the frame stack stay in the form of 10_state.md R19 to
R25, STATUS stays a code, the counters stay consistent (R27, R28). -/
def Obligations.StepKeepsInv : Prop := ∀ s t : State, s.Inv → step s = .next t → t.Inv

/-- From a state that meets the invariant every step goes on, whatever commands are pending: no command reads a cell
without a value, none is without a meaning (10_state.md R20, R22; 60_exceptions.md R182). -/
def Obligations.StepGoesOn : Prop := ∀ s : State, s.Inv → Out.Goes (step s)

/-- Every command that completes writes STATUS with the code of its response, one of 0 to 17; only the agent commands give
events, each a row of the event table with its kind number 1 to 7; RESULT values have at most 64 bits (10_state.md R26,
60_exceptions.md R175, 00_scope.md R7, 45_agent.md R157). -/
def Obligations.StatusAndResponse : Prop :=
  ∀ (i : Instr) (s t : State), exec i s = .next t → ∃ r, t.resp = some r ∧ t.status.toNat = statusCode r.status ∧
    t.status.toNat ≤ 17 ∧ ((encode i).word.toNat / 2 ^ 24 < 0x70 → r.events = []) ∧
    (∀ event ∈ r.events, EventForm s.cfg.role event) ∧
    (s.Inv → ∀ v ∈ r.result, v < 2 ^ 64)

/-- Each piece of state changes only through the commands that own it (46_system.md R174, 10_state.md R30, R31;
43_decode.md R141, 42_framer.md R127). What AGB holds has no effect on a command but on AGB (R30; that its cells keep what
was written is the model's choice, log 13). -/
def Obligations.StateChangesOnlyThroughItsOwners : Prop :=
  ∀ (i : Instr) (s t : State), exec i s = .next t →
    (t.cfg = s.cfg ∧ t.cmdQ = s.cmdQ ∧ t.tpQ = s.tpQ ∧ t.granted = s.granted ∧ t.resetIn = s.resetIn ∧
      t.grants = s.grants) ∧
    ((∀ d, i ≠ .rbWrite .inb d) → (∀ n, i ≠ .rbRead .inb n) → (∀ n, i ≠ .rbErase .inb n) → i ≠ .asmCommit .inb →
      i ≠ .discover .inb → i ≠ .agHandle → t.inRing = s.inRing) ∧
    ((∀ d, i ≠ .rbWrite .outb d) → (∀ n, i ≠ .rbRead .outb n) → (∀ n, i ≠ .rbErase .outb n) → i ≠ .asmCommit .outb →
      i ≠ .discover .outb → (encode i).word.toNat / 2 ^ 24 < 0x70 → t.outRing = s.outRing) ∧
    ((∀ d, i ≠ .rbWrite .tm d) → (∀ n, i ≠ .rbRead .tm n) → (∀ n, i ≠ .rbErase .tm n) → i ≠ .asmCommit .tm →
      i ≠ .discover .tm → i ≠ .agHandle → t.tmRing = s.tmRing) ∧
    ((∀ d, i ≠ .scrLoad d) → (∀ r, i ≠ .discover r) → i ≠ .agHandle → t.scr = s.scr ∧ t.scrLen = s.scrLen) ∧
    ((encode i).word.toNat / 2 ^ 24 < 0x20 ∨ 0x30 ≤ (encode i).word.toNat / 2 ^ 24 ∧
        (encode i).word.toNat / 2 ^ 24 < 0x40 ∨ 0x60 ≤ (encode i).word.toNat / 2 ^ 24 → i ≠ .agHandle →
      ∀ c, t.reader c = s.reader c) ∧
    ((∀ a b, i ≠ .curSet .w0 a b) → (encode i).word.toNat / 2 ^ 24 < 0x30 ∨ 0x40 ≤ (encode i).word.toNat / 2 ^ 24 ∧
        (encode i).word.toNat / 2 ^ 24 < 0x60 ∨ 0x70 ≤ (encode i).word.toNat / 2 ^ 24 →
      t.asm = s.asm ∧ t.w0 = s.w0 ∧ t.fstack = s.fstack) ∧
    ((encode i).word.toNat / 2 ^ 24 < 0x70 →
      t.cmdInCtr = s.cmdInCtr ∧ t.tmCtr = s.tmCtr ∧ t.outCtr = s.outCtr ∧ t.lastSent = s.lastSent ∧
      t.lastSentValid = s.lastSentValid ∧ t.readyToSend = s.readyToSend ∧ t.agb = s.agb) ∧
    (∀ m, ∃ m', exec i (s.setAgb m) = .next (t.setAgb m'))

/-- The transport port reaches nothing but the rings IN and OUT, STATUS and the response (20_memory.md R46,
60_exceptions.md R185). -/
def Obligations.TransportPortReachesOnlyRings : Prop :=
  ∀ (c : Command) (s t : State), issue .transport c s = .next t →
    t = { s with inRing := t.inRing, outRing := t.outRing, status := t.status, resp := t.resp }

/-- READY_TO_SEND rises only on a Gc, by an AG_HANDLE that handled a ReceiptPacket whose counter is that of the last send; it
falls only by a completed send of a Gc, which always leaves it 0; LAST_SENT_VALID never falls by a command (45_agent.md
R166, R171; 10_state.md R28). -/
def Obligations.ReadyToSendGate : Prop :=
  ∀ (i : Instr) (s t : State), exec i s = .next t →
    (s.readyToSend = false → t.readyToSend = true →
      i = .agHandle ∧ s.cfg.role = .gc ∧ s.lastSentValid = true ∧
      ∃ r, t.resp = some r ∧ r.status = .ok ∧ r.result.head? = some 0x3c5c ∧
        r.events = [⟨.receipt, [s.lastSent.toNat, 1], []⟩]) ∧
    (s.readyToSend = true → t.readyToSend = false →
      s.cfg.role = .gc ∧ 0x71 ≤ (encode i).word.toNat / 2 ^ 24 ∧ t.status = 0) ∧
    (s.cfg.role = .gc → 0x71 ≤ (encode i).word.toNat / 2 ^ 24 → t.status = 0 → t.readyToSend = false) ∧
    (s.lastSentValid = true → t.lastSentValid = true)

/-! ### REG_RD and the other reading commands -/

/-- REG_RD reads the register map; it changes nothing but STATUS and the response (10_state.md R31, 46_system.md R173). -/
def Obligations.RegRdReadsTheMap : Prop :=
  ∀ s : State,
    (∀ p ∈ [(0x00, s.status.toNat), (0x02, s.cfg.maxPacket), (0x03, if s.cfg.outEct = .crc16 then 1 else 2),
        (0x10, s.cfg.kIn * s.cfg.maxPacket), (0x11, s.cfg.kOut * s.cfg.maxPacket),
        (0x14, s.cfg.kIn * s.cfg.maxPacket - s.inRing.free), (0x15, s.cfg.kOut * s.cfg.maxPacket - s.outRing.free),
        (0x18, s.inRing.free), (0x19, s.outRing.free), (0x1C, s.inRing.rd), (0x1D, s.outRing.rd),
        (0x20, s.inRing.wr), (0x21, s.outRing.wr), (0x30, s.scrLen),
        (0x40, s.r0.start), (0x41, s.r0.cur), (0x42, s.r0.stop), (0x44, s.r1.start), (0x45, s.r1.cur), (0x46, s.r1.stop),
        (0x48, s.r2.start), (0x49, s.r2.cur), (0x4A, s.r2.stop), (0x4C, s.r3.start), (0x4D, s.r3.cur), (0x4E, s.r3.stop),
        (0x50, s.w0.start), (0x51, s.w0.cur), (0x52, s.w0.stop), (0x58, s.fstack.length)],
      exec (.regRd (BitVec.ofNat 8 p.1)) s = .next (finish .ok [p.2] [] [] s)) ∧
    (s.cfg.role = .uav → ∀ p ∈ [(0x01, 0), (0x04, 0x4f07), (0x05, 0xacac)],
      exec (.regRd (BitVec.ofNat 8 p.1)) s = .next (finish .ok [p.2] [] [] s)) ∧
    (s.cfg.role = .gc → ∀ p ∈ [(0x01, 1), (0x04, 0xacac), (0x05, 0x4f07), (0x06, 0x043d),
        (0x12, s.cfg.kTm * s.cfg.maxPacket), (0x16, s.cfg.kTm * s.cfg.maxPacket - s.tmRing.free),
        (0x1A, s.tmRing.free), (0x1E, s.tmRing.rd), (0x22, s.tmRing.wr)],
      exec (.regRd (BitVec.ofNat 8 p.1)) s = .next (finish .ok [p.2] [] [] s)) ∧
    (s.cfg.hasAgent = true → ∀ p ∈ [(if s.cfg.role = .uav then (0x60, s.cmdInCtr.toNat) else (0x61, s.tmCtr.toNat)),
        (0x62, s.outCtr.toNat), (0x63, s.lastSent.toNat),
        (0x64, (if s.readyToSend = true ∧ s.cfg.role = .gc then 1 else 0) + (if s.lastSentValid = true then 2 else 0))],
      exec (.regRd (BitVec.ofNat 8 p.1)) s = .next (finish .ok [p.2] [] [] s))

/-! ### Cursors, fields and BER values -/

/-- CUR_SET sets a reader within SCR_LEN, or the writer within ASM_SIZE while no frame is open; otherwise it raises
(40_cursor_ber.md R85). -/
def Obligations.CurSetSetsTheBounds : Prop :=
  ∀ (a b : U64) (s : State),
    (∀ c, a.toNat ≤ b.toNat → b.toNat ≤ s.scrLen →
      exec (.curSet (.rd c) a b) s = .next (finish .ok [] [] [] (s.setReader c ⟨a.toNat, a.toNat, b.toNat⟩))) ∧
    (∀ c, (b.toNat < a.toNat ∨ s.scrLen < b.toNat) → exec (.curSet (.rd c) a b) s = .next (raise .outOfRange s)) ∧
    (s.fstack = [] → a.toNat ≤ b.toNat → b.toNat ≤ s.cfg.maxPacket + 2 →
      exec (.curSet .w0 a b) s = .next (finish .ok [] [] [] { s with w0 := ⟨a.toNat, a.toNat, b.toNat⟩ })) ∧
    (s.fstack = [] → (b.toNat < a.toNat ∨ s.cfg.maxPacket + 2 < b.toNat) →
      exec (.curSet .w0 a b) s = .next (raise .outOfRange s)) ∧
    (s.fstack ≠ [] → exec (.curSet .w0 a b) s = .next (raise .frameStackError s))

/-- SCR_LOAD puts DATA into SCR from cell 0 on and resets the readers to it (40_cursor_ber.md R86). -/
def Obligations.ScrLoadCopiesData : Prop :=
  ∀ (data : List Byte) (s : State), data.length ≤ s.cfg.maxPacket →
    ∃ m, s.scr.Stores m 0 data ∧ exec (.scrLoad data) s = .next (finish .ok [] [] []
      { s with scr := m, scrLen := data.length, r0 := ⟨0, 0, data.length⟩, r1 := ⟨0, 0, 0⟩, r2 := ⟨0, 0, 0⟩,
               r3 := ⟨0, 0, 0⟩ })

/-- The fixed-width reads return the bytes at the reader in the byte order of the opcode and advance it by the width
(40_cursor_ber.md R87 to R94). -/
def Obligations.FixedWidthReads : Prop :=
  ∀ (c : RdSel) (s : State) (b0 b1 b2 b3 b4 b5 b6 b7 : Byte),
    (s.scr.Holds (s.reader c).cur [b0] → (s.reader c).cur + 1 ≤ (s.reader c).stop →
      exec (.rdU8 c) s = .next (finish .ok [b0.toNat] [] []
        (s.setReader c { s.reader c with cur := (s.reader c).cur + 1 }))) ∧
    (s.scr.Holds (s.reader c).cur [b0, b1] → (s.reader c).cur + 2 ≤ (s.reader c).stop →
      exec (.rdU16be c) s = .next (finish .ok [b0.toNat * 256 + b1.toNat] [] []
        (s.setReader c { s.reader c with cur := (s.reader c).cur + 2 })) ∧
      exec (.rdU16le c) s = .next (finish .ok [b1.toNat * 256 + b0.toNat] [] []
        (s.setReader c { s.reader c with cur := (s.reader c).cur + 2 }))) ∧
    (s.scr.Holds (s.reader c).cur [b0, b1, b2, b3] → (s.reader c).cur + 4 ≤ (s.reader c).stop →
      exec (.rdU32be c) s = .next (finish .ok [(b0 ++ b1 ++ b2 ++ b3).toNat] [] []
        (s.setReader c { s.reader c with cur := (s.reader c).cur + 4 })) ∧
      exec (.rdU32le c) s = .next (finish .ok [(b3 ++ b2 ++ b1 ++ b0).toNat] [] []
        (s.setReader c { s.reader c with cur := (s.reader c).cur + 4 }))) ∧
    (s.scr.Holds (s.reader c).cur [b0, b1, b2, b3, b4, b5, b6, b7] → (s.reader c).cur + 8 ≤ (s.reader c).stop →
      exec (.rdU64be c) s = .next (finish .ok [(b0 ++ b1 ++ b2 ++ b3 ++ b4 ++ b5 ++ b6 ++ b7).toNat] [] []
        (s.setReader c { s.reader c with cur := (s.reader c).cur + 8 })) ∧
      exec (.rdU64le c) s = .next (finish .ok [(b7 ++ b6 ++ b5 ++ b4 ++ b3 ++ b2 ++ b1 ++ b0).toNat] [] []
        (s.setReader c { s.reader c with cur := (s.reader c).cur + 8 })))

/-- RD_BER returns the value of the BER value at the reader, minimal or not, and advances the reader past it. It raises, in
this order, UnexpectedEndOfStream with no byte left, InvalidBerLength for a header 0x80 or 0x89 and above,
UnexpectedEndOfStream with fewer value bytes left than the header declares (40_cursor_ber.md R80, R95). -/
def Obligations.RdBerReadsEveryForm : Prop :=
  ∀ (c : RdSel) (s : State),
    (∀ (bytes : List Byte) (v : Nat), BerForm bytes v → s.scr.Holds (s.reader c).cur bytes →
      (s.reader c).cur + bytes.length ≤ (s.reader c).stop →
      exec (.rdBer c) s = .next (finish .ok [v] [] []
        (s.setReader c { s.reader c with cur := (s.reader c).cur + bytes.length }))) ∧
    ((s.reader c).stop ≤ (s.reader c).cur → exec (.rdBer c) s = .next (raise .unexpectedEndOfStream s)) ∧
    (∀ h : Byte, (s.reader c).cur < (s.reader c).stop → s.scr.read (s.reader c).cur = some h →
      (h.toNat = 0x80 ∨ 0x89 ≤ h.toNat → exec (.rdBer c) s = .next (raise .invalidBerLength s)) ∧
      (0x81 ≤ h.toNat → h.toNat ≤ 0x88 → (s.reader c).stop < (s.reader c).cur + 1 + (h.toNat - 0x80) →
        exec (.rdBer c) s = .next (raise .unexpectedEndOfStream s)))

/-- RD_SLICE advances the source past the slice and makes the destination a view of it, the destination last, so it wins
when the two are one reader; RD_BYTES gives the bytes and advances the reader (40_cursor_ber.md R96, R97;
70_reset_and_hazards.md R203). -/
def Obligations.SlicesAndBytes : Prop :=
  ∀ (src dst : RdSel) (n : U64) (s : State),
    (n.toNat ≤ (s.reader src).stop - (s.reader src).cur →
      ∃ t, exec (.rdSlice src dst n) s = .next (finish .ok [] [] [] t) ∧
        t.reader dst = ⟨(s.reader src).cur, (s.reader src).cur, (s.reader src).cur + n.toNat⟩ ∧
        (src ≠ dst → t.reader src = { s.reader src with cur := (s.reader src).cur + n.toNat }) ∧
        (∀ c, c ≠ src → c ≠ dst → t.reader c = s.reader c) ∧
        t = { s with r0 := t.r0, r1 := t.r1, r2 := t.r2, r3 := t.r3 }) ∧
    ((s.reader src).stop - (s.reader src).cur < n.toNat →
      exec (.rdSlice src dst n) s = .next (raise .unexpectedEndOfStream s)) ∧
    (∀ bytes : List Byte, bytes.length = n.toNat → s.scr.Holds (s.reader src).cur bytes →
      (s.reader src).cur + n.toNat ≤ (s.reader src).stop →
      exec (.rdBytes src n) s = .next (finish .ok [] bytes []
        (s.setReader src { s.reader src with cur := (s.reader src).cur + n.toNat })))

/-- A read of more bytes than are left raises UnexpectedEndOfStream and moves no cursor (40_cursor_ber.md R78, R87,
R97). -/
def Obligations.ShortReadsRaise : Prop :=
  ∀ (c : RdSel) (s : State) (left : Nat), left = (s.reader c).stop - (s.reader c).cur →
    (left < 1 → exec (.rdU8 c) s = .next (raise .unexpectedEndOfStream s)) ∧
    (left < 2 → exec (.rdU16be c) s = .next (raise .unexpectedEndOfStream s) ∧
      exec (.rdU16le c) s = .next (raise .unexpectedEndOfStream s)) ∧
    (left < 4 → exec (.rdU32be c) s = .next (raise .unexpectedEndOfStream s) ∧
      exec (.rdU32le c) s = .next (raise .unexpectedEndOfStream s)) ∧
    (left < 8 → exec (.rdU64be c) s = .next (raise .unexpectedEndOfStream s) ∧
      exec (.rdU64le c) s = .next (raise .unexpectedEndOfStream s)) ∧
    (∀ n : U64, left < n.toNat → exec (.rdBytes c n) s = .next (raise .unexpectedEndOfStream s))

/-- The fixed-width writes store the value's bytes in the byte order of the opcode at W0.cur, nothing else, and advance W0
by the width (40_cursor_ber.md R98 to R105). -/
def Obligations.FixedWidthWrites : Prop :=
  ∀ (s : State) (b0 b1 b2 b3 b4 b5 b6 b7 : Byte),
    (s.w0.cur + 1 ≤ s.w0.stop → WritesAtW0 (.wrU8 b0) [b0] s) ∧
    (s.w0.cur + 2 ≤ s.w0.stop →
      WritesAtW0 (.wrU16be (b0 ++ b1)) [b0, b1] s ∧ WritesAtW0 (.wrU16le (b0 ++ b1)) [b1, b0] s) ∧
    (s.w0.cur + 4 ≤ s.w0.stop →
      WritesAtW0 (.wrU32be (b0 ++ b1 ++ b2 ++ b3)) [b0, b1, b2, b3] s ∧
      WritesAtW0 (.wrU32le (b0 ++ b1 ++ b2 ++ b3)) [b3, b2, b1, b0] s) ∧
    (s.w0.cur + 8 ≤ s.w0.stop →
      WritesAtW0 (.wrU64be (b0 ++ b1 ++ b2 ++ b3 ++ b4 ++ b5 ++ b6 ++ b7)) [b0, b1, b2, b3, b4, b5, b6, b7] s ∧
      WritesAtW0 (.wrU64le (b0 ++ b1 ++ b2 ++ b3 ++ b4 ++ b5 ++ b6 ++ b7)) [b7, b6, b5, b4, b3, b2, b1, b0] s)

/-- WR_BER stores the minimal form of its value, WR_BYTES its DATA, at W0.cur and nothing else. A write that does not fit
before W0.end raises NotEnoughSpace and writes nothing (40_cursor_ber.md R79, R98, R106, R107). -/
def Obligations.WritesFitOrRaise : Prop :=
  ∀ (s : State) (left : Nat), left = s.w0.stop - s.w0.cur →
    (∀ v : U64, (berMin v.toNat).length ≤ left → WritesAtW0 (.wrBer v) (berMin v.toNat) s) ∧
    (∀ data : List Byte, data.length ≤ left → WritesAtW0 (.wrBytes data) data s) ∧
    (∀ v : U64, left < (berMin v.toNat).length → exec (.wrBer v) s = .next (raise .notEnoughSpace s)) ∧
    (∀ data, left < data.length → exec (.wrBytes data) s = .next (raise .notEnoughSpace s)) ∧
    (∀ x, left < 1 → exec (.wrU8 x) s = .next (raise .notEnoughSpace s)) ∧
    (∀ x, left < 2 → exec (.wrU16be x) s = .next (raise .notEnoughSpace s) ∧
      exec (.wrU16le x) s = .next (raise .notEnoughSpace s)) ∧
    (∀ x, left < 4 → exec (.wrU32be x) s = .next (raise .notEnoughSpace s) ∧
      exec (.wrU32le x) s = .next (raise .notEnoughSpace s)) ∧
    (∀ x, left < 8 → exec (.wrU64be x) s = .next (raise .notEnoughSpace s) ∧
      exec (.wrU64le x) s = .next (raise .notEnoughSpace s))

/-- ASM_TAKE gives the bytes written since W0 was set, ASM_COMMIT appends them to a ring as RB_WRITE does, and both empty the
writer; while a frame is open both raise FrameStackError (40_cursor_ber.md R108, 41_ring.md R117). -/
def Obligations.AssembledBytesLeaveTheWriter : Prop :=
  ∀ (s : State) (r : RingSel) (bytes : List Byte), r.present s.cfg = true →
    (s.fstack = [] → s.asm.Holds s.w0.start bytes → s.w0.cur = s.w0.start + bytes.length →
      exec .asmTake s = .next (finish .ok [] bytes [] { s with w0 := { s.w0 with cur := s.w0.start } }) ∧
      ((s.ring r).Inv (s.cap r) → ∃ rb, exec (.asmCommit r) s =
          .next (finish .ok [] [] [] { s.setRing r rb with w0 := { s.w0 with cur := s.w0.start } }) ∧
        exec (.rbWrite r bytes) s = .next (finish .ok [] [] [] (s.setRing r rb)) ∧
        rb.contents (s.cap r) = (s.contents r ++ bytes).drop ((s.contents r ++ bytes).length - s.cap r))) ∧
    (s.fstack ≠ [] → exec .asmTake s = .next (raise .frameStackError s) ∧
      exec (.asmCommit r) s = .next (raise .frameStackError s))

/-- The BER round trip (40_cursor_ber.md R83). -/
def Obligations.BerRoundTrip : Prop :=
  ∀ (v : Nat) (m : Memory), v < 2 ^ 64 → m.Holds 0 (berMin v) →
    berDecode m 0 (berMin v).length = .ok (v, (berMin v).length) ∧ ((berMin v).length = 1 ↔ v < 128)

/-- `ber_min` is the shortest BER value of its argument, and its length is that of 30_encoding.md R61. -/
def Obligations.BerMinIsShortest : Prop :=
  ∀ v : Nat, v < 2 ^ 64 → BerForm (berMin v) v ∧
    (∀ bytes, BerForm bytes v → (berMin v).length ≤ bytes.length) ∧
    (v < 2 ^ 7 → berMin v = [BitVec.ofNat 8 v]) ∧
    (2 ^ 7 ≤ v → v < 2 ^ 8 → (berMin v).length = 2) ∧
    (∀ n, 2 ≤ n → n ≤ 8 → 2 ^ (8 * (n - 1)) ≤ v → v < 2 ^ (8 * n) → (berMin v).length = 1 + n)

/-! ### Rings -/

/-- RB_WRITE appends DATA: of the readable bytes and the new ones the newest CAP stay, the oldest are dropped; the offsets
move as 41_ring.md R111 says, and no cell but those written changes (R111, R112). -/
def Obligations.RbWriteAppends : Prop :=
  ∀ (r : RingSel) (data : List Byte) (s : State) (n : Nat),
    r.present s.cfg = true → (s.ring r).Inv (s.cap r) → n = min data.length (s.cap r) →
    ∃ rb, exec (.rbWrite r data) s = .next (finish .ok [] [] [] (s.setRing r rb)) ∧
      rb.contents (s.cap r) = (s.contents r ++ data).drop ((s.contents r ++ data).length - s.cap r) ∧
      rb.rd = ((s.ring r).rd + (n - (s.ring r).free)) % s.cap r ∧ rb.wr = ((s.ring r).wr + n) % s.cap r ∧
      rb.free = (s.ring r).free - n ∧
      (∀ a, (∀ k, k < n → a ≠ ((s.ring r).wr + k) % s.cap r) → rb.data.read a = (s.ring r).data.read a)

/-- RB_PEEK gives `size` readable bytes from `offset` on, in stream order, and consumes nothing; beyond the readable bytes it
raises OutOfRange. RB_STATUS reports the readable bytes and the free space, whose sum is the capacity (41_ring.md R110,
R113, R116). -/
def Obligations.RbPeekAndRbStatus : Prop :=
  ∀ (r : RingSel) (n off : U64) (s : State), r.present s.cfg = true →
    ((s.ring r).Inv (s.cap r) → off.toNat + n.toNat ≤ (s.contents r).length →
      exec (.rbPeek r n off) s = .next (finish .ok [] (((s.contents r).drop off.toNat).take n.toNat) [] s)) ∧
    ((s.contents r).length < off.toNat + n.toNat → exec (.rbPeek r n off) s = .next (raise .outOfRange s)) ∧
    exec (.rbStatus r) s = .next (finish .ok [(s.contents r).length, (s.ring r).free] [] [] s) ∧
    ((s.ring r).free ≤ s.cap r → (s.contents r).length + (s.ring r).free = s.cap r)

/-- RB_READ gives the oldest `size` bytes and consumes exactly them, RB_ERASE discards them; beyond the readable bytes both
raise OutOfRange (41_ring.md R109, R114, R115). -/
def Obligations.RbReadAndRbErase : Prop :=
  ∀ (r : RingSel) (n : U64) (s : State) (rb : Ring), r.present s.cfg = true →
    rb = { s.ring r with rd := ((s.ring r).rd + n.toNat) % s.cap r, free := (s.ring r).free + n.toNat } →
    (n.toNat ≤ (s.contents r).length →
      ((s.ring r).Inv (s.cap r) →
        exec (.rbRead r n) s = .next (finish .ok [] ((s.contents r).take n.toNat) [] (s.setRing r rb))) ∧
      exec (.rbErase r n) s = .next (finish .ok [] [] [] (s.setRing r rb)) ∧
      rb.contents (s.cap r) = (s.contents r).drop n.toNat) ∧
    ((s.contents r).length < n.toNat → exec (.rbRead r n) s = .next (raise .outOfRange s) ∧
      exec (.rbErase r n) s = .next (raise .outOfRange s))

/-- Ring buffer FIFO: after writes that total at most the free space, reads that total what the ring then holds give the
bytes that stood there and then the bytes written, in write order and unchanged, and empty the ring (41_ring.md R119). -/
def Obligations.RingFifo : Prop :=
  ∀ (r : RingSel) (s : State) (chunks : List (List Byte)) (sizes : List U64),
    r.present s.cfg = true → (s.ring r).Inv (s.cap r) → chunks.flatten.length ≤ (s.ring r).free →
    (sizes.map (·.toNat)).sum = (s.contents r).length + chunks.flatten.length →
    ∃ (t u : State) (parts : List (List Byte)),
      execAll (chunks.map (.rbWrite r)) s = .next t ∧ execOuts (sizes.map (.rbRead r)) t = some (parts, u) ∧
      parts.flatten = s.contents r ++ chunks.flatten ∧ parts.map (·.length) = sizes.map (·.toNat) ∧ u.contents r = []

/-! ### Frame discovery -/

/-- DISCOVER takes the first whole frame: it discards what stands before the first separator, moves the frame (code,
length in any form, body) into SCR, resets the readers to it, and leaves what follows (42_framer.md R122 to R124). -/
def Obligations.DiscoverTakesTheFrame : Prop :=
  ∀ (r : RingSel) (s : State) (c0 c1 : Byte) (garbage len body rest : List Byte),
    r.present s.cfg = true → (s.ring r).Inv (s.cap r) →
    BerForm len body.length → 2 + len.length + body.length ≤ s.cfg.maxPacket →
    FirstSep (wireSep s.cfg.role r) (s.contents r) garbage ([c0, c1] ++ len ++ body ++ rest) →
    ∃ rb m, rb = s.consumed r (garbage.length + 2 + (2 + len.length + body.length)) ∧
      exec (.discover r) s =
        .next (finish .ok [c0.toNat * 256 + c1.toNat, 2 + len.length + body.length] [] []
          (s.took r rb m (2 + len.length + body.length))) ∧
      rb.Inv (s.cap r) ∧ rb.contents (s.cap r) = rest ∧ s.scr.Stores m 0 ([c0, c1] ++ len ++ body)

/-- Without a separator DISCOVER ends with NoFrame and keeps at most the last byte. With a separator whose frame is not whole
it ends with Incomplete and discards only what stands before the separator (42_framer.md R122, R123). -/
def Obligations.DiscoverWaitsForTheRest : Prop :=
  ∀ (r : RingSel) (s : State), r.present s.cfg = true → (s.ring r).Inv (s.cap r) →
    (NoSep (wireSep s.cfg.role r) (s.contents r) →
      ∃ rb, rb = s.consumed r ((s.contents r).length - 1) ∧
        exec (.discover r) s = .next (finish .noFrame [] [] [] (s.setRing r rb)) ∧ rb.Inv (s.cap r) ∧
        rb.contents (s.cap r) = (s.contents r).drop ((s.contents r).length - 1)) ∧
    (∀ garbage rest, FirstSep (wireSep s.cfg.role r) (s.contents r) garbage rest → Partial s.cfg.maxPacket rest →
      ∃ rb, rb = s.consumed r garbage.length ∧ exec (.discover r) s = .next (finish .incomplete [] [] [] (s.setRing r rb)) ∧
        rb.Inv (s.cap r) ∧ rb.contents (s.cap r) = wireSep s.cfg.role r ++ rest)

/-- A length octet 0x80 or 0x89 and above, or a frame above MAX_PACKET, is rejected: what stands before the separator and
the separator itself are discarded, the rest stays (42_framer.md R122, R123; 70_reset_and_hazards.md R202). -/
def Obligations.DiscoverRejects : Prop :=
  ∀ (r : RingSel) (s : State) (c0 c1 : Byte) (garbage more : List Byte),
    r.present s.cfg = true → (s.ring r).Inv (s.cap r) →
    (∀ h : Byte, (h.toNat = 0x80 ∨ 0x89 ≤ h.toNat) →
      FirstSep (wireSep s.cfg.role r) (s.contents r) garbage (c0 :: c1 :: h :: more) →
      ∃ rb, rb = s.consumed r (garbage.length + 2) ∧
        exec (.discover r) s = .next (finish .invalidBerLength [] [] [] (s.setRing r rb)) ∧ rb.Inv (s.cap r) ∧
        rb.contents (s.cap r) = c0 :: c1 :: h :: more) ∧
    (∀ (len : List Byte) (n : Nat), BerForm len n → s.cfg.maxPacket < 2 + len.length + n →
      FirstSep (wireSep s.cfg.role r) (s.contents r) garbage ([c0, c1] ++ len ++ more) →
      ∃ rb, rb = s.consumed r (garbage.length + 2) ∧
        exec (.discover r) s = .next (finish .frameTooLarge [] [] [] (s.setRing r rb)) ∧ rb.Inv (s.cap r) ∧
        rb.contents (s.cap r) = [c0, c1] ++ len ++ more)

/-- Bytes that arrive later do not change what a decided cycle does: a cycle that ended with OK or a rejection ends the same
way, with the same SCR and RESULT, when more bytes stand behind (42_framer.md R126, R127). -/
def Obligations.DiscoverIgnoresLaterBytes : Prop :=
  ∀ (r : RingSel) (s t : State) (rb : Ring) (later : List Byte),
    (s.ring r).Inv (s.cap r) → rb.Inv (s.cap r) → rb.contents (s.cap r) = s.contents r ++ later →
    exec (.discover r) s = .next t → t.status = 0 ∨ t.status = 3 ∨ t.status = 13 →
    ∃ rb', exec (.discover r) (s.setRing r rb) = .next (t.setRing r rb') ∧ rb'.Inv (s.cap r) ∧
      rb'.contents (s.cap r) = t.contents r ++ later

/-- A repeated DISCOVER comes to an end: one that ends with OK or a rejection has consumed 2 bytes or more, and after
NoFrame or Incomplete another one changes nothing but the response (42_framer.md R125). -/
def Obligations.DiscoverMakesProgress : Prop :=
  ∀ (r : RingSel) (s t : State), r.present s.cfg = true → (s.ring r).Inv (s.cap r) → exec (.discover r) s = .next t →
    ((t.status = 0 ∨ t.status = 3 ∨ t.status = 13) → (t.contents r).length + 2 ≤ (s.contents r).length) ∧
    ((t.status = 11 ∨ t.status = 12) → exec (.discover r) t = .next t)

/-! ### Decoders -/

/-- DEC_CMDMSG and DEC_CMDRESULT report the length, set the destination to the whole body and move the source past the
message (43_decode.md R130, R132, R133). -/
def Obligations.DecodesCommandMessages : Prop :=
  ∀ (src dst : RdSel) (s : State) (body msg : List Byte) (at_ : Nat), at_ = (s.reader src).cur →
    s.scr.Holds at_ msg → at_ + msg.length ≤ (s.reader src).stop →
    (MsgForm .commandMessage body msg → exec (.decCmdmsg src dst) s = .next (finish .ok [body.length] [] []
      (s.decoded src dst msg.length (at_ + (msg.length - body.length)) (at_ + msg.length)))) ∧
    (MsgForm .commandResult body msg → exec (.decCmdresult src dst) s = .next (finish .ok [body.length] [] []
      (s.decoded src dst msg.length (at_ + (msg.length - body.length)) (at_ + msg.length))))

/-- DEC_TMSTATUS and DEC_TMEVENT report the length and the four numbers, in any BER form, and set the destination to the
parameters (43_decode.md R134, R135). -/
def Obligations.DecodesTelemetryMessages : Prop :=
  ∀ (src dst : RdSel) (s : State) (header params msg : List Byte) (n1 n2 n3 n4 at_ : Nat), at_ = (s.reader src).cur →
    s.scr.Holds at_ msg → at_ + msg.length ≤ (s.reader src).stop → FieldsForm header [n1, n2, n3, n4] →
    (MsgForm .tmStatusMessage (header ++ params) msg → exec (.decTmstatus src dst) s =
      .next (finish .ok [header.length + params.length, n1, n2, n3, n4] [] []
        (s.decoded src dst msg.length (at_ + (msg.length - params.length)) (at_ + msg.length)))) ∧
    (MsgForm .tmEventMessage (header ++ params) msg → exec (.decTmevent src dst) s =
      .next (finish .ok [header.length + params.length, n1, n2, n3, n4] [] []
        (s.decoded src dst msg.length (at_ + (msg.length - params.length)) (at_ + msg.length))))

/-- DEC_ADDRESS reports the length and the nine address values, an absent one as 0, and sets the destination to the payload
(43_decode.md R136, 30_encoding.md R71). -/
def Obligations.DecodesAddressPackets : Prop :=
  ∀ (src dst : RdSel) (s : State) (msg payload : List Byte) (vals : List Nat) (at_ : Nat), at_ = (s.reader src).cur →
    s.scr.Holds at_ msg → at_ + msg.length ≤ (s.reader src).stop → AddressForm msg vals payload →
    ∃ len body, MsgForm .addressPacket body msg ∧ len = body.length ∧
      exec (.decAddress src dst) s = .next (finish .ok (len :: vals) [] []
        (s.decoded src dst msg.length (at_ + (msg.length - payload.length)) (at_ + msg.length)))

/-- DEC_EXCHANGE reports the header values and the trailer and sets the destination to the payload between them
(43_decode.md R129, R137). -/
def Obligations.DecodesExchangePackets : Prop :=
  ∀ (src dst : RdSel) (s : State) (msg payload trailer : List Byte) (rsv st ws seq at_ : Nat) (ect : Ect),
    at_ = (s.reader src).cur → s.scr.Holds at_ msg → at_ + msg.length ≤ (s.reader src).stop →
    PacketForm .exchangePacket rsv st ect [ws, seq] payload trailer msg → ws ≤ 32767 → seq ≤ 65535 →
    ∃ len body, MsgForm .exchangePacket body msg ∧ len = body.length ∧
      exec (.decExchange src dst) s =
        .next (finish .ok [len, rsv, st, if ect = .crc16 then 1 else 2, ws, seq] trailer []
          (s.decoded src dst msg.length (at_ + (msg.length - trailer.length - payload.length))
            (at_ + (msg.length - trailer.length))))

/-- DEC_COUNTERADJ and DEC_RECEIPT report the header values, the counter and the trailer; bytes between the counter and the
trailer are ignored (43_decode.md R138, R139). -/
def Obligations.DecodesCounterPackets : Prop :=
  ∀ (src : RdSel) (s : State) (msg extra trailer : List Byte) (rsv st ctr at_ : Nat) (ect : Ect),
    at_ = (s.reader src).cur → s.scr.Holds at_ msg → at_ + msg.length ≤ (s.reader src).stop → ctr ≤ 65535 →
    (PacketForm .counterAdjustmentPacket rsv st ect [ctr] extra trailer msg →
      ∃ len body, MsgForm .counterAdjustmentPacket body msg ∧ len = body.length ∧
        exec (.decCounteradj src) s =
          .next (finish .ok [len, rsv, st, if ect = .crc16 then 1 else 2, ctr] trailer []
            (s.setReader src { s.reader src with cur := at_ + msg.length }))) ∧
    (PacketForm .receiptPacket rsv st ect [ctr] extra trailer msg →
      ∃ len body, MsgForm .receiptPacket body msg ∧ len = body.length ∧
        exec (.decReceipt src) s =
          .next (finish .ok [len, rsv, st, if ect = .crc16 then 1 else 2, ctr] trailer []
            (s.setReader src { s.reader src with cur := at_ + msg.length })))

/-- A decoder that meets another code raises InvalidDataHeader, whatever follows the code, and one that has fewer than two
bytes left raises UnexpectedEndOfStream (43_decode.md R128, R131). -/
def Obligations.DecodersCheckTheCodeFirst : Prop :=
  ∀ (src dst : RdSel) (s : State) (b0 b1 : Byte) (k : Kind) (i : Instr),
    (k, i) ∈ [(Kind.commandMessage, Instr.decCmdmsg src dst), (.commandResult, .decCmdresult src dst),
      (.tmStatusMessage, .decTmstatus src dst), (.tmEventMessage, .decTmevent src dst),
      (.addressPacket, .decAddress src dst), (.exchangePacket, .decExchange src dst),
      (.counterAdjustmentPacket, .decCounteradj src), (.receiptPacket, .decReceipt src)] →
    (s.scr.Holds (s.reader src).cur [b0, b1] → (s.reader src).cur + 2 ≤ (s.reader src).stop → [b0, b1] ≠ wireCode k →
      exec i s = .next (raise .invalidDataHeader s)) ∧
    ((s.reader src).stop < (s.reader src).cur + 2 → exec i s = .next (raise .unexpectedEndOfStream s))

/-- DEC_EXCHANGE checks a value as soon as it has read it: streamType, then errorControlType, then windowSize, then the
sequence counter (43_decode.md R129, R131, R137). -/
def Obligations.DecExchangeChecksInByteOrder : Prop :=
  ∀ (src dst : RdSel) (s : State) (msg header more : List Byte) (rsv st e ws seq : Nat),
    MsgForm .exchangePacket (header ++ more) msg → s.scr.Holds (s.reader src).cur msg →
    (s.reader src).cur + msg.length ≤ (s.reader src).stop →
    (FieldsForm header [rsv, st] → 1 < st → exec (.decExchange src dst) s = .next (raise .invalidStreamType s)) ∧
    (FieldsForm header [rsv, st, e] → st ≤ 1 → e ≠ 1 → e ≠ 2 →
      exec (.decExchange src dst) s = .next (raise .invalidErrorControlType s)) ∧
    (FieldsForm header [rsv, st, e, ws] → st ≤ 1 → e = 1 ∨ e = 2 → 2 * e ≤ more.length → 32767 < ws →
      exec (.decExchange src dst) s = .next (raise .invalidWindowSize s)) ∧
    (FieldsForm header [rsv, st, e, ws, seq] → st ≤ 1 → e = 1 ∨ e = 2 → 2 * e ≤ more.length → ws ≤ 32767 → 65535 < seq →
      exec (.decExchange src dst) s = .next (raise .invalidSequenceCounter s))

/-! ### Encoders -/

/-- The BEGIN commands of the kinds with a DataHeader open a frame with the minimal forms of their values; BEGIN_ADDRESS
writes only the fields its type carries (44_encode.md R143, R145 to R149). -/
def Obligations.BeginsDataHeaderFrames : Prop :=
  ∀ (s : State) (a b c d e f g h j : U64), s.fstack.length < 4 →
    (s.w0.cur + 3 ≤ s.w0.stop →
      OpensFrame .beginCmdmsg .commandMessage [] none s ∧ OpensFrame .beginCmdresult .commandResult [] none s) ∧
    (∀ header, header = berMin a.toNat ++ berMin b.toNat ++ berMin c.toNat ++ berMin d.toNat →
      s.w0.cur + 3 + header.length ≤ s.w0.stop →
      OpensFrame (.beginTmstatus a b c d) .tmStatusMessage header none s ∧
      OpensFrame (.beginTmevent a b c d) .tmEventMessage header none s) ∧
    (∀ header, header = ((addressFields a.toNat b.toNat c.toNat d.toNat e.toNat f.toNat g.toNat h.toNat j.toNat).map
        berMin).flatten →
      a = 3 ∨ a = 4 ∨ a = 6 → s.w0.cur + 3 + header.length ≤ s.w0.stop →
      OpensFrame (.beginAddress a b c d e f g h j) .addressPacket header none s)

/-- The BEGIN commands of the kinds with a PacketHeader write reserved = 1 and their values, and reserve the trailer
(44_encode.md R143, R150 to R152). -/
def Obligations.BeginsPacketHeaderFrames : Prop :=
  ∀ (s : State) (st e ws ctr : U64) (ect : Ect), s.fstack.length < 4 → st = 0 ∨ st = 1 →
    (e = 1 ∧ ect = .crc16 ∨ e = 2 ∧ ect = .reedSolomon) → ctr.toNat ≤ 65535 →
    (∀ header, header = [0x01] ++ [st.setWidth 8] ++ [e.setWidth 8] ++ berMin ws.toNat ++ berMin ctr.toNat →
      ws.toNat ≤ 32767 → s.w0.cur + 3 + header.length + 2 * e.toNat ≤ s.w0.stop →
      OpensFrame (.beginExchange st e ws ctr) .exchangePacket header (some ect) s) ∧
    (∀ header, header = [0x01] ++ [st.setWidth 8] ++ [e.setWidth 8] ++ berMin ctr.toNat →
      s.w0.cur + 3 + header.length + 2 * e.toNat ≤ s.w0.stop →
      OpensFrame (.beginCounteradj st e ctr) .counterAdjustmentPacket header (some ect) s ∧
      OpensFrame (.beginReceipt st e ctr) .receiptPacket header (some ect) s)

/-- A BEGIN command raises the first of: a value out of range (addressType; streamType, errorControlType, windowSize and
the counter, in this order), FrameStackError with four frames open, NotEnoughSpace for code, placeholder, header and
trailer (44_encode.md R144 to R152). -/
def Obligations.BeginChecksInOrder : Prop :=
  ∀ (s : State) (a b c d e f g h j st ect ws seq ctr : U64),
    (a ≠ 3 → a ≠ 4 → a ≠ 6 → exec (.beginAddress a b c d e f g h j) s = .next (raise .invalidAddressType s)) ∧
    (st ≠ 0 → st ≠ 1 → exec (.beginExchange st ect ws seq) s = .next (raise .invalidStreamType s)) ∧
    (st = 0 ∨ st = 1 → ect ≠ 1 → ect ≠ 2 →
      exec (.beginExchange st ect ws seq) s = .next (raise .invalidErrorControlType s)) ∧
    (st = 0 ∨ st = 1 → ect = 1 ∨ ect = 2 → 32767 < ws.toNat →
      exec (.beginExchange st ect ws seq) s = .next (raise .invalidWindowSize s)) ∧
    (st = 0 ∨ st = 1 → ect = 1 ∨ ect = 2 → ws.toNat ≤ 32767 → 65535 < seq.toNat →
      exec (.beginExchange st ect ws seq) s = .next (raise .invalidSequenceCounter s)) ∧
    (∀ i : Instr, i = .beginCounteradj st ect ctr ∨ i = .beginReceipt st ect ctr →
      (st ≠ 0 → st ≠ 1 → exec i s = .next (raise .invalidStreamType s)) ∧
      (st = 0 ∨ st = 1 → ect ≠ 1 → ect ≠ 2 → exec i s = .next (raise .invalidErrorControlType s)) ∧
      (st = 0 ∨ st = 1 → ect = 1 ∨ ect = 2 → 65535 < ctr.toNat → exec i s = .next (raise .invalidSequenceCounter s))) ∧
    (∀ (i : Instr) (header : List Byte) (x : Option Ect), BeginForm i header x →
      (s.fstack.length = 4 → exec i s = .next (raise .frameStackError s)) ∧
      (s.fstack.length < 4 → s.w0.stop < s.w0.cur + 3 + header.length + frameTrailer x →
        exec i s = .next (raise .notEnoughSpace s)))

/-- END_FRAME closes the newest frame: the length goes into its field in minimal form, the body moves to stand behind it,
the trailer over code, length and body follows, and W0.end is restored (44_encode.md R153). -/
def Obligations.EndFrameClosesTheNewest : Prop :=
  ∀ (s : State) (e : FrameEntry) (rest : List FrameEntry) (c0 c1 : Byte) (body tr : List Byte) (len : Nat),
    s.fstack = e :: rest → e.bodyStart = e.start + 3 → e.trailer = frameTrailer e.ect →
    s.asm.Holds e.start [c0, c1] → s.asm.Holds e.bodyStart body → s.w0.cur = e.bodyStart + body.length →
    len = body.length + e.trailer → 2 + (berMin len).length + len ≤ s.cfg.maxPacket →
    e.start + 2 + (berMin len).length + len ≤ e.savedEnd →
    (e.ect = none → tr = []) →
    (∀ x, e.ect = some x → tr = trailerFn s.cfg.trailer x ([c0, c1] ++ berMin len ++ body)) →
    ∃ m, s.asm.Stores m e.start ([c0, c1] ++ berMin len ++ body ++ tr) ∧
      exec .endFrame s = .next (finish .ok [2 + (berMin len).length + len] [] [] { s with
        asm := m
        w0 := { s.w0 with cur := e.start + 2 + (berMin len).length + len, stop := e.savedEnd }
        fstack := rest })

/-- END_FRAME of a frame above MAX_PACKET, or of one whose length field does not fit, ends with `finish`: the frame leaves
the writer and the stack; with no frame open it raises (44_encode.md R153, 60_exceptions.md R178; log 17). -/
def Obligations.EndFrameDropsWhatDoesNotFit : Prop :=
  (∀ (s : State) (e : FrameEntry) (rest : List FrameEntry) (len : Nat) (u : State), s.fstack = e :: rest →
    len = (s.w0.cur - e.bodyStart) + e.trailer →
    u = { s with w0 := { s.w0 with cur := e.start, stop := e.savedEnd }, fstack := rest } →
    (s.cfg.maxPacket < 2 + (berMin len).length + len → exec .endFrame s = .next (finish .frameTooLarge [] [] [] u)) ∧
    (2 + (berMin len).length + len ≤ s.cfg.maxPacket →
      e.savedEnd < s.w0.cur + ((berMin len).length - 1) + e.trailer →
      exec .endFrame s = .next (finish .notEnoughSpace [] [] [] u))) ∧
  (∀ s : State, s.fstack = [] → exec .endFrame s = .next (raise .frameStackError s))

/-- Frame round trip: the frame that BEGIN, WR_BYTES and END_FRAME build, taken and loaded into SCR, decodes to the values
given to BEGIN, with a payload view of exactly the bytes written and the trailer of TrailerFn (44_encode.md R155). -/
def Obligations.FrameRoundTrip : Prop :=
  ∀ (s : State) (begin_ dec : Instr) (vals : List Nat) (header body : List Byte) (ect : Option Ect) (len : Nat),
    s.cfg.wf = true → s.fstack = [] → s.w0.start = s.w0.cur → s.w0.cur + s.cfg.maxPacket ≤ s.w0.stop →
    ((begin_ = .beginCmdmsg ∧ dec = .decCmdmsg .r0 .r1 ∧ vals = [] ∧ header = [] ∧ ect = none) ∨
     (begin_ = .beginCmdresult ∧ dec = .decCmdresult .r0 .r1 ∧ vals = [] ∧ header = [] ∧ ect = none) ∨
     (∃ a b c d : U64, (begin_ = .beginTmstatus a b c d ∧ dec = .decTmstatus .r0 .r1 ∨
        begin_ = .beginTmevent a b c d ∧ dec = .decTmevent .r0 .r1) ∧
       vals = [a.toNat, b.toNat, c.toNat, d.toNat] ∧ header = (vals.map berMin).flatten ∧ ect = none) ∨
     (∃ a b c d e f g h j : U64, begin_ = .beginAddress a b c d e f g h j ∧ dec = .decAddress .r0 .r1 ∧
       (a = 3 ∨ a = 4 ∨ a = 6) ∧
       vals = [a.toNat, b.toNat, c.toNat, d.toNat, if a = 3 then 0 else e.toNat, if a = 6 then f.toNat else 0,
         if a = 6 then g.toNat else 0, h.toNat, j.toNat] ∧
       header = ((addressFields a.toNat b.toNat c.toNat d.toNat e.toNat f.toNat g.toNat h.toNat j.toNat).map
         berMin).flatten ∧ ect = none) ∨
     (∃ (st ws seq : U64) (x : Ect), begin_ = .beginExchange st (BitVec.ofNat 64 (ectCode x)) ws seq ∧
       dec = .decExchange .r0 .r1 ∧ (st = 0 ∨ st = 1) ∧ ws.toNat ≤ 32767 ∧ seq.toNat ≤ 65535 ∧
       vals = [1, st.toNat, ectCode x, ws.toNat, seq.toNat] ∧ header = (vals.map berMin).flatten ∧ ect = some x)) →
    len = header.length + body.length + frameTrailer ect → 2 + (berMin len).length + len ≤ s.cfg.maxPacket →
    ∃ (t u v : State) (frame : List Byte), execAll [begin_, .wrBytes body, .endFrame] s = .next t ∧
      exec .asmTake t = .next u ∧ u.resp = some ⟨.ok, [], frame, []⟩ ∧
      frame.length = 2 + (berMin len).length + len ∧
      execAll [.scrLoad frame, dec] u = .next v ∧
      v.resp = some ⟨.ok, len :: vals, match ect with
        | none => []
        | some x => trailerFn s.cfg.trailer x (frame.take (frame.length - frameTrailer ect)), []⟩ ∧
      v.scr.Holds v.r1.cur body ∧ v.r1.stop = v.r1.cur + body.length

/-! ### The agent unit -/

/-- A send builds the frame in AGB (from cell 0 on: log 13), appends the separator of the peer and the frame to OUT as
RB_WRITE does, advances OUT_CTR modulo 2^16, notes the counter sent and, on a Gc, clears READY_TO_SEND (45_agent.md R158,
R166 to R169). -/
def Obligations.SendsQueueTheFrame : Prop :=
  ∀ (s : State) (ws src sc dc da sg dg tst ts : U64) (payload : List Byte) (i : Instr) (vals : List Nat)
    (frame : List Byte),
    s.cfg.hasAgent = true → s.outRing.Inv s.cfg.capOut →
    (i = .agSendNetwork ws src sc dc da tst ts payload ∧
        vals = [4, src.toNat, sc.toNat, dc.toNat, da.toNat, tst.toNat, ts.toNat] ∨
     i = .agSendGroup ws src sc dc da sg dg tst ts payload ∧
        vals = [6, src.toNat, sc.toNat, dc.toNat, da.toNat, sg.toNat, dg.toNat, tst.toNat, ts.toNat] ∨
     i = .agSendMulticast ws src sc dc tst ts payload ∧
        vals = [3, src.toNat, sc.toNat, dc.toNat, tst.toNat, ts.toNat]) →
    frame = sentFrame s ws.toNat vals payload →
    (ws.toNat ≤ 32767 → frame.length ≤ s.cfg.maxPacket →
      ∃ rb agb, exec i s = .next (finish .ok [s.outCtr.toNat, frame.length] [] [] { s with
          outRing := rb
          agb := agb
          lastSent := s.outCtr
          lastSentValid := true
          outCtr := s.outCtr + 1
          readyToSend := if s.cfg.role = .gc then false else s.readyToSend }) ∧
        s.agb.Stores agb 0 frame ∧ rb.Inv s.cfg.capOut ∧
        exec (.rbWrite .outb (wireSep s.cfg.role .outb ++ frame)) s = .next (finish .ok [] [] [] (s.setRing .outb rb)) ∧
        (∀ all, all = s.contents .outb ++ wireSep s.cfg.role .outb ++ frame →
          rb.contents s.cfg.capOut = all.drop (all.length - s.cfg.capOut))) ∧
    (32767 < ws.toNat → exec i s = .next (raise .invalidWindowSize s)) ∧
    (ws.toNat ≤ 32767 → s.cfg.maxPacket < frame.length → exec i s = .next (raise .frameTooLarge s))

/-- The frame that each of the three sends queues is the one a host builds with the BEGIN commands, WR_BYTES, END_FRAME and
ASM_COMMIT: the two leave the same OUT ring (45_agent.md R158, R166 to R169). -/
def Obligations.SendEqualsHostBuiltFrame : Prop :=
  ∀ (s t : State) (ws src sc dc da sg dg tst ts : U64) (payload : List Byte) (send address : Instr),
    (send = .agSendNetwork ws src sc dc da tst ts payload ∧ address = .beginAddress 4 src sc dc da 0 0 tst ts ∨
     send = .agSendGroup ws src sc dc da sg dg tst ts payload ∧ address = .beginAddress 6 src sc dc da sg dg tst ts ∨
     send = .agSendMulticast ws src sc dc tst ts payload ∧ address = .beginAddress 3 src sc dc 0 0 0 tst ts) →
    s.fstack = [] → s.w0.start = s.w0.cur → s.w0.cur + s.cfg.maxPacket + 2 ≤ s.w0.stop →
    exec send s = .next t → t.status = 0 →
    ∃ u, execAll [.wrU16be (if s.cfg.role = .gc then 0x4f07 else 0xacac),
        .beginExchange (if s.cfg.role = .gc then 0 else 1) (if s.cfg.outEct = .crc16 then 1 else 2) ws
          (s.outCtr.setWidth 64),
        address, .wrBytes payload, .endFrame, .endFrame, .asmCommit .outb] s = .next u ∧
      u.outRing = t.outRing

/-- Sequence gating, in sequence: a Uav that takes a command ExchangePacket with the counter it expects advances
CMD_IN_CTR modulo 2^16 and reports one ADDRESS event for each AddressPacket of the payload, in order (45_agent.md
R161, R170). -/
def Obligations.UavHandlesCommandsInSequence : Prop :=
  ∀ (s : State) (garbage frame rest payload trailer : List Byte) (rsv ws : Nat) (ect : Ect)
    (packets : List (List Byte × List Nat × List Byte)),
    s.cfg.hasAgent = true → s.cfg.role = .uav → s.inRing.Inv s.cfg.capIn →
    FirstSep [0x4F, 0x07] (s.contents .inb) garbage (frame ++ rest) → frame.length ≤ s.cfg.maxPacket →
    PacketForm .exchangePacket rsv 0 ect [ws, s.cmdInCtr.toNat] payload trailer frame → ws ≤ 32767 →
    payload = (packets.map (·.1)).flatten → (∀ p ∈ packets, AddressForm p.1 p.2.1 p.2.2) →
    ∃ rb m, rb = s.consumed .inb (garbage.length + 2 + frame.length) ∧
      exec .agHandle s = .next (finish .ok [0x6c5a, frame.length] trailer
        (packets.map fun p => ⟨.address, p.2.1, p.2.2⟩)
        { s.took .inb rb m frame.length with cmdInCtr := s.cmdInCtr + 1 }) ∧
      rb.Inv s.cfg.capIn ∧ rb.contents s.cfg.capIn = rest ∧ s.scr.Stores m 0 frame

/-- Sequence gating, out of sequence: the packet is not dispatched, CMD_IN_CTR stays, and a CounterAdjustmentPacket with the
expected counter is built in AGB (from cell 0 on: log 13) and queued in OUT as RB_WRITE does (45_agent.md R158, R161,
R170). -/
def Obligations.UavAnswersAGapWithCounterAdjustment : Prop :=
  ∀ (s : State) (garbage frame rest payload trailer pre : List Byte) (rsv ws seq : Nat) (ect : Ect),
    s.cfg.hasAgent = true → s.cfg.role = .uav → s.inRing.Inv s.cfg.capIn → s.outRing.Inv s.cfg.capOut →
    FirstSep [0x4F, 0x07] (s.contents .inb) garbage (frame ++ rest) → frame.length ≤ s.cfg.maxPacket →
    PacketForm .exchangePacket rsv 0 ect [ws, seq] payload trailer frame → ws ≤ 32767 → seq ≤ 65535 →
    seq ≠ s.cmdInCtr.toNat →
    pre = [0x6C, 0x5B] ++
      berMin (3 + (berMin s.cmdInCtr.toNat).length + if s.cfg.outEct = .crc16 then 2 else 4) ++
      [0x01, 0x00, if s.cfg.outEct = .crc16 then 0x01 else 0x02] ++ berMin s.cmdInCtr.toNat →
    ∀ x, x = pre ++ trailerFn s.cfg.trailer s.cfg.outEct pre →
    ∃ rb m out agb, rb = s.consumed .inb (garbage.length + 2 + frame.length) ∧
      exec .agHandle s =
        .next (finish .sequenceMismatch [0x6c5a, frame.length, s.cmdInCtr.toNat, seq] trailer []
          { s.took .inb rb m frame.length with outRing := out, agb := agb }) ∧
      rb.Inv s.cfg.capIn ∧ rb.contents s.cfg.capIn = rest ∧ s.scr.Stores m 0 frame ∧ s.agb.Stores agb 0 x ∧
      exec (.rbWrite .outb ([0xAC, 0xAC] ++ x)) s = .next (finish .ok [] [] [] (s.setRing .outb out)) ∧
      out.Inv s.cfg.capOut ∧
      (∀ all, all = s.contents .outb ++ [0xAC, 0xAC] ++ x →
        out.contents s.cfg.capOut = all.drop (all.length - s.cfg.capOut))

/-- A CounterAdjustmentPacket sets CMD_IN_CTR of a Uav without a check of its streamType, and is an event on a Gc that
changes no register (45_agent.md R161, R162). -/
def Obligations.CounterAdjustmentIsHandled : Prop :=
  ∀ (s : State) (garbage frame rest extra trailer : List Byte) (rsv st ctr : Nat) (ect : Ect),
    s.cfg.hasAgent = true → s.inRing.Inv s.cfg.capIn →
    FirstSep (wireSep s.cfg.role .inb) (s.contents .inb) garbage (frame ++ rest) → frame.length ≤ s.cfg.maxPacket →
    PacketForm .counterAdjustmentPacket rsv st ect [ctr] extra trailer frame → ctr ≤ 65535 →
    ∃ rb m, rb = s.consumed .inb (garbage.length + 2 + frame.length) ∧
      exec .agHandle s = .next (finish .ok [0x6c5b, frame.length] trailer
        (if s.cfg.role = .gc then [⟨.counterAdj, [ctr], []⟩] else [])
        { s.took .inb rb m frame.length with
          cmdInCtr := if s.cfg.role = .uav then BitVec.ofNat 16 ctr else s.cmdInCtr }) ∧
      rb.Inv s.cfg.capIn ∧ rb.contents s.cfg.capIn = rest ∧ s.scr.Stores m 0 frame

/-- Receipt gating: a command-stream ReceiptPacket on a Gc sets READY_TO_SEND when its counter is that of the last send,
leaves it alone otherwise, and is reported either way (45_agent.md R163, R171). -/
def Obligations.GcHandlesReceipts : Prop :=
  ∀ (s : State) (garbage frame rest extra trailer : List Byte) (rsv last : Nat) (ect : Ect) (hit : Bool),
    s.cfg.hasAgent = true → s.cfg.role = .gc → s.inRing.Inv s.cfg.capIn →
    FirstSep [0xAC, 0xAC] (s.contents .inb) garbage (frame ++ rest) → frame.length ≤ s.cfg.maxPacket →
    PacketForm .receiptPacket rsv 0 ect [last] extra trailer frame → last ≤ 65535 →
    (hit = true ↔ s.lastSentValid = true ∧ last = s.lastSent.toNat) →
    ∃ rb m, rb = s.consumed .inb (garbage.length + 2 + frame.length) ∧
      exec .agHandle s = .next (finish .ok [0x3c5c, frame.length] trailer
        [⟨.receipt, [last, if hit then 1 else 0], []⟩]
        { s.took .inb rb m frame.length with readyToSend := hit || s.readyToSend }) ∧
      rb.Inv s.cfg.capIn ∧ rb.contents s.cfg.capIn = rest ∧ s.scr.Stores m 0 frame

/-- Telemetry: a Gc that takes a telemetry ExchangePacket appends the payloads of its AddressPackets to TM, of which the
newest CAP_TM bytes stay, advances TM_CTR whatever the counter, reports a counter that differs, and scans TM: each whole
sub-frame, wherever the AddressPackets split it, is reported, one that fails as SUBFRAME_ERROR, and one not yet whole stays
in TM for the next packet. SCR holds the last sub-frame taken, or the ExchangePacket (45_agent.md R162, R164;
30_encoding.md R76). -/
def Obligations.GcHandlesTelemetry : Prop :=
  ∀ (s : State) (garbage frame rest payload trailer stream left : List Byte) (rsv ws seq added : Nat) (ect : Ect)
    (packets : List (List Byte × List Nat × List Byte)) (frames : List (List Byte)) (events : List Event),
    s.cfg.hasAgent = true → s.cfg.role = .gc → s.inRing.Inv s.cfg.capIn → s.tmRing.Inv s.cfg.capTm →
    s.cfg.maxPacket ≤ s.cfg.capTm →
    FirstSep [0xAC, 0xAC] (s.contents .inb) garbage (frame ++ rest) → frame.length ≤ s.cfg.maxPacket →
    PacketForm .exchangePacket rsv 1 ect [ws, seq] payload trailer frame → ws ≤ 32767 → seq ≤ 65535 →
    payload = (packets.map (·.1)).flatten → (∀ p ∈ packets, AddressForm p.1 p.2.1 p.2.2) →
    stream = s.contents .tm ++ (packets.map (·.2.2)).flatten → added = (packets.map (·.2.2)).flatten.length →
    TmScan s.cfg.maxPacket (stream.drop (stream.length - s.cfg.capTm)) frames events left →
    ∃ rb tm m last, last = frames.getLast?.getD frame ∧ rb = s.consumed .inb (garbage.length + 2 + frame.length) ∧
      exec .agHandle s = .next (finish .ok [0x6c5a, frame.length] trailer
        ((if seq = s.tmCtr.toNat then [] else [⟨.tmSeqMismatch, [s.tmCtr.toNat, seq], []⟩]) ++ events)
        { s.took .inb rb m last.length with tmRing := tm, tmCtr := s.tmCtr + 1 }) ∧
      rb.Inv s.cfg.capIn ∧ rb.contents s.cfg.capIn = rest ∧ tm.Inv s.cfg.capTm ∧ tm.contents s.cfg.capTm = left ∧
      tm.wr = (s.tmRing.wr + added) % s.cfg.capTm ∧
      (∀ a, (∀ k, k < added → a ≠ (s.tmRing.wr + k) % s.cfg.capTm) → tm.data.read a = s.tmRing.data.read a) ∧
      m.Holds 0 last ∧ ∀ a, (∀ f ∈ frame :: frames, f.length ≤ a) → m.read a = s.scr.read a

/-- A failing AG_HANDLE emits no event and changes no agent register and not TM, and only SequenceMismatch changes OUT; one
that takes no frame is DISCOVER IN (45_agent.md R159, R165). -/
def Obligations.FailingHandleKeepsTheAgent : Prop :=
  (∀ s t : State, exec .agHandle s = .next t → t.status ≠ 0 →
    t.cmdInCtr = s.cmdInCtr ∧ t.tmCtr = s.tmCtr ∧ t.outCtr = s.outCtr ∧ t.lastSent = s.lastSent ∧
    t.lastSentValid = s.lastSentValid ∧ t.readyToSend = s.readyToSend ∧ t.tmRing = s.tmRing ∧
    (t.resp.map (·.events)).getD [] = [] ∧ (t.status ≠ 14 → t.outRing = s.outRing)) ∧
  (∀ s t : State, s.cfg.hasAgent = true → exec (.discover .inb) s = .next t → t.status ≠ 0 → exec .agHandle s = .next t)

/-! ### What the decoders and AG_HANDLE reject -/

/-- Every decoder raises the first failure in byte order and moves no cursor: of the code, of the length, of each field and
its range, of a body shorter than its trailer (43_decode.md R128, R129, R131 to R139, R142). -/
def Obligations.DecodersRaiseTheFirstFailure : Prop :=
  ∀ (src dst : RdSel) (s : State) (k : Kind) (i : Instr) (bytes : List Byte) (e : Status),
    (k, i) ∈ [(Kind.commandMessage, Instr.decCmdmsg src dst), (.commandResult, .decCmdresult src dst),
      (.tmStatusMessage, .decTmstatus src dst), (.tmEventMessage, .decTmevent src dst),
      (.addressPacket, .decAddress src dst), (.exchangePacket, .decExchange src dst),
      (.counterAdjustmentPacket, .decCounteradj src), (.receiptPacket, .decReceipt src)] →
    s.scr.Holds (s.reader src).cur bytes → (s.reader src).stop = (s.reader src).cur + bytes.length →
    MsgFails k bytes e → exec i s = .next (raise e s)

/-- When AG_HANDLE fails on a frame it took: a code the role has no handler for, a body its decoder rejects, the wrong stream,
and a payload that is not a sequence of AddressPackets each end it with `finish`; the frame stays consumed, no event is
emitted, nothing else changes, and the trailer is reported if the packet decoded (45_agent.md R159 to R163, R165). -/
def Obligations.HandleFailuresFinish : Prop :=
  ∀ (s : State) (garbage frame rest len body : List Byte) (c0 c1 : Byte),
    s.cfg.hasAgent = true → s.inRing.Inv s.cfg.capIn →
    FirstSep (wireSep s.cfg.role .inb) (s.contents .inb) garbage (frame ++ rest) →
    frame = [c0, c1] ++ len ++ body → BerForm len body.length → frame.length ≤ s.cfg.maxPacket →
    ∃ rb m, rb = s.consumed .inb (garbage.length + 2 + frame.length) ∧ rb.contents s.cfg.capIn = rest ∧
      s.scr.Stores m 0 frame ∧ ∀ (result : List Nat) (t : State),
      result = [c0.toNat * 256 + c1.toNat, frame.length] → t = s.took .inb rb m frame.length →
      ([c0, c1] ≠ wireCode .exchangePacket → [c0, c1] ≠ wireCode .counterAdjustmentPacket →
        (s.cfg.role = .gc → [c0, c1] ≠ wireCode .receiptPacket) →
        exec .agHandle s = .next (finish .invalidDataHeader result [] [] t)) ∧
      (∀ k e, k = .exchangePacket ∨ k = .counterAdjustmentPacket ∨ (k = .receiptPacket ∧ s.cfg.role = .gc) →
        [c0, c1] = wireCode k → BodyFails k body e → exec .agHandle s = .next (finish e result [] [] t)) ∧
      (∀ rsv st ect ws seq payload trailer, PacketForm .exchangePacket rsv st ect [ws, seq] payload trailer frame →
        ws ≤ 32767 → seq ≤ 65535 →
        (st ≠ (if s.cfg.role = .uav then 0 else 1) →
          exec .agHandle s = .next (finish .unexpectedStream result trailer [] t)) ∧
        (∀ (good : List (List Byte × List Nat × List Byte)) (bad : List Byte) (e : Status),
          st = (if s.cfg.role = .uav then 0 else 1) → (s.cfg.role = .uav → seq = s.cmdInCtr.toNat) →
          payload = (good.map (·.1)).flatten ++ bad → (∀ p ∈ good, AddressForm p.1 p.2.1 p.2.2) → bad ≠ [] →
          MsgFails .addressPacket bad e → exec .agHandle s = .next (finish e result trailer [] t))) ∧
      (∀ rsv ect last extra trailer, PacketForm .receiptPacket rsv 1 ect [last] extra trailer frame → last ≤ 65535 →
        s.cfg.role = .gc → exec .agHandle s = .next (finish .unexpectedStream result trailer [] t))

end Statements
end

