-- ==== Sys2Proof/Laws/Memory.lean ====
section
/-! SUPPORT. Buffers: a read after a write, the canonical form, and what `collect`, `memRead` and `memWrite` do. -/

namespace Sys2Proof.Machine

/-! ### One cell -/

theorem Memory.read_write_self (m : Memory) (a : Nat) (v : Byte) : (m.write a v).read a = some v := by
  induction m with
  | nil => simp [Memory.write, Memory.read]
  | cons c rest ih =>
    obtain ⟨k, b⟩ := c
    simp only [Memory.write]
    split
    · simp [Memory.read]
    · split
      · simp [Memory.read]
      · rename_i h1 h2
        simp [Memory.read, h2, ih]

theorem Memory.read_write_other (m : Memory) (a b : Nat) (v : Byte) (h : b ≠ a) : (m.write a v).read b = m.read b := by
  induction m with
  | nil => simp [Memory.write, Memory.read, h]
  | cons c rest ih =>
    obtain ⟨k, x⟩ := c
    simp only [Memory.write]
    split
    · simp [Memory.read, h]
    · split
      · rename_i h1 h2
        subst h2
        simp [Memory.read, h]
      · simp [Memory.read, ih]

theorem Memory.read_write (m : Memory) (a b : Nat) (v : Byte) :
    (m.write a v).read b = if b = a then some v else m.read b := by
  split
  · subst b; exact read_write_self m a v
  · exact read_write_other m a b v ‹_›

/-! ### The canonical form -/

theorem Memory.risingFrom_mono {lo lo' : Nat} {m : Memory} (h : Memory.risingFrom lo m = true) (hl : lo' ≤ lo) :
    Memory.risingFrom lo' m = true := by
  cases m with
  | nil => rfl
  | cons c rest =>
    simp only [Memory.risingFrom, Bool.and_eq_true, decide_eq_true_eq] at h ⊢
    exact ⟨by omega, h.2⟩

theorem Memory.risingFrom_write {lo a : Nat} {m : Memory} {v : Byte} (h : Memory.risingFrom lo m = true) (ha : lo ≤ a) :
    Memory.risingFrom lo (m.write a v) = true := by
  induction m generalizing lo with
  | nil => simp [Memory.write, Memory.risingFrom, ha]
  | cons c rest ih =>
    obtain ⟨k, b⟩ := c
    simp only [Memory.risingFrom, Bool.and_eq_true, decide_eq_true_eq] at h
    simp only [Memory.write]
    split
    · rename_i h1
      simp [Memory.risingFrom, ha, h.2, h1]
    · split
      · rename_i h2
        subst h2
        simp [Memory.risingFrom, ha, h.2]
      · simp only [Memory.risingFrom, Bool.and_eq_true, decide_eq_true_eq]
        exact ⟨h.1, ih h.2 (by omega)⟩

theorem Memory.wf_write {m : Memory} (a : Nat) (v : Byte) (h : m.wf = true) : (m.write a v).wf = true :=
  risingFrom_write h (Nat.zero_le a)

theorem Memory.mem_write {m : Memory} {a : Nat} {v : Byte} {c : Host.Cell} (h : c ∈ m.write a v) :
    c = (a, v) ∨ c ∈ m := by
  induction m with
  | nil => simpa [Memory.write] using h
  | cons d rest ih =>
    obtain ⟨k, b⟩ := d
    simp only [Memory.write] at h
    split at h
    · simpa using h
    · split at h
      · simp only [List.mem_cons] at h ⊢
        tauto
      · simp only [List.mem_cons] at h ⊢
        rcases h with h | h
        · tauto
        · rcases ih h with h | h <;> tauto

theorem Memory.Inv_write {size a : Nat} {m : Memory} (v : Byte) (h : m.Inv size) (ha : a < size) :
    (m.write a v).Inv size := by
  refine ⟨wf_write a v h.1, fun c hc => ?_⟩
  rcases mem_write hc with rfl | hc
  · exact ha
  · exact h.2 c hc

theorem Memory.read_lt {lo k : Nat} {m : Memory} (h : Memory.risingFrom lo m = true) (hk : k < lo) : m.read k = none := by
  induction m generalizing lo with
  | nil => rfl
  | cons c rest ih =>
    obtain ⟨i, b⟩ := c
    simp only [Memory.risingFrom, Bool.and_eq_true, decide_eq_true_eq] at h
    have : k ≠ i := by omega
    simp only [Memory.read, this, if_false]
    exact ih h.2 (by omega)

/-- Two canonical buffers that read alike are equal. -/
theorem Memory.eq_of_read {lo : Nat} {m m' : Memory} (h : Memory.risingFrom lo m = true)
    (h' : Memory.risingFrom lo m' = true) (hr : ∀ a, m.read a = m'.read a) : m = m' := by
  induction m generalizing lo m' with
  | nil =>
    cases m' with
    | nil => rfl
    | cons c rest =>
      have := hr c.1
      simp [Memory.read] at this
  | cons c rest ih =>
    obtain ⟨k, b⟩ := c
    cases m' with
    | nil => have := hr k; simp [Memory.read] at this
    | cons c' rest' =>
      obtain ⟨k', b'⟩ := c'
      simp only [Memory.risingFrom, Bool.and_eq_true, decide_eq_true_eq] at h h'
      have hk : k = k' := by
        rcases Nat.lt_trichotomy k k' with hlt | heq | hgt
        · have := hr k
          have hne : k ≠ k' := by omega
          simp [Memory.read, hne, read_lt h'.2 (show k < k' + 1 by omega)] at this
        · exact heq
        · have := hr k'
          have hne : k' ≠ k := by omega
          simp [Memory.read, hne, read_lt h.2 (show k' < k + 1 by omega)] at this
      subst hk
      have hb : b = b' := by simpa [Memory.read] using hr k
      subst hb
      congr 1
      refine ih h.2 h'.2 fun a => ?_
      by_cases ha : a = k
      · subst ha
        rw [read_lt h.2 (by omega), read_lt h'.2 (by omega)]
      · simpa [Memory.read, ha] using hr a

/-! ### Runs of cells -/

theorem memWrite_read (m : Memory) (i : Nat) (bytes : List Byte) (a : Nat) :
    (memWrite m i bytes).read a = if i ≤ a ∧ a < i + bytes.length then bytes[a - i]? else m.read a := by
  induction bytes generalizing m i with
  | nil => simp [memWrite]
  | cons b bs ih =>
    rw [memWrite, ih, Memory.read_write, List.length_cons]
    by_cases h1 : a = i
    · subst h1
      simp
    · by_cases h2 : i + 1 ≤ a ∧ a < i + 1 + bs.length
      · have h3 : i ≤ a ∧ a < i + (bs.length + 1) := by omega
        have h4 : a - i = (a - (i + 1)) + 1 := by omega
        rw [if_pos h2, if_pos h3, h4, List.getElem?_cons_succ]
      · have h3 : ¬ (i ≤ a ∧ a < i + (bs.length + 1)) := by omega
        rw [if_neg h2, if_neg h3, if_neg h1]

theorem memWrite_stores (m : Memory) (i : Nat) (bytes : List Byte) : m.Stores (memWrite m i bytes) i bytes :=
  fun a => memWrite_read m i bytes a

theorem memWrite_Inv {size : Nat} {m : Memory} (i : Nat) (bytes : List Byte) (h : m.Inv size)
    (hs : i + bytes.length ≤ size) : (memWrite m i bytes).Inv size := by
  induction bytes generalizing m i with
  | nil => exact h
  | cons b bs ih =>
    rw [List.length_cons] at hs
    exact ih (i + 1) (Memory.Inv_write b h (by omega)) (by omega)

theorem Memory.Stores.read_of_lt {m m' : Memory} {i a : Nat} {bytes : List Byte} (h : m.Stores m' i bytes) (ha : a < i) :
    m'.read a = m.read a := by rw [h a, if_neg (by omega)]

theorem Memory.Stores.read_of_ge {m m' : Memory} {i a : Nat} {bytes : List Byte} (h : m.Stores m' i bytes)
    (ha : i + bytes.length ≤ a) : m'.read a = m.read a := by rw [h a, if_neg (by omega)]

theorem Memory.Stores.holds {m m' : Memory} {i : Nat} {bytes : List Byte} (h : m.Stores m' i bytes) :
    m'.Holds i bytes := by
  intro k hk
  rw [h (i + k), if_pos (by omega), Nat.add_sub_cancel_left]

theorem Memory.Stores.holds_other {m m' : Memory} {i j : Nat} {bytes other : List Byte} (h : m.Stores m' i bytes)
    (ho : m.Holds j other) (hd : j + other.length ≤ i ∨ i + bytes.length ≤ j) : m'.Holds j other := by
  intro k hk
  rw [h (j + k), if_neg (by omega)]
  exact ho k hk

theorem Memory.Stores.written {m m' : Memory} {i lo hi : Nat} {bytes : List Byte} (h : m.Stores m' i bytes)
    (hw : m.Written lo hi) : m'.Written lo hi := by
  intro k hk hl
  rw [h k]
  split
  · rename_i hin
    rw [List.getElem?_eq_getElem (by omega)]
    rfl
  · exact hw k hk hl

theorem Memory.Stores.written_append {m m' : Memory} {i lo : Nat} {bytes : List Byte} (h : m.Stores m' i bytes)
    (hw : m.Written lo i) : m'.Written lo (i + bytes.length) := by
  intro k hk hl
  rw [h k]
  split
  · rw [List.getElem?_eq_getElem (by omega)]
    rfl
  · exact hw k (by omega) hl

theorem Memory.Holds.append {m : Memory} {i : Nat} {xs ys : List Byte} :
    m.Holds i (xs ++ ys) ↔ m.Holds i xs ∧ m.Holds (i + xs.length) ys := by
  constructor
  · intro h
    refine ⟨fun k hk => ?_, fun k hk => ?_⟩
    · rw [h k (by rw [List.length_append]; omega), List.getElem?_append_left hk]
    · have := h (xs.length + k) (by rw [List.length_append]; omega)
      rw [List.getElem?_append_right (by omega)] at this
      rw [Nat.add_assoc, this]
      congr 1
      omega
  · rintro ⟨h1, h2⟩ k hk
    rw [List.length_append] at hk
    by_cases hx : k < xs.length
    · rw [h1 k hx, List.getElem?_append_left hx]
    · have := h2 (k - xs.length) (by omega)
      rw [List.getElem?_append_right (by omega), ← this]
      congr 1
      omega

theorem Memory.Holds.cons {m : Memory} {i : Nat} {b : Byte} {bs : List Byte} :
    m.Holds i (b :: bs) ↔ m.read i = some b ∧ m.Holds (i + 1) bs := by
  rw [show b :: bs = [b] ++ bs from rfl, Memory.Holds.append]
  constructor
  · rintro ⟨h1, h2⟩
    exact ⟨by simpa using h1 0 (by simp), h2⟩
  · rintro ⟨h1, h2⟩
    refine ⟨fun k hk => ?_, h2⟩
    have : k = 0 := by simpa using hk
    subst this
    simpa using h1

theorem Memory.Holds.nil {m : Memory} {i : Nat} : m.Holds i [] := fun k hk => by simp at hk

/-- A read of cells that hold `bytes` gives them. -/
theorem memRead_holds {m : Memory} {i : Nat} {bytes : List Byte} (h : m.Holds i bytes) :
    memRead m i bytes.length = .ok bytes := by
  induction bytes generalizing i with
  | nil => rfl
  | cons b bs ih =>
    obtain ⟨h1, h2⟩ := Memory.Holds.cons.1 h
    have := ih h2
    unfold memRead at this ⊢
    simp [List.range'_succ, collect, h1, this]

/-- Everything a read of a list of cells can do. -/
theorem collect_cases (m : Memory) (is : List Nat) :
    (∃ bytes, collect m is = .ok bytes ∧ bytes.length = is.length ∧
      ∀ k, (h : k < is.length) → m.read is[k] = bytes[k]?) ∨ collect m is = .error .noValue := by
  induction is with
  | nil => exact .inl ⟨[], rfl, rfl, fun k h => by simp at h⟩
  | cons a rest ih =>
    cases hr : m.read a with
    | none => exact .inr (by simp [collect, hr])
    | some b =>
      rcases ih with ⟨bytes, h1, h2, h3⟩ | h1
      · refine .inl ⟨b :: bytes, by simp [collect, hr, h1], by simp [h2], fun k hk => ?_⟩
        cases k with
        | zero => simpa using hr
        | succ k => simpa using h3 k (by simpa using hk)
      · exact .inr (by simp [collect, hr, h1])

theorem collect_written {m : Memory} {is : List Nat} (h : ∀ a ∈ is, (m.read a).isSome = true) :
    collect m is = .ok (is.map fun a => (m.read a).getD 0) := by
  induction is with
  | nil => rfl
  | cons a rest ih =>
    obtain ⟨b, hb⟩ := Option.isSome_iff_exists.1 (h a (by simp))
    simp [collect, hb, ih fun x hx => h x (by simp [hx])]

/-- What a read that answers gives. -/
theorem memRead_ok {m : Memory} {i n : Nat} {bytes : List Byte} (h : memRead m i n = .ok bytes) :
    bytes.length = n ∧ m.Holds i bytes := by
  unfold memRead at h
  rcases collect_cases m (List.range' i n) with ⟨bs, h1, h2, h3⟩ | h1
  · rw [h1] at h
    cases h
    refine ⟨by simpa using h2, fun k hk => ?_⟩
    have hk' : k < (List.range' i n).length := by omega
    simpa using h3 k hk'
  · rw [h1] at h
    cases h

/-- A read of written cells answers. -/
theorem memRead_written {m : Memory} {i n : Nat} (h : m.Written i (i + n)) : ∃ bytes, memRead m i n = .ok bytes := by
  refine ⟨_, collect_written fun a ha => ?_⟩
  have := List.mem_range'_1.1 ha
  exact h a (by omega) (by omega)

theorem memRead_no_raise {m : Memory} {i n : Nat} {e : Stop} (h : memRead m i n = .error e) : e = .noValue := by
  unfold memRead at h
  rcases collect_cases m (List.range' i n) with ⟨bs, h1, -⟩ | h1 <;> rw [h1] at h <;> cases h
  rfl

theorem Memory.Written.mono {m : Memory} {lo hi lo' hi' : Nat} (h : m.Written lo hi) (hl : lo ≤ lo') (hh : hi' ≤ hi) :
    m.Written lo' hi' := fun k hk hl' => h k (by omega) (by omega)

theorem Memory.Holds.written {m : Memory} {i : Nat} {bytes : List Byte} (h : m.Holds i bytes) :
    m.Written i (i + bytes.length) := by
  intro k hk hl
  have := h (k - i) (by omega)
  rw [show i + (k - i) = k by omega] at this
  rw [this, List.getElem?_eq_getElem (by omega)]
  rfl

end Sys2Proof.Machine
end

