-- ==== Sys2Proof/Laws/State.lean ====
section
/-! SUPPORT. The small lemmas of the updates of State: what each update leaves in each field, so that no proof unfolds a
record update. -/

namespace Sys2Proof.Machine

variable (s : State)


/-! ### finish and raise -/

@[simp] theorem finish_inRing (st : Status) (res : List Nat) (d : List Byte) (ev : List Event) :
    (finish st res d ev s).inRing = s.inRing := rfl
@[simp] theorem finish_outRing (st : Status) (res : List Nat) (d : List Byte) (ev : List Event) :
    (finish st res d ev s).outRing = s.outRing := rfl
@[simp] theorem finish_tmRing (st : Status) (res : List Nat) (d : List Byte) (ev : List Event) :
    (finish st res d ev s).tmRing = s.tmRing := rfl
@[simp] theorem finish_scr (st : Status) (res : List Nat) (d : List Byte) (ev : List Event) :
    (finish st res d ev s).scr = s.scr := rfl
@[simp] theorem finish_scrLen (st : Status) (res : List Nat) (d : List Byte) (ev : List Event) :
    (finish st res d ev s).scrLen = s.scrLen := rfl
@[simp] theorem finish_r0 (st : Status) (res : List Nat) (d : List Byte) (ev : List Event) :
    (finish st res d ev s).r0 = s.r0 := rfl
@[simp] theorem finish_r1 (st : Status) (res : List Nat) (d : List Byte) (ev : List Event) :
    (finish st res d ev s).r1 = s.r1 := rfl
@[simp] theorem finish_r2 (st : Status) (res : List Nat) (d : List Byte) (ev : List Event) :
    (finish st res d ev s).r2 = s.r2 := rfl
@[simp] theorem finish_r3 (st : Status) (res : List Nat) (d : List Byte) (ev : List Event) :
    (finish st res d ev s).r3 = s.r3 := rfl
@[simp] theorem finish_asm (st : Status) (res : List Nat) (d : List Byte) (ev : List Event) :
    (finish st res d ev s).asm = s.asm := rfl
@[simp] theorem finish_w0 (st : Status) (res : List Nat) (d : List Byte) (ev : List Event) :
    (finish st res d ev s).w0 = s.w0 := rfl
@[simp] theorem finish_fstack (st : Status) (res : List Nat) (d : List Byte) (ev : List Event) :
    (finish st res d ev s).fstack = s.fstack := rfl
@[simp] theorem finish_status (st : Status) (res : List Nat) (d : List Byte) (ev : List Event) :
    (finish st res d ev s).status = BitVec.ofNat 8 (statusCode st) := rfl
@[simp] theorem finish_cmdInCtr (st : Status) (res : List Nat) (d : List Byte) (ev : List Event) :
    (finish st res d ev s).cmdInCtr = s.cmdInCtr := rfl
@[simp] theorem finish_tmCtr (st : Status) (res : List Nat) (d : List Byte) (ev : List Event) :
    (finish st res d ev s).tmCtr = s.tmCtr := rfl
@[simp] theorem finish_outCtr (st : Status) (res : List Nat) (d : List Byte) (ev : List Event) :
    (finish st res d ev s).outCtr = s.outCtr := rfl
@[simp] theorem finish_lastSent (st : Status) (res : List Nat) (d : List Byte) (ev : List Event) :
    (finish st res d ev s).lastSent = s.lastSent := rfl
@[simp] theorem finish_lastSentValid (st : Status) (res : List Nat) (d : List Byte) (ev : List Event) :
    (finish st res d ev s).lastSentValid = s.lastSentValid := rfl
@[simp] theorem finish_readyToSend (st : Status) (res : List Nat) (d : List Byte) (ev : List Event) :
    (finish st res d ev s).readyToSend = s.readyToSend := rfl
@[simp] theorem finish_agb (st : Status) (res : List Nat) (d : List Byte) (ev : List Event) :
    (finish st res d ev s).agb = s.agb := rfl
@[simp] theorem finish_resp (st : Status) (res : List Nat) (d : List Byte) (ev : List Event) :
    (finish st res d ev s).resp = some ⟨st, res, d, ev⟩ := rfl
@[simp] theorem finish_granted (st : Status) (res : List Nat) (d : List Byte) (ev : List Event) :
    (finish st res d ev s).granted = s.granted := rfl
@[simp] theorem finish_cmdQ (st : Status) (res : List Nat) (d : List Byte) (ev : List Event) :
    (finish st res d ev s).cmdQ = s.cmdQ := rfl
@[simp] theorem finish_tpQ (st : Status) (res : List Nat) (d : List Byte) (ev : List Event) :
    (finish st res d ev s).tpQ = s.tpQ := rfl
@[simp] theorem finish_resetIn (st : Status) (res : List Nat) (d : List Byte) (ev : List Event) :
    (finish st res d ev s).resetIn = s.resetIn := rfl
@[simp] theorem finish_grants (st : Status) (res : List Nat) (d : List Byte) (ev : List Event) :
    (finish st res d ev s).grants = s.grants := rfl
@[simp] theorem finish_cfg (st : Status) (res : List Nat) (d : List Byte) (ev : List Event) :
    (finish st res d ev s).cfg = s.cfg := rfl
@[simp] theorem raise_inRing (st : Status) : (raise st s).inRing = s.inRing := rfl
@[simp] theorem raise_outRing (st : Status) : (raise st s).outRing = s.outRing := rfl
@[simp] theorem raise_tmRing (st : Status) : (raise st s).tmRing = s.tmRing := rfl
@[simp] theorem raise_scr (st : Status) : (raise st s).scr = s.scr := rfl
@[simp] theorem raise_scrLen (st : Status) : (raise st s).scrLen = s.scrLen := rfl
@[simp] theorem raise_r0 (st : Status) : (raise st s).r0 = s.r0 := rfl
@[simp] theorem raise_r1 (st : Status) : (raise st s).r1 = s.r1 := rfl
@[simp] theorem raise_r2 (st : Status) : (raise st s).r2 = s.r2 := rfl
@[simp] theorem raise_r3 (st : Status) : (raise st s).r3 = s.r3 := rfl
@[simp] theorem raise_asm (st : Status) : (raise st s).asm = s.asm := rfl
@[simp] theorem raise_w0 (st : Status) : (raise st s).w0 = s.w0 := rfl
@[simp] theorem raise_fstack (st : Status) : (raise st s).fstack = s.fstack := rfl
@[simp] theorem raise_status (st : Status) : (raise st s).status = BitVec.ofNat 8 (statusCode st) := rfl
@[simp] theorem raise_cmdInCtr (st : Status) : (raise st s).cmdInCtr = s.cmdInCtr := rfl
@[simp] theorem raise_tmCtr (st : Status) : (raise st s).tmCtr = s.tmCtr := rfl
@[simp] theorem raise_outCtr (st : Status) : (raise st s).outCtr = s.outCtr := rfl
@[simp] theorem raise_lastSent (st : Status) : (raise st s).lastSent = s.lastSent := rfl
@[simp] theorem raise_lastSentValid (st : Status) : (raise st s).lastSentValid = s.lastSentValid := rfl
@[simp] theorem raise_readyToSend (st : Status) : (raise st s).readyToSend = s.readyToSend := rfl
@[simp] theorem raise_agb (st : Status) : (raise st s).agb = s.agb := rfl
@[simp] theorem raise_resp (st : Status) : (raise st s).resp = some ⟨st, [], [], []⟩ := rfl
@[simp] theorem raise_granted (st : Status) : (raise st s).granted = s.granted := rfl
@[simp] theorem raise_cmdQ (st : Status) : (raise st s).cmdQ = s.cmdQ := rfl
@[simp] theorem raise_tpQ (st : Status) : (raise st s).tpQ = s.tpQ := rfl
@[simp] theorem raise_resetIn (st : Status) : (raise st s).resetIn = s.resetIn := rfl
@[simp] theorem raise_grants (st : Status) : (raise st s).grants = s.grants := rfl
@[simp] theorem raise_cfg (st : Status) : (raise st s).cfg = s.cfg := rfl

/-! ### setRing -/

@[simp] theorem setRing_scr (r : RingSel) (rb : Ring) : (s.setRing r rb).scr = s.scr := by cases r <;> rfl
@[simp] theorem setRing_scrLen (r : RingSel) (rb : Ring) : (s.setRing r rb).scrLen = s.scrLen := by cases r <;> rfl
@[simp] theorem setRing_r0 (r : RingSel) (rb : Ring) : (s.setRing r rb).r0 = s.r0 := by cases r <;> rfl
@[simp] theorem setRing_r1 (r : RingSel) (rb : Ring) : (s.setRing r rb).r1 = s.r1 := by cases r <;> rfl
@[simp] theorem setRing_r2 (r : RingSel) (rb : Ring) : (s.setRing r rb).r2 = s.r2 := by cases r <;> rfl
@[simp] theorem setRing_r3 (r : RingSel) (rb : Ring) : (s.setRing r rb).r3 = s.r3 := by cases r <;> rfl
@[simp] theorem setRing_asm (r : RingSel) (rb : Ring) : (s.setRing r rb).asm = s.asm := by cases r <;> rfl
@[simp] theorem setRing_w0 (r : RingSel) (rb : Ring) : (s.setRing r rb).w0 = s.w0 := by cases r <;> rfl
@[simp] theorem setRing_fstack (r : RingSel) (rb : Ring) : (s.setRing r rb).fstack = s.fstack := by cases r <;> rfl
@[simp] theorem setRing_status (r : RingSel) (rb : Ring) : (s.setRing r rb).status = s.status := by cases r <;> rfl
@[simp] theorem setRing_cmdInCtr (r : RingSel) (rb : Ring) :
    (s.setRing r rb).cmdInCtr = s.cmdInCtr := by cases r <;> rfl
@[simp] theorem setRing_tmCtr (r : RingSel) (rb : Ring) : (s.setRing r rb).tmCtr = s.tmCtr := by cases r <;> rfl
@[simp] theorem setRing_outCtr (r : RingSel) (rb : Ring) : (s.setRing r rb).outCtr = s.outCtr := by cases r <;> rfl
@[simp] theorem setRing_lastSent (r : RingSel) (rb : Ring) :
    (s.setRing r rb).lastSent = s.lastSent := by cases r <;> rfl
@[simp] theorem setRing_lastSentValid (r : RingSel) (rb : Ring) :
    (s.setRing r rb).lastSentValid = s.lastSentValid := by cases r <;> rfl
@[simp] theorem setRing_readyToSend (r : RingSel) (rb : Ring) :
    (s.setRing r rb).readyToSend = s.readyToSend := by cases r <;> rfl
@[simp] theorem setRing_agb (r : RingSel) (rb : Ring) :
    (s.setRing r rb).agb = s.agb := by cases r <;> rfl
@[simp] theorem setRing_resp (r : RingSel) (rb : Ring) : (s.setRing r rb).resp = s.resp := by cases r <;> rfl
@[simp] theorem setRing_granted (r : RingSel) (rb : Ring) : (s.setRing r rb).granted = s.granted := by cases r <;> rfl
@[simp] theorem setRing_cmdQ (r : RingSel) (rb : Ring) : (s.setRing r rb).cmdQ = s.cmdQ := by cases r <;> rfl
@[simp] theorem setRing_tpQ (r : RingSel) (rb : Ring) : (s.setRing r rb).tpQ = s.tpQ := by cases r <;> rfl
@[simp] theorem setRing_resetIn (r : RingSel) (rb : Ring) : (s.setRing r rb).resetIn = s.resetIn := by cases r <;> rfl
@[simp] theorem setRing_grants (r : RingSel) (rb : Ring) : (s.setRing r rb).grants = s.grants := by cases r <;> rfl
@[simp] theorem setRing_cfg (r : RingSel) (rb : Ring) : (s.setRing r rb).cfg = s.cfg := by cases r <;> rfl
@[simp] theorem setRing_inb_inRing (rb : Ring) : (s.setRing .inb rb).inRing = rb := rfl
@[simp] theorem setRing_inb_outRing (rb : Ring) : (s.setRing .inb rb).outRing = s.outRing := rfl
@[simp] theorem setRing_inb_tmRing (rb : Ring) : (s.setRing .inb rb).tmRing = s.tmRing := rfl
@[simp] theorem setRing_outb_inRing (rb : Ring) : (s.setRing .outb rb).inRing = s.inRing := rfl
@[simp] theorem setRing_outb_outRing (rb : Ring) : (s.setRing .outb rb).outRing = rb := rfl
@[simp] theorem setRing_outb_tmRing (rb : Ring) : (s.setRing .outb rb).tmRing = s.tmRing := rfl
@[simp] theorem setRing_tm_inRing (rb : Ring) : (s.setRing .tm rb).inRing = s.inRing := rfl
@[simp] theorem setRing_tm_outRing (rb : Ring) : (s.setRing .tm rb).outRing = s.outRing := rfl
@[simp] theorem setRing_tm_tmRing (rb : Ring) : (s.setRing .tm rb).tmRing = rb := rfl
@[simp] theorem setRing_ring_self (r : RingSel) (rb : Ring) : (s.setRing r rb).ring r = rb := by cases r <;> rfl
theorem setRing_ring_other (r q : RingSel) (rb : Ring) (h : q ≠ r) : (s.setRing r rb).ring q = s.ring q := by
  cases r <;> cases q <;> first | rfl | exact absurd rfl h
@[simp] theorem setRing_cap (r q : RingSel) (rb : Ring) : (s.setRing r rb).cap q = s.cap q := by cases r <;> cases q <;> rfl
@[simp] theorem setRing_reader (r : RingSel) (rb : Ring) (c : RdSel) : (s.setRing r rb).reader c = s.reader c := by
  cases r <;> cases c <;> rfl
theorem setRing_setRing (r : RingSel) (a b : Ring) : (s.setRing r a).setRing r b = s.setRing r b := by cases r <;> rfl
theorem setRing_ring_eq (r : RingSel) : s.setRing r (s.ring r) = s := by cases r <;> rfl

/-! ### setReader -/

@[simp] theorem setReader_inRing (c : RdSel) (x : Cursor) : (s.setReader c x).inRing = s.inRing := by cases c <;> rfl
@[simp] theorem setReader_outRing (c : RdSel) (x : Cursor) :
    (s.setReader c x).outRing = s.outRing := by cases c <;> rfl
@[simp] theorem setReader_tmRing (c : RdSel) (x : Cursor) : (s.setReader c x).tmRing = s.tmRing := by cases c <;> rfl
@[simp] theorem setReader_scr (c : RdSel) (x : Cursor) : (s.setReader c x).scr = s.scr := by cases c <;> rfl
@[simp] theorem setReader_scrLen (c : RdSel) (x : Cursor) : (s.setReader c x).scrLen = s.scrLen := by cases c <;> rfl
@[simp] theorem setReader_asm (c : RdSel) (x : Cursor) : (s.setReader c x).asm = s.asm := by cases c <;> rfl
@[simp] theorem setReader_w0 (c : RdSel) (x : Cursor) : (s.setReader c x).w0 = s.w0 := by cases c <;> rfl
@[simp] theorem setReader_fstack (c : RdSel) (x : Cursor) : (s.setReader c x).fstack = s.fstack := by cases c <;> rfl
@[simp] theorem setReader_status (c : RdSel) (x : Cursor) : (s.setReader c x).status = s.status := by cases c <;> rfl
@[simp] theorem setReader_cmdInCtr (c : RdSel) (x : Cursor) :
    (s.setReader c x).cmdInCtr = s.cmdInCtr := by cases c <;> rfl
@[simp] theorem setReader_tmCtr (c : RdSel) (x : Cursor) : (s.setReader c x).tmCtr = s.tmCtr := by cases c <;> rfl
@[simp] theorem setReader_outCtr (c : RdSel) (x : Cursor) : (s.setReader c x).outCtr = s.outCtr := by cases c <;> rfl
@[simp] theorem setReader_lastSent (c : RdSel) (x : Cursor) :
    (s.setReader c x).lastSent = s.lastSent := by cases c <;> rfl
@[simp] theorem setReader_lastSentValid (c : RdSel) (x : Cursor) :
    (s.setReader c x).lastSentValid = s.lastSentValid := by cases c <;> rfl
@[simp] theorem setReader_readyToSend (c : RdSel) (x : Cursor) :
    (s.setReader c x).readyToSend = s.readyToSend := by cases c <;> rfl
@[simp] theorem setReader_agb (c : RdSel) (x : Cursor) :
    (s.setReader c x).agb = s.agb := by cases c <;> rfl
@[simp] theorem setReader_resp (c : RdSel) (x : Cursor) : (s.setReader c x).resp = s.resp := by cases c <;> rfl
@[simp] theorem setReader_granted (c : RdSel) (x : Cursor) :
    (s.setReader c x).granted = s.granted := by cases c <;> rfl
@[simp] theorem setReader_cmdQ (c : RdSel) (x : Cursor) : (s.setReader c x).cmdQ = s.cmdQ := by cases c <;> rfl
@[simp] theorem setReader_tpQ (c : RdSel) (x : Cursor) : (s.setReader c x).tpQ = s.tpQ := by cases c <;> rfl
@[simp] theorem setReader_resetIn (c : RdSel) (x : Cursor) :
    (s.setReader c x).resetIn = s.resetIn := by cases c <;> rfl
@[simp] theorem setReader_grants (c : RdSel) (x : Cursor) : (s.setReader c x).grants = s.grants := by cases c <;> rfl
@[simp] theorem setReader_cfg (c : RdSel) (x : Cursor) : (s.setReader c x).cfg = s.cfg := by cases c <;> rfl
@[simp] theorem setReader_reader_self (c : RdSel) (x : Cursor) : (s.setReader c x).reader c = x := by cases c <;> rfl
theorem setReader_reader_other (c d : RdSel) (x : Cursor) (h : d ≠ c) : (s.setReader c x).reader d = s.reader d := by
  cases c <;> cases d <;> first | rfl | exact absurd rfl h
@[simp] theorem setReader_ring (c : RdSel) (x : Cursor) (r : RingSel) : (s.setReader c x).ring r = s.ring r := by
  cases c <;> cases r <;> rfl
@[simp] theorem setReader_cap (c : RdSel) (x : Cursor) (r : RingSel) : (s.setReader c x).cap r = s.cap r := by
  cases c <;> cases r <;> rfl

/-! ### loadScr, setWriter and rewind -/

@[simp] theorem loadScr_inRing (bytes : List Byte) : (s.loadScr bytes).inRing = s.inRing := rfl
@[simp] theorem loadScr_outRing (bytes : List Byte) : (s.loadScr bytes).outRing = s.outRing := rfl
@[simp] theorem loadScr_tmRing (bytes : List Byte) : (s.loadScr bytes).tmRing = s.tmRing := rfl
@[simp] theorem loadScr_scr (bytes : List Byte) : (s.loadScr bytes).scr = memWrite s.scr 0 bytes := rfl
@[simp] theorem loadScr_scrLen (bytes : List Byte) : (s.loadScr bytes).scrLen = bytes.length := rfl
@[simp] theorem loadScr_r0 (bytes : List Byte) : (s.loadScr bytes).r0 = ⟨0, 0, bytes.length⟩ := rfl
@[simp] theorem loadScr_r1 (bytes : List Byte) : (s.loadScr bytes).r1 = ⟨0, 0, 0⟩ := rfl
@[simp] theorem loadScr_r2 (bytes : List Byte) : (s.loadScr bytes).r2 = ⟨0, 0, 0⟩ := rfl
@[simp] theorem loadScr_r3 (bytes : List Byte) : (s.loadScr bytes).r3 = ⟨0, 0, 0⟩ := rfl
@[simp] theorem loadScr_asm (bytes : List Byte) : (s.loadScr bytes).asm = s.asm := rfl
@[simp] theorem loadScr_w0 (bytes : List Byte) : (s.loadScr bytes).w0 = s.w0 := rfl
@[simp] theorem loadScr_fstack (bytes : List Byte) : (s.loadScr bytes).fstack = s.fstack := rfl
@[simp] theorem loadScr_status (bytes : List Byte) : (s.loadScr bytes).status = s.status := rfl
@[simp] theorem loadScr_cmdInCtr (bytes : List Byte) : (s.loadScr bytes).cmdInCtr = s.cmdInCtr := rfl
@[simp] theorem loadScr_tmCtr (bytes : List Byte) : (s.loadScr bytes).tmCtr = s.tmCtr := rfl
@[simp] theorem loadScr_outCtr (bytes : List Byte) : (s.loadScr bytes).outCtr = s.outCtr := rfl
@[simp] theorem loadScr_lastSent (bytes : List Byte) : (s.loadScr bytes).lastSent = s.lastSent := rfl
@[simp] theorem loadScr_lastSentValid (bytes : List Byte) : (s.loadScr bytes).lastSentValid = s.lastSentValid := rfl
@[simp] theorem loadScr_readyToSend (bytes : List Byte) : (s.loadScr bytes).readyToSend = s.readyToSend := rfl
@[simp] theorem loadScr_agb (bytes : List Byte) : (s.loadScr bytes).agb = s.agb := rfl
@[simp] theorem loadScr_resp (bytes : List Byte) : (s.loadScr bytes).resp = s.resp := rfl
@[simp] theorem loadScr_granted (bytes : List Byte) : (s.loadScr bytes).granted = s.granted := rfl
@[simp] theorem loadScr_cmdQ (bytes : List Byte) : (s.loadScr bytes).cmdQ = s.cmdQ := rfl
@[simp] theorem loadScr_tpQ (bytes : List Byte) : (s.loadScr bytes).tpQ = s.tpQ := rfl
@[simp] theorem loadScr_resetIn (bytes : List Byte) : (s.loadScr bytes).resetIn = s.resetIn := rfl
@[simp] theorem loadScr_grants (bytes : List Byte) : (s.loadScr bytes).grants = s.grants := rfl
@[simp] theorem loadScr_cfg (bytes : List Byte) : (s.loadScr bytes).cfg = s.cfg := rfl
@[simp] theorem setWriter_inRing (w : Memory × Cursor) : (s.setWriter w).inRing = s.inRing := rfl
@[simp] theorem setWriter_outRing (w : Memory × Cursor) : (s.setWriter w).outRing = s.outRing := rfl
@[simp] theorem setWriter_tmRing (w : Memory × Cursor) : (s.setWriter w).tmRing = s.tmRing := rfl
@[simp] theorem setWriter_scr (w : Memory × Cursor) : (s.setWriter w).scr = s.scr := rfl
@[simp] theorem setWriter_scrLen (w : Memory × Cursor) : (s.setWriter w).scrLen = s.scrLen := rfl
@[simp] theorem setWriter_r0 (w : Memory × Cursor) : (s.setWriter w).r0 = s.r0 := rfl
@[simp] theorem setWriter_r1 (w : Memory × Cursor) : (s.setWriter w).r1 = s.r1 := rfl
@[simp] theorem setWriter_r2 (w : Memory × Cursor) : (s.setWriter w).r2 = s.r2 := rfl
@[simp] theorem setWriter_r3 (w : Memory × Cursor) : (s.setWriter w).r3 = s.r3 := rfl
@[simp] theorem setWriter_asm (w : Memory × Cursor) : (s.setWriter w).asm = w.1 := rfl
@[simp] theorem setWriter_w0 (w : Memory × Cursor) : (s.setWriter w).w0 = w.2 := rfl
@[simp] theorem setWriter_fstack (w : Memory × Cursor) : (s.setWriter w).fstack = s.fstack := rfl
@[simp] theorem setWriter_status (w : Memory × Cursor) : (s.setWriter w).status = s.status := rfl
@[simp] theorem setWriter_cmdInCtr (w : Memory × Cursor) : (s.setWriter w).cmdInCtr = s.cmdInCtr := rfl
@[simp] theorem setWriter_tmCtr (w : Memory × Cursor) : (s.setWriter w).tmCtr = s.tmCtr := rfl
@[simp] theorem setWriter_outCtr (w : Memory × Cursor) : (s.setWriter w).outCtr = s.outCtr := rfl
@[simp] theorem setWriter_lastSent (w : Memory × Cursor) : (s.setWriter w).lastSent = s.lastSent := rfl
@[simp] theorem setWriter_lastSentValid (w : Memory × Cursor) : (s.setWriter w).lastSentValid = s.lastSentValid := rfl
@[simp] theorem setWriter_readyToSend (w : Memory × Cursor) : (s.setWriter w).readyToSend = s.readyToSend := rfl
@[simp] theorem setWriter_agb (w : Memory × Cursor) : (s.setWriter w).agb = s.agb := rfl
@[simp] theorem setWriter_resp (w : Memory × Cursor) : (s.setWriter w).resp = s.resp := rfl
@[simp] theorem setWriter_granted (w : Memory × Cursor) : (s.setWriter w).granted = s.granted := rfl
@[simp] theorem setWriter_cmdQ (w : Memory × Cursor) : (s.setWriter w).cmdQ = s.cmdQ := rfl
@[simp] theorem setWriter_tpQ (w : Memory × Cursor) : (s.setWriter w).tpQ = s.tpQ := rfl
@[simp] theorem setWriter_resetIn (w : Memory × Cursor) : (s.setWriter w).resetIn = s.resetIn := rfl
@[simp] theorem setWriter_grants (w : Memory × Cursor) : (s.setWriter w).grants = s.grants := rfl
@[simp] theorem setWriter_cfg (w : Memory × Cursor) : (s.setWriter w).cfg = s.cfg := rfl
@[simp] theorem rewind_inRing : s.rewind.inRing = s.inRing := rfl
@[simp] theorem rewind_outRing : s.rewind.outRing = s.outRing := rfl
@[simp] theorem rewind_tmRing : s.rewind.tmRing = s.tmRing := rfl
@[simp] theorem rewind_scr : s.rewind.scr = s.scr := rfl
@[simp] theorem rewind_scrLen : s.rewind.scrLen = s.scrLen := rfl
@[simp] theorem rewind_r0 : s.rewind.r0 = s.r0 := rfl
@[simp] theorem rewind_r1 : s.rewind.r1 = s.r1 := rfl
@[simp] theorem rewind_r2 : s.rewind.r2 = s.r2 := rfl
@[simp] theorem rewind_r3 : s.rewind.r3 = s.r3 := rfl
@[simp] theorem rewind_asm : s.rewind.asm = s.asm := rfl
@[simp] theorem rewind_w0 : s.rewind.w0 = { s.w0 with cur := s.w0.start } := rfl
@[simp] theorem rewind_fstack : s.rewind.fstack = s.fstack := rfl
@[simp] theorem rewind_status : s.rewind.status = s.status := rfl
@[simp] theorem rewind_cmdInCtr : s.rewind.cmdInCtr = s.cmdInCtr := rfl
@[simp] theorem rewind_tmCtr : s.rewind.tmCtr = s.tmCtr := rfl
@[simp] theorem rewind_outCtr : s.rewind.outCtr = s.outCtr := rfl
@[simp] theorem rewind_lastSent : s.rewind.lastSent = s.lastSent := rfl
@[simp] theorem rewind_lastSentValid : s.rewind.lastSentValid = s.lastSentValid := rfl
@[simp] theorem rewind_readyToSend : s.rewind.readyToSend = s.readyToSend := rfl
@[simp] theorem rewind_agb : s.rewind.agb = s.agb := rfl
@[simp] theorem rewind_resp : s.rewind.resp = s.resp := rfl
@[simp] theorem rewind_granted : s.rewind.granted = s.granted := rfl
@[simp] theorem rewind_cmdQ : s.rewind.cmdQ = s.cmdQ := rfl
@[simp] theorem rewind_tpQ : s.rewind.tpQ = s.tpQ := rfl
@[simp] theorem rewind_resetIn : s.rewind.resetIn = s.resetIn := rfl
@[simp] theorem rewind_grants : s.rewind.grants = s.grants := rfl
@[simp] theorem rewind_cfg : s.rewind.cfg = s.cfg := rfl

/-! ### The agent registers -/

@[simp] theorem noteSent_inRing : s.noteSent.inRing = s.inRing := rfl
@[simp] theorem noteSent_outRing : s.noteSent.outRing = s.outRing := rfl
@[simp] theorem noteSent_tmRing : s.noteSent.tmRing = s.tmRing := rfl
@[simp] theorem noteSent_scr : s.noteSent.scr = s.scr := rfl
@[simp] theorem noteSent_scrLen : s.noteSent.scrLen = s.scrLen := rfl
@[simp] theorem noteSent_r0 : s.noteSent.r0 = s.r0 := rfl
@[simp] theorem noteSent_r1 : s.noteSent.r1 = s.r1 := rfl
@[simp] theorem noteSent_r2 : s.noteSent.r2 = s.r2 := rfl
@[simp] theorem noteSent_r3 : s.noteSent.r3 = s.r3 := rfl
@[simp] theorem noteSent_asm : s.noteSent.asm = s.asm := rfl
@[simp] theorem noteSent_w0 : s.noteSent.w0 = s.w0 := rfl
@[simp] theorem noteSent_fstack : s.noteSent.fstack = s.fstack := rfl
@[simp] theorem noteSent_status : s.noteSent.status = s.status := rfl
@[simp] theorem noteSent_cmdInCtr : s.noteSent.cmdInCtr = s.cmdInCtr := rfl
@[simp] theorem noteSent_tmCtr : s.noteSent.tmCtr = s.tmCtr := rfl
@[simp] theorem noteSent_outCtr : s.noteSent.outCtr = s.outCtr + 1 := rfl
@[simp] theorem noteSent_lastSent : s.noteSent.lastSent = s.outCtr := rfl
@[simp] theorem noteSent_lastSentValid : s.noteSent.lastSentValid = true := rfl
@[simp] theorem noteSent_readyToSend :
    s.noteSent.readyToSend = if s.cfg.role = .gc then false else s.readyToSend := rfl
@[simp] theorem noteSent_agb : s.noteSent.agb = s.agb := rfl
@[simp] theorem noteSent_resp : s.noteSent.resp = s.resp := rfl
@[simp] theorem noteSent_granted : s.noteSent.granted = s.granted := rfl
@[simp] theorem noteSent_cmdQ : s.noteSent.cmdQ = s.cmdQ := rfl
@[simp] theorem noteSent_tpQ : s.noteSent.tpQ = s.tpQ := rfl
@[simp] theorem noteSent_resetIn : s.noteSent.resetIn = s.resetIn := rfl
@[simp] theorem noteSent_grants : s.noteSent.grants = s.grants := rfl
@[simp] theorem noteSent_cfg : s.noteSent.cfg = s.cfg := rfl
@[simp] theorem noteReceipt_inRing (n : Nat) :
    (s.noteReceipt n).inRing = s.inRing := by
  unfold State.noteReceipt; split <;> rfl
@[simp] theorem noteReceipt_outRing (n : Nat) :
    (s.noteReceipt n).outRing = s.outRing := by
  unfold State.noteReceipt; split <;> rfl
@[simp] theorem noteReceipt_tmRing (n : Nat) :
    (s.noteReceipt n).tmRing = s.tmRing := by
  unfold State.noteReceipt; split <;> rfl
@[simp] theorem noteReceipt_scr (n : Nat) :
    (s.noteReceipt n).scr = s.scr := by
  unfold State.noteReceipt; split <;> rfl
@[simp] theorem noteReceipt_scrLen (n : Nat) :
    (s.noteReceipt n).scrLen = s.scrLen := by
  unfold State.noteReceipt; split <;> rfl
@[simp] theorem noteReceipt_r0 (n : Nat) : (s.noteReceipt n).r0 = s.r0 := by
 unfold State.noteReceipt; split <;> rfl
@[simp] theorem noteReceipt_r1 (n : Nat) : (s.noteReceipt n).r1 = s.r1 := by
 unfold State.noteReceipt; split <;> rfl
@[simp] theorem noteReceipt_r2 (n : Nat) : (s.noteReceipt n).r2 = s.r2 := by
 unfold State.noteReceipt; split <;> rfl
@[simp] theorem noteReceipt_r3 (n : Nat) : (s.noteReceipt n).r3 = s.r3 := by
 unfold State.noteReceipt; split <;> rfl
@[simp] theorem noteReceipt_asm (n : Nat) :
    (s.noteReceipt n).asm = s.asm := by
  unfold State.noteReceipt; split <;> rfl
@[simp] theorem noteReceipt_w0 (n : Nat) : (s.noteReceipt n).w0 = s.w0 := by
 unfold State.noteReceipt; split <;> rfl
@[simp] theorem noteReceipt_fstack (n : Nat) :
    (s.noteReceipt n).fstack = s.fstack := by
  unfold State.noteReceipt; split <;> rfl
@[simp] theorem noteReceipt_status (n : Nat) :
    (s.noteReceipt n).status = s.status := by
  unfold State.noteReceipt; split <;> rfl
@[simp] theorem noteReceipt_cmdInCtr (n : Nat) :
    (s.noteReceipt n).cmdInCtr = s.cmdInCtr := by
  unfold State.noteReceipt; split <;> rfl
@[simp] theorem noteReceipt_tmCtr (n : Nat) :
    (s.noteReceipt n).tmCtr = s.tmCtr := by
  unfold State.noteReceipt; split <;> rfl
@[simp] theorem noteReceipt_outCtr (n : Nat) :
    (s.noteReceipt n).outCtr = s.outCtr := by
  unfold State.noteReceipt; split <;> rfl
@[simp] theorem noteReceipt_lastSent (n : Nat) :
    (s.noteReceipt n).lastSent = s.lastSent := by
  unfold State.noteReceipt; split <;> rfl
@[simp] theorem noteReceipt_lastSentValid (n : Nat) :
    (s.noteReceipt n).lastSentValid = s.lastSentValid := by
  unfold State.noteReceipt; split <;> rfl
@[simp] theorem noteReceipt_readyToSend (n : Nat) :
    (s.noteReceipt n).readyToSend = (s.receiptMatches n || s.readyToSend) := by
  unfold State.noteReceipt; split <;> simp_all
@[simp] theorem noteReceipt_agb (n : Nat) : (s.noteReceipt n).agb = s.agb := by
  unfold State.noteReceipt; split <;> rfl
@[simp] theorem noteReceipt_resp (n : Nat) :
    (s.noteReceipt n).resp = s.resp := by
  unfold State.noteReceipt; split <;> rfl
@[simp] theorem noteReceipt_granted (n : Nat) :
    (s.noteReceipt n).granted = s.granted := by
  unfold State.noteReceipt; split <;> rfl
@[simp] theorem noteReceipt_cmdQ (n : Nat) :
    (s.noteReceipt n).cmdQ = s.cmdQ := by
  unfold State.noteReceipt; split <;> rfl
@[simp] theorem noteReceipt_tpQ (n : Nat) :
    (s.noteReceipt n).tpQ = s.tpQ := by
  unfold State.noteReceipt; split <;> rfl
@[simp] theorem noteReceipt_resetIn (n : Nat) :
    (s.noteReceipt n).resetIn = s.resetIn := by
  unfold State.noteReceipt; split <;> rfl
@[simp] theorem noteReceipt_grants (n : Nat) :
    (s.noteReceipt n).grants = s.grants := by
  unfold State.noteReceipt; split <;> rfl
@[simp] theorem noteReceipt_cfg (n : Nat) :
    (s.noteReceipt n).cfg = s.cfg := by
  unfold State.noteReceipt; split <;> rfl
@[simp] theorem advanceCmdIn_inRing : s.advanceCmdIn.inRing = s.inRing := rfl
@[simp] theorem advanceCmdIn_outRing : s.advanceCmdIn.outRing = s.outRing := rfl
@[simp] theorem advanceCmdIn_tmRing : s.advanceCmdIn.tmRing = s.tmRing := rfl
@[simp] theorem advanceCmdIn_scr : s.advanceCmdIn.scr = s.scr := rfl
@[simp] theorem advanceCmdIn_scrLen : s.advanceCmdIn.scrLen = s.scrLen := rfl
@[simp] theorem advanceCmdIn_r0 : s.advanceCmdIn.r0 = s.r0 := rfl
@[simp] theorem advanceCmdIn_r1 : s.advanceCmdIn.r1 = s.r1 := rfl
@[simp] theorem advanceCmdIn_r2 : s.advanceCmdIn.r2 = s.r2 := rfl
@[simp] theorem advanceCmdIn_r3 : s.advanceCmdIn.r3 = s.r3 := rfl
@[simp] theorem advanceCmdIn_asm : s.advanceCmdIn.asm = s.asm := rfl
@[simp] theorem advanceCmdIn_w0 : s.advanceCmdIn.w0 = s.w0 := rfl
@[simp] theorem advanceCmdIn_fstack : s.advanceCmdIn.fstack = s.fstack := rfl
@[simp] theorem advanceCmdIn_status : s.advanceCmdIn.status = s.status := rfl
@[simp] theorem advanceCmdIn_cmdInCtr : s.advanceCmdIn.cmdInCtr = s.cmdInCtr + 1 := rfl
@[simp] theorem advanceCmdIn_tmCtr : s.advanceCmdIn.tmCtr = s.tmCtr := rfl
@[simp] theorem advanceCmdIn_outCtr : s.advanceCmdIn.outCtr = s.outCtr := rfl
@[simp] theorem advanceCmdIn_lastSent : s.advanceCmdIn.lastSent = s.lastSent := rfl
@[simp] theorem advanceCmdIn_lastSentValid : s.advanceCmdIn.lastSentValid = s.lastSentValid := rfl
@[simp] theorem advanceCmdIn_readyToSend : s.advanceCmdIn.readyToSend = s.readyToSend := rfl
@[simp] theorem advanceCmdIn_agb : s.advanceCmdIn.agb = s.agb := rfl
@[simp] theorem advanceCmdIn_resp : s.advanceCmdIn.resp = s.resp := rfl
@[simp] theorem advanceCmdIn_granted : s.advanceCmdIn.granted = s.granted := rfl
@[simp] theorem advanceCmdIn_cmdQ : s.advanceCmdIn.cmdQ = s.cmdQ := rfl
@[simp] theorem advanceCmdIn_tpQ : s.advanceCmdIn.tpQ = s.tpQ := rfl
@[simp] theorem advanceCmdIn_resetIn : s.advanceCmdIn.resetIn = s.resetIn := rfl
@[simp] theorem advanceCmdIn_grants : s.advanceCmdIn.grants = s.grants := rfl
@[simp] theorem advanceCmdIn_cfg : s.advanceCmdIn.cfg = s.cfg := rfl
@[simp] theorem advanceTm_inRing : s.advanceTm.inRing = s.inRing := rfl
@[simp] theorem advanceTm_outRing : s.advanceTm.outRing = s.outRing := rfl
@[simp] theorem advanceTm_tmRing : s.advanceTm.tmRing = s.tmRing := rfl
@[simp] theorem advanceTm_scr : s.advanceTm.scr = s.scr := rfl
@[simp] theorem advanceTm_scrLen : s.advanceTm.scrLen = s.scrLen := rfl
@[simp] theorem advanceTm_r0 : s.advanceTm.r0 = s.r0 := rfl
@[simp] theorem advanceTm_r1 : s.advanceTm.r1 = s.r1 := rfl
@[simp] theorem advanceTm_r2 : s.advanceTm.r2 = s.r2 := rfl
@[simp] theorem advanceTm_r3 : s.advanceTm.r3 = s.r3 := rfl
@[simp] theorem advanceTm_asm : s.advanceTm.asm = s.asm := rfl
@[simp] theorem advanceTm_w0 : s.advanceTm.w0 = s.w0 := rfl
@[simp] theorem advanceTm_fstack : s.advanceTm.fstack = s.fstack := rfl
@[simp] theorem advanceTm_status : s.advanceTm.status = s.status := rfl
@[simp] theorem advanceTm_cmdInCtr : s.advanceTm.cmdInCtr = s.cmdInCtr := rfl
@[simp] theorem advanceTm_tmCtr : s.advanceTm.tmCtr = s.tmCtr + 1 := rfl
@[simp] theorem advanceTm_outCtr : s.advanceTm.outCtr = s.outCtr := rfl
@[simp] theorem advanceTm_lastSent : s.advanceTm.lastSent = s.lastSent := rfl
@[simp] theorem advanceTm_lastSentValid : s.advanceTm.lastSentValid = s.lastSentValid := rfl
@[simp] theorem advanceTm_readyToSend : s.advanceTm.readyToSend = s.readyToSend := rfl
@[simp] theorem advanceTm_agb : s.advanceTm.agb = s.agb := rfl
@[simp] theorem advanceTm_resp : s.advanceTm.resp = s.resp := rfl
@[simp] theorem advanceTm_granted : s.advanceTm.granted = s.granted := rfl
@[simp] theorem advanceTm_cmdQ : s.advanceTm.cmdQ = s.cmdQ := rfl
@[simp] theorem advanceTm_tpQ : s.advanceTm.tpQ = s.tpQ := rfl
@[simp] theorem advanceTm_resetIn : s.advanceTm.resetIn = s.resetIn := rfl
@[simp] theorem advanceTm_grants : s.advanceTm.grants = s.grants := rfl
@[simp] theorem advanceTm_cfg : s.advanceTm.cfg = s.cfg := rfl
@[simp] theorem setCmdIn_inRing (n : Nat) : (s.setCmdIn n).inRing = s.inRing := rfl
@[simp] theorem setCmdIn_outRing (n : Nat) : (s.setCmdIn n).outRing = s.outRing := rfl
@[simp] theorem setCmdIn_tmRing (n : Nat) : (s.setCmdIn n).tmRing = s.tmRing := rfl
@[simp] theorem setCmdIn_scr (n : Nat) : (s.setCmdIn n).scr = s.scr := rfl
@[simp] theorem setCmdIn_scrLen (n : Nat) : (s.setCmdIn n).scrLen = s.scrLen := rfl
@[simp] theorem setCmdIn_r0 (n : Nat) : (s.setCmdIn n).r0 = s.r0 := rfl
@[simp] theorem setCmdIn_r1 (n : Nat) : (s.setCmdIn n).r1 = s.r1 := rfl
@[simp] theorem setCmdIn_r2 (n : Nat) : (s.setCmdIn n).r2 = s.r2 := rfl
@[simp] theorem setCmdIn_r3 (n : Nat) : (s.setCmdIn n).r3 = s.r3 := rfl
@[simp] theorem setCmdIn_asm (n : Nat) : (s.setCmdIn n).asm = s.asm := rfl
@[simp] theorem setCmdIn_w0 (n : Nat) : (s.setCmdIn n).w0 = s.w0 := rfl
@[simp] theorem setCmdIn_fstack (n : Nat) : (s.setCmdIn n).fstack = s.fstack := rfl
@[simp] theorem setCmdIn_status (n : Nat) : (s.setCmdIn n).status = s.status := rfl
@[simp] theorem setCmdIn_cmdInCtr (n : Nat) : (s.setCmdIn n).cmdInCtr = BitVec.ofNat 16 n := rfl
@[simp] theorem setCmdIn_tmCtr (n : Nat) : (s.setCmdIn n).tmCtr = s.tmCtr := rfl
@[simp] theorem setCmdIn_outCtr (n : Nat) : (s.setCmdIn n).outCtr = s.outCtr := rfl
@[simp] theorem setCmdIn_lastSent (n : Nat) : (s.setCmdIn n).lastSent = s.lastSent := rfl
@[simp] theorem setCmdIn_lastSentValid (n : Nat) : (s.setCmdIn n).lastSentValid = s.lastSentValid := rfl
@[simp] theorem setCmdIn_readyToSend (n : Nat) : (s.setCmdIn n).readyToSend = s.readyToSend := rfl
@[simp] theorem setCmdIn_agb (n : Nat) : (s.setCmdIn n).agb = s.agb := rfl
@[simp] theorem setCmdIn_resp (n : Nat) : (s.setCmdIn n).resp = s.resp := rfl
@[simp] theorem setCmdIn_granted (n : Nat) : (s.setCmdIn n).granted = s.granted := rfl
@[simp] theorem setCmdIn_cmdQ (n : Nat) : (s.setCmdIn n).cmdQ = s.cmdQ := rfl
@[simp] theorem setCmdIn_tpQ (n : Nat) : (s.setCmdIn n).tpQ = s.tpQ := rfl
@[simp] theorem setCmdIn_resetIn (n : Nat) : (s.setCmdIn n).resetIn = s.resetIn := rfl
@[simp] theorem setCmdIn_grants (n : Nat) : (s.setCmdIn n).grants = s.grants := rfl
@[simp] theorem setCmdIn_cfg (n : Nat) : (s.setCmdIn n).cfg = s.cfg := rfl

/-! ### setAgb -/

@[simp] theorem setAgb_inRing (m : Memory) : (s.setAgb m).inRing = s.inRing := rfl
@[simp] theorem setAgb_outRing (m : Memory) : (s.setAgb m).outRing = s.outRing := rfl
@[simp] theorem setAgb_tmRing (m : Memory) : (s.setAgb m).tmRing = s.tmRing := rfl
@[simp] theorem setAgb_scr (m : Memory) : (s.setAgb m).scr = s.scr := rfl
@[simp] theorem setAgb_scrLen (m : Memory) : (s.setAgb m).scrLen = s.scrLen := rfl
@[simp] theorem setAgb_r0 (m : Memory) : (s.setAgb m).r0 = s.r0 := rfl
@[simp] theorem setAgb_r1 (m : Memory) : (s.setAgb m).r1 = s.r1 := rfl
@[simp] theorem setAgb_r2 (m : Memory) : (s.setAgb m).r2 = s.r2 := rfl
@[simp] theorem setAgb_r3 (m : Memory) : (s.setAgb m).r3 = s.r3 := rfl
@[simp] theorem setAgb_asm (m : Memory) : (s.setAgb m).asm = s.asm := rfl
@[simp] theorem setAgb_w0 (m : Memory) : (s.setAgb m).w0 = s.w0 := rfl
@[simp] theorem setAgb_fstack (m : Memory) : (s.setAgb m).fstack = s.fstack := rfl
@[simp] theorem setAgb_status (m : Memory) : (s.setAgb m).status = s.status := rfl
@[simp] theorem setAgb_cmdInCtr (m : Memory) : (s.setAgb m).cmdInCtr = s.cmdInCtr := rfl
@[simp] theorem setAgb_tmCtr (m : Memory) : (s.setAgb m).tmCtr = s.tmCtr := rfl
@[simp] theorem setAgb_outCtr (m : Memory) : (s.setAgb m).outCtr = s.outCtr := rfl
@[simp] theorem setAgb_lastSent (m : Memory) : (s.setAgb m).lastSent = s.lastSent := rfl
@[simp] theorem setAgb_lastSentValid (m : Memory) : (s.setAgb m).lastSentValid = s.lastSentValid := rfl
@[simp] theorem setAgb_readyToSend (m : Memory) : (s.setAgb m).readyToSend = s.readyToSend := rfl
@[simp] theorem setAgb_agb (m : Memory) : (s.setAgb m).agb = m := rfl
@[simp] theorem setAgb_resp (m : Memory) : (s.setAgb m).resp = s.resp := rfl
@[simp] theorem setAgb_granted (m : Memory) : (s.setAgb m).granted = s.granted := rfl
@[simp] theorem setAgb_cmdQ (m : Memory) : (s.setAgb m).cmdQ = s.cmdQ := rfl
@[simp] theorem setAgb_tpQ (m : Memory) : (s.setAgb m).tpQ = s.tpQ := rfl
@[simp] theorem setAgb_resetIn (m : Memory) : (s.setAgb m).resetIn = s.resetIn := rfl
@[simp] theorem setAgb_grants (m : Memory) : (s.setAgb m).grants = s.grants := rfl
@[simp] theorem setAgb_cfg (m : Memory) : (s.setAgb m).cfg = s.cfg := rfl
@[simp] theorem setAgb_ring (m : Memory) (r : RingSel) : (s.setAgb m).ring r = s.ring r := by cases r <;> rfl
@[simp] theorem setAgb_cap (m : Memory) (r : RingSel) : (s.setAgb m).cap r = s.cap r := by cases r <;> rfl
@[simp] theorem setAgb_reader (m : Memory) (c : RdSel) : (s.setAgb m).reader c = s.reader c := by cases c <;> rfl

/-! ### Views of updated states -/

@[simp] theorem finish_ring (st : Status) (res : List Nat) (d : List Byte) (ev : List Event) (r : RingSel) :
    (finish st res d ev s).ring r = s.ring r := by cases r <;> rfl
@[simp] theorem finish_cap (st : Status) (res : List Nat) (d : List Byte) (ev : List Event) (r : RingSel) :
    (finish st res d ev s).cap r = s.cap r := by cases r <;> rfl
@[simp] theorem finish_reader (st : Status) (res : List Nat) (d : List Byte) (ev : List Event) (c : RdSel) :
    (finish st res d ev s).reader c = s.reader c := by cases c <;> rfl
@[simp] theorem raise_ring (st : Status) (r : RingSel) : (raise st s).ring r = s.ring r := by cases r <;> rfl
@[simp] theorem raise_cap (st : Status) (r : RingSel) : (raise st s).cap r = s.cap r := by cases r <;> rfl
@[simp] theorem raise_reader (st : Status) (c : RdSel) : (raise st s).reader c = s.reader c := by cases c <;> rfl
@[simp] theorem loadScr_ring (bytes : List Byte) (r : RingSel) :
    (s.loadScr bytes).ring r = s.ring r := by cases r <;> rfl
@[simp] theorem loadScr_cap (bytes : List Byte) (r : RingSel) :
    (s.loadScr bytes).cap r = s.cap r := by cases r <;> rfl
@[simp] theorem setWriter_ring (w : Memory × Cursor) (r : RingSel) :
    (s.setWriter w).ring r = s.ring r := by cases r <;> rfl
@[simp] theorem setWriter_cap (w : Memory × Cursor) (r : RingSel) :
    (s.setWriter w).cap r = s.cap r := by cases r <;> rfl
@[simp] theorem setWriter_reader (w : Memory × Cursor) (c : RdSel) :
    (s.setWriter w).reader c = s.reader c := by cases c <;> rfl
@[simp] theorem rewind_ring (r : RingSel) : (s.rewind).ring r = s.ring r := by cases r <;> rfl
@[simp] theorem rewind_cap (r : RingSel) : (s.rewind).cap r = s.cap r := by cases r <;> rfl
@[simp] theorem rewind_reader (c : RdSel) : (s.rewind).reader c = s.reader c := by cases c <;> rfl
@[simp] theorem noteSent_ring (r : RingSel) : (s.noteSent).ring r = s.ring r := by cases r <;> rfl
@[simp] theorem noteSent_cap (r : RingSel) : (s.noteSent).cap r = s.cap r := by cases r <;> rfl
@[simp] theorem noteSent_reader (c : RdSel) : (s.noteSent).reader c = s.reader c := by cases c <;> rfl
@[simp] theorem noteReceipt_ring (n : Nat) (r : RingSel) :
    (s.noteReceipt n).ring r = s.ring r := by
  unfold State.noteReceipt; split <;> cases r <;> rfl
@[simp] theorem noteReceipt_cap (n : Nat) (r : RingSel) :
    (s.noteReceipt n).cap r = s.cap r := by
  unfold State.noteReceipt; split <;> cases r <;> rfl
@[simp] theorem noteReceipt_reader (n : Nat) (c : RdSel) :
    (s.noteReceipt n).reader c = s.reader c := by
  unfold State.noteReceipt; split <;> cases c <;> rfl
@[simp] theorem advanceCmdIn_ring (r : RingSel) : (s.advanceCmdIn).ring r = s.ring r := by cases r <;> rfl
@[simp] theorem advanceCmdIn_cap (r : RingSel) : (s.advanceCmdIn).cap r = s.cap r := by cases r <;> rfl
@[simp] theorem advanceCmdIn_reader (c : RdSel) : (s.advanceCmdIn).reader c = s.reader c := by cases c <;> rfl
@[simp] theorem advanceTm_ring (r : RingSel) : (s.advanceTm).ring r = s.ring r := by cases r <;> rfl
@[simp] theorem advanceTm_cap (r : RingSel) : (s.advanceTm).cap r = s.cap r := by cases r <;> rfl
@[simp] theorem advanceTm_reader (c : RdSel) : (s.advanceTm).reader c = s.reader c := by cases c <;> rfl
@[simp] theorem setCmdIn_ring (n : Nat) (r : RingSel) : (s.setCmdIn n).ring r = s.ring r := by cases r <;> rfl
@[simp] theorem setCmdIn_cap (n : Nat) (r : RingSel) : (s.setCmdIn n).cap r = s.cap r := by cases r <;> rfl
@[simp] theorem setCmdIn_reader (n : Nat) (c : RdSel) : (s.setCmdIn n).reader c = s.reader c := by cases c <;> rfl

/-! ### Reset and the arbiter -/

@[simp] theorem applyReset_inRing : s.applyReset.inRing = Ring.empty s.cfg.capIn := rfl
@[simp] theorem applyReset_outRing : s.applyReset.outRing = Ring.empty s.cfg.capOut := rfl
@[simp] theorem applyReset_tmRing : s.applyReset.tmRing = Ring.empty s.cfg.capTm := rfl
@[simp] theorem applyReset_scr : s.applyReset.scr = [] := rfl
@[simp] theorem applyReset_scrLen : s.applyReset.scrLen = 0 := rfl
@[simp] theorem applyReset_r0 : s.applyReset.r0 = ⟨0, 0, 0⟩ := rfl
@[simp] theorem applyReset_r1 : s.applyReset.r1 = ⟨0, 0, 0⟩ := rfl
@[simp] theorem applyReset_r2 : s.applyReset.r2 = ⟨0, 0, 0⟩ := rfl
@[simp] theorem applyReset_r3 : s.applyReset.r3 = ⟨0, 0, 0⟩ := rfl
@[simp] theorem applyReset_asm : s.applyReset.asm = [] := rfl
@[simp] theorem applyReset_w0 : s.applyReset.w0 = ⟨0, 0, s.cfg.asmSize⟩ := rfl
@[simp] theorem applyReset_fstack : s.applyReset.fstack = [] := rfl
@[simp] theorem applyReset_status : s.applyReset.status = 0 := rfl
@[simp] theorem applyReset_cmdInCtr : s.applyReset.cmdInCtr = 0 := rfl
@[simp] theorem applyReset_tmCtr : s.applyReset.tmCtr = 0 := rfl
@[simp] theorem applyReset_outCtr : s.applyReset.outCtr = 0 := rfl
@[simp] theorem applyReset_lastSent : s.applyReset.lastSent = 0 := rfl
@[simp] theorem applyReset_lastSentValid : s.applyReset.lastSentValid = false := rfl
@[simp] theorem applyReset_readyToSend : s.applyReset.readyToSend = false := rfl
@[simp] theorem applyReset_agb : s.applyReset.agb = [] := rfl
@[simp] theorem applyReset_resp : s.applyReset.resp = none := rfl
@[simp] theorem applyReset_granted : s.applyReset.granted = none := rfl
@[simp] theorem applyReset_cmdQ : s.applyReset.cmdQ = s.cmdQ := rfl
@[simp] theorem applyReset_tpQ : s.applyReset.tpQ = s.tpQ := rfl
@[simp] theorem applyReset_resetIn : s.applyReset.resetIn = false := rfl
@[simp] theorem applyReset_grants : s.applyReset.grants = s.grants := rfl
@[simp] theorem applyReset_cfg : s.applyReset.cfg = s.cfg := rfl
@[simp] theorem withNextCommand_inRing (c : Command) : (s.withNextCommand c).inRing = s.inRing := rfl
@[simp] theorem withNextCommand_outRing (c : Command) : (s.withNextCommand c).outRing = s.outRing := rfl
@[simp] theorem withNextCommand_tmRing (c : Command) : (s.withNextCommand c).tmRing = s.tmRing := rfl
@[simp] theorem withNextCommand_scr (c : Command) : (s.withNextCommand c).scr = s.scr := rfl
@[simp] theorem withNextCommand_scrLen (c : Command) : (s.withNextCommand c).scrLen = s.scrLen := rfl
@[simp] theorem withNextCommand_r0 (c : Command) : (s.withNextCommand c).r0 = s.r0 := rfl
@[simp] theorem withNextCommand_r1 (c : Command) : (s.withNextCommand c).r1 = s.r1 := rfl
@[simp] theorem withNextCommand_r2 (c : Command) : (s.withNextCommand c).r2 = s.r2 := rfl
@[simp] theorem withNextCommand_r3 (c : Command) : (s.withNextCommand c).r3 = s.r3 := rfl
@[simp] theorem withNextCommand_asm (c : Command) : (s.withNextCommand c).asm = s.asm := rfl
@[simp] theorem withNextCommand_w0 (c : Command) : (s.withNextCommand c).w0 = s.w0 := rfl
@[simp] theorem withNextCommand_fstack (c : Command) : (s.withNextCommand c).fstack = s.fstack := rfl
@[simp] theorem withNextCommand_status (c : Command) : (s.withNextCommand c).status = s.status := rfl
@[simp] theorem withNextCommand_cmdInCtr (c : Command) : (s.withNextCommand c).cmdInCtr = s.cmdInCtr := rfl
@[simp] theorem withNextCommand_tmCtr (c : Command) : (s.withNextCommand c).tmCtr = s.tmCtr := rfl
@[simp] theorem withNextCommand_outCtr (c : Command) : (s.withNextCommand c).outCtr = s.outCtr := rfl
@[simp] theorem withNextCommand_lastSent (c : Command) : (s.withNextCommand c).lastSent = s.lastSent := rfl
@[simp] theorem withNextCommand_lastSentValid (c : Command) :
    (s.withNextCommand c).lastSentValid = s.lastSentValid := rfl
@[simp] theorem withNextCommand_readyToSend (c : Command) : (s.withNextCommand c).readyToSend = s.readyToSend := rfl
@[simp] theorem withNextCommand_agb (c : Command) : (s.withNextCommand c).agb = s.agb := rfl
@[simp] theorem withNextCommand_resp (c : Command) : (s.withNextCommand c).resp = s.resp := rfl
@[simp] theorem withNextCommand_granted (c : Command) : (s.withNextCommand c).granted = s.granted := rfl
@[simp] theorem withNextCommand_cmdQ (c : Command) : (s.withNextCommand c).cmdQ = c :: s.cmdQ := rfl
@[simp] theorem withNextCommand_tpQ (c : Command) : (s.withNextCommand c).tpQ = [] := rfl
@[simp] theorem withNextCommand_resetIn (c : Command) : (s.withNextCommand c).resetIn = false := rfl
@[simp] theorem withNextCommand_grants (c : Command) : (s.withNextCommand c).grants = s.grants := rfl
@[simp] theorem withNextCommand_cfg (c : Command) : (s.withNextCommand c).cfg = s.cfg := rfl

end Sys2Proof.Machine
end

