-- ==== Sys2Proof/Laws/Outcome.lean ====
section
/-! SUPPORT. The endings of a command: what `conclude` answers, and how an internal function that answers comes apart. -/

namespace Sys2Proof.Machine

/-- A sequence of two internal functions answers when both do. -/
theorem bind_ok {α β : Type} {x : Res α} {f : α → Res β} {b : β} :
    (x >>= f) = .ok b ↔ ∃ a, x = .ok a ∧ f a = .ok b := by
  cases x with
  | ok a => simp [bind, Except.bind]
  | error e => simp [bind, Except.bind]

/-- It stops when the first stops, or the first answers and the second stops. -/
theorem bind_error {α β : Type} {x : Res α} {f : α → Res β} {e : Stop} :
    (x >>= f) = .error e ↔ x = .error e ∨ ∃ a, x = .ok a ∧ f a = .error e := by
  cases x with
  | ok a => simp [bind, Except.bind]
  | error e' => simp [bind, Except.bind]

theorem ok_bind {α β : Type} (a : α) (f : α → Res β) : ((Except.ok a : Res α) >>= f) = f a := rfl

theorem error_bind {α β : Type} (e : Stop) (f : α → Res β) : ((Except.error e : Res α) >>= f) = .error e := rfl

/-- Everything a command that may raise can answer. -/
theorem conclude_next {s t : State} {r : Res State} :
    conclude s r = .next t ↔ r = .ok t ∨ ∃ st, r = .error (.raised st) ∧ t = raise st s := by
  rcases r with (st | -) | u
  · simp only [conclude, Host.Outcome.next.injEq, reduceCtorEq, false_or]
    constructor
    · intro h; exact ⟨st, rfl, h.symm⟩
    · rintro ⟨st', h1, h2⟩; cases h1; exact h2.symm
  · simp [conclude]
  · simp [conclude]

theorem conclude_ok (s t : State) : conclude s (.ok t) = .next t := rfl

theorem conclude_raised (s : State) (st : Status) : conclude s (.error (.raised st)) = .next (raise st s) := rfl

/-- It goes on unless a cell without a value is read. -/
theorem conclude_goes {s : State} {r : Res State} (h : r ≠ .error .noValue) : Out.Goes (conclude s r) := by
  rcases r with (st | -) | u
  · exact ⟨_, rfl⟩
  · exact absurd rfl h
  · exact ⟨_, rfl⟩

theorem withRing_present {s : State} {r : RingSel} (k : Out) (h : r.present s.cfg = true) : withRing s r k = k := by
  simp [withRing, h]

theorem withRing_absent {s : State} {r : RingSel} (k : Out) (h : r.present s.cfg = false) :
    withRing s r k = .next (raise .illegalCommand s) := by
  simp [withRing, h]

theorem withAgent_present {s : State} (k : Out) (h : s.cfg.hasAgent = true) : withAgent s k = k := by
  simp [withAgent, h]

theorem withAgent_absent {s : State} (k : Out) (h : s.cfg.hasAgent = false) :
    withAgent s k = .next (raise .illegalCommand s) := by
  simp [withAgent, h]

theorem statusCode_le (st : Status) : statusCode st ≤ 17 := by cases st <;> decide

theorem statusCode_inj {a b : Status} (h : statusCode a = statusCode b) : a = b := by
  cases a <;> cases b <;> first | rfl | (exact absurd h (by decide))

theorem status_toNat (st : Status) : (BitVec.ofNat 8 (statusCode st)).toNat = statusCode st := by cases st <;> decide

end Sys2Proof.Machine
end

