-- ==== Sys2Proof/Laws/Codec.lean ====
section
/-! SUPPORT. Byte orders, BER values, and the reader and writer functions over them (40_cursor_ber.md §1). -/

namespace Sys2Proof.Machine

/-! ### Byte orders -/

theorem leNat_eq_ofDigits (bytes : List Byte) : leNat bytes = Nat.ofDigits 256 (bytes.map (·.toNat)) := by
  induction bytes with
  | nil => rfl
  | cons b bs ih => simp [leNat, ih, Nat.ofDigits_cons]

theorem leNat_lt (bytes : List Byte) : leNat bytes < 256 ^ bytes.length := by
  induction bytes with
  | nil => simp [leNat]
  | cons b bs ih =>
    have := b.isLt
    simp only [leNat, List.length_cons, Nat.pow_succ]
    omega

@[simp] theorem toLE_length (v n : Nat) : (toLE v n).length = n := by
  induction n generalizing v with
  | zero => rfl
  | succ n ih => simp [toLE, ih]

@[simp] theorem toBE_length (v n : Nat) : (toBE v n).length = n := by simp [toBE]

theorem leNat_toLE (v n : Nat) : leNat (toLE v n) = v % 256 ^ n := by
  induction n generalizing v with
  | zero => simp [toLE, leNat, Nat.mod_one]
  | succ n ih =>
    rw [toLE, leNat, ih, BitVec.toNat_ofNat, Nat.pow_succ (n := 256), Nat.mul_comm (256 ^ n) 256, Nat.mod_mul]

theorem beNat_toBE (v n : Nat) : beNat (toBE v n) = v % 256 ^ n := by
  simp [beNat, toBE, leNat_toLE]

/-! ### BER values -/

theorem byteLenAux_spec (fuel v : Nat) (h : v < 256 ^ (fuel + 1)) :
    1 ≤ byteLenAux fuel v ∧ byteLenAux fuel v ≤ fuel + 1 ∧ v < 256 ^ byteLenAux fuel v ∧
      (byteLenAux fuel v = 1 ∨ 256 ^ (byteLenAux fuel v - 1) ≤ v) := by
  induction fuel generalizing v with
  | zero => exact ⟨Nat.le_refl _, Nat.le_refl _, by simpa [byteLenAux] using h, .inl rfl⟩
  | succ n ih =>
    unfold byteLenAux
    split
    · exact ⟨Nat.le_refl _, by omega, by simpa, .inl rfl⟩
    · rename_i h1
      have hv : v / 256 < 256 ^ (n + 1) := by
        rw [Nat.div_lt_iff_lt_mul (by decide)]
        rwa [Nat.pow_succ] at h
      obtain ⟨h2, h3, h4, h5⟩ := ih (v / 256) hv
      refine ⟨by omega, by omega, ?_, .inr ?_⟩
      · rw [Nat.pow_succ]
        exact (Nat.div_lt_iff_lt_mul (by decide)).1 h4
      · rw [Nat.add_sub_cancel]
        rcases h5 with h5 | h5
        · rw [h5]; omega
        · have := (Nat.le_div_iff_mul_le (by decide)).1 h5
          rwa [← Nat.pow_succ, Nat.succ_eq_add_one, Nat.sub_add_cancel h2] at this

theorem byteLen_spec {v : Nat} (h : v < 2 ^ 64) :
    1 ≤ byteLen v ∧ byteLen v ≤ 8 ∧ v < 256 ^ byteLen v ∧ (byteLen v = 1 ∨ 256 ^ (byteLen v - 1) ≤ v) :=
  byteLenAux_spec 7 v (by simpa using h)

/-- `ber_min` is a BER value of its argument (30_encoding.md R61). -/
theorem berForm_berMin {v : Nat} (h : v < 2 ^ 64) : BerForm (berMin v) v := by
  unfold berMin
  split
  · rename_i h1
    refine .inl ⟨_, rfl, ?_, ?_⟩ <;> simp only [BitVec.toNat_ofNat] <;> omega
  · obtain ⟨h1, h2, h3, -⟩ := byteLen_spec h
    refine .inr ⟨_, _, rfl, by simpa using h1, by simpa using h2, ?_, ?_⟩
    · simp only [BitVec.toNat_ofNat, toLE_length]
      omega
    · rw [← leNat_eq_ofDigits, leNat_toLE, Nat.mod_eq_of_lt h3]

theorem BerForm.lt {bytes : List Byte} {v : Nat} (h : BerForm bytes v) : v < 2 ^ 64 := by
  rcases h with ⟨x, -, h1, rfl⟩ | ⟨x, vals, -, h1, h2, -, rfl⟩
  · omega
  · rw [← leNat_eq_ofDigits]
    refine lt_of_lt_of_le (leNat_lt vals) ?_
    calc 256 ^ vals.length ≤ 256 ^ 8 := Nat.pow_le_pow_right (by decide) h2
      _ = 2 ^ 64 := by norm_num

theorem BerForm.length_pos {bytes : List Byte} {v : Nat} (h : BerForm bytes v) : 1 ≤ bytes.length := by
  rcases h with ⟨x, rfl, -⟩ | ⟨x, vals, rfl, -⟩ <;> simp

/-- BER values are a prefix code: the header octet fixes the length, and the bytes the value (30_encoding.md R60). -/
theorem BerForm.unique {a b x y : List Byte} {v w : Nat} (ha : BerForm a v) (hb : BerForm b w) (h : a ++ x = b ++ y) :
    a = b ∧ v = w ∧ x = y := by
  have hl : a.length = b.length := by
    rcases ha with ⟨p, rfl, h1, -⟩ | ⟨p, vals, rfl, h1, h2, h3, -⟩ <;>
      rcases hb with ⟨q, rfl, g1, -⟩ | ⟨q, vals', rfl, g1, g2, g3, -⟩ <;>
      simp only [List.cons_append, List.cons.injEq] at h <;> obtain ⟨rfl, -⟩ := h <;>
      simp only [List.length_cons, List.length_nil] <;> omega
  obtain ⟨rfl, rfl⟩ := List.append_inj h hl
  refine ⟨rfl, ?_, rfl⟩
  rcases ha with ⟨p, rfl, h1, rfl⟩ | ⟨p, vals, rfl, h1, h2, h3, rfl⟩
  · rcases hb with ⟨q, hq, g1, rfl⟩ | ⟨q, vals', hq, g1, -, g3, -⟩
    · cases hq; rfl
    · cases hq; simp at g1
  · rcases hb with ⟨q, hq, g1, rfl⟩ | ⟨q, vals', hq, g1, -, g3, rfl⟩
    · cases hq; simp at h1
    · cases hq; rfl

/-- A message has one body. -/
theorem MsgForm.body_unique {k : Kind} {a b msg : List Byte} (ha : MsgForm k a msg) (hb : MsgForm k b msg) : a = b := by
  obtain ⟨la, h1, rfl⟩ := ha
  obtain ⟨lb, h2, h⟩ := hb
  rw [List.append_assoc, List.append_assoc] at h
  exact (h1.unique h2 (List.append_cancel_left h)).2.2

/-- BerDecode reads every BER value, minimal or not (40_cursor_ber.md R80). -/
theorem berDecode_form {m : Memory} {i e v : Nat} {bytes : List Byte} (h : BerForm bytes v) (hm : m.Holds i bytes)
    (he : i + bytes.length ≤ e) : berDecode m i e = .ok (v, i + bytes.length) := by
  rcases h with ⟨x, rfl, h1, rfl⟩ | ⟨x, vals, rfl, h1, h2, h3, rfl⟩
  · have hx : m.read i = some x := by simpa using hm 0 (by simp)
    rw [List.length_singleton] at he
    unfold berDecode
    rw [if_neg (by omega), hx]
    simp [h1]
  · obtain ⟨hx, hv⟩ := Memory.Holds.cons.1 hm
    rw [List.length_cons] at he
    unfold berDecode
    rw [if_neg (by omega), hx]
    simp only [h3, Nat.add_sub_cancel_left]
    rw [if_neg (by omega), if_neg (by omega), if_neg (by omega), memRead_holds hv, ok_bind, leNat_eq_ofDigits,
      List.length_cons]
    simp only [pure, Except.pure, Nat.add_assoc, Nat.add_comm]

/-- Everything BerDecode can answer (40_cursor_ber.md R80). -/
theorem berDecode_ok {m : Memory} {i e v j : Nat} (h : berDecode m i e = .ok (v, j)) :
    ∃ bytes, BerForm bytes v ∧ m.Holds i bytes ∧ j = i + bytes.length ∧ j ≤ e := by
  unfold berDecode at h
  split at h
  · cases h
  · split at h
    · cases h
    · rename_i h0 x hx
      split at h
      · rename_i h1
        cases h
        refine ⟨[x], .inl ⟨x, rfl, h1, rfl⟩, ?_, rfl, by omega⟩
        exact Memory.Holds.cons.2 ⟨hx, Memory.Holds.nil⟩
      · simp only [] at h
        split at h
        · cases h
        · split at h
          · cases h
          · obtain ⟨bytes, hb, h⟩ := bind_ok.1 h
            obtain ⟨hl, hh⟩ := memRead_ok hb
            simp only [pure, Except.pure, Except.ok.injEq, Prod.mk.injEq] at h
            obtain ⟨rfl, rfl⟩ := h
            have := x.isLt
            refine ⟨x :: bytes, .inr ⟨x, bytes, rfl, ?_⟩, Memory.Holds.cons.2 ⟨hx, hh⟩, ?_, by omega⟩
            · refine ⟨by omega, by omega, by omega, (leNat_eq_ofDigits bytes)⟩
            · rw [List.length_cons]; omega

/-- BerDecode over written cells reads no cell without a value (40_cursor_ber.md R78, R80). -/
theorem berDecode_written {m : Memory} {i e : Nat} (h : m.Written i e) : berDecode m i e ≠ .error .noValue := by
  intro hb
  unfold berDecode at hb
  split at hb
  · cases hb
  · obtain ⟨x, hx⟩ := Option.isSome_iff_exists.1 (h i (by omega) (Nat.le_refl _))
    rw [hx] at hb
    simp only [] at hb
    split at hb
    · cases hb
    · split at hb
      · cases hb
      · split at hb
        · cases hb
        · obtain ⟨bytes, hr⟩ := memRead_written (m := m) (i := i + 1) (n := x.toNat - 0x80)
            (h.mono (by omega) (by omega))
          rw [hr] at hb
          cases hb

/-! ### Readers and the writer -/

/-- Everything ReadN can answer (40_cursor_ber.md R78). -/
theorem readN_ok {m : Memory} {c c' : Cursor} {n : Nat} {bytes : List Byte} (h : readN m c n = .ok (bytes, c')) :
    bytes.length = n ∧ n ≤ c.avail ∧ m.Holds c.cur bytes ∧ c' = { c with cur := c.cur + n } := by
  unfold readN at h
  split at h
  · cases h
  · obtain ⟨bs, hb, h⟩ := bind_ok.1 h
    obtain ⟨hl, hh⟩ := memRead_ok hb
    cases h
    exact ⟨hl, by omega, hh, rfl⟩

theorem readN_holds {m : Memory} {c : Cursor} {bytes : List Byte} (h : m.Holds c.cur bytes)
    (ha : c.cur + bytes.length ≤ c.stop) :
    readN m c bytes.length = .ok (bytes, { c with cur := c.cur + bytes.length }) := by
  unfold readN Cursor.avail
  rw [if_neg (by omega), memRead_holds h, ok_bind]
  rfl

theorem readN_short {m : Memory} {c : Cursor} {n : Nat} (h : c.avail < n) :
    readN m c n = .error (.raised .unexpectedEndOfStream) := by
  unfold readN
  rw [if_pos h]

theorem readN_written {m : Memory} {c : Cursor} {n : Nat} (h : m.Written c.cur c.stop) :
    readN m c n ≠ .error .noValue := by
  unfold readN Cursor.avail
  split
  · simp
  · obtain ⟨bytes, hb⟩ := memRead_written (m := m) (i := c.cur) (n := n)
      fun k hk hl => h k (by omega) hl
    rw [hb]
    simp [bind, Except.bind, pure, Except.pure]

/-- Everything ReadBer can answer (40_cursor_ber.md R81). -/
theorem readBer_ok {m : Memory} {c c' : Cursor} {v : Nat} (h : readBer m c = .ok (v, c')) :
    ∃ bytes, BerForm bytes v ∧ m.Holds c.cur bytes ∧ c.cur + bytes.length ≤ c.stop ∧
      c' = { c with cur := c.cur + bytes.length } := by
  unfold readBer at h
  obtain ⟨⟨v', j⟩, hb, h⟩ := bind_ok.1 h
  obtain ⟨bytes, h1, h2, rfl, h4⟩ := berDecode_ok hb
  cases h
  exact ⟨bytes, h1, h2, h4, rfl⟩

theorem readBer_form {m : Memory} {c : Cursor} {v : Nat} {bytes : List Byte} (h : BerForm bytes v)
    (hm : m.Holds c.cur bytes) (he : c.cur + bytes.length ≤ c.stop) :
    readBer m c = .ok (v, { c with cur := c.cur + bytes.length }) := by
  unfold readBer
  rw [berDecode_form h hm he]
  rfl

theorem readBer_written {m : Memory} {c : Cursor} (h : m.Written c.cur c.stop) : readBer m c ≠ .error .noValue := by
  intro hb
  unfold readBer at hb
  rcases bind_error.1 hb with hb | ⟨a, -, hb⟩
  · exact berDecode_written h hb
  · cases hb

/-- WriteN where the bytes fit (40_cursor_ber.md R79). -/
theorem writeN_fits {w : Memory × Cursor} {bytes : List Byte} (h : bytes.length ≤ w.2.avail) :
    writeN w bytes = .ok (memWrite w.1 w.2.cur bytes, { w.2 with cur := w.2.cur + bytes.length }) := by
  unfold writeN
  rw [if_neg (by omega)]

theorem writeN_full {w : Memory × Cursor} {bytes : List Byte} (h : w.2.avail < bytes.length) :
    writeN w bytes = .error (.raised .notEnoughSpace) := by
  unfold writeN
  rw [if_pos h]

end Sys2Proof.Machine
end

