-- ==== Sys2Proof/Laws/Ring.lean ====
section
/-! SUPPORT. Rings: what peek, erase and write do to the readable bytes (`Ring.contents`), and that each keeps the
invariant of a ring. -/

namespace Sys2Proof.Machine

theorem mod_add_ne {cap i j k : Nat} (hj : j < cap) (hk : k < cap) (h : j ≠ k) : (i + j) % cap ≠ (i + k) % cap := by
  intro he
  have h1 : (i + j) ≡ (i + k) [MOD cap] := he
  have h2 := Nat.ModEq.add_left_cancel' i h1
  exact h (by rw [← Nat.mod_eq_of_lt hj, ← Nat.mod_eq_of_lt hk]; exact h2)

/-! ### The cells RingWrite stores to -/

theorem ringStore_read_other {cap : Nat} (m : Memory) (i : Nat) (bytes : List Byte) (a : Nat)
    (h : ∀ k, k < bytes.length → a ≠ (i + k) % cap) : (ringStore cap m i bytes).read a = m.read a := by
  induction bytes generalizing m i with
  | nil => rfl
  | cons b bs ih =>
    rw [ringStore, ih]
    · exact Memory.read_write_other _ _ _ _ (by simpa using h 0 (by simp))
    · intro k hk
      have := h (k + 1) (by simpa using hk)
      rwa [show i + (k + 1) = i + 1 + k by omega] at this

theorem ringStore_read_at {cap : Nat} (m : Memory) (i : Nat) (bytes : List Byte) (hc : bytes.length ≤ cap) (k : Nat)
    (hk : k < bytes.length) : (ringStore cap m i bytes).read ((i + k) % cap) = bytes[k]? := by
  induction bytes generalizing m i k with
  | nil => simp at hk
  | cons b bs ih =>
    rw [List.length_cons] at hc hk
    rw [ringStore]
    cases k with
    | zero =>
      rw [ringStore_read_other, Nat.add_zero, Memory.read_write_self]
      · rfl
      · intro j hj
        rw [show i + 1 + j = i + (1 + j) by omega]
        exact mod_add_ne (by omega) (by omega) (by omega)
    | succ k =>
      rw [show i + (k + 1) = i + 1 + k by omega, ih _ _ (by omega) _ (by omega)]
      rfl

theorem ringStore_Inv {cap : Nat} {m : Memory} (i : Nat) (bytes : List Byte) (h : m.Inv cap) (hc : 0 < cap) :
    (ringStore cap m i bytes).Inv cap := by
  induction bytes generalizing m i with
  | nil => exact h
  | cons b bs ih => exact ih _ (Memory.Inv_write _ h (Nat.mod_lt _ hc))

/-! ### The readable bytes -/

@[simp] theorem Ring.contents_length (cap : Nat) (rb : Ring) : (rb.contents cap).length = rb.readable cap := by
  simp [Ring.contents]

theorem Ring.contents_getElem {cap k : Nat} {rb : Ring} (hk : k < (rb.contents cap).length) :
    (rb.contents cap)[k] = (rb.data.read ((rb.rd + k) % cap)).getD 0 := by
  simp [Ring.contents]

theorem Ring.readable_le (cap : Nat) (rb : Ring) : rb.readable cap ≤ cap := Nat.sub_le _ _

theorem Ring.Inv.pos {cap : Nat} {rb : Ring} (h : rb.Inv cap) : 0 < cap := by have := h.rd; omega

theorem Ring.Inv.read {cap k : Nat} {rb : Ring} (h : rb.Inv cap) (hk : k < rb.readable cap) :
    rb.data.read ((rb.rd + k) % cap) = (rb.contents cap)[k]? := by
  rw [List.getElem?_eq_getElem (by simpa using hk), Ring.contents_getElem]
  obtain ⟨b, hb⟩ := Option.isSome_iff_exists.1 (h.held k hk)
  simp [hb]

/-- RingPeek inside the readable window (41_ring.md R110). -/
theorem ringPeek_ok {cap n off : Nat} {rb : Ring} (h : rb.Inv cap) (hn : off + n ≤ rb.readable cap) :
    ringPeek cap n off rb = .ok (((rb.contents cap).drop off).take n) := by
  unfold ringPeek
  rw [if_neg (by omega), collect_written]
  · congr 1
    apply List.ext_getElem
    · simp
      omega
    · intro k h1 h2
      have hk : k < n := by simpa using h1
      simp [Ring.contents, Nat.add_assoc]
  · intro a ha
    obtain ⟨x, hx, rfl⟩ := List.mem_map.1 ha
    obtain ⟨hx1, hx2⟩ := List.mem_range'_1.1 hx
    have := h.held (x - rb.rd) (by omega)
    rwa [show rb.rd + (x - rb.rd) = x by omega] at this

theorem ringPeek_range {cap n off : Nat} {rb : Ring} (hn : rb.readable cap < off + n) :
    ringPeek cap n off rb = .error (.raised .outOfRange) := by
  unfold ringPeek
  rw [if_pos (by omega)]

theorem Ring.drop_readable {cap n : Nat} (rb : Ring) : (rb.drop cap n).readable cap = rb.readable cap - n := by
  simp only [Ring.drop, Ring.readable]
  omega

/-- RingErase takes the oldest bytes (41_ring.md R109). -/
theorem Ring.drop_contents {cap n : Nat} {rb : Ring} : (rb.drop cap n).contents cap = (rb.contents cap).drop n := by
  apply List.ext_getElem
  · simp [Ring.drop_readable]
  · intro k h1 h2
    rw [Ring.contents_getElem, List.getElem_drop, Ring.contents_getElem]
    simp only [Ring.drop, Nat.mod_add_mod, Nat.add_assoc]

theorem Ring.Inv.drop {cap n : Nat} {rb : Ring} (h : rb.Inv cap) (hn : n ≤ rb.readable cap) : (rb.drop cap n).Inv cap where
  mem := h.mem
  rd := Nat.mod_lt _ h.pos
  wr := h.wr
  free := by
    have := h.free
    simp only [Ring.drop, Ring.readable] at hn ⊢
    omega
  offsets := by
    rw [Ring.drop_readable]
    simp only [Ring.drop, Nat.mod_add_mod]
    rw [h.offsets]
    congr 1
    omega
  held := by
    intro k hk
    rw [Ring.drop_readable] at hk
    have := h.held (n + k) (by omega)
    simpa only [Ring.drop, Nat.mod_add_mod, Nat.add_assoc] using this

theorem ringErase_ok {cap n : Nat} {rb : Ring} (hn : n ≤ rb.readable cap) : ringErase cap n rb = .ok (rb.drop cap n) := by
  unfold ringErase
  rw [if_neg (by omega)]

theorem ringErase_range {cap n : Nat} {rb : Ring} (hn : rb.readable cap < n) :
    ringErase cap n rb = .error (.raised .outOfRange) := by
  unfold ringErase
  rw [if_pos hn]

/-! ### RingWrite -/

theorem Ring.append_readable {cap : Nat} {rb : Ring} {bytes : List Byte} (h : rb.Inv cap) (hl : bytes.length ≤ rb.free) :
    (rb.append cap bytes).readable cap = rb.readable cap + bytes.length := by
  have := h.free
  simp only [Ring.append, Ring.readable]
  omega

theorem Ring.append_read_window {cap k : Nat} {rb : Ring} {bytes : List Byte} (h : rb.Inv cap)
    (hl : bytes.length ≤ rb.free) (hk : k < rb.readable cap + bytes.length) :
    (rb.append cap bytes).data.read ((rb.rd + k) % cap) = ((rb.contents cap) ++ bytes)[k]? := by
  have hf := h.free
  have hc : bytes.length ≤ cap := by omega
  simp only [Ring.append]
  by_cases h1 : k < rb.readable cap
  · rw [ringStore_read_other, h.read h1, List.getElem?_append_left (by simpa using h1)]
    intro j hj
    rw [h.offsets, Nat.mod_add_mod, Nat.add_assoc]
    unfold Ring.readable at h1 ⊢
    exact mod_add_ne (by omega) (by omega) (by omega)
  · have h2 : k - rb.readable cap < bytes.length := by omega
    have := ringStore_read_at rb.data rb.wr bytes hc _ h2
    rw [h.offsets, Nat.mod_add_mod, Nat.add_assoc, show rb.readable cap + (k - rb.readable cap) = k by omega] at this
    rw [h.offsets, this, List.getElem?_append_right (by simpa using h1)]
    simp

theorem Ring.append_contents {cap : Nat} {rb : Ring} {bytes : List Byte} (h : rb.Inv cap) (hl : bytes.length ≤ rb.free) :
    (rb.append cap bytes).contents cap = rb.contents cap ++ bytes := by
  apply List.ext_getElem
  · simp [Ring.append_readable h hl]
  · intro k h1 h2
    rw [Ring.contents_getElem]
    have hk : k < rb.readable cap + bytes.length := by simpa [Ring.append_readable h hl] using h1
    have := Ring.append_read_window h hl hk
    rw [List.getElem?_eq_getElem h2] at this
    have hrd : (rb.append cap bytes).rd = rb.rd := rfl
    rw [hrd, this]
    rfl

theorem Ring.Inv.append {cap : Nat} {rb : Ring} {bytes : List Byte} (h : rb.Inv cap) (hl : bytes.length ≤ rb.free) :
    (rb.append cap bytes).Inv cap where
  mem := ringStore_Inv _ _ h.mem h.pos
  rd := h.rd
  wr := Nat.mod_lt _ h.pos
  free := by
    have := h.free
    simp only [Ring.append]
    omega
  offsets := by
    rw [Ring.append_readable h hl]
    simp only [Ring.append]
    rw [h.offsets, Nat.mod_add_mod, Nat.add_assoc]
  held := by
    intro k hk
    rw [Ring.append_readable h hl] at hk
    have := Ring.append_read_window h hl hk
    have hrd : (rb.append cap bytes).rd = rb.rd := rfl
    rw [hrd, this, List.getElem?_eq_getElem (by simpa using hk)]
    rfl

theorem ringKept_length (cap : Nat) (bytes : List Byte) : (ringKept cap bytes).length = min bytes.length cap := by
  simp only [ringKept, List.length_drop]
  omega

/-- RingWrite keeps the newest CAP bytes of the readable bytes and the new ones (41_ring.md R111). -/
theorem ringWrite_contents {cap : Nat} {rb : Ring} (bytes : List Byte) (h : rb.Inv cap) :
    (ringWrite cap bytes rb).contents cap =
      (rb.contents cap ++ bytes).drop ((rb.contents cap ++ bytes).length - cap) := by
  have hf := h.free
  have hk := ringKept_length cap bytes
  unfold ringWrite
  simp only []
  split
  · have hd : (ringKept cap bytes).length - rb.free ≤ rb.readable cap := by unfold Ring.readable; omega
    rw [Ring.append_contents (h.drop hd) (by simp only [Ring.drop]; omega), Ring.drop_contents, ringKept,
      List.length_append, List.drop_append, Ring.contents_length]
    by_cases hc : bytes.length ≤ cap
    · have e1 : bytes.length - cap = 0 := by omega
      have e2 : rb.readable cap + bytes.length - cap - rb.readable cap = 0 := by omega
      rw [e1, e2, List.drop_zero]
      congr 2
      unfold Ring.readable
      omega
    · have hl : (List.drop (bytes.length - cap) bytes).length = cap := by simp; omega
      have e1 : (rb.contents cap).drop (cap - rb.free) = [] :=
        List.drop_of_length_le (by rw [Ring.contents_length]; exact Nat.le_refl _)
      have e2 : (rb.contents cap).drop (rb.readable cap + bytes.length - cap) = [] :=
        List.drop_of_length_le (by rw [Ring.contents_length]; omega)
      rw [hl, e1, e2]
      congr 2
      omega
  · rw [Ring.append_contents h (by omega), ringKept, List.length_append, Ring.contents_length]
    have hr : rb.readable cap + rb.free = cap := by unfold Ring.readable; omega
    by_cases hc : bytes.length ≤ cap
    · rw [show bytes.length - cap = 0 by omega, show rb.readable cap + bytes.length - cap = 0 by omega]
      rfl
    · have h0 : rb.readable cap = 0 := by omega
      have hnil : rb.contents cap = [] := List.eq_nil_of_length_eq_zero (by rw [Ring.contents_length, h0])
      rw [hnil, h0]
      simp

theorem ringWrite_Inv {cap : Nat} {rb : Ring} (bytes : List Byte) (h : rb.Inv cap) : (ringWrite cap bytes rb).Inv cap := by
  have hf := h.free
  have hk := ringKept_length cap bytes
  unfold ringWrite
  simp only []
  split
  · have hd : (ringKept cap bytes).length - rb.free ≤ rb.readable cap := by unfold Ring.readable; omega
    exact (h.drop hd).append (by simp only [Ring.drop]; omega)
  · exact h.append (by omega)

/-- The cells RingWrite does not store to (41_ring.md R111). -/
theorem ringWrite_read_other {cap : Nat} (rb : Ring) (bytes : List Byte) (a : Nat)
    (h : ∀ k, k < min bytes.length cap → a ≠ (rb.wr + k) % cap) :
    (ringWrite cap bytes rb).data.read a = rb.data.read a := by
  have hk := ringKept_length cap bytes
  unfold ringWrite
  simp only []
  split
  · exact ringStore_read_other _ _ _ _ (by rw [hk]; exact h)
  · exact ringStore_read_other _ _ _ _ (by rw [hk]; exact h)

theorem ringWrite_fits {cap : Nat} {rb : Ring} {bytes : List Byte} (h : rb.Inv cap) (hl : bytes.length ≤ rb.free) :
    ringWrite cap bytes rb = rb.append cap bytes := by
  have hf := h.free
  unfold ringWrite
  simp only [ringKept, show bytes.length - cap = 0 by omega, List.drop_zero]
  rw [if_neg (by omega)]

theorem Ring.Inv_empty {cap : Nat} (h : 0 < cap) : (Ring.empty cap).Inv cap where
  mem := ⟨rfl, fun c hc => by simp [Ring.empty] at hc⟩
  rd := h
  wr := h
  free := Nat.le_refl _
  offsets := by simp [Ring.empty, Ring.readable]
  held := by
    intro k hk
    simp [Ring.empty, Ring.readable] at hk

theorem Ring.empty_contents (cap : Nat) : (Ring.empty cap).contents cap = [] := by
  simp [Ring.contents, Ring.empty, Ring.readable]

end Sys2Proof.Machine
end

