-- ==== Sys2Proof/Laws/Commands.lean ====
section
/-! SUPPORT. For each command, once, everything it can answer: the state after its own effect, or a `raise`. -/

namespace Sys2Proof.Machine

/-- The command raised: nothing but STATUS and the response changed. -/
def Raised (s t : State) : Prop := ∃ st, t = raise st s

theorem withRing_next {s t : State} {r : RingSel} {k : Out} (h : withRing s r k = .next t) :
    (r.present s.cfg = true ∧ k = .next t) ∨ Raised s t := by
  unfold withRing at h
  split at h
  · exact .inl ⟨‹_›, h⟩
  · cases h
    exact .inr ⟨_, rfl⟩

theorem withAgent_next {s t : State} {k : Out} (h : withAgent s k = .next t) :
    (s.cfg.hasAgent = true ∧ k = .next t) ∨ Raised s t := by
  unfold withAgent at h
  split at h
  · exact .inl ⟨‹_›, h⟩
  · cases h
    exact .inr ⟨_, rfl⟩

theorem conclude_cases {s t : State} {r : Res State} (h : conclude s r = .next t) : r = .ok t ∨ Raised s t := by
  rcases conclude_next.1 h with h | ⟨st, -, h⟩
  · exact .inl h
  · exact .inr ⟨st, h⟩

/-! ### System, rings -/

theorem execRegRd_cases {index : BitVec 8} {s t : State} (h : execRegRd index s = .next t) :
    (∃ v, s.reg index = some v ∧ t = finish .ok [v] [] [] s) ∨ Raised s t := by
  unfold execRegRd at h
  cases hr : s.reg index with
  | none => rw [hr] at h; cases h; exact .inr ⟨_, rfl⟩
  | some v => rw [hr] at h; cases h; exact .inl ⟨v, rfl, rfl⟩

theorem execRbWrite_cases {r : RingSel} {data : List Byte} {s t : State} (h : execRbWrite r data s = .next t) :
    (r.present s.cfg = true ∧ t = finish .ok [] [] [] (s.push r data)) ∨ Raised s t := by
  rcases withRing_next h with ⟨hp, h⟩ | h
  · cases h; exact .inl ⟨hp, rfl⟩
  · exact .inr h

theorem execRbPeek_cases {r : RingSel} {n off : U64} {s t : State} (h : execRbPeek r n off s = .next t) :
    (∃ bytes, r.present s.cfg = true ∧ ringPeek (s.cap r) n.toNat off.toNat (s.ring r) = .ok bytes ∧
      t = finish .ok [] bytes [] s) ∨ Raised s t := by
  rcases withRing_next h with ⟨hp, h⟩ | h
  · rcases conclude_cases h with h | h
    · obtain ⟨bytes, hb, h⟩ := bind_ok.1 h
      cases h; exact .inl ⟨bytes, hp, hb, rfl⟩
    · exact .inr h
  · exact .inr h

theorem execRbRead_cases {r : RingSel} {n : U64} {s t : State} (h : execRbRead r n s = .next t) :
    (∃ bytes rb, r.present s.cfg = true ∧ ringPeek (s.cap r) n.toNat 0 (s.ring r) = .ok bytes ∧
      ringErase (s.cap r) n.toNat (s.ring r) = .ok rb ∧ t = finish .ok [] bytes [] (s.setRing r rb)) ∨ Raised s t := by
  rcases withRing_next h with ⟨hp, h⟩ | h
  · rcases conclude_cases h with h | h
    · obtain ⟨bytes, hb, h⟩ := bind_ok.1 h
      obtain ⟨rb, hr, h⟩ := bind_ok.1 h
      cases h; exact .inl ⟨bytes, rb, hp, hb, hr, rfl⟩
    · exact .inr h
  · exact .inr h

theorem execRbErase_cases {r : RingSel} {n : U64} {s t : State} (h : execRbErase r n s = .next t) :
    (∃ rb, r.present s.cfg = true ∧ ringErase (s.cap r) n.toNat (s.ring r) = .ok rb ∧
      t = finish .ok [] [] [] (s.setRing r rb)) ∨ Raised s t := by
  rcases withRing_next h with ⟨hp, h⟩ | h
  · rcases conclude_cases h with h | h
    · obtain ⟨rb, hr, h⟩ := bind_ok.1 h
      cases h; exact .inl ⟨rb, hp, hr, rfl⟩
    · exact .inr h
  · exact .inr h

theorem execRbStatus_cases {r : RingSel} {s t : State} (h : execRbStatus r s = .next t) :
    (r.present s.cfg = true ∧ t = finish .ok [s.readable r, (s.ring r).free] [] [] s) ∨ Raised s t := by
  rcases withRing_next h with ⟨hp, h⟩ | h
  · cases h; exact .inl ⟨hp, rfl⟩
  · exact .inr h

theorem execAsmCommit_cases {r : RingSel} {s t : State} (h : execAsmCommit r s = .next t) :
    (∃ bytes, r.present s.cfg = true ∧ s.fstack = [] ∧ s.assembled = .ok bytes ∧
      t = finish .ok [] [] [] (s.push r bytes).rewind) ∨ Raised s t := by
  rcases withRing_next h with ⟨hp, h⟩ | h
  · rcases conclude_cases h with h | h
    · split at h
      · cases h
      · obtain ⟨bytes, hb, h⟩ := bind_ok.1 h
        cases h; exact .inl ⟨bytes, hp, not_not.1 ‹_›, hb, rfl⟩
    · exact .inr h
  · exact .inr h

/-! ### Cursors and fields -/

theorem execCurSet_cases {tg : CurTarget} {a b : U64} {s t : State} (h : execCurSet tg a b s = .next t) :
    (∃ c, tg = .rd c ∧ a.toNat ≤ b.toNat ∧ b.toNat ≤ s.scrLen ∧
      t = finish .ok [] [] [] (s.setReader c ⟨a.toNat, a.toNat, b.toNat⟩)) ∨
    (tg = .w0 ∧ s.fstack = [] ∧ a.toNat ≤ b.toNat ∧ b.toNat ≤ s.cfg.asmSize ∧
      t = finish .ok [] [] [] { s with w0 := ⟨a.toNat, a.toNat, b.toNat⟩ }) ∨ Raised s t := by
  unfold execCurSet at h
  cases tg with
  | rd c =>
    rcases conclude_cases h with h | h
    · split at h
      · rename_i hc
        cases h; exact .inl ⟨c, rfl, hc.1, hc.2, rfl⟩
      · cases h
    · exact .inr (.inr h)
  | w0 =>
    rcases conclude_cases h with h | h
    · split at h
      · cases h
      · split at h
        · rename_i hf hc
          cases h; exact .inr (.inl ⟨rfl, not_not.1 hf, hc.1, hc.2, rfl⟩)
        · cases h
    · exact .inr (.inr h)

theorem execScrLoad_cases {data : List Byte} {s t : State} (h : execScrLoad data s = .next t) :
    (data.length ≤ s.cfg.maxPacket ∧ t = finish .ok [] [] [] (s.loadScr data)) ∨ Raised s t := by
  unfold execScrLoad at h
  split at h
  · cases h; exact .inr ⟨_, rfl⟩
  · cases h; exact .inl ⟨by omega, rfl⟩

theorem readFixed_cases {n : Nat} {value : List Byte → Nat} {c : RdSel} {s t : State}
    (h : readFixed n value c s = .next t) :
    (∃ bytes c', readN s.scr (s.reader c) n = .ok (bytes, c') ∧ t = finish .ok [value bytes] [] [] (s.setReader c c')) ∨
      Raised s t := by
  rcases conclude_cases h with h | h
  · obtain ⟨⟨bytes, c'⟩, hb, h⟩ := bind_ok.1 h
    cases h; exact .inl ⟨bytes, c', hb, rfl⟩
  · exact .inr h

theorem execRdBer_cases {c : RdSel} {s t : State} (h : execRdBer c s = .next t) :
    (∃ v c', readBer s.scr (s.reader c) = .ok (v, c') ∧ t = finish .ok [v] [] [] (s.setReader c c')) ∨ Raised s t := by
  rcases conclude_cases h with h | h
  · obtain ⟨⟨v, c'⟩, hb, h⟩ := bind_ok.1 h
    cases h; exact .inl ⟨v, c', hb, rfl⟩
  · exact .inr h

theorem execRdSlice_cases {src dst : RdSel} {n : U64} {s t : State} (h : execRdSlice src dst n s = .next t) :
    (n.toNat ≤ (s.reader src).avail ∧ t = finish .ok [] [] []
      ((s.setReader src { s.reader src with cur := (s.reader src).cur + n.toNat }).setReader dst
        ⟨(s.reader src).cur, (s.reader src).cur, (s.reader src).cur + n.toNat⟩)) ∨ Raised s t := by
  rcases conclude_cases h with h | h
  · split at h
    · cases h
    · cases h; exact .inl ⟨by omega, rfl⟩
  · exact .inr h

theorem execRdBytes_cases {c : RdSel} {n : U64} {s t : State} (h : execRdBytes c n s = .next t) :
    (∃ bytes c', readN s.scr (s.reader c) n.toNat = .ok (bytes, c') ∧ t = finish .ok [] bytes [] (s.setReader c c')) ∨
      Raised s t := by
  rcases conclude_cases h with h | h
  · obtain ⟨⟨bytes, c'⟩, hb, h⟩ := bind_ok.1 h
    cases h; exact .inl ⟨bytes, c', hb, rfl⟩
  · exact .inr h

theorem writeThrough_cases {bytes : List Byte} {s t : State} (h : writeThrough bytes s = .next t) :
    (bytes.length ≤ s.w0.avail ∧ t = finish .ok [] [] []
      (s.setWriter (memWrite s.asm s.w0.cur bytes, { s.w0 with cur := s.w0.cur + bytes.length }))) ∨ Raised s t := by
  rcases conclude_cases h with h | h
  · obtain ⟨w, hw, h⟩ := bind_ok.1 h
    cases h
    unfold writeN at hw
    split at hw
    · cases hw
    · cases hw; exact .inl ⟨Nat.not_lt.1 ‹_›, rfl⟩
  · exact .inr h

theorem execWrBer_cases {v : U64} {s t : State} (h : execWrBer v s = .next t) :
    ((berMin v.toNat).length ≤ s.w0.avail ∧ t = finish .ok [] [] []
      (s.setWriter (memWrite s.asm s.w0.cur (berMin v.toNat),
        { s.w0 with cur := s.w0.cur + (berMin v.toNat).length }))) ∨ Raised s t :=
  writeThrough_cases h

theorem execAsmTake_cases {s t : State} (h : execAsmTake s = .next t) :
    (∃ bytes, s.fstack = [] ∧ s.assembled = .ok bytes ∧ t = finish .ok [] bytes [] s.rewind) ∨ Raised s t := by
  rcases conclude_cases h with h | h
  · split at h
    · cases h
    · obtain ⟨bytes, hb, h⟩ := bind_ok.1 h
      cases h; exact .inl ⟨bytes, not_not.1 ‹_›, hb, rfl⟩
  · exact .inr h

/-! ### Discovery -/

/-- What a discovery cycle leaves of the state: the ring it scanned and, on OK, the frame in SCR. -/
theorem discover_ok {r : RingSel} {sep : Nat} {s t : State} {st : Status} (h : discover r sep s = .ok (st, t)) :
    ∃ c, discoverRing (s.cap r) s.cfg.maxPacket sep (s.ring r) = .ok c ∧ st = c.status ∧
      t = if st = .ok then (s.setRing r c.ring).loadScr c.frame else s.setRing r c.ring := by
  unfold discover at h
  obtain ⟨c, hc, h⟩ := bind_ok.1 h
  cases h
  exact ⟨c, hc, rfl, rfl⟩

theorem execDiscover_cases {r : RingSel} {s t : State} (h : execDiscover r s = .next t) :
    (∃ st u, r.present s.cfg = true ∧ discover r (sepOf s.cfg.role r) s = .ok (st, u) ∧
      ((st = .ok ∧ ∃ code, u.frameCode = .ok code ∧ t = finish .ok [code, u.scrLen] [] [] u) ∨
       (st ≠ .ok ∧ t = finish st [] [] [] u))) ∨ Raised s t := by
  rcases withRing_next h with ⟨hp, h⟩ | h
  · rcases conclude_cases h with h | h
    · obtain ⟨⟨st, u⟩, hd, h⟩ := bind_ok.1 h
      refine .inl ⟨st, u, hp, hd, ?_⟩
      simp only [] at h
      split at h
      · obtain ⟨code, hc, h⟩ := bind_ok.1 h
        cases h; exact .inl ⟨‹_›, code, hc, rfl⟩
      · cases h; exact .inr ⟨‹_›, rfl⟩
    · exact .inr h
  · exact .inr h

/-! ### Decoders -/

theorem decodeTo_cases {dec : Memory → Cursor → Res Decoded} {src dst : RdSel} {s t : State}
    (h : decodeTo dec src dst s = .next t) :
    (∃ d, dec s.scr (s.reader src) = .ok d ∧ t = finish .ok d.fields d.trailer []
      ((s.setReader src d.after).setReader dst ⟨d.payload.cur, d.payload.cur, d.payload.stop⟩)) ∨ Raised s t := by
  rcases conclude_cases h with h | h
  · obtain ⟨d, hd, h⟩ := bind_ok.1 h
    cases h; exact .inl ⟨d, hd, rfl⟩
  · exact .inr h

theorem decodeOnly_cases {dec : Memory → Cursor → Res Decoded} {src : RdSel} {s t : State}
    (h : decodeOnly dec src s = .next t) :
    (∃ d, dec s.scr (s.reader src) = .ok d ∧ t = finish .ok d.fields d.trailer [] (s.setReader src d.after)) ∨
      Raised s t := by
  rcases conclude_cases h with h | h
  · obtain ⟨d, hd, h⟩ := bind_ok.1 h
    cases h; exact .inl ⟨d, hd, rfl⟩
  · exact .inr h

/-! ### Encoders -/

/-- The state an opened frame leaves (44_encode.md R143). -/
def State.opened (s : State) (k : Kind) (header : List Byte) (ect : Option Ect) : State :=
  { s with
    asm := memWrite s.asm s.w0.cur (codeBytes k ++ [0x00] ++ header)
    w0 := { s.w0 with cur := s.w0.cur + 3 + header.length, stop := s.w0.stop - frameTrailer ect }
    fstack := ⟨k, s.w0.cur, s.w0.cur + 3, s.w0.stop, frameTrailer ect, ect⟩ :: s.fstack }

theorem frameTrailer_eq (ect : Option Ect) : (ect.map trailerSize).getD 0 = frameTrailer ect := by
  rcases ect with - | e
  · rfl
  · cases e <;> rfl

theorem beginWith_ok {k : Kind} {header : List Byte} {ect : Option Ect} {s t : State}
    (h : beginWith k header ect s = .ok t) :
    s.fstack.length ≠ fstackDepth ∧ 3 + header.length + frameTrailer ect ≤ s.w0.avail ∧
      t = finish .ok [] [] [] (s.opened k header ect) := by
  unfold beginWith at h
  obtain ⟨u, hu, h⟩ := bind_ok.1 h
  cases h
  unfold beginFrame at hu
  simp only [frameTrailer_eq] at hu
  split at hu
  · cases hu
  · split at hu
    · cases hu
    · cases hu
      exact ⟨‹_›, by omega, rfl⟩

/-- A BEGIN that opens a frame: the depth and the space are there (44_encode.md R143). -/
theorem beginWith_opens {k : Kind} {header : List Byte} {ect : Option Ect} {s : State}
    (hd : s.fstack.length < 4) (hs : 3 + header.length + frameTrailer ect ≤ s.w0.avail) :
    beginWith k header ect s = .ok (finish .ok [] [] [] (s.opened k header ect)) := by
  unfold beginWith beginFrame
  simp only [frameTrailer_eq, fstackDepth]
  rw [if_neg (by omega), if_neg (by omega)]
  rfl

/-- A BEGIN command: the kind, header and trailer type of the frame it opens, when it opens one. -/
theorem begin_cases {k : Kind} {header : List Byte} {ect : Option Ect} {s t : State}
    (h : conclude s (beginWith k header ect s) = .next t) :
    (s.fstack.length ≠ fstackDepth ∧ 3 + header.length + frameTrailer ect ≤ s.w0.avail ∧
      t = finish .ok [] [] [] (s.opened k header ect)) ∨ Raised s t := by
  rcases conclude_cases h with h | h
  · exact .inl (beginWith_ok h)
  · exact .inr h

theorem checkStreamEct_ok {st e : Nat} {k : Ect → Res State} {t : State} (h : checkStreamEct st e k = .ok t) :
    streamTypeLegal st = true ∧ ∃ ect, ectOf e = some ect ∧ k ect = .ok t := by
  unfold checkStreamEct at h
  split at h
  · cases h
  · cases he : ectOf e with
    | none => rw [he] at h; cases h
    | some ect =>
      rw [he] at h
      exact ⟨Bool.eq_true_of_not_eq_false ‹_›, ect, rfl, h⟩

/-- What a BEGIN command that names a kind does (44_encode.md R145 to R152): it opens a frame of a kind with its own
trailer, or raises. -/
def Begun (k : Kind) (s t : State) : Prop :=
  ∃ header ect, ect.isSome = hasTrailer k ∧ s.fstack.length ≠ fstackDepth ∧
    3 + header.length + frameTrailer ect ≤ s.w0.avail ∧ t = finish .ok [] [] [] (s.opened k header ect)

theorem execBeginCmdmsg_cases {s t : State} (h : execBeginCmdmsg s = .next t) :
    Begun .commandMessage s t ∨ Raised s t :=
  (begin_cases h).imp (fun ⟨h1, h2, h3⟩ => ⟨_, none, rfl, h1, h2, h3⟩) id

theorem execBeginCmdresult_cases {s t : State} (h : execBeginCmdresult s = .next t) :
    Begun .commandResult s t ∨ Raised s t :=
  (begin_cases h).imp (fun ⟨h1, h2, h3⟩ => ⟨_, none, rfl, h1, h2, h3⟩) id

theorem execBeginTmstatus_cases {a b c d : U64} {s t : State} (h : execBeginTmstatus a b c d s = .next t) :
    Begun .tmStatusMessage s t ∨ Raised s t :=
  (begin_cases h).imp (fun ⟨h1, h2, h3⟩ => ⟨_, none, rfl, h1, h2, h3⟩) id

theorem execBeginTmevent_cases {a b c d : U64} {s t : State} (h : execBeginTmevent a b c d s = .next t) :
    Begun .tmEventMessage s t ∨ Raised s t :=
  (begin_cases h).imp (fun ⟨h1, h2, h3⟩ => ⟨_, none, rfl, h1, h2, h3⟩) id

theorem execBeginAddress_cases {a b c d e f g i j : U64} {s t : State}
    (h : execBeginAddress a b c d e f g i j s = .next t) : Begun .addressPacket s t ∨ Raised s t := by
  rcases conclude_cases h with h | h
  · split at h
    · cases h
    · obtain ⟨h1, h2, h3⟩ := beginWith_ok h
      exact .inl ⟨_, none, rfl, h1, h2, h3⟩
  · exact .inr h

theorem execBeginExchange_cases {st ect ws seq : U64} {s t : State} (h : execBeginExchange st ect ws seq s = .next t) :
    Begun .exchangePacket s t ∨ Raised s t := by
  rcases conclude_cases h with h | h
  · obtain ⟨-, e, -, h⟩ := checkStreamEct_ok h
    split at h
    · cases h
    · split at h
      · cases h
      · obtain ⟨h1, h2, h3⟩ := beginWith_ok h
        exact .inl ⟨_, some e, rfl, h1, h2, h3⟩
  · exact .inr h

theorem execBeginCounteradj_cases {st ect ctr : U64} {s t : State} (h : execBeginCounteradj st ect ctr s = .next t) :
    Begun .counterAdjustmentPacket s t ∨ Raised s t := by
  rcases conclude_cases h with h | h
  · obtain ⟨-, e, -, h⟩ := checkStreamEct_ok h
    split at h
    · cases h
    · obtain ⟨h1, h2, h3⟩ := beginWith_ok h
      exact .inl ⟨_, some e, rfl, h1, h2, h3⟩
  · exact .inr h

theorem execBeginReceipt_cases {st ect last : U64} {s t : State} (h : execBeginReceipt st ect last s = .next t) :
    Begun .receiptPacket s t ∨ Raised s t := by
  rcases conclude_cases h with h | h
  · obtain ⟨-, e, -, h⟩ := checkStreamEct_ok h
    split at h
    · cases h
    · obtain ⟨h1, h2, h3⟩ := beginWith_ok h
      exact .inl ⟨_, some e, rfl, h1, h2, h3⟩
  · exact .inr h

/-- The writer, the stack and ASM after END_FRAME closed `e` (44_encode.md R153). -/
theorem closeFrame_ok {e : FrameEntry} {rest : List FrameEntry} {lb : List Byte} {n : Nat} {s t : State}
    (h : closeFrame e rest lb n s = .ok t) :
    ∃ asm, t = finish .ok [n] [] [] { s with
      asm := asm
      w0 := { s.w0 with cur := s.w0.cur + (lb.length - 1) + e.trailer, stop := e.savedEnd }
      fstack := rest } := by
  unfold closeFrame at h
  obtain ⟨body, hb, h⟩ := bind_ok.1 h
  obtain ⟨framed, hf, h⟩ := bind_ok.1 h
  cases h
  exact ⟨_, rfl⟩

theorem execEndFrame_cases {s t : State} (h : execEndFrame s = .next t) :
    (∃ e rest lb, s.fstack = e :: rest ∧ lb = berMin (s.w0.cur - e.bodyStart + e.trailer) ∧
      ((∃ st, (st = .frameTooLarge ∨ st = .notEnoughSpace) ∧ t = finish st [] [] [] (abortFrame e rest s)) ∨
       (2 + lb.length + (s.w0.cur - e.bodyStart + e.trailer) ≤ s.cfg.maxPacket ∧
        s.w0.cur + (lb.length - 1) + e.trailer ≤ e.savedEnd ∧
        closeFrame e rest lb (2 + lb.length + (s.w0.cur - e.bodyStart + e.trailer)) s = .ok t))) ∨ Raised s t := by
  rcases conclude_cases h with h | h
  · split at h
    · cases h
    · rename_i e rest hf
      refine .inl ⟨e, rest, _, hf, rfl, ?_⟩
      simp only [] at h
      split at h
      · cases h; exact .inl ⟨_, .inl rfl, rfl⟩
      · split at h
        · cases h; exact .inl ⟨_, .inr rfl, rfl⟩
        · exact .inr ⟨by omega, by omega, h⟩
  · exact .inr h

/-! ### The agent unit -/

/-- The state after a frame was built in AGB and queued (45_agent.md R158). -/
def State.queued (s : State) (x : List Byte) : State :=
  (s.setAgb (memWrite s.agb 0 x)).push .outb (sepBytes (sepOut s.cfg.role) ++ x)

@[simp] theorem queued_inRing (s : State) (x : List Byte) : (s.queued x).inRing = s.inRing := rfl
@[simp] theorem queued_tmRing (s : State) (x : List Byte) : (s.queued x).tmRing = s.tmRing := rfl
@[simp] theorem queued_scr (s : State) (x : List Byte) : (s.queued x).scr = s.scr := rfl
@[simp] theorem queued_scrLen (s : State) (x : List Byte) : (s.queued x).scrLen = s.scrLen := rfl
@[simp] theorem queued_r0 (s : State) (x : List Byte) : (s.queued x).r0 = s.r0 := rfl
@[simp] theorem queued_r1 (s : State) (x : List Byte) : (s.queued x).r1 = s.r1 := rfl
@[simp] theorem queued_r2 (s : State) (x : List Byte) : (s.queued x).r2 = s.r2 := rfl
@[simp] theorem queued_r3 (s : State) (x : List Byte) : (s.queued x).r3 = s.r3 := rfl
@[simp] theorem queued_asm (s : State) (x : List Byte) : (s.queued x).asm = s.asm := rfl
@[simp] theorem queued_w0 (s : State) (x : List Byte) : (s.queued x).w0 = s.w0 := rfl
@[simp] theorem queued_fstack (s : State) (x : List Byte) : (s.queued x).fstack = s.fstack := rfl
@[simp] theorem queued_status (s : State) (x : List Byte) : (s.queued x).status = s.status := rfl
@[simp] theorem queued_cmdInCtr (s : State) (x : List Byte) : (s.queued x).cmdInCtr = s.cmdInCtr := rfl
@[simp] theorem queued_tmCtr (s : State) (x : List Byte) : (s.queued x).tmCtr = s.tmCtr := rfl
@[simp] theorem queued_outCtr (s : State) (x : List Byte) : (s.queued x).outCtr = s.outCtr := rfl
@[simp] theorem queued_lastSent (s : State) (x : List Byte) : (s.queued x).lastSent = s.lastSent := rfl
@[simp] theorem queued_lastSentValid (s : State) (x : List Byte) : (s.queued x).lastSentValid = s.lastSentValid := rfl
@[simp] theorem queued_readyToSend (s : State) (x : List Byte) : (s.queued x).readyToSend = s.readyToSend := rfl
@[simp] theorem queued_resp (s : State) (x : List Byte) : (s.queued x).resp = s.resp := rfl
@[simp] theorem queued_granted (s : State) (x : List Byte) : (s.queued x).granted = s.granted := rfl
@[simp] theorem queued_cmdQ (s : State) (x : List Byte) : (s.queued x).cmdQ = s.cmdQ := rfl
@[simp] theorem queued_tpQ (s : State) (x : List Byte) : (s.queued x).tpQ = s.tpQ := rfl
@[simp] theorem queued_resetIn (s : State) (x : List Byte) : (s.queued x).resetIn = s.resetIn := rfl
@[simp] theorem queued_grants (s : State) (x : List Byte) : (s.queued x).grants = s.grants := rfl
@[simp] theorem queued_cfg (s : State) (x : List Byte) : (s.queued x).cfg = s.cfg := rfl
@[simp] theorem queued_agb (s : State) (x : List Byte) : (s.queued x).agb = memWrite s.agb 0 x := rfl
@[simp] theorem queued_outRing (s : State) (x : List Byte) :
    (s.queued x).outRing = ringWrite s.cfg.capOut (sepBytes (sepOut s.cfg.role) ++ x) s.outRing := rfl
@[simp] theorem queued_cap (s : State) (x : List Byte) (r : RingSel) : (s.queued x).cap r = s.cap r := by cases r <;> rfl
@[simp] theorem queued_reader (s : State) (x : List Byte) (c : RdSel) : (s.queued x).reader c = s.reader c := by
  cases c <;> rfl

/-- What is read back from AGB is what was built there: queueing a frame never stops. -/
theorem queueFrame_eq (s : State) (x : List Byte) : s.queueFrame x = .ok (s.queued x) := by
  unfold State.queueFrame
  simp only [memRead_holds (memWrite_stores s.agb 0 x).holds, ok_bind]
  rfl

theorem send_cases {ws : Nat} {address payload : List Byte} {s t : State} (h : send ws address payload s = .next t) :
    (s.cfg.hasAgent = true ∧ ws ≤ maxWindow ∧ (sendPacket s ws address payload).length ≤ s.cfg.maxPacket ∧
      t = finish .ok [s.outCtr.toNat, (sendPacket s ws address payload).length] [] []
        (s.queued (sendPacket s ws address payload)).noteSent) ∨ Raised s t := by
  rcases withAgent_next h with ⟨ha, h⟩ | h
  · rcases conclude_cases h with h | h
    · split at h
      · cases h
      · simp only [] at h
        split at h
        · cases h
        · rw [queueFrame_eq] at h
          cases h
          exact .inl ⟨ha, by omega, by omega, rfl⟩
    · exact .inr h
  · exact .inr h

theorem orFinish_ok {α : Type} {p : Progress} {r : Res α} {k : α → Res State} {t : State} (h : p.orFinish r k = .ok t) :
    (∃ a, r = .ok a ∧ k a = .ok t) ∨
    (∃ st, r = .error (.raised st) ∧ t = Machine.finish st p.result p.dataOut p.events p.state) := by
  unfold Progress.orFinish at h
  split at h
  · exact .inl ⟨_, rfl, h⟩
  · cases h; exact .inr ⟨_, rfl, rfl⟩
  · cases h

theorem execAgHandle_cases {s t : State} (h : execAgHandle s = .next t) :
    (∃ st u, s.cfg.hasAgent = true ∧ discover .inb (sepIn s.cfg.role) s = .ok (st, u) ∧
      ((st ≠ .ok ∧ t = finish st [] [] [] u) ∨
       (st = .ok ∧ ∃ code, u.frameCode = .ok code ∧
        ((s.cfg.role = .uav ∧ uavDispatch code ⟨u, [code, u.scrLen], [], []⟩ = .ok t) ∨
         (s.cfg.role = .gc ∧ gcDispatch code ⟨u, [code, u.scrLen], [], []⟩ = .ok t))))) ∨ Raised s t := by
  rcases withAgent_next h with ⟨ha, h⟩ | h
  · rcases conclude_cases h with h | h
    · obtain ⟨⟨st, u⟩, hd, h⟩ := bind_ok.1 h
      refine .inl ⟨st, u, ha, hd, ?_⟩
      simp only [] at h
      split at h
      · cases h; exact .inl ⟨‹_›, rfl⟩
      · obtain ⟨code, hc, h⟩ := bind_ok.1 h
        refine .inr ⟨not_not.1 ‹_›, code, hc, ?_⟩
        cases hr : s.cfg.role with
        | uav => rw [hr] at h; exact .inl ⟨rfl, h⟩
        | gc => rw [hr] at h; exact .inr ⟨rfl, h⟩
    · exact .inr h
  · exact .inr h

end Sys2Proof.Machine
end

