-- ==== Sys2Proof/Laws/Agent.lean ====
section
/-! SUPPORT. The agent dispatchers: everything each can leave (45_agent.md §3). -/

namespace Sys2Proof.Machine

theorem trailerFn_length (u : TrailerUnit) (ect : Ect) (bytes : List Byte) :
    (trailerFn u ect bytes).length = trailerSize ect := by
  cases u <;> simp [trailerFn]

/-- A dispatcher that failed: the response so far, the state untouched (45_agent.md R165). -/
def Failed (p : Progress) (t : State) : Prop := ∃ st d, t = finish st p.result d p.events p.state

/-- The CounterAdjustmentPacket of a Uav is small: 13 bytes with the longest counter and trailer. -/
theorem pMsg_counter_length (u : TrailerUnit) (ctr : U16) (ect : Ect) :
    (pMsg u .counterAdjustmentPacket 0 (berMin ctr.toNat) [] ect).length ≤ 13 := by
  have h1 : (berMin ctr.toNat).length ≤ 3 := by
    unfold berMin byteLen
    have := ctr.isLt
    split
    · simp
    · simp only [List.length_cons, toLE_length, byteLenAux]
      split
      · omega
      · rw [if_pos (by omega)]
  have h2 : trailerSize ect ≤ 4 := by cases ect <;> decide
  have h3 : (codeBytes .counterAdjustmentPacket).length = 2 := toBE_length _ 2
  have h4 : (pktHeader 0 ect).length = 3 := by cases ect <;> rfl
  have h5 : ∀ v, v < 128 → (berMin v).length = 1 := fun v hv => by
    unfold berMin
    rw [if_pos hv]
    rfl
  unfold pMsg
  rw [List.length_append, trailerFn_length]
  unfold pMsgPre
  simp only [List.length_append, h3, h4, List.length_nil]
  rw [h5 _ (by omega)]
  omega

theorem uavExchange_cases {p : Progress} {t : State} (h : uavExchange p = .ok t) :
    (∃ d seq x, t = finish .sequenceMismatch (p.result ++ [p.state.cmdInCtr.toNat] ++ [seq]) d p.events
      (p.state.queued x) ∧ seq ≤ maxCounter ∧ x.length ≤ 13) ∨
    (∃ d packets, t = finish .ok p.result d (p.events ++ addressEvents packets) p.state.advanceCmdIn) ∨ Failed p t := by
  unfold uavExchange at h
  simp only [] at h
  rcases orFinish_ok h with ⟨d, hd, h⟩ | ⟨st, -, h⟩
  · split at h
    · cases h; exact .inr (.inr ⟨_, _, rfl⟩)
    · split at h
      · rw [queueFrame_eq] at h
        cases h
        refine .inl ⟨_, d.fields.getD 5 0, _, rfl, ?_, pMsg_counter_length _ _ _⟩
        unfold decExchange at hd
        obtain ⟨⟨len, b, after⟩, -, hd⟩ := bind_ok.1 hd
        obtain ⟨⟨hh, b⟩, -, hd⟩ := bind_ok.1 hd
        obtain ⟨⟨ws, b⟩, -, hd⟩ := bind_ok.1 hd
        simp only [] at hd
        split at hd
        · cases hd
        · obtain ⟨⟨seq, b⟩, -, hd⟩ := bind_ok.1 hd
          simp only [] at hd
          split at hd
          · cases hd
          · cases hd
            simp only [List.getD_cons_succ, List.getD_cons_zero]
            omega
      · rcases orFinish_ok h with ⟨packets, -, h⟩ | ⟨st, -, h⟩
        · cases h; exact .inr (.inl ⟨_, packets, rfl⟩)
        · exact .inr (.inr ⟨st, _, h⟩)
  · exact .inr (.inr ⟨st, _, h⟩)

theorem uavCounterAdj_cases {p : Progress} {t : State} (h : uavCounterAdj p = .ok t) :
    (∃ d ctr, t = finish .ok p.result d p.events (p.state.setCmdIn ctr)) ∨ Failed p t := by
  unfold uavCounterAdj at h
  simp only [] at h
  rcases orFinish_ok h with ⟨d, -, h⟩ | ⟨st, -, h⟩
  · cases h; exact .inl ⟨_, _, rfl⟩
  · exact .inr ⟨st, _, h⟩

/-- Everything UavDispatch can leave (45_agent.md R161). -/
theorem uavDispatch_cases {code : Nat} {p : Progress} {t : State} (h : uavDispatch code p = .ok t) :
    (∃ d seq x, t = finish .sequenceMismatch (p.result ++ [p.state.cmdInCtr.toNat] ++ [seq]) d p.events
      (p.state.queued x) ∧ seq ≤ maxCounter ∧ x.length ≤ 13) ∨
    (∃ d packets, t = finish .ok p.result d (p.events ++ addressEvents packets) p.state.advanceCmdIn) ∨
    (∃ d ctr, t = finish .ok p.result d p.events (p.state.setCmdIn ctr)) ∨ Failed p t := by
  unfold uavDispatch at h
  split at h
  · rcases uavExchange_cases h with h | h | h
    · exact .inl h
    · exact .inr (.inl h)
    · exact .inr (.inr (.inr h))
  · split at h
    · rcases uavCounterAdj_cases h with h | h
      · exact .inr (.inr (.inl h))
      · exact .inr (.inr (.inr h))
    · cases h; exact .inr (.inr (.inr ⟨_, _, rfl⟩))

/-- Everything GcDispatch can leave (45_agent.md R162, R163). -/
theorem gcDispatch_cases {code : Nat} {p : Progress} {t : State} (h : gcDispatch code p = .ok t) :
    (∃ (d : List Byte) (packets : List (List Nat × List Byte)) (before events : List Event) (u : State),
      tmRescan ((packets.foldl (fun (u : State) a => u.push .tm a.2) p.state.advanceTm).readable .tm + 1)
        (packets.foldl (fun (u : State) a => u.push .tm a.2) p.state.advanceTm) before = .ok (u, events) ∧
      t = finish .ok p.result d events u) ∨
    (∃ d last, code = codeOf .receiptPacket ∧
      t = finish .ok p.result d (p.events ++ [⟨.receipt, [last, if p.state.receiptMatches last then 1 else 0], []⟩])
        (p.state.noteReceipt last)) ∨
    (∃ d ctr, t = finish .ok p.result d (p.events ++ [⟨.counterAdj, [ctr], []⟩]) p.state) ∨ Failed p t := by
  unfold gcDispatch at h
  split at h
  · unfold gcExchange at h
    simp only [] at h
    rcases orFinish_ok h with ⟨d, -, h⟩ | ⟨st, -, h⟩
    · split at h
      · cases h; exact .inr (.inr (.inr ⟨_, _, rfl⟩))
      · rcases orFinish_ok h with ⟨packets, -, h⟩ | ⟨st, -, h⟩
        · obtain ⟨⟨u, events⟩, hu, h⟩ := bind_ok.1 h
          cases h
          refine .inl ⟨p.dataOut ++ d.trailer, packets, _, events, u, hu, ?_⟩
          split <;> rfl
        · exact .inr (.inr (.inr ⟨st, _, h⟩))
    · exact .inr (.inr (.inr ⟨st, _, h⟩))
  · split at h
    · rename_i hc
      unfold gcReceipt at h
      simp only [] at h
      rcases orFinish_ok h with ⟨d, -, h⟩ | ⟨st, -, h⟩
      · split at h
        · cases h; exact .inr (.inr (.inr ⟨_, _, rfl⟩))
        · cases h; exact .inr (.inl ⟨_, _, hc, rfl⟩)
      · exact .inr (.inr (.inr ⟨st, _, h⟩))
    · split at h
      · unfold gcCounterAdj at h
        simp only [] at h
        rcases orFinish_ok h with ⟨d, -, h⟩ | ⟨st, -, h⟩
        · cases h; exact .inr (.inr (.inl ⟨_, _, rfl⟩))
        · exact .inr (.inr (.inr ⟨st, _, h⟩))
      · cases h; exact .inr (.inr (.inr ⟨_, _, rfl⟩))

/-- The state with another TM ring and another frame in SCR: all that a telemetry scan can change (45_agent.md R164). -/
def TelemetryChange (s t : State) : Prop :=
  t = { s with tmRing := t.tmRing, scr := t.scr, scrLen := t.scrLen, r0 := t.r0, r1 := t.r1, r2 := t.r2, r3 := t.r3 }

theorem TelemetryChange.refl (s : State) : TelemetryChange s s := rfl

theorem TelemetryChange.trans {s t u : State} (h : TelemetryChange s t) (h' : TelemetryChange t u) :
    TelemetryChange s u := by
  unfold TelemetryChange at *
  rw [h']
  rw [h]

theorem discover_tm_change {sep : Nat} {s t : State} {st : Status} (h : discover .tm sep s = .ok (st, t)) :
    TelemetryChange s t := by
  obtain ⟨c, -, -, rfl⟩ := discover_ok h
  split <;> rfl

theorem push_tm_change (s : State) (bytes : List Byte) : TelemetryChange s (s.push .tm bytes) := rfl

theorem foldl_push_tm_change (packets : List (List Nat × List Byte)) (s : State) :
    TelemetryChange s (packets.foldl (fun (u : State) a => u.push .tm a.2) s) := by
  induction packets generalizing s with
  | nil => exact .refl s
  | cons a rest ih => exact (push_tm_change s a.2).trans (ih _)

theorem tmRescan_change {fuel : Nat} {s t : State} {ev ev' : List Event} (h : tmRescan fuel s ev = .ok (t, ev')) :
    TelemetryChange s t := by
  induction fuel generalizing s ev with
  | zero => cases h; exact .refl _
  | succ n ih =>
    unfold tmRescan at h
    obtain ⟨⟨st, u⟩, hd, h⟩ := bind_ok.1 h
    have hu := discover_tm_change hd
    cases st
    all_goals simp only [] at h
    all_goals first
      | (obtain ⟨e, -, h⟩ := bind_ok.1 h; exact hu.trans (ih h))
      | (cases h; exact hu)
      | exact hu.trans (ih h)

end Sys2Proof.Machine
end

