-- ==== Sys2Proof/Laws/Decoders.lean ====
section
/-! SUPPORT. The decoders on messages in the forms of Safety.lean: what each reads (43_decode.md). -/

namespace Sys2Proof.Machine

theorem codeBytes_wire (k : Kind) : codeBytes k = wireCode k := by cases k <;> decide

theorem wireCode_length (k : Kind) : (wireCode k).length = 2 := by cases k <;> rfl

theorem beNat_wireCode (k : Kind) : beNat (wireCode k) = codeOf k := by cases k <;> decide

/-- Two bytes that are not the code of a kind have another value. -/
theorem beNat_ne_code {b0 b1 : Byte} {k : Kind} (h : [b0, b1] ≠ wireCode k) : beNat [b0, b1] ≠ codeOf k := by
  intro he
  apply h
  have h0 := b0.isLt
  have h1 := b1.isLt
  simp only [beNat, leNat, List.reverse_cons, List.reverse_nil, List.nil_append, List.cons_append] at he
  have e0 : b0 = BitVec.ofNat 8 (codeOf k / 256) :=
    BitVec.eq_of_toNat_eq (by rw [BitVec.toNat_ofNat]; omega)
  have e1 : b1 = BitVec.ofNat 8 (codeOf k) :=
    BitVec.eq_of_toNat_eq (by rw [BitVec.toNat_ofNat]; omega)
  rw [e0, e1]
  cases k <;> decide

/-- DecHeader on a message of its kind (43_decode.md R128). -/
theorem decHeader_form {scr : Memory} {c : Cursor} {k : Kind} {body msg : List Byte} (h : MsgForm k body msg)
    (hm : scr.Holds c.cur msg) (hs : c.cur + msg.length ≤ c.stop) :
    ∃ p, c.cur ≤ p ∧ p + body.length = c.cur + msg.length ∧ scr.Holds p body ∧
      decHeader scr c k = .ok (body.length, ⟨p, p, p + body.length⟩, { c with cur := c.cur + msg.length }) := by
  obtain ⟨len, hb, rfl⟩ := h
  have hk := wireCode_length k
  obtain ⟨hm1, hm3⟩ := Memory.Holds.append.1 hm
  obtain ⟨hm1, hm2⟩ := Memory.Holds.append.1 hm1
  simp only [List.length_append, hk] at hm2 hm3 hs ⊢
  refine ⟨c.cur + (2 + len.length), by omega, by omega, hm3, ?_⟩
  unfold decHeader
  have h1 := readN_holds (c := c) hm1 (by omega)
  rw [hk] at h1
  have h2 : readBer scr { c with cur := c.cur + 2 } = .ok (body.length, { c with cur := c.cur + 2 + len.length }) :=
    readBer_form (c := { c with cur := c.cur + 2 }) hb hm2 (by simp only []; omega)
  rw [h1, ok_bind]
  simp only [beNat_wireCode, ne_eq, not_true_eq_false, if_false, h2, ok_bind]
  split
  · rename_i hl
    simp only [Cursor.avail] at hl
    omega
  · simp only [pure, Except.pure, Nat.add_assoc]

/-- A cursor at a sequence of BER fields reads the first and stands at the others. -/
theorem readBer_field {scr : Memory} {c : Cursor} {bytes : List Byte} {v : Nat} {vs : List Nat}
    (h : FieldsForm bytes (v :: vs)) (hm : scr.Holds c.cur bytes) (hs : c.cur + bytes.length ≤ c.stop) :
    ∃ rest p, FieldsForm rest vs ∧ scr.Holds p rest ∧ p + rest.length = c.cur + bytes.length ∧ c.cur ≤ p ∧
      readBer scr c = .ok (v, { c with cur := p }) := by
  obtain ⟨b, rest, rfl, hb, hr⟩ := h
  obtain ⟨h1, h2⟩ := Memory.Holds.append.1 hm
  rw [List.length_append] at hs ⊢
  exact ⟨rest, c.cur + b.length, hr, h2, by omega, by omega, readBer_form hb h1 (by omega)⟩

theorem ectOf_code (e : Ect) : ectOf (ectCode e) = some e := by cases e <;> rfl

theorem streamTypeLegal_iff (n : Nat) : streamTypeLegal n = true ↔ n ≤ 1 := by
  simp only [streamTypeLegal, Bool.or_eq_true, decide_eq_true_eq]
  omega

/-- DecPktHeader on a body that starts with its three fields and ends with the trailer (43_decode.md R129). -/
theorem decPktHeader_form {scr : Memory} {b : Cursor} {header tail trailer : List Byte} {rsv st : Nat} {ect : Ect}
    {vs : List Nat} (hf : FieldsForm header ([rsv, st, ectCode ect] ++ vs)) (hst : st ≤ 1)
    (ht : trailer.length = trailerSize ect) (hm : scr.Holds b.cur (header ++ tail ++ trailer))
    (hs : b.cur + (header ++ tail ++ trailer).length = b.stop) :
    ∃ rest p, FieldsForm rest vs ∧ scr.Holds p (rest ++ tail) ∧
      p + (rest ++ tail).length = b.cur + (header ++ tail).length ∧
      decPktHeader scr b = .ok (⟨rsv, st, ect, trailer⟩, { b with cur := p, stop := b.stop - trailerSize ect }) := by
  obtain ⟨hm12, hmt⟩ := Memory.Holds.append.1 hm
  obtain ⟨hm1, hm2⟩ := Memory.Holds.append.1 hm12
  simp only [List.length_append] at hs hmt hm2 ⊢
  obtain ⟨r1, p1, hf1, hh1, hp1, hq1, e1⟩ := readBer_field hf hm1 (by omega)
  obtain ⟨r2, p2, hf2, hh2, hp2, hq2, e2⟩ := readBer_field (c := { b with cur := p1 }) hf1 hh1 (by simp only []; omega)
  obtain ⟨r3, p3, hf3, hh3, hp3, hq3, e3⟩ := readBer_field (c := { b with cur := p2 }) hf2 hh2 (by simp only []; simp only [] at hp2; omega)
  simp only [] at hp2 hp3
  refine ⟨r3, p3, hf3, Memory.Holds.append.2 ⟨hh3, ?_⟩, by omega, ?_⟩
  · rwa [show p3 + r3.length = b.cur + header.length by omega]
  · have hl := (streamTypeLegal_iff st).2 hst
    have hr := memRead_holds hmt
    rw [ht, show b.cur + (header.length + tail.length) = b.stop - trailerSize ect by omega] at hr
    unfold decPktHeader
    rw [e1, ok_bind]
    simp only [e2, ok_bind, hl, Bool.true_eq_false, if_false, e3, ectOf_code]
    split
    · rename_i hl
      simp only [Cursor.avail] at hl
      omega
    · rw [hr]
      rfl

/-- The decoder of the two command messages (43_decode.md R132, R133). -/
theorem decBody_form {scr : Memory} {c : Cursor} {k : Kind} {body msg : List Byte} (h : MsgForm k body msg)
    (hm : scr.Holds c.cur msg) (hs : c.cur + msg.length ≤ c.stop) :
    ∃ p, c.cur ≤ p ∧ p + body.length = c.cur + msg.length ∧
      decBody k scr c = .ok ⟨[body.length], [], ⟨p, p, p + body.length⟩, { c with cur := c.cur + msg.length }⟩ := by
  obtain ⟨p, hcp, hp, hh, e⟩ := decHeader_form h hm hs
  refine ⟨p, hcp, hp, ?_⟩
  unfold decBody
  rw [e]
  rfl

/-- The decoder of the telemetry messages (43_decode.md R134, R135). -/
theorem decFour_form {scr : Memory} {c : Cursor} {k : Kind} {header params msg : List Byte} {n1 n2 n3 n4 : Nat}
    (hf : FieldsForm header [n1, n2, n3, n4]) (h : MsgForm k (header ++ params) msg) (hm : scr.Holds c.cur msg)
    (hs : c.cur + msg.length ≤ c.stop) :
    ∃ q p, c.cur ≤ p ∧ p + params.length = c.cur + msg.length ∧ scr.Holds p params ∧
      decFour k scr c = .ok ⟨[header.length + params.length, n1, n2, n3, n4], [], ⟨q, p, p + params.length⟩,
        { c with cur := c.cur + msg.length }⟩ := by
  obtain ⟨p, hcp, hp, hh, e⟩ := decHeader_form h hm hs
  obtain ⟨hh, ht⟩ := Memory.Holds.append.1 hh
  rw [List.length_append] at hp e
  obtain ⟨r1, p1, f1, h1, l1, q1, e1⟩ :=
    readBer_field (c := ⟨p, p, p + (header.length + params.length)⟩) hf hh (by simp only []; omega)
  simp only [] at l1 q1
  obtain ⟨r2, p2, f2, h2, l2, q2, e2⟩ :=
    readBer_field (c := ⟨p, p1, p + (header.length + params.length)⟩) f1 h1 (by simp only []; omega)
  simp only [] at l2 q2
  obtain ⟨r3, p3, f3, h3, l3, q3, e3⟩ :=
    readBer_field (c := ⟨p, p2, p + (header.length + params.length)⟩) f2 h2 (by simp only []; omega)
  simp only [] at l3 q3
  obtain ⟨r4, p4, f4, h4, l4, q4, e4⟩ :=
    readBer_field (c := ⟨p, p3, p + (header.length + params.length)⟩) f3 h3 (by simp only []; omega)
  simp only [] at l4 q4
  have f4 : r4 = [] := f4
  subst f4
  rw [List.length_nil] at l4
  have hq : p + header.length = p4 := by omega
  refine ⟨p, p4, by omega, by omega, by rwa [hq] at ht, ?_⟩
  unfold decFour
  rw [e, ok_bind]
  simp only [e1, e2, e3, e4, ok_bind, pure, Except.pure]
  congr 3
  omega

theorem addressTypeLegal_of {n : Nat} (h : n = 3 ∨ n = 4 ∨ n = 6) : addressTypeLegal n = true := by
  rcases h with rfl | rfl | rfl <;> rfl

theorem readBerIf_true (scr : Memory) (b : Cursor) : readBerIf true scr b = readBer scr b := rfl

theorem readBerIf_false (scr : Memory) (b : Cursor) : readBerIf false scr b = .ok (0, b) := rfl

/-- The decoder of AddressPackets (43_decode.md R136). -/
theorem decAddress_form {scr : Memory} {c : Cursor} {msg payload : List Byte} {vals : List Nat}
    (h : AddressForm msg vals payload) (hm : scr.Holds c.cur msg) (hs : c.cur + msg.length ≤ c.stop) :
    ∃ body q p, MsgForm .addressPacket body msg ∧ c.cur ≤ p ∧ p + payload.length = c.cur + msg.length ∧ scr.Holds p payload ∧
      decAddress scr c = .ok ⟨body.length :: vals, [], ⟨q, p, p + payload.length⟩,
        { c with cur := c.cur + msg.length }⟩ := by
  obtain ⟨at_, src, sc, dc, da, sg, dg, tst, ts, header, hat, h3, h6, rfl, hf, h⟩ := h
  obtain ⟨p, hcp, hp, hh, e⟩ := decHeader_form h hm hs
  obtain ⟨hh, ht⟩ := Memory.Holds.append.1 hh
  rw [List.length_append] at hp e
  have hend : ∀ {x}, x = p + header.length → x + payload.length = c.cur + msg.length := by omega
  have hleg := addressTypeLegal_of hat
  generalize hb : p + (header.length + payload.length) = stop at e
  have step : ∀ {bytes : List Byte} {x v : Nat} {vs : List Nat}, FieldsForm bytes (v :: vs) → scr.Holds x bytes →
      x + bytes.length = p + header.length → ∃ rest y, FieldsForm rest vs ∧ scr.Holds y rest ∧
      y + rest.length = p + header.length ∧ readBer scr ⟨p, x, stop⟩ = .ok (v, ⟨p, y, stop⟩) := by
    intro bytes x v vs hf hh hx
    obtain ⟨rest, y, h1, h2, h3, -, h4⟩ := readBer_field (c := ⟨p, x, stop⟩) hf hh (by simp only []; omega)
    exact ⟨rest, y, h1, h2, by simp only [] at h3; omega, h4⟩
  have done : ∀ {bytes : List Byte} {y : Nat}, FieldsForm bytes [] → y + bytes.length = p + header.length →
      y = p + header.length := by
    intro bytes y hf hy
    have : bytes = [] := hf
    subst this
    simpa using hy
  refine ⟨_, p, p + header.length, h, by omega, hend rfl, ht, ?_⟩
  unfold decAddress
  rw [e, ok_bind]
  simp only [Nat.add_assoc, hb]
  rcases hat with rfl | rfl | rfl
  · obtain rfl := h3 rfl
    obtain ⟨rfl, rfl⟩ := h6 (by decide)
    rw [show addressFields 3 src sc dc 0 0 0 tst ts = [3, src, sc, dc, tst, ts] from rfl] at hf
    obtain ⟨r, y, hf, hh, hy, e1⟩ := step hf hh rfl
    obtain ⟨r, y, hf, hh, hy, e2⟩ := step hf hh hy
    obtain ⟨r, y, hf, hh, hy, e3⟩ := step hf hh hy
    obtain ⟨r, y, hf, hh, hy, e4⟩ := step hf hh hy
    obtain ⟨r, y, hf, hh, hy, e5⟩ := step hf hh hy
    obtain ⟨r, y, hf, hh, hy, e6⟩ := step hf hh hy
    obtain rfl := done hf hy
    simp only [e1, e2, e3, e4, e5, e6, ok_bind, hleg, Bool.true_eq_false, if_false, show hasDest 3 = false from rfl,
      show hasGroups 3 = false from rfl, readBerIf_false, pure, Except.pure, List.length_append]
  · obtain ⟨rfl, rfl⟩ := h6 (by decide)
    rw [show addressFields 4 src sc dc da 0 0 tst ts = [4, src, sc, dc, da, tst, ts] from rfl] at hf
    obtain ⟨r, y, hf, hh, hy, e1⟩ := step hf hh rfl
    obtain ⟨r, y, hf, hh, hy, e2⟩ := step hf hh hy
    obtain ⟨r, y, hf, hh, hy, e3⟩ := step hf hh hy
    obtain ⟨r, y, hf, hh, hy, e4⟩ := step hf hh hy
    obtain ⟨r, y, hf, hh, hy, e5⟩ := step hf hh hy
    obtain ⟨r, y, hf, hh, hy, e6⟩ := step hf hh hy
    obtain ⟨r, y, hf, hh, hy, e7⟩ := step hf hh hy
    obtain rfl := done hf hy
    simp only [e1, e2, e3, e4, e5, e6, e7, ok_bind, hleg, Bool.true_eq_false, if_false, show hasDest 4 = true from rfl,
      show hasGroups 4 = false from rfl, readBerIf_false, readBerIf_true, pure, Except.pure, List.length_append]
  · rw [show addressFields 6 src sc dc da sg dg tst ts = [6, src, sc, dc, da, sg, dg, tst, ts] from rfl] at hf
    obtain ⟨r, y, hf, hh, hy, e1⟩ := step hf hh rfl
    obtain ⟨r, y, hf, hh, hy, e2⟩ := step hf hh hy
    obtain ⟨r, y, hf, hh, hy, e3⟩ := step hf hh hy
    obtain ⟨r, y, hf, hh, hy, e4⟩ := step hf hh hy
    obtain ⟨r, y, hf, hh, hy, e5⟩ := step hf hh hy
    obtain ⟨r, y, hf, hh, hy, e6⟩ := step hf hh hy
    obtain ⟨r, y, hf, hh, hy, e7⟩ := step hf hh hy
    obtain ⟨r, y, hf, hh, hy, e8⟩ := step hf hh hy
    obtain ⟨r, y, hf, hh, hy, e9⟩ := step hf hh hy
    obtain rfl := done hf hy
    simp only [e1, e2, e3, e4, e5, e6, e7, e8, e9, ok_bind, hleg, Bool.true_eq_false, if_false, show hasDest 6 = true from rfl,
      show hasGroups 6 = true from rfl, readBerIf_true, pure, Except.pure, List.length_append]

/-- The decoder of ExchangePackets (43_decode.md R137). -/
theorem decExchange_form {scr : Memory} {c : Cursor} {msg payload trailer : List Byte} {rsv st ws seq : Nat} {ect : Ect}
    (h : PacketForm .exchangePacket rsv st ect [ws, seq] payload trailer msg) (hw : ws ≤ maxWindow)
    (hq : seq ≤ maxCounter) (hm : scr.Holds c.cur msg) (hs : c.cur + msg.length ≤ c.stop) :
    ∃ body q p, MsgForm .exchangePacket body msg ∧ c.cur ≤ p ∧
      p + payload.length + trailer.length = c.cur + msg.length ∧ scr.Holds p payload ∧
      decExchange scr c = .ok ⟨[body.length, rsv, st, ectCode ect, ws, seq], trailer, ⟨q, p, p + payload.length⟩,
        { c with cur := c.cur + msg.length }⟩ := by
  obtain ⟨header, hst, hf, ht, h⟩ := h
  obtain ⟨p, hcp, hp, hh, e⟩ := decHeader_form h hm hs
  obtain ⟨rest, p1, hf1, hh1, hp1, e1⟩ := decPktHeader_form (b := ⟨p, p, p + (header ++ payload ++ trailer).length⟩)
    (tail := payload) hf hst ht hh rfl
  obtain ⟨hh1, ht1⟩ := Memory.Holds.append.1 hh1
  simp only [List.length_append] at hp hp1
  rw [ht] at hp
  have hstop : p + (header ++ payload ++ trailer).length - trailerSize ect = p + (header.length + payload.length) := by
    simp only [List.length_append, ht]
    omega
  rw [hstop] at e1
  obtain ⟨r2, p2, hf2, hh2, hp2, -, e2⟩ :=
    readBer_field (c := ⟨p, p1, p + (header.length + payload.length)⟩) hf1 hh1 (by simp only []; omega)
  obtain ⟨r3, p3, hf3, hh3, hp3, -, e3⟩ :=
    readBer_field (c := ⟨p, p2, p + (header.length + payload.length)⟩) hf2 hh2 (by simp only [] at hp2 ⊢; omega)
  have hf3 : r3 = [] := hf3
  subst hf3
  simp only [List.length_nil] at hp2 hp3
  have hp4 : p3 = p1 + rest.length := by omega
  refine ⟨_, p, p3, h, by omega, by omega, by rwa [hp4], ?_⟩
  unfold decExchange
  rw [e, ok_bind]
  simp only [e1, ok_bind, e2, e3]
  rw [if_neg (by omega), if_neg (by omega), show p + (header.length + payload.length) = p3 + payload.length by omega]
  rfl

/-- The decoder of the two counter packets (43_decode.md R138, R139). -/
theorem decCounter_form {k : Kind} {scr : Memory} {c : Cursor} {msg extra trailer : List Byte} {rsv st ctr : Nat}
    {ect : Ect} (h : PacketForm k rsv st ect [ctr] extra trailer msg) (hq : ctr ≤ maxCounter)
    (hm : scr.Holds c.cur msg) (hs : c.cur + msg.length ≤ c.stop) :
    ∃ body payload, MsgForm k body msg ∧
      decCounter k scr c = .ok ⟨[body.length, rsv, st, ectCode ect, ctr], trailer, payload,
        { c with cur := c.cur + msg.length }⟩ := by
  obtain ⟨header, hst, hf, ht, h⟩ := h
  obtain ⟨p, hcp, hp, hh, e⟩ := decHeader_form h hm hs
  obtain ⟨rest, p1, hf1, hh1, hp1, e1⟩ := decPktHeader_form (b := ⟨p, p, p + (header ++ extra ++ trailer).length⟩)
    (tail := extra) hf hst ht hh rfl
  obtain ⟨hh1, ht1⟩ := Memory.Holds.append.1 hh1
  simp only [List.length_append] at hp hp1
  rw [ht] at hp
  have hstop : p + (header ++ extra ++ trailer).length - trailerSize ect = p + (header.length + extra.length) := by
    simp only [List.length_append, ht]
    omega
  rw [hstop] at e1
  obtain ⟨r2, p2, hf2, hh2, hp2, -, e2⟩ :=
    readBer_field (c := ⟨p, p1, p + (header.length + extra.length)⟩) hf1 hh1 (by simp only []; omega)
  refine ⟨_, ⟨p, p2, p + (header.length + extra.length)⟩, h, ?_⟩
  unfold decCounter
  rw [e, ok_bind]
  simp only [e1, ok_bind, e2]
  rw [if_neg (by omega)]
  rfl

/-! ### Everything a decoder can answer -/

/-- Where the cursors of a decoded message stand, and the bound of its values (43_decode.md R130). -/
structure DecodedIn (c : Cursor) (d : Decoded) : Prop where
  after : d.after = { c with cur := d.after.cur }
  lo : c.cur ≤ d.payload.cur
  view : d.payload.cur ≤ d.payload.stop
  hi : d.payload.stop ≤ d.after.cur
  stop : d.after.cur ≤ c.stop
  past : c.cur + 3 ≤ d.after.cur
  values : ∀ v ∈ d.fields, v < 2 ^ 64

theorem readBer_in {scr : Memory} {c c' : Cursor} {v : Nat} (h : readBer scr c = .ok (v, c')) :
    v < 2 ^ 64 ∧ c'.start = c.start ∧ c'.stop = c.stop ∧ c.cur + 1 ≤ c'.cur ∧ c'.cur ≤ c.stop := by
  obtain ⟨bytes, h1, -, h3, rfl⟩ := readBer_ok h
  have := h1.length_pos
  exact ⟨h1.lt, rfl, rfl, by simp only []; omega, h3⟩

theorem decHeader_in {scr : Memory} {c b after : Cursor} {k : Kind} {len : Nat}
    (h : decHeader scr c k = .ok (len, b, after)) :
    len < 2 ^ 64 ∧ after = { c with cur := after.cur } ∧ c.cur + 3 ≤ b.cur ∧ b.cur ≤ b.stop ∧ b.stop = after.cur ∧
      after.cur ≤ c.stop := by
  unfold decHeader at h
  obtain ⟨⟨bytes, c1⟩, h1, h⟩ := bind_ok.1 h
  obtain ⟨-, h2, -, rfl⟩ := readN_ok h1
  dsimp only at h
  split at h
  · cases h
  · obtain ⟨⟨v, c2⟩, h3, h⟩ := bind_ok.1 h
    obtain ⟨h4, h5, h6, h7, h8⟩ := readBer_in h3
    simp only [] at h h5 h6 h7 h8
    split at h
    · cases h
    · rename_i hl
      simp only [Cursor.avail] at hl
      cases h
      refine ⟨h4, rfl, ?_, ?_, rfl, ?_⟩ <;> simp only [] <;> omega

theorem decPktHeader_in {scr : Memory} {b b' : Cursor} {p : PktHeader} (h : decPktHeader scr b = .ok (p, b')) :
    p.reserved < 2 ^ 64 ∧ p.st < 2 ^ 64 ∧ b.cur ≤ b'.cur ∧ b'.cur ≤ b'.stop ∧ b'.stop ≤ b.stop := by
  unfold decPktHeader at h
  obtain ⟨⟨v1, b1⟩, h1, h⟩ := bind_ok.1 h
  obtain ⟨⟨v2, b2⟩, h2, h⟩ := bind_ok.1 h
  obtain ⟨hv1, -, hs1, hc1, hd1⟩ := readBer_in h1
  obtain ⟨hv2, -, hs2, hc2, hd2⟩ := readBer_in h2
  simp only [] at hc2 hs2 hd2 h
  split at h
  · cases h
  · obtain ⟨⟨v3, b3⟩, h3, h⟩ := bind_ok.1 h
    obtain ⟨-, -, hs3, hc3, hd3⟩ := readBer_in h3
    simp only [] at hc3 hs3 hd3 h
    split at h
    · cases h
    · split at h
      · cases h
      · rename_i ha
        simp only [Cursor.avail] at ha
        obtain ⟨tr, -, h⟩ := bind_ok.1 h
        cases h
        refine ⟨hv1, hv2, ?_, ?_, ?_⟩ <;> simp only [] <;> omega

theorem decBody_in {k : Kind} {scr : Memory} {c : Cursor} {d : Decoded} (h : decBody k scr c = .ok d) :
    DecodedIn c d := by
  unfold decBody at h
  obtain ⟨⟨len, b, after⟩, h1, h⟩ := bind_ok.1 h
  obtain ⟨h2, h3, h4, h5, h6, h7⟩ := decHeader_in h1
  cases h
  exact ⟨h3, by simp only []; omega, h5, by simp only []; omega, h7, by simp only []; omega, by simpa using h2⟩

theorem decFour_in {k : Kind} {scr : Memory} {c : Cursor} {d : Decoded} (h : decFour k scr c = .ok d) :
    DecodedIn c d := by
  unfold decFour at h
  obtain ⟨⟨len, b, after⟩, h1, h⟩ := bind_ok.1 h
  obtain ⟨h2, h3, h4, h5, h6, h7⟩ := decHeader_in h1
  obtain ⟨⟨v1, b1⟩, e1, h⟩ := bind_ok.1 h
  obtain ⟨⟨v2, b2⟩, e2, h⟩ := bind_ok.1 h
  obtain ⟨⟨v3, b3⟩, e3, h⟩ := bind_ok.1 h
  obtain ⟨⟨v4, b4⟩, e4, h⟩ := bind_ok.1 h
  obtain ⟨hv1, -, hs1, hc1, hd1⟩ := readBer_in e1
  obtain ⟨hv2, -, hs2, hc2, hd2⟩ := readBer_in e2
  obtain ⟨hv3, -, hs3, hc3, hd3⟩ := readBer_in e3
  obtain ⟨hv4, -, hs4, hc4, hd4⟩ := readBer_in e4
  cases h
  simp only [] at *
  refine ⟨h3, by simp only []; omega, by simp only []; omega, by simp only []; omega, h7, by simp only []; omega, ?_⟩
  simp only [List.mem_cons, List.not_mem_nil, or_false, forall_eq_or_imp, forall_eq]
  exact ⟨h2, hv1, hv2, hv3, hv4⟩

theorem readBerIf_in {present : Bool} {scr : Memory} {c c' : Cursor} {v : Nat} (h : readBerIf present scr c = .ok (v, c'))
    (hc : c.cur ≤ c.stop) : v < 2 ^ 64 ∧ c'.start = c.start ∧ c'.stop = c.stop ∧ c.cur ≤ c'.cur ∧ c'.cur ≤ c.stop := by
  cases present with
  | true =>
    obtain ⟨h1, h2, h3, h4, h5⟩ := readBer_in h
    exact ⟨h1, h2, h3, by omega, h5⟩
  | false =>
    cases h
    exact ⟨by decide, rfl, rfl, Nat.le_refl _, hc⟩

theorem decAddress_in {scr : Memory} {c : Cursor} {d : Decoded} (h : decAddress scr c = .ok d) : DecodedIn c d := by
  unfold decAddress at h
  obtain ⟨⟨len, b, after⟩, h1, h⟩ := bind_ok.1 h
  obtain ⟨h2, h3, h4, h5, h6, h7⟩ := decHeader_in h1
  obtain ⟨⟨v1, b1⟩, e1, h⟩ := bind_ok.1 h
  obtain ⟨hv1, -, hs1, hc1, hd1⟩ := readBer_in e1
  simp only [] at h hs1 hc1 hd1
  split at h
  · cases h
  · obtain ⟨⟨v2, b2⟩, e2, h⟩ := bind_ok.1 h
    obtain ⟨⟨v3, b3⟩, e3, h⟩ := bind_ok.1 h
    obtain ⟨⟨v4, b4⟩, e4, h⟩ := bind_ok.1 h
    obtain ⟨⟨v5, b5⟩, e5, h⟩ := bind_ok.1 h
    obtain ⟨⟨v6, b6⟩, e6, h⟩ := bind_ok.1 h
    obtain ⟨⟨v7, b7⟩, e7, h⟩ := bind_ok.1 h
    obtain ⟨⟨v8, b8⟩, e8, h⟩ := bind_ok.1 h
    obtain ⟨⟨v9, b9⟩, e9, h⟩ := bind_ok.1 h
    obtain ⟨hv2, -, hs2, hc2, hd2⟩ := readBer_in e2
    obtain ⟨hv3, -, hs3, hc3, hd3⟩ := readBer_in e3
    obtain ⟨hv4, -, hs4, hc4, hd4⟩ := readBer_in e4
    simp only [] at hs2 hc2 hd2 hs3 hc3 hd3 hs4 hc4 hd4
    obtain ⟨hv5, -, hs5, hc5, hd5⟩ := readBerIf_in e5 (by simp only []; omega)
    simp only [] at hs5 hc5 hd5
    obtain ⟨hv6, -, hs6, hc6, hd6⟩ := readBerIf_in e6 (by simp only []; omega)
    simp only [] at hs6 hc6 hd6
    obtain ⟨hv7, -, hs7, hc7, hd7⟩ := readBerIf_in e7 (by simp only []; omega)
    simp only [] at hs7 hc7 hd7
    obtain ⟨hv8, -, hs8, hc8, hd8⟩ := readBer_in e8
    obtain ⟨hv9, -, hs9, hc9, hd9⟩ := readBer_in e9
    simp only [] at hs8 hc8 hd8 hs9 hc9 hd9
    cases h
    refine ⟨h3, by simp only []; omega, by simp only []; omega, by simp only []; omega, h7, by simp only []; omega, ?_⟩
    simp only [List.mem_cons, List.not_mem_nil, or_false, forall_eq_or_imp, forall_eq]
    exact ⟨h2, hv1, hv2, hv3, hv4, hv5, hv6, hv7, hv8, hv9⟩

theorem ectCode_lt (e : Ect) : ectCode e < 2 ^ 64 := by cases e <;> decide

theorem decExchange_in {scr : Memory} {c : Cursor} {d : Decoded} (h : decExchange scr c = .ok d) : DecodedIn c d := by
  unfold decExchange at h
  obtain ⟨⟨len, b, after⟩, h1, h⟩ := bind_ok.1 h
  obtain ⟨h2, h3, h4, h5, h6, h7⟩ := decHeader_in h1
  obtain ⟨⟨p, b1⟩, e1, h⟩ := bind_ok.1 h
  obtain ⟨hr, hst, hc1, hd1, hs1⟩ := decPktHeader_in e1
  obtain ⟨⟨v2, b2⟩, e2, h⟩ := bind_ok.1 h
  obtain ⟨hv2, -, hs2, hc2, hd2⟩ := readBer_in e2
  simp only [] at h hs2 hc2 hd2 hc1 hd1 hs1
  split at h
  · cases h
  · obtain ⟨⟨v3, b3⟩, e3, h⟩ := bind_ok.1 h
    obtain ⟨hv3, -, hs3, hc3, hd3⟩ := readBer_in e3
    simp only [] at h hs3 hc3 hd3
    split at h
    · cases h
    · cases h
      refine ⟨h3, by simp only []; omega, by simp only []; omega, by simp only []; omega, h7, by simp only []; omega, ?_⟩
      simp only [List.mem_cons, List.not_mem_nil, or_false, forall_eq_or_imp, forall_eq]
      exact ⟨h2, hr, hst, ectCode_lt _, hv2, hv3⟩

theorem decCounter_in {k : Kind} {scr : Memory} {c : Cursor} {d : Decoded} (h : decCounter k scr c = .ok d) :
    DecodedIn c d := by
  unfold decCounter at h
  obtain ⟨⟨len, b, after⟩, h1, h⟩ := bind_ok.1 h
  obtain ⟨h2, h3, h4, h5, h6, h7⟩ := decHeader_in h1
  obtain ⟨⟨p, b1⟩, e1, h⟩ := bind_ok.1 h
  obtain ⟨hr, hst, hc1, hd1, hs1⟩ := decPktHeader_in e1
  obtain ⟨⟨v2, b2⟩, e2, h⟩ := bind_ok.1 h
  obtain ⟨hv2, -, hs2, hc2, hd2⟩ := readBer_in e2
  simp only [] at h hs2 hc2 hd2 hc1 hd1 hs1
  split at h
  · cases h
  · cases h
    refine ⟨h3, by simp only []; omega, by simp only []; omega, by simp only []; omega, h7, by simp only []; omega, ?_⟩
    simp only [List.mem_cons, List.not_mem_nil, or_false, forall_eq_or_imp, forall_eq]
    exact ⟨h2, hr, hst, ectCode_lt _, hv2⟩

/-! ### A decoder over written cells reads no cell without a value -/

theorem decHeader_written {scr : Memory} {c : Cursor} {k : Kind} (h : scr.Written c.cur c.stop) :
    decHeader scr c k ≠ .error .noValue := by
  intro he
  unfold decHeader at he
  rcases bind_error.1 he with he | ⟨⟨bytes, c1⟩, h1, he⟩
  · exact readN_written h he
  · obtain ⟨-, -, -, rfl⟩ := readN_ok h1
    dsimp only at he
    split at he
    · cases he
    · rcases bind_error.1 he with he | ⟨⟨v, c2⟩, -, he⟩
      · exact readBer_written (c := { c with cur := c.cur + 2 }) (h.mono (show c.cur ≤ c.cur + 2 by omega) (Nat.le_refl _)) he
      · dsimp only at he
        split at he <;> cases he

theorem decPktHeader_written {scr : Memory} {b : Cursor} (h : scr.Written b.cur b.stop) :
    decPktHeader scr b ≠ .error .noValue := by
  intro he
  unfold decPktHeader at he
  rcases bind_error.1 he with he | ⟨⟨v1, b1⟩, e1, he⟩
  · exact readBer_written h he
  obtain ⟨-, -, hs1, hc1, hd1⟩ := readBer_in e1
  rcases bind_error.1 he with he | ⟨⟨v2, b2⟩, e2, he⟩
  · exact readBer_written (h.mono (by omega) (by omega)) he
  obtain ⟨-, -, hs2, hc2, hd2⟩ := readBer_in e2
  simp only [] at hs2 hc2 hd2 he
  split at he
  · cases he
  rcases bind_error.1 he with he | ⟨⟨v3, b3⟩, e3, he⟩
  · exact readBer_written (h.mono (by omega) (by omega)) he
  obtain ⟨-, -, hs3, hc3, hd3⟩ := readBer_in e3
  simp only [] at hs3 hc3 hd3 he
  split at he
  · cases he
  · split at he
    · cases he
    · rename_i ect _ ha
      simp only [Cursor.avail] at ha
      rcases bind_error.1 he with he | ⟨tr, -, he⟩
      · obtain ⟨bytes, hb⟩ := memRead_written (h.mono (show b.cur ≤ b3.stop - trailerSize ect by omega)
          (show b3.stop - trailerSize ect + trailerSize ect ≤ b.stop by omega))
        rw [hb] at he
        cases he
      · cases he

theorem decBody_written {k : Kind} {scr : Memory} {c : Cursor} (h : scr.Written c.cur c.stop) :
    decBody k scr c ≠ .error .noValue := by
  intro he
  unfold decBody at he
  rcases bind_error.1 he with he | ⟨⟨len, b, after⟩, h1, he⟩
  · exact decHeader_written h he
  · cases he

theorem readBerIf_written {present : Bool} {scr : Memory} {c : Cursor} (h : scr.Written c.cur c.stop) :
    readBerIf present scr c ≠ .error .noValue := by
  cases present with
  | true => exact readBer_written h
  | false => intro he; cases he

theorem decFour_written {k : Kind} {scr : Memory} {c : Cursor} (h : scr.Written c.cur c.stop) :
    decFour k scr c ≠ .error .noValue := by
  intro he
  unfold decFour at he
  rcases bind_error.1 he with he | ⟨⟨len, b, after⟩, h1, he⟩
  · exact decHeader_written h he
  obtain ⟨-, -, h4, h5, h6, h7⟩ := decHeader_in h1
  have hb : ∀ x : Cursor, b.cur ≤ x.cur → x.stop = b.stop → scr.Written x.cur x.stop :=
    fun x h1 h2 => h.mono (by omega) (by omega)
  rcases bind_error.1 he with he | ⟨⟨v1, b1⟩, e1, he⟩
  · exact readBer_written (hb _ (Nat.le_refl _) rfl) he
  obtain ⟨-, -, hs1, hc1, -⟩ := readBer_in e1
  rcases bind_error.1 he with he | ⟨⟨v2, b2⟩, e2, he⟩
  · exact readBer_written (hb _ (by simp only [] at *; omega) (by simp only [] at *; omega)) he
  obtain ⟨-, -, hs2, hc2, -⟩ := readBer_in e2
  rcases bind_error.1 he with he | ⟨⟨v3, b3⟩, e3, he⟩
  · exact readBer_written (hb _ (by simp only [] at *; omega) (by simp only [] at *; omega)) he
  obtain ⟨-, -, hs3, hc3, -⟩ := readBer_in e3
  rcases bind_error.1 he with he | ⟨⟨v4, b4⟩, e4, he⟩
  · exact readBer_written (hb _ (by simp only [] at *; omega) (by simp only [] at *; omega)) he
  · cases he

theorem decAddress_written {scr : Memory} {c : Cursor} (h : scr.Written c.cur c.stop) :
    decAddress scr c ≠ .error .noValue := by
  intro he
  unfold decAddress at he
  rcases bind_error.1 he with he | ⟨⟨len, b, after⟩, h1, he⟩
  · exact decHeader_written h he
  obtain ⟨-, -, h4, h5, h6, h7⟩ := decHeader_in h1
  have hb : ∀ x : Cursor, b.cur ≤ x.cur → x.stop = b.stop → scr.Written x.cur x.stop :=
    fun x h1 h2 => h.mono (by omega) (by omega)
  rcases bind_error.1 he with he | ⟨⟨v1, b1⟩, e1, he⟩
  · exact readBer_written (hb _ (Nat.le_refl _) rfl) he
  obtain ⟨-, -, hs1, hc1, hd1⟩ := readBer_in e1
  simp only [] at hs1 hc1 hd1 he
  split at he
  · cases he
  rcases bind_error.1 he with he | ⟨⟨v2, b2⟩, e2, he⟩
  · exact readBer_written (hb _ (by omega) (by omega)) he
  obtain ⟨-, -, hs2, hc2, hd2⟩ := readBer_in e2
  rcases bind_error.1 he with he | ⟨⟨v3, b3⟩, e3, he⟩
  · exact readBer_written (hb _ (by simp only [] at *; omega) (by simp only [] at *; omega)) he
  obtain ⟨-, -, hs3, hc3, hd3⟩ := readBer_in e3
  rcases bind_error.1 he with he | ⟨⟨v4, b4⟩, e4, he⟩
  · exact readBer_written (hb _ (by simp only [] at *; omega) (by simp only [] at *; omega)) he
  obtain ⟨-, -, hs4, hc4, hd4⟩ := readBer_in e4
  simp only [] at hs2 hc2 hd2 hs3 hc3 hd3 hs4 hc4 hd4
  rcases bind_error.1 he with he | ⟨⟨v5, b5⟩, e5, he⟩
  · exact readBerIf_written (hb _ (by dsimp only; omega) (by dsimp only; omega)) he
  obtain ⟨-, -, hs5, hc5, hd5⟩ := readBerIf_in e5 (by simp only []; omega)
  simp only [] at hs5 hc5 hd5
  rcases bind_error.1 he with he | ⟨⟨v6, b6⟩, e6, he⟩
  · exact readBerIf_written (hb _ (by dsimp only; omega) (by dsimp only; omega)) he
  obtain ⟨-, -, hs6, hc6, hd6⟩ := readBerIf_in e6 (by simp only []; omega)
  simp only [] at hs6 hc6 hd6
  rcases bind_error.1 he with he | ⟨⟨v7, b7⟩, e7, he⟩
  · exact readBerIf_written (hb _ (by dsimp only; omega) (by dsimp only; omega)) he
  obtain ⟨-, -, hs7, hc7, hd7⟩ := readBerIf_in e7 (by simp only []; omega)
  simp only [] at hs7 hc7 hd7
  rcases bind_error.1 he with he | ⟨⟨v8, b8⟩, e8, he⟩
  · exact readBer_written (hb _ (by dsimp only; omega) (by dsimp only; omega)) he
  obtain ⟨-, -, hs8, hc8, hd8⟩ := readBer_in e8
  simp only [] at hs8 hc8 hd8
  rcases bind_error.1 he with he | ⟨⟨v9, b9⟩, e9, he⟩
  · exact readBer_written (hb _ (by dsimp only; omega) (by dsimp only; omega)) he
  · cases he

theorem decExchange_written {scr : Memory} {c : Cursor} (h : scr.Written c.cur c.stop) :
    decExchange scr c ≠ .error .noValue := by
  intro he
  unfold decExchange at he
  rcases bind_error.1 he with he | ⟨⟨len, b, after⟩, h1, he⟩
  · exact decHeader_written h he
  obtain ⟨-, -, h4, h5, h6, h7⟩ := decHeader_in h1
  have hb : ∀ x : Cursor, b.cur ≤ x.cur → x.stop ≤ b.stop → scr.Written x.cur x.stop :=
    fun x h1 h2 => h.mono (by omega) (by omega)
  rcases bind_error.1 he with he | ⟨⟨p, b1⟩, e1, he⟩
  · exact decPktHeader_written (hb _ (Nat.le_refl _) (Nat.le_refl _)) he
  obtain ⟨-, -, hc1, hd1, hs1⟩ := decPktHeader_in e1
  rcases bind_error.1 he with he | ⟨⟨v2, b2⟩, e2, he⟩
  · exact readBer_written (hb _ hc1 hs1) he
  obtain ⟨-, -, hs2, hc2, hd2⟩ := readBer_in e2
  simp only [] at hs2 hc2 hd2 hc1 hd1 hs1 he
  split at he
  · cases he
  rcases bind_error.1 he with he | ⟨⟨v3, b3⟩, e3, he⟩
  · exact readBer_written (hb _ (by omega) (by omega)) he
  · dsimp only at he
    split at he <;> cases he

theorem decCounter_written {k : Kind} {scr : Memory} {c : Cursor} (h : scr.Written c.cur c.stop) :
    decCounter k scr c ≠ .error .noValue := by
  intro he
  unfold decCounter at he
  rcases bind_error.1 he with he | ⟨⟨len, b, after⟩, h1, he⟩
  · exact decHeader_written h he
  obtain ⟨-, -, h4, h5, h6, h7⟩ := decHeader_in h1
  rcases bind_error.1 he with he | ⟨⟨p, b1⟩, e1, he⟩
  · exact decPktHeader_written (h.mono (by omega) (by omega)) he
  obtain ⟨-, -, hc1, hd1, hs1⟩ := decPktHeader_in e1
  rcases bind_error.1 he with he | ⟨⟨v2, b2⟩, e2, he⟩
  · exact readBer_written (h.mono (by simp only [] at *; omega) (by simp only [] at *; omega)) he
  · dsimp only at he
    split at he <;> cases he

end Sys2Proof.Machine
end

