-- ==== Sys2Proof/Laws/Encoders.lean ====
section
/-! SUPPORT. The byte forms an encoder writes, and what closing a frame leaves in ASM (44_encode.md). -/

namespace Sys2Proof.Machine

theorem addressHeader_fields (at_ src sc dc da sg dg tst ts : Nat) :
    addressHeader at_ src sc dc da sg dg tst ts =
      ((addressFields at_ src sc dc da sg dg tst ts).map berMin).flatten := by
  unfold addressHeader addressFields hasDest hasGroups
  by_cases h4 : at_ = 4 <;> by_cases h6 : at_ = 6 <;> simp [h4, h6]

/-- Minimal forms make a sequence of BER values (30_encoding.md R61, R64). -/
theorem fieldsForm_berMin {vals : List Nat} (h : ∀ v ∈ vals, v < 2 ^ 64) :
    FieldsForm (vals.map berMin).flatten vals := by
  induction vals with
  | nil => rfl
  | cons v vs ih =>
    exact ⟨berMin v, _, rfl, berForm_berMin (h v (by simp)), ih fun x hx => h x (by simp [hx])⟩

/-- The check of streamType and errorControlType passes legal values (44_encode.md R150 to R152). -/
theorem checkStreamEct_legal {st e : U64} {ect : Ect} (h : st = 0 ∨ st = 1)
    (he : e = 1 ∧ ect = .crc16 ∨ e = 2 ∧ ect = .reedSolomon) (k : Ect → Res State) :
    checkStreamEct st.toNat e.toNat k = k ect := by
  rcases h with rfl | rfl <;> rcases he with ⟨rfl, rfl⟩ | ⟨rfl, rfl⟩ <;> rfl

/-- What closing a frame stores: code, length field, body and trailer, from the frame's first cell on (44_encode.md
R153). -/
theorem closeFrame_form {e : FrameEntry} {rest : List FrameEntry} {lb body : List Byte} {n : Nat} {s : State} {c0 c1 : Byte}
    (hb : e.bodyStart = e.start + 3) (hc : s.asm.Holds e.start [c0, c1]) (hbd : s.asm.Holds e.bodyStart body)
    (hcur : s.w0.cur = e.bodyStart + body.length) (hl : 1 ≤ lb.length) :
    ∃ m, s.asm.Stores m e.start ([c0, c1] ++ lb ++ body ++ (match e.ect with
        | none => []
        | some x => trailerFn s.cfg.trailer x ([c0, c1] ++ lb ++ body))) ∧
      closeFrame e rest lb n s = .ok (finish .ok [n] [] [] { s with
        asm := m
        w0 := { s.w0 with cur := s.w0.cur + (lb.length - 1) + e.trailer, stop := e.savedEnd }
        fstack := rest }) := by
  have h1 := memRead_holds hbd
  rw [show body.length = s.w0.cur - e.bodyStart by omega] at h1
  unfold closeFrame
  rw [h1, ok_bind]
  dsimp only
  have s1 := memWrite_stores s.asm (e.bodyStart + (lb.length - 1)) body
  have s2 := memWrite_stores (memWrite s.asm (e.bodyStart + (lb.length - 1)) body) (e.start + 2) lb
  generalize hm1 : memWrite s.asm (e.bodyStart + (lb.length - 1)) body = m1 at s1 s2 ⊢
  generalize hm2 : memWrite m1 (e.start + 2) lb = m2 at s2 ⊢
  have hh : m2.Holds e.start ([c0, c1] ++ lb ++ body) := by
    rw [Memory.Holds.append, Memory.Holds.append]
    refine ⟨⟨?_, s2.holds⟩, ?_⟩
    · exact s2.holds_other (s1.holds_other hc (.inl (by simp only [List.length_cons, List.length_nil]; omega)))
        (.inl (by simp only [List.length_cons, List.length_nil]; omega))
    · have := s2.holds_other s1.holds (.inr (by omega))
      rwa [show e.start + ([c0, c1] ++ lb).length = e.bodyStart + (lb.length - 1) by
        simp only [List.length_append, List.length_cons, List.length_nil]; omega]
  have hlen : ([c0, c1] ++ lb ++ body).length = s.w0.cur + (lb.length - 1) - e.start := by
    simp only [List.length_append, List.length_cons, List.length_nil]
    omega
  have h2 := memRead_holds hh
  rw [hlen] at h2
  rw [h2, ok_bind]
  generalize htr : (match e.ect with
    | none => []
    | some x => trailerFn s.cfg.trailer x ([c0, c1] ++ lb ++ body)) = tr
  refine ⟨memWrite m2 (s.w0.cur + (lb.length - 1)) tr, ?_, by rw [← htr]; rfl⟩
  intro a
  rw [memWrite_read, List.length_append, hlen]
  by_cases h3 : s.w0.cur + (lb.length - 1) ≤ a ∧ a < s.w0.cur + (lb.length - 1) + tr.length
  · rw [if_pos h3, if_pos (by omega), List.getElem?_append_right (by omega), hlen]
    congr 1
    omega
  · rw [if_neg h3]
    by_cases h4 : e.start ≤ a ∧ a < e.start + ([c0, c1] ++ lb ++ body).length
    · rw [if_pos (by omega), List.getElem?_append_left (by omega)]
      have := hh (a - e.start) (by omega)
      rwa [show e.start + (a - e.start) = a by omega] at this
    · rw [if_neg (by omega), ← hm2, memWrite_read, if_neg, ← hm1, memWrite_read, if_neg]
      · omega
      · simp only [List.length_append, List.length_cons, List.length_nil] at hlen h4
        omega

end Sys2Proof.Machine
end

