-- ==== Sys2Proof/Laws/Encoding.lean ====
section
/-! SUPPORT. The fields of a command word and each format of the decoder: when it answers, and with what
(30_encoding.md R54 to R56). -/

namespace Sys2Proof

/-! ### A word from its fields, and back -/

section Fields

variable (op : BitVec 8) (tgt mod : BitVec 4) (imm : BitVec 16) (v : List U64) (d : List Byte)

theorem cmdWord_op : Command.op ⟨cmdWord op tgt mod imm, v, d⟩ = op := by
  ext k hk
  simp only [Command.op, cmdWord, BitVec.getElem_extractLsb', BitVec.getLsbD_append]
  simp [show ¬ (24 + k < 16) by omega, show ¬ (24 + k - 16 < 4) by omega, show ¬ (24 + k - 16 - 4 < 4) by omega,
    show 24 + k - 16 - 4 - 4 = k by omega, hk]

theorem cmdWord_tgt : Command.tgt ⟨cmdWord op tgt mod imm, v, d⟩ = tgt := by
  ext k hk
  simp only [Command.tgt, cmdWord, BitVec.getElem_extractLsb', BitVec.getLsbD_append]
  simp [show ¬ (20 + k < 16) by omega, show ¬ (20 + k - 16 < 4) by omega, show 20 + k - 16 - 4 = k by omega, hk]

theorem cmdWord_mod : Command.mod ⟨cmdWord op tgt mod imm, v, d⟩ = mod := by
  ext k hk
  simp only [Command.mod, cmdWord, BitVec.getElem_extractLsb', BitVec.getLsbD_append]
  simp [hk]

theorem cmdWord_imm : Command.imm ⟨cmdWord op tgt mod imm, v, d⟩ = imm := by
  ext k hk
  simp only [Command.imm, cmdWord, BitVec.getElem_extractLsb', BitVec.getLsbD_append]
  simp [hk]

end Fields

/-- A command is its fields: the word holds nothing else. -/
theorem command_eta (c : Command) : (⟨cmdWord c.op c.tgt c.mod c.imm, c.v, c.data⟩ : Command) = c := by
  obtain ⟨w, v, d⟩ := c
  congr 1
  apply BitVec.eq_of_toNat_eq
  simp only [Command.op, Command.tgt, Command.mod, Command.imm, cmdWord, BitVec.toNat_append, BitVec.extractLsb'_toNat,
    Nat.shiftRight_eq_div_pow]
  have := w.isLt
  rw [← Nat.shiftLeft_add_eq_or_of_lt (by omega), ← Nat.shiftLeft_add_eq_or_of_lt (by omega),
    ← Nat.shiftLeft_add_eq_or_of_lt (by omega)]
  simp only [Nat.shiftLeft_eq]
  omega

theorem op_toNat (c : Command) : c.op.toNat = c.word.toNat / 2 ^ 24 := by
  have := c.word.isLt
  simp only [Command.op, BitVec.extractLsb'_toNat, Nat.shiftRight_eq_div_pow]
  omega

theorem tgt_toNat (c : Command) : c.tgt.toNat = c.word.toNat / 2 ^ 20 % 16 := by
  simp only [Command.tgt, BitVec.extractLsb'_toNat, Nat.shiftRight_eq_div_pow]

theorem mod_toNat (c : Command) : c.mod.toNat = c.word.toNat / 2 ^ 16 % 16 := by
  simp only [Command.mod, BitVec.extractLsb'_toNat, Nat.shiftRight_eq_div_pow]

theorem imm_toNat (c : Command) : c.imm.toNat = c.word.toNat % 2 ^ 16 := by
  simp only [Command.imm, BitVec.extractLsb'_toNat, Nat.shiftRight_eq_div_pow]
  norm_num

/-! ### Selectors -/

theorem ringOfField_field (r : RingSel) : ringOfField r.field = some r := by cases r <;> rfl

theorem readerOfField_field (r : RdSel) : readerOfField r.field = some r := by cases r <;> rfl

theorem curTargetOfField_field (t : CurTarget) : curTargetOfField t.field = some t := by
  cases t with
  | w0 => rfl
  | rd c => cases c <;> rfl

theorem ringOfField_some {f : BitVec 4} {r : RingSel} : ringOfField f = some r ↔ f = r.field := by
  constructor
  · intro h
    unfold ringOfField at h
    split at h <;> simp only [Option.some.injEq, reduceCtorEq] at h <;> subst h <;>
      exact BitVec.eq_of_toNat_eq (by simpa)
  · rintro rfl
    exact ringOfField_field r

theorem readerOfField_some {f : BitVec 4} {r : RdSel} : readerOfField f = some r ↔ f = r.field := by
  constructor
  · intro h
    unfold readerOfField at h
    split at h <;> simp only [Option.some.injEq, reduceCtorEq] at h <;> subst h <;>
      exact BitVec.eq_of_toNat_eq (by simpa)
  · rintro rfl
    exact readerOfField_field r

theorem curTargetOfField_some {f : BitVec 4} {t : CurTarget} : curTargetOfField f = some t ↔ f = t.field := by
  constructor
  · intro h
    unfold curTargetOfField at h
    split at h
    · cases h
      assumption
    · obtain ⟨x, hx, rfl⟩ := Option.map_eq_some_iff.1 h
      exact readerOfField_some.1 hx
  · rintro rfl
    exact curTargetOfField_field t

/-! ### Formats: each answers exactly on the words of its shape -/

variable {c : Command} {i : Instr}

theorem formatN_ok {k : Except DecodeError Instr} :
    formatN c k = .ok i ↔ (c.tgt = 0 ∧ c.mod = 0 ∧ c.imm = 0) ∧ k = .ok i := by
  unfold formatN
  split <;> simp_all

theorem formatRing_ok {k : RingSel → Except DecodeError Instr} :
    formatRing c k = .ok i ↔ (c.mod = 0 ∧ c.imm = 0) ∧ ∃ r, c.tgt = r.field ∧ k r = .ok i := by
  unfold formatRing
  split
  · cases h : ringOfField c.tgt with
    | none => simp_all [← ringOfField_some]
    | some r => simp_all [← ringOfField_some]
  · simp_all

theorem formatReader_ok {k : RdSel → Except DecodeError Instr} :
    formatReader c k = .ok i ↔ (c.mod = 0 ∧ c.imm = 0) ∧ ∃ r, c.tgt = r.field ∧ k r = .ok i := by
  unfold formatReader
  split
  · cases h : readerOfField c.tgt with
    | none => simp_all [← readerOfField_some]
    | some r => simp_all [← readerOfField_some]
  · simp_all

theorem formatCur_ok {k : CurTarget → Except DecodeError Instr} :
    formatCur c k = .ok i ↔ (c.mod = 0 ∧ c.imm = 0) ∧ ∃ r, c.tgt = r.field ∧ k r = .ok i := by
  unfold formatCur
  split
  · cases h : curTargetOfField c.tgt with
    | none => simp_all [← curTargetOfField_some]
    | some r => simp_all [← curTargetOfField_some]
  · simp_all

theorem formatReaders_ok {k : RdSel → RdSel → Except DecodeError Instr} :
    formatReaders c k = .ok i ↔ c.imm = 0 ∧ ∃ r q, c.tgt = r.field ∧ c.mod = q.field ∧ k r q = .ok i := by
  unfold formatReaders
  split
  · cases h : readerOfField c.tgt with
    | none => simp_all [← readerOfField_some]
    | some r =>
      cases h' : readerOfField c.mod with
      | none => simp_all [← readerOfField_some]
      | some q => simp_all [← readerOfField_some]
  · simp_all

/-- A register index stands in the low byte, with the high byte zero. -/
theorem index_field (x : BitVec 16) : x.extractLsb' 8 8 = 0 ↔ x = (x.extractLsb' 0 8).setWidth 16 := by
  have hx := x.isLt
  constructor
  · intro h
    apply BitVec.eq_of_toNat_eq
    have := congrArg BitVec.toNat h
    simp [BitVec.extractLsb'_toNat, Nat.shiftRight_eq_div_pow] at *
    omega
  · intro h
    have := congrArg BitVec.toNat h
    apply BitVec.eq_of_toNat_eq
    simp [BitVec.extractLsb'_toNat, Nat.shiftRight_eq_div_pow] at *
    omega

theorem index_low (x : BitVec 8) : (x.setWidth 16).extractLsb' 0 8 = x := by
  apply BitVec.eq_of_toNat_eq
  have := x.isLt
  simp [BitVec.extractLsb'_toNat]
  omega

theorem formatI_ok {k : BitVec 8 → Except DecodeError Instr} :
    formatI c k = .ok i ↔ (c.tgt = 0 ∧ c.mod = 0) ∧ ∃ x : BitVec 8, c.imm = x.setWidth 16 ∧ k x = .ok i := by
  unfold formatI
  split
  · rename_i h
    constructor
    · intro hk
      exact ⟨⟨h.1, h.2.1⟩, _, (index_field _).1 h.2.2, hk⟩
    · rintro ⟨-, x, hx, hk⟩
      rw [hx, index_low]
      exact hk
  · rename_i h
    simp only [reduceCtorEq, false_iff]
    rintro ⟨⟨h1, h2⟩, x, hx, hk⟩
    exact h ⟨h1, h2, by rw [index_field, hx, index_low]⟩

theorem noData_ok {k : Except DecodeError Instr} : noData c k = .ok i ↔ c.data = [] ∧ k = .ok i := by
  unfold noData
  split <;> simp_all

theorem args0_ok {j : Instr} : args0 c j = .ok i ↔ c.v = [] ∧ j = i := by
  unfold args0
  split <;> simp_all

theorem args1_ok {k : U64 → Instr} : args1 c k = .ok i ↔ ∃ a, c.v = [a] ∧ k a = i := by
  unfold args1
  split <;> simp_all

theorem args2_ok {k : U64 → U64 → Instr} : args2 c k = .ok i ↔ ∃ a b, c.v = [a, b] ∧ k a b = i := by
  unfold args2
  split <;> simp_all

theorem args3_ok {k : U64 → U64 → U64 → Instr} : args3 c k = .ok i ↔ ∃ a b d, c.v = [a, b, d] ∧ k a b d = i := by
  unfold args3
  split <;> simp_all

theorem args4_ok {k : U64 → U64 → U64 → U64 → Instr} :
    args4 c k = .ok i ↔ ∃ a b d e, c.v = [a, b, d, e] ∧ k a b d e = i := by
  unfold args4
  split <;> simp_all

theorem args6_ok {k : U64 → U64 → U64 → U64 → U64 → U64 → Instr} :
    args6 c k = .ok i ↔ ∃ a b d e f g, c.v = [a, b, d, e, f, g] ∧ k a b d e f g = i := by
  unfold args6
  split <;> simp_all

theorem args7_ok {k : U64 → U64 → U64 → U64 → U64 → U64 → U64 → Instr} :
    args7 c k = .ok i ↔ ∃ a b d e f g h, c.v = [a, b, d, e, f, g, h] ∧ k a b d e f g h = i := by
  unfold args7
  split <;> simp_all

theorem args9_ok {k : U64 → U64 → U64 → U64 → U64 → U64 → U64 → U64 → U64 → Instr} :
    args9 c k = .ok i ↔ ∃ a b d e f g h j l, c.v = [a, b, d, e, f, g, h, j, l] ∧ k a b d e f g h j l = i := by
  unfold args9
  split <;> simp_all

theorem argWidth_ok {w : Nat} (hw : w ≤ 64) {k : BitVec w → Instr} :
    argWidth w c k = .ok i ↔ ∃ x : BitVec w, c.v = [x.setWidth 64] ∧ k x = i := by
  unfold argWidth
  have e : ∀ x : BitVec w, (x.setWidth 64).setWidth w = x := fun x => by
    rw [BitVec.setWidth_setWidth_of_le _ hw, BitVec.setWidth_eq]
  have e2 : ∀ a : U64, a.toNat < 2 ^ w → (a.setWidth w).setWidth 64 = a := fun a ha => by
    apply BitVec.eq_of_toNat_eq
    rw [BitVec.toNat_setWidth, BitVec.toNat_setWidth, Nat.mod_eq_of_lt ha, Nat.mod_eq_of_lt a.isLt]
  split
  · rename_i a h
    rw [h]
    split
    · rename_i h2
      simp only [Except.ok.injEq]
      constructor
      · intro h'
        exact ⟨_, by rw [e2 a h2], h'⟩
      · rintro ⟨x, hx, hk⟩
        cases hx
        rw [e]
        exact hk
    · rename_i h2
      simp only [reduceCtorEq, false_iff]
      rintro ⟨x, hx, -⟩
      cases hx
      apply h2
      rw [BitVec.toNat_setWidth]
      exact lt_of_le_of_lt (Nat.mod_le _ _) x.isLt
  · rename_i h
    simp only [reduceCtorEq, false_iff]
    rintro ⟨x, hx, -⟩
    exact h _ hx

end Sys2Proof
end

