-- ==== Sys2Proof/Laws/Failures.lean ====
section
/-! SUPPORT. The decoders on views in the failing forms of Safety.lean: each stops with the first failure (43_decode.md
R128 to R139). -/

namespace Sys2Proof.Machine

/-- The cursor views exactly `bytes`. -/
structure Views (scr : Memory) (c : Cursor) (bytes : List Byte) : Prop where
  holds : scr.Holds c.cur bytes
  stop : c.stop = c.cur + bytes.length

theorem Views.tail {scr : Memory} {c : Cursor} {x y : List Byte} (h : Views scr c (x ++ y)) :
    Views scr { c with cur := c.cur + x.length } y :=
  ⟨(Memory.Holds.append.1 h.holds).2, by rw [h.stop, List.length_append, Nat.add_assoc]⟩

/-- A view of bytes that do not start with a BER value (40_cursor_ber.md R80). -/
theorem readBer_bad {scr : Memory} {c : Cursor} {bytes : List Byte} {e : Status} (hv : Views scr c bytes)
    (h : BadBer bytes e) : readBer scr c = .error (.raised e) := by
  obtain ⟨hh, hs⟩ := hv
  unfold readBer berDecode
  rcases h with ⟨rfl, rfl⟩ | ⟨x, rest, rfl, h⟩
  · rw [if_pos (by rw [hs, List.length_nil]; omega)]
    rfl
  · rw [List.length_cons] at hs
    rw [if_neg (by omega), (Memory.Holds.cons.1 hh).1]
    dsimp only
    rcases h with ⟨h, rfl⟩ | ⟨h1, h2, h3, rfl⟩
    · rw [if_neg (by omega), if_pos (by omega)]
      rfl
    · rw [if_neg (by omega), if_neg (by omega), if_pos (by omega)]
      rfl

theorem readBer_view {scr : Memory} {c : Cursor} {field rest : List Byte} {v : Nat} (hv : Views scr c (field ++ rest))
    (h : BerForm field v) : readBer scr c = .ok (v, { c with cur := c.cur + field.length }) :=
  readBer_form h (Memory.Holds.append.1 hv.holds).1 (by rw [hv.stop, List.length_append]; omega)

/-- A sequence of checked fields fails at its first read, or goes on with the rest of the view (43_decode.md R131). -/
theorem fields_step {α : Type} {scr : Memory} {c : Cursor} {bytes : List Byte} {e : Status} {check : FieldCheck}
    {checks : List FieldCheck} {k : Nat × Cursor → Res α} (hv : Views scr c bytes)
    (h : FieldsFail (check :: checks) bytes e)
    (hk : ∀ field v rest, bytes = field ++ rest → BerForm field v → Views scr { c with cur := c.cur + field.length } rest →
      (check v = some e ∨ (check v = none ∧ FieldsFail checks rest e)) →
      k (v, { c with cur := c.cur + field.length }) = .error (.raised e)) :
    (readBer scr c >>= k) = .error (.raised e) := by
  rcases h with h | ⟨field, v, rest, rfl, hb, h⟩
  · rw [readBer_bad hv h]
    rfl
  · rw [readBer_view hv hb, ok_bind]
    exact hk field v rest rfl hb hv.tail h

/-- The same for a field whose value is not checked. -/
theorem any_step {α : Type} {scr : Memory} {c : Cursor} {bytes : List Byte} {e : Status} {checks : List FieldCheck}
    {k : Nat × Cursor → Res α} (hv : Views scr c bytes) (h : FieldsFail (anyValue :: checks) bytes e)
    (hk : ∀ v cur rest, Views scr { c with cur := cur } rest → FieldsFail checks rest e →
      k (v, { c with cur := cur }) = .error (.raised e)) :
    (readBer scr c >>= k) = .error (.raised e) := by
  refine fields_step hv h fun field v rest _ _ hr h => ?_
  rcases h with h | ⟨-, h⟩
  · cases h
  · exact hk v _ rest hr h

theorem inRange_some {limit v : Nat} {e e' : Status} (h : inRange limit e v = some e') : limit < v ∧ e' = e := by
  unfold inRange at h
  split at h
  · cases h
  · cases h
    exact ⟨by omega, rfl⟩

theorem inRange_none {limit v : Nat} {e : Status} (h : inRange limit e v = none) : v ≤ limit := by
  unfold inRange at h
  split at h
  · assumption
  · cases h

theorem oneOf_some {legal : List Nat} {v : Nat} {e e' : Status} (h : oneOf legal e v = some e') : v ∉ legal ∧ e' = e := by
  unfold oneOf at h
  split at h
  · cases h
  · cases h
    exact ⟨‹_›, rfl⟩

theorem oneOf_none {legal : List Nat} {v : Nat} {e : Status} (h : oneOf legal e v = none) : v ∈ legal := by
  unfold oneOf at h
  split at h
  · assumption
  · cases h

/-! ### The header -/

/-- DecHeader on a view that fails before its body (43_decode.md R128). -/
theorem decHeader_fails {scr : Memory} {c : Cursor} {k : Kind} {bytes : List Byte} {e : Status} (hv : Views scr c bytes)
    (h : MsgFails k bytes e) :
    decHeader scr c k = .error (.raised e) ∨
    ∃ body p after, BodyFails k body e ∧ Views scr ⟨p, p, p + body.length⟩ body ∧
      decHeader scr c k = .ok (body.length, ⟨p, p, p + body.length⟩, after) := by
  have hk := wireCode_length k
  obtain ⟨hh, hs⟩ := hv
  have code : ∀ {rest : List Byte}, bytes = wireCode k ++ rest →
      decHeader scr c k = (readBer scr { c with cur := c.cur + 2 } >>= fun x =>
        if x.1 > x.2.avail then .error (.raised .unexpectedEndOfStream)
        else return (x.1, ⟨x.2.cur, x.2.cur, x.2.cur + x.1⟩, { c with cur := x.2.cur + x.1 })) ∧
        Views scr { c with cur := c.cur + 2 } rest := by
    rintro rest rfl
    obtain ⟨h1, h2⟩ := Memory.Holds.append.1 hh
    rw [List.length_append, hk] at hs
    have h3 := readN_holds (c := c) h1 (by omega)
    rw [hk] at h3 h2
    refine ⟨?_, h2, by simp only []; omega⟩
    unfold decHeader
    rw [h3, ok_bind]
    simp only [beNat_wireCode, ne_eq, not_true_eq_false, if_false]
  rcases h with ⟨hl, rfl⟩ | ⟨b0, b1, rest, rfl, hc, rfl⟩ | ⟨rest, rfl, hb⟩ | ⟨len, n, more, he, hb, hl, rfl⟩ |
    ⟨msg, body, more, rfl, hm, hb⟩
  · refine .inl ?_
    unfold decHeader readN
    rw [if_pos (by unfold Cursor.avail; omega)]
    rfl
  · refine .inl ?_
    simp only [List.length_cons] at hs
    have h3 := readN_holds (c := c) (bytes := [b0, b1])
      (Memory.Holds.append.1 (show scr.Holds c.cur ([b0, b1] ++ rest) from hh)).1 (by simp only [List.length_cons, List.length_nil]; omega)
    unfold decHeader
    rw [show (2 : Nat) = [b0, b1].length from rfl, h3, ok_bind]
    exact if_pos (beNat_ne_code hc)
  · obtain ⟨e1, hv⟩ := code rfl
    exact .inl (by rw [e1, readBer_bad hv hb]; rfl)
  · obtain ⟨e1, hv⟩ := code (rest := len ++ more) (by rw [he, List.append_assoc])
    refine .inl ?_
    rw [e1, readBer_view hv hb, ok_bind]
    have := hv.tail.stop
    exact if_pos (by unfold Cursor.avail; simp only [] at this ⊢; omega)
  · obtain ⟨hm1, -⟩ := Memory.Holds.append.1 hh
    rw [List.length_append] at hs
    obtain ⟨p, -, -, hp, e1⟩ := decHeader_form hm hm1 (by omega)
    exact .inr ⟨body, p, _, hb, ⟨hp, rfl⟩, e1⟩

/-- DecPktHeader on a body that fails, or the view left for the fields of the kind (43_decode.md R129). -/
theorem decPktHeader_fails {scr : Memory} {b : Cursor} {checks : List FieldCheck} {body : List Byte} {e : Status}
    (hv : Views scr b body) (h : PacketFails checks body e) :
    decPktHeader scr b = .error (.raised e) ∨
    ∃ p b' fields, FieldsFail checks fields e ∧ Views scr b' fields ∧ decPktHeader scr b = .ok (p, b') := by
  rcases h with h | ⟨header, rsv, st, ect, tail, rfl, hst, hf, h⟩
  · refine .inl ?_
    unfold decPktHeader
    refine any_step hv h fun _ _ _ hv h => ?_
    refine fields_step hv h fun _ st _ _ _ hv h => ?_
    rcases h with h | ⟨h0, h⟩
    · obtain ⟨hx, rfl⟩ := oneOf_some h
      have : streamTypeLegal st = false := by
        simp only [List.mem_cons, List.not_mem_nil, or_false, not_or] at hx
        simp [streamTypeLegal, hx]
      simp only [this, if_true]
    · have h0 := oneOf_none h0
      have : streamTypeLegal st = true := by
        simp only [List.mem_cons, List.not_mem_nil, or_false] at h0
        simp [streamTypeLegal, h0]
      simp only [this, Bool.true_eq_false, if_false]
      refine fields_step hv h fun _ x _ _ _ hv h => ?_
      rcases h with h | ⟨-, h⟩
      · obtain ⟨hx, rfl⟩ := oneOf_some h
        have : ectOf x = none := by
          simp only [List.mem_cons, List.not_mem_nil, or_false, not_or] at hx
          unfold ectOf
          split
          · exact absurd rfl hx.1
          · exact absurd rfl hx.2
          · rfl
        simp only [this]
      · exact h.elim
  · obtain ⟨hh, hs⟩ := hv
    rw [List.length_append] at hs
    rcases h with ⟨ht, rfl⟩ | ⟨fields, trailer, rfl, ht, h⟩
    · refine .inl ?_
      obtain ⟨hm1, -⟩ := Memory.Holds.append.1 hh
      obtain ⟨r1, p1, hf1, hh1, hp1, -, e1⟩ := readBer_field hf hm1 (by omega)
      obtain ⟨r2, p2, hf2, hh2, hp2, -, e2⟩ := readBer_field (c := { b with cur := p1 }) hf1 hh1 (by simp only []; omega)
      simp only [] at hp2
      obtain ⟨r3, p3, hf3, hh3, hp3, -, e3⟩ := readBer_field (c := { b with cur := p2 }) hf2 hh2 (by simp only []; omega)
      simp only [] at hp3
      have hf3 : r3 = [] := hf3
      subst hf3
      rw [List.length_nil] at hp3
      unfold decPktHeader
      rw [e1, ok_bind]
      simp only [e2, ok_bind, (streamTypeLegal_iff st).2 hst, Bool.true_eq_false, if_false, e3, ectOf_code]
      exact if_pos (by unfold Cursor.avail; simp only []; omega)
    · obtain ⟨rest, p1, hf1, hh1, hp1, e1⟩ := decPktHeader_form (vs := []) (b := b) (tail := fields) hf hst ht
        (by rwa [List.append_assoc]) (by rw [hs]; simp only [List.length_append]; omega)
      have hf1 : rest = [] := hf1
      subst hf1
      rw [List.nil_append] at hh1 hp1
      refine .inr ⟨_, _, fields, h, ⟨hh1, ?_⟩, e1⟩
      simp only [List.length_append] at hs hp1 ⊢
      omega

/-! ### The decoders -/

theorem decBody_fails {k : Kind} {scr : Memory} {c : Cursor} {bytes : List Byte} {e : Status}
    (hk : k = .commandMessage ∨ k = .commandResult) (hv : Views scr c bytes) (h : MsgFails k bytes e) :
    decBody k scr c = .error (.raised e) := by
  unfold decBody
  rcases decHeader_fails hv h with h | ⟨body, p, after, h, -, -⟩
  · rw [h]
    rfl
  · rcases hk with rfl | rfl <;> exact h.elim

theorem decFour_fails {k : Kind} {scr : Memory} {c : Cursor} {bytes : List Byte} {e : Status}
    (hk : k = .tmStatusMessage ∨ k = .tmEventMessage) (hv : Views scr c bytes) (h : MsgFails k bytes e) :
    decFour k scr c = .error (.raised e) := by
  unfold decFour
  rcases decHeader_fails hv h with h | ⟨body, p, after, h, hv, e1⟩
  · rw [h]
    rfl
  · rw [e1, ok_bind]
    have h : FieldsFail (List.replicate 4 anyValue) body e := by rcases hk with rfl | rfl <;> exact h
    refine any_step hv h fun _ _ _ hv h => ?_
    refine any_step hv h fun _ _ _ hv h => ?_
    refine any_step hv h fun _ _ _ hv h => ?_
    refine any_step hv h fun _ _ _ hv h => ?_
    exact h.elim

theorem decAddress_fails {scr : Memory} {c : Cursor} {bytes : List Byte} {e : Status} (hv : Views scr c bytes)
    (h : MsgFails .addressPacket bytes e) : decAddress scr c = .error (.raised e) := by
  unfold decAddress
  rcases decHeader_fails hv h with h | ⟨body, p, after, h, hv, e1⟩
  · rw [h]
    rfl
  · rw [e1, ok_bind]
    rcases h with h | ⟨field, at_, rest, rfl, hb, h⟩
    · refine fields_step hv h fun _ v _ _ _ hv h => ?_
      rcases h with h | ⟨-, h⟩
      · obtain ⟨hx, rfl⟩ := oneOf_some h
        have : addressTypeLegal v = false := by
          simp only [List.mem_cons, List.not_mem_nil, or_false, not_or] at hx
          simp [addressTypeLegal, hx]
        simp only [this, if_true]
      · exact h.elim
    · dsimp only
      rw [readBer_view hv hb, ok_bind]
      have hv := hv.tail
      dsimp only at hv ⊢
      rcases h with ⟨rfl, h⟩ | ⟨rfl, h⟩ | ⟨rfl, h⟩
      · rw [if_neg (by decide)]
        simp only [show hasDest 3 = false from rfl, show hasGroups 3 = false from rfl, readBerIf_false, ok_bind]
        refine any_step hv h fun _ _ _ hv h => ?_
        refine any_step hv h fun _ _ _ hv h => ?_
        refine any_step hv h fun _ _ _ hv h => ?_
        refine any_step hv h fun _ _ _ hv h => ?_
        refine any_step hv h fun _ _ _ hv h => ?_
        exact h.elim
      · rw [if_neg (by decide)]
        simp only [show hasDest 4 = true from rfl, show hasGroups 4 = false from rfl, readBerIf_false, readBerIf_true, ok_bind]
        refine any_step hv h fun _ _ _ hv h => ?_
        refine any_step hv h fun _ _ _ hv h => ?_
        refine any_step hv h fun _ _ _ hv h => ?_
        refine any_step hv h fun _ _ _ hv h => ?_
        refine any_step hv h fun _ _ _ hv h => ?_
        refine any_step hv h fun _ _ _ hv h => ?_
        exact h.elim
      · rw [if_neg (by decide)]
        simp only [show hasDest 6 = true from rfl, show hasGroups 6 = true from rfl, readBerIf_true]
        refine any_step hv h fun _ _ _ hv h => ?_
        refine any_step hv h fun _ _ _ hv h => ?_
        refine any_step hv h fun _ _ _ hv h => ?_
        refine any_step hv h fun _ _ _ hv h => ?_
        refine any_step hv h fun _ _ _ hv h => ?_
        refine any_step hv h fun _ _ _ hv h => ?_
        refine any_step hv h fun _ _ _ hv h => ?_
        refine any_step hv h fun _ _ _ hv h => ?_
        exact h.elim

theorem decExchange_fails {scr : Memory} {c : Cursor} {bytes : List Byte} {e : Status} (hv : Views scr c bytes)
    (h : MsgFails .exchangePacket bytes e) : decExchange scr c = .error (.raised e) := by
  unfold decExchange
  rcases decHeader_fails hv h with h | ⟨body, p, after, h, hv, e1⟩
  · rw [h]
    rfl
  · rw [e1, ok_bind]
    dsimp only
    rcases decPktHeader_fails hv h with h | ⟨p, b', fields, h, hv, e1⟩
    · rw [h]
      rfl
    · rw [e1, ok_bind]
      refine fields_step hv h fun _ _ _ _ _ hv h => ?_
      rcases h with h | ⟨h0, h⟩
      · obtain ⟨hx, rfl⟩ := inRange_some h
        exact if_pos hx
      · have h0 := inRange_none h0
        dsimp only
        rw [if_neg (by unfold maxWindow; omega)]
        refine fields_step hv h fun _ _ _ _ _ hv h => ?_
        rcases h with h | ⟨-, h⟩
        · obtain ⟨hx, rfl⟩ := inRange_some h
          exact if_pos hx
        · exact h.elim

theorem decCounter_fails {k : Kind} {scr : Memory} {c : Cursor} {bytes : List Byte} {e : Status}
    (hk : k = .counterAdjustmentPacket ∨ k = .receiptPacket) (hv : Views scr c bytes) (h : MsgFails k bytes e) :
    decCounter k scr c = .error (.raised e) := by
  unfold decCounter
  rcases decHeader_fails hv h with h | ⟨body, p, after, h, hv, e1⟩
  · rw [h]
    rfl
  · rw [e1, ok_bind]
    have h : PacketFails [inRange 65535 .invalidSequenceCounter] body e := by rcases hk with rfl | rfl <;> exact h
    dsimp only
    rcases decPktHeader_fails hv h with h | ⟨p, b', fields, h, hv, e1⟩
    · rw [h]
      rfl
    · rw [e1, ok_bind]
      refine fields_step hv h fun _ _ _ _ _ hv h => ?_
      rcases h with h | ⟨-, h⟩
      · obtain ⟨hx, rfl⟩ := inRange_some h
        exact if_pos hx
      · exact h.elim

end Sys2Proof.Machine
end

