-- ==== Sys2Proof/Laws/Framer.lean ====
section
/-! SUPPORT. Discovery on a ring, as a function of its readable bytes: one lemma for each way a cycle ends, and that
there is no other way (42_framer.md R122). -/

namespace Sys2Proof.Machine

/-! ### Separators in a byte list -/

theorem sepBytes_sepOf (role : Role) (r : RingSel) : sepBytes (sepOf role r) = wireSep role r := by
  cases role <;> cases r <;> decide

theorem wireSep_length (role : Role) (r : RingSel) : (wireSep role r).length = 2 := by
  cases role <;> cases r <;> rfl

theorem FirstSep.cons {sep stream garbage rest : List Byte} {b : Byte} (h : FirstSep sep (b :: stream) (b :: garbage) rest) :
    FirstSep sep stream garbage rest := by
  obtain ⟨h1, h2⟩ := h
  refine ⟨by simpa using h1, fun k hk => ?_⟩
  simpa using h2 (k + 1) (by simpa using hk)

/-- A byte list holds a first separator or none. -/
theorem firstSep_or_noSep {sep : List Byte} (hl : sep.length = 2) (stream : List Byte) :
    (∃ garbage rest, FirstSep sep stream garbage rest) ∨ NoSep sep stream := by
  induction stream with
  | nil =>
    refine .inr fun k hk => ?_
    simp only [List.drop_nil, List.take_nil] at hk
    rw [← hk] at hl
    cases hl
  | cons b bs ih =>
    by_cases hb : (b :: bs).take 2 = sep
    · refine .inl ⟨[], (b :: bs).drop 2, ?_, fun k hk => by simp at hk⟩
      rw [← hb, List.nil_append, List.take_append_drop]
    · rcases ih with ⟨g, rest, h1, h2⟩ | h
      · refine .inl ⟨b :: g, rest, by rw [h1]; rfl, fun k hk => ?_⟩
        cases k with
        | zero => exact hb
        | succ k => exact h2 k (by simpa using hk)
      · refine .inr fun k => ?_
        cases k with
        | zero => exact hb
        | succ k => exact h k

/-! ### Drops -/

theorem Ring.drop_zero {cap : Nat} {rb : Ring} (h : rb.Inv cap) : rb.drop cap 0 = rb := by
  unfold Ring.drop
  rw [Nat.add_zero, Nat.mod_eq_of_lt h.rd, Nat.add_zero]

theorem Ring.drop_drop (cap n m : Nat) (rb : Ring) : (rb.drop cap n).drop cap m = rb.drop cap (n + m) := by
  unfold Ring.drop
  simp only [Nat.mod_add_mod, Nat.add_assoc]

/-! ### Step 1: the scan -/

/-- The scan stops at the first separator (42_framer.md R122 step 1). -/
theorem scan_finds {cap sep fuel : Nat} {rb : Ring} {garbage rest : List Byte} (h : rb.Inv cap)
    (hs : FirstSep (sepBytes sep) (rb.contents cap) garbage rest) (hf : garbage.length < fuel) :
    scan cap sep fuel rb = .ok (rb.drop cap garbage.length, true) := by
  have h2 : (sepBytes sep).length = 2 := toBE_length sep 2
  induction fuel generalizing rb garbage with
  | zero => omega
  | succ n ih =>
    have hl := congrArg List.length hs.1
    simp only [List.length_append, Ring.contents_length, h2] at hl
    unfold scan
    rw [if_neg (by omega), ringPeek_ok h (by omega), ok_bind, List.drop_zero]
    cases garbage with
    | nil =>
      have : (rb.contents cap).take 2 = sepBytes sep := by
        rw [hs.1, List.nil_append, List.take_append_of_le_length (by omega), List.take_of_length_le (by omega)]
      rw [if_pos this, List.length_nil, Ring.drop_zero h]
      rfl
    | cons b g =>
      have h0 : (rb.contents cap).take 2 ≠ sepBytes sep := hs.2 0 (by simp)
      rw [if_neg h0, ih (h.drop (by simp at hl; omega)) (garbage := g) _ (by simpa using hf),
        Ring.drop_drop, List.length_cons, Nat.add_comm]
      rw [Ring.drop_contents]
      have := hs.1
      rw [this] at hs ⊢
      exact hs.cons

/-- Without a separator the scan stops with at most one byte left (42_framer.md R122 step 1). -/
theorem scan_misses {cap sep fuel : Nat} {rb : Ring} (h : rb.Inv cap) (hs : NoSep (sepBytes sep) (rb.contents cap))
    (hf : rb.readable cap ≤ fuel) : scan cap sep fuel rb = .ok (rb.drop cap (rb.readable cap - 1), false) := by
  induction fuel generalizing rb with
  | zero =>
    have : rb.readable cap = 0 := by omega
    rw [this, Ring.drop_zero h]
    rfl
  | succ n ih =>
    unfold scan
    split
    · rw [show rb.readable cap - 1 = 0 by omega, Ring.drop_zero h]
    · rw [ringPeek_ok h (by omega), ok_bind, if_neg (hs 0), ih (h.drop (by omega)), Ring.drop_drop, Ring.drop_readable]
      · congr 3
        omega
      · intro k
        rw [Ring.drop_contents, List.drop_drop]
        exact hs (1 + k)
      · rw [Ring.drop_readable]
        omega

/-! ### Steps 2 to 4: the header and the body -/

/-- What can stand behind a separator: a frame not yet whole, one rejected for its length octet or its size, or a whole
one. -/
theorem rest_cases (maxPacket : Nat) (rest : List Byte) :
    Partial maxPacket rest ∨
    (∃ c0 c1 h more, rest = c0 :: c1 :: h :: more ∧ (h.toNat = 0x80 ∨ 0x89 ≤ h.toNat)) ∨
    (∃ c0 c1 len n more, rest = [c0, c1] ++ len ++ more ∧ BerForm len n ∧ maxPacket < 2 + len.length + n) ∨
    (∃ c0 c1 len body more, rest = [c0, c1] ++ len ++ body ++ more ∧ BerForm len body.length ∧
      2 + len.length + body.length ≤ maxPacket) := by
  by_cases h3 : rest.length < 3
  · exact .inl (.inl h3)
  obtain ⟨c0, c1, h, more, rfl⟩ : ∃ c0 c1 h more, rest = c0 :: c1 :: h :: more := by
    rcases rest with - | ⟨c0, - | ⟨c1, - | ⟨h, more⟩⟩⟩
    · simp at h3
    · simp at h3
    · simp at h3
    · exact ⟨c0, c1, h, more, rfl⟩
  have body : ∀ (len tail : List Byte) (n : Nat), h :: more = len ++ tail → BerForm len n →
      Partial maxPacket (c0 :: c1 :: h :: more) ∨
      (∃ d0 d1 l m t, c0 :: c1 :: h :: more = [d0, d1] ++ l ++ t ∧ BerForm l m ∧ maxPacket < 2 + l.length + m) ∨
      (∃ d0 d1 l b t, c0 :: c1 :: h :: more = [d0, d1] ++ l ++ b ++ t ∧ BerForm l b.length ∧
        2 + l.length + b.length ≤ maxPacket) := by
    intro len tail n he hb
    have he' : c0 :: c1 :: h :: more = [c0, c1] ++ len ++ tail := by simp [he]
    by_cases h4 : maxPacket < 2 + len.length + n
    · exact .inr (.inl ⟨c0, c1, len, n, tail, he', hb, h4⟩)
    · by_cases h5 : tail.length < n
      · exact .inl (.inr (.inr ⟨c0, c1, len, tail, n, he', hb, by omega, h5⟩))
      · refine .inr (.inr ⟨c0, c1, len, tail.take n, tail.drop n, ?_, ?_, ?_⟩)
        · rw [List.append_assoc, List.take_append_drop, he']
        · rwa [List.length_take, Nat.min_eq_left (by omega)]
        · rw [List.length_take, Nat.min_eq_left (by omega)]
          omega
  by_cases h6 : h.toNat < 0x80
  · rcases body [h] more h.toNat rfl (.inl ⟨h, rfl, h6, rfl⟩) with h | h | h
    · exact .inl h
    · exact .inr (.inr (.inl h))
    · exact .inr (.inr (.inr h))
  · by_cases h7 : h.toNat = 0x80 ∨ 0x89 ≤ h.toNat
    · exact .inr (.inl ⟨c0, c1, h, more, rfl, h7⟩)
    · by_cases h8 : more.length < h.toNat - 0x80
      · exact .inl (.inr (.inl ⟨c0, c1, h, more, rfl, by omega, by omega, h8⟩))
      · have hl : (more.take (h.toNat - 0x80)).length = h.toNat - 0x80 := by
          rw [List.length_take, Nat.min_eq_left (by omega)]
        rcases body (h :: more.take (h.toNat - 0x80)) (more.drop (h.toNat - 0x80)) _
          (by rw [List.cons_append, List.take_append_drop])
          (.inr ⟨h, _, rfl, by omega, by omega, by omega, rfl⟩) with h | h | h
        · exact .inl h
        · exact .inr (.inr (.inl h))
        · exact .inr (.inr (.inr h))

/-- The bytes `a` in the middle of a list. -/
theorem take_drop_mid {x a y : List Byte} {n m : Nat} (hn : n = x.length) (hm : m = a.length) :
    ((x ++ a ++ y).drop n).take m = a := by
  subst hn hm
  rw [List.append_assoc, List.drop_left, List.take_left]

theorem take_drop_header {sep more : List Byte} {c0 c1 x : Byte} (hs : sep.length = 2) :
    ((sep ++ c0 :: c1 :: x :: more).drop 2).take 3 = [c0, c1, x] := by
  rw [List.drop_left' hs]
  rfl

/-- Steps 3 and 4 for a ring whose readable bytes start with a separator and a length field (42_framer.md R122). -/
theorem readHeader_length {cap maxPacket n : Nat} {rb : Ring} {sep len tail : List Byte} {c0 c1 : Byte} (h : rb.Inv cap)
    (hs : sep.length = 2) (hb : BerForm len n) (hc : rb.contents cap = sep ++ ([c0, c1] ++ len ++ tail)) :
    readHeader cap maxPacket rb = takeFrame cap maxPacket (len.length - 1) n rb := by
  have hl := congrArg List.length hc
  simp only [List.length_append, Ring.contents_length, List.length_cons, List.length_nil, hs] at hl
  have h1 := hb.length_pos
  unfold readHeader
  rw [if_neg (by omega), ringPeek_ok h (by omega), ok_bind]
  rcases hb with ⟨x, rfl, hx, rfl⟩ | ⟨x, vals, rfl, hv1, hv2, hx, rfl⟩
  · rw [hc, show sep ++ ([c0, c1] ++ [x] ++ tail) = sep ++ c0 :: c1 :: x :: tail by simp, take_drop_header hs]
    simp [hx]
  · rw [hc, show sep ++ ([c0, c1] ++ x :: vals ++ tail) = sep ++ c0 :: c1 :: x :: (vals ++ tail) by simp,
      take_drop_header hs]
    simp only [List.length_cons] at hl
    simp only [List.getD_cons_succ, List.getD_cons_zero, hx, Nat.add_sub_cancel_left, List.length_cons,
      Nat.add_sub_cancel]
    rw [if_neg (by omega), if_neg (by omega), if_neg (by omega), ringPeek_ok h (by omega), ok_bind, hc,
      show sep ++ ([c0, c1] ++ x :: vals ++ tail) = (sep ++ [c0, c1, x]) ++ vals ++ tail by simp,
      take_drop_mid (by simp [hs]) rfl, leNat_eq_ofDigits]

/-- Discover after the scan found the separator. -/
theorem discoverRing_found {cap maxPacket sep : Nat} {rb : Ring} {garbage rest : List Byte} (h : rb.Inv cap)
    (hs : FirstSep (sepBytes sep) (rb.contents cap) garbage rest) :
    discoverRing cap maxPacket sep rb = readHeader cap maxPacket (rb.drop cap garbage.length) ∧
      (rb.drop cap garbage.length).Inv cap ∧
      (rb.drop cap garbage.length).contents cap = sepBytes sep ++ rest := by
  have h2 : (sepBytes sep).length = 2 := toBE_length sep 2
  have hl := congrArg List.length hs.1
  simp only [List.length_append, Ring.contents_length, h2] at hl
  refine ⟨?_, h.drop (by omega), ?_⟩
  · unfold discoverRing
    rw [scan_finds h hs (by omega)]
    rfl
  · rw [Ring.drop_contents, hs.1, List.append_assoc, List.drop_left]

theorem discoverRing_noFrame {cap maxPacket sep : Nat} {rb : Ring} (h : rb.Inv cap)
    (hs : NoSep (sepBytes sep) (rb.contents cap)) :
    discoverRing cap maxPacket sep rb = .ok ⟨.noFrame, rb.drop cap (rb.readable cap - 1), []⟩ := by
  unfold discoverRing
  rw [scan_misses h hs (Nat.le_refl _)]
  rfl

theorem discoverRing_incomplete {cap maxPacket sep : Nat} {rb : Ring} {garbage rest : List Byte} (h : rb.Inv cap)
    (hs : FirstSep (sepBytes sep) (rb.contents cap) garbage rest) (hp : Partial maxPacket rest) :
    discoverRing cap maxPacket sep rb = .ok ⟨.incomplete, rb.drop cap garbage.length, []⟩ := by
  obtain ⟨h1, hi, hc⟩ := discoverRing_found (maxPacket := maxPacket) h hs
  have h2 : (sepBytes sep).length = 2 := toBE_length sep 2
  have hl := congrArg List.length hc
  simp only [List.length_append, Ring.contents_length, h2] at hl
  rw [h1]
  rcases hp with hp | ⟨c0, c1, x, more, rfl, hx1, hx2, hm⟩ | ⟨c0, c1, len, more, n, rfl, hb, hmp, hm⟩
  · unfold readHeader
    rw [if_pos (by omega)]
  · simp only [List.length_cons] at hl
    unfold readHeader
    rw [if_neg (by omega), ringPeek_ok hi (by omega), ok_bind, hc,
      take_drop_header h2]
    simp only [List.getD_cons_succ, List.getD_cons_zero]
    rw [if_neg (by omega), if_neg (by omega), if_pos (by omega)]
    rfl
  · rw [readHeader_length hi h2 hb hc]
    have := hb.length_pos
    simp only [List.length_append, List.length_cons, List.length_nil] at hl
    unfold takeFrame
    simp only []
    rw [if_neg (by omega), if_pos (by omega)]

theorem discoverRing_badLength {cap maxPacket sep : Nat} {rb : Ring} {garbage more : List Byte} {c0 c1 x : Byte}
    (h : rb.Inv cap) (hs : FirstSep (sepBytes sep) (rb.contents cap) garbage (c0 :: c1 :: x :: more))
    (hx : x.toNat = 0x80 ∨ 0x89 ≤ x.toNat) :
    discoverRing cap maxPacket sep rb = .ok ⟨.invalidBerLength, rb.drop cap (garbage.length + 2), []⟩ := by
  obtain ⟨h1, hi, hc⟩ := discoverRing_found (maxPacket := maxPacket) h hs
  have h2 : (sepBytes sep).length = 2 := toBE_length sep 2
  have hl := congrArg List.length hc
  simp only [List.length_append, Ring.contents_length, h2, List.length_cons] at hl
  rw [h1]
  unfold readHeader
  rw [if_neg (by omega), ringPeek_ok hi (by omega), ok_bind, hc,
    take_drop_header h2]
  simp only [List.getD_cons_succ, List.getD_cons_zero]
  rw [if_neg (by omega), if_pos (by omega), Ring.drop_drop]
  rfl

theorem discoverRing_tooLarge {cap maxPacket sep n : Nat} {rb : Ring} {garbage len more : List Byte} {c0 c1 : Byte}
    (h : rb.Inv cap) (hb : BerForm len n) (hmp : maxPacket < 2 + len.length + n)
    (hs : FirstSep (sepBytes sep) (rb.contents cap) garbage ([c0, c1] ++ len ++ more)) :
    discoverRing cap maxPacket sep rb = .ok ⟨.frameTooLarge, rb.drop cap (garbage.length + 2), []⟩ := by
  obtain ⟨h1, hi, hc⟩ := discoverRing_found (maxPacket := maxPacket) h hs
  have := hb.length_pos
  rw [h1, readHeader_length hi (toBE_length sep 2) hb hc]
  unfold takeFrame
  simp only []
  rw [if_pos (by omega), Ring.drop_drop]

theorem discoverRing_takes {cap maxPacket sep : Nat} {rb : Ring} {garbage len body more : List Byte} {c0 c1 : Byte}
    (h : rb.Inv cap) (hb : BerForm len body.length) (hmp : 2 + len.length + body.length ≤ maxPacket)
    (hs : FirstSep (sepBytes sep) (rb.contents cap) garbage ([c0, c1] ++ len ++ body ++ more)) :
    discoverRing cap maxPacket sep rb =
      .ok ⟨.ok, rb.drop cap (garbage.length + 2 + (2 + len.length + body.length)), [c0, c1] ++ len ++ body⟩ := by
  have h2 : (sepBytes sep).length = 2 := toBE_length sep 2
  obtain ⟨h1, hi, hc⟩ := discoverRing_found (maxPacket := maxPacket) h hs
  have hl := congrArg List.length hc
  simp only [List.length_append, Ring.contents_length, h2, List.length_cons, List.length_nil] at hl
  have hp := hb.length_pos
  rw [h1, readHeader_length (c0 := c0) (c1 := c1) (tail := body ++ more) hi h2 hb (by rw [hc]; simp)]
  unfold takeFrame
  simp only []
  rw [if_neg (by omega), if_neg (by omega), ringPeek_ok (hi.drop (by omega)) (by rw [Ring.drop_readable]; omega), ok_bind,
    Ring.drop_contents, hc, List.drop_zero, List.drop_left' h2, List.take_left' (by simp; omega), Ring.drop_drop,
    Ring.drop_drop]
  rw [show 3 + (len.length - 1) + body.length = 2 + len.length + body.length by omega, Nat.add_assoc garbage.length]
  rfl

/-- Everything a discovery cycle can do: it always ends, with one of five statuses (42_framer.md R122, R125). -/
theorem discoverRing_cases {cap : Nat} (maxPacket sep : Nat) {rb : Ring} (h : rb.Inv cap) :
    (NoSep (sepBytes sep) (rb.contents cap) ∧
      discoverRing cap maxPacket sep rb = .ok ⟨.noFrame, rb.drop cap (rb.readable cap - 1), []⟩) ∨
    ∃ garbage rest, FirstSep (sepBytes sep) (rb.contents cap) garbage rest ∧
      ((Partial maxPacket rest ∧
        discoverRing cap maxPacket sep rb = .ok ⟨.incomplete, rb.drop cap garbage.length, []⟩) ∨
       (∃ c0 c1 x more, rest = c0 :: c1 :: x :: more ∧ (x.toNat = 0x80 ∨ 0x89 ≤ x.toNat) ∧
        discoverRing cap maxPacket sep rb = .ok ⟨.invalidBerLength, rb.drop cap (garbage.length + 2), []⟩) ∨
       (∃ c0 c1 len n more, rest = [c0, c1] ++ len ++ more ∧ BerForm len n ∧ maxPacket < 2 + len.length + n ∧
        discoverRing cap maxPacket sep rb = .ok ⟨.frameTooLarge, rb.drop cap (garbage.length + 2), []⟩) ∨
       (∃ c0 c1 len body more, rest = [c0, c1] ++ len ++ body ++ more ∧ BerForm len body.length ∧
        2 + len.length + body.length ≤ maxPacket ∧
        discoverRing cap maxPacket sep rb =
          .ok ⟨.ok, rb.drop cap (garbage.length + 2 + (2 + len.length + body.length)), [c0, c1] ++ len ++ body⟩)) := by
  rcases firstSep_or_noSep (toBE_length sep 2) (rb.contents cap) with ⟨g, rest, hs⟩ | hs
  · refine .inr ⟨g, rest, hs, ?_⟩
    rcases rest_cases maxPacket rest with hp | ⟨c0, c1, x, more, rfl, hx⟩ | ⟨c0, c1, len, n, more, rfl, hb, hmp⟩ |
      ⟨c0, c1, len, body, more, rfl, hb, hmp⟩
    · exact .inl ⟨hp, discoverRing_incomplete h hs hp⟩
    · exact .inr (.inl ⟨c0, c1, x, more, rfl, hx, discoverRing_badLength h hs hx⟩)
    · exact .inr (.inr (.inl ⟨c0, c1, len, n, more, rfl, hb, hmp, discoverRing_tooLarge h hb hmp hs⟩))
    · exact .inr (.inr (.inr ⟨c0, c1, len, body, more, rfl, hb, hmp, discoverRing_takes h hb hmp hs⟩))
  · exact .inl ⟨hs, discoverRing_noFrame h hs⟩

end Sys2Proof.Machine
end

