-- ==== Sys2Proof/Laws/Handling.lean ====
section
/-! SUPPORT. Discovery on the state, the payload of an ExchangePacket taken apart, and the telemetry scan over whatever TM
holds (42_framer.md R122, R124; 45_agent.md R160, R164). -/

namespace Sys2Proof.Machine

/-! ### DISCOVER -/

theorem discover_of {r : RingSel} {s : State} {sep : Nat} {c : Cycle}
    (h : discoverRing (s.cap r) s.cfg.maxPacket sep (s.ring r) = .ok c) :
    discover r sep s =
      .ok (c.status, if c.status = .ok then (s.setRing r c.ring).loadScr c.frame else s.setRing r c.ring) := by
  unfold discover
  rw [h]
  rfl

theorem loadScr_took (s : State) (r : RingSel) (rb : Ring) (frame : List Byte) :
    (s.setRing r rb).loadScr frame = s.took r rb (memWrite s.scr 0 frame) frame.length := by
  unfold State.loadScr State.took
  cases r <;> rfl

theorem took_scr (s : State) (r : RingSel) (rb : Ring) (m : Memory) (n : Nat) : (s.took r rb m n).scr = m := by
  cases r <;> rfl

theorem took_scrLen (s : State) (r : RingSel) (rb : Ring) (m : Memory) (n : Nat) : (s.took r rb m n).scrLen = n := by
  cases r <;> rfl

theorem took_frameView (s : State) (r : RingSel) (rb : Ring) (m : Memory) (n : Nat) :
    (s.took r rb m n).frameView = ⟨0, 0, n⟩ := by cases r <;> rfl

/-- DISCOVER after a cycle that took no frame. -/
theorem execDiscover_fail {r : RingSel} {s : State} {st : Status} {rb : Ring} (hp : r.present s.cfg = true)
    (hst : st ≠ .ok)
    (h : discoverRing (s.cap r) s.cfg.maxPacket (sepOf s.cfg.role r) (s.ring r) = .ok ⟨st, rb, []⟩) :
    execDiscover r s = .next (finish st [] [] [] (s.setRing r rb)) := by
  unfold execDiscover
  rw [withRing_present _ hp, discover_of h, ok_bind]
  simp only [hst, if_false]
  rfl

/-- The code of a frame that stands in SCR. -/
theorem frameCode_of {s : State} {c0 c1 : Byte} (h : s.scr.Holds 0 [c0, c1]) :
    s.frameCode = .ok (c0.toNat * 256 + c1.toNat) := by
  unfold State.frameCode
  have := memRead_holds h
  simp only [List.length_cons, List.length_nil] at this
  rw [this, ok_bind]
  simp only [beNat, leNat, List.reverse_cons, List.reverse_nil, List.nil_append, List.cons_append, pure, Except.pure]
  congr 1
  omega

/-- DISCOVER after a cycle that took a frame. -/
theorem execDiscover_takes {r : RingSel} {s : State} {rb : Ring} {c0 c1 : Byte} {rest : List Byte}
    (hp : r.present s.cfg = true)
    (h : discoverRing (s.cap r) s.cfg.maxPacket (sepOf s.cfg.role r) (s.ring r) = .ok ⟨.ok, rb, c0 :: c1 :: rest⟩) :
    execDiscover r s = .next (finish .ok [c0.toNat * 256 + c1.toNat, rest.length + 2] [] []
      (s.took r rb (memWrite s.scr 0 (c0 :: c1 :: rest)) (rest.length + 2))) := by
  have hh := (memWrite_stores s.scr 0 (c0 :: c1 :: rest)).holds
  rw [show c0 :: c1 :: rest = [c0, c1] ++ rest from rfl, Memory.Holds.append] at hh
  have hcode := frameCode_of (s := s.took r rb (memWrite s.scr 0 (c0 :: c1 :: rest)) (rest.length + 2))
    (by rw [took_scr]; exact hh.1)
  unfold execDiscover
  rw [withRing_present _ hp, discover_of h, ok_bind]
  simp only [if_true, loadScr_took, List.length_cons, hcode, ok_bind, took_scrLen]
  rfl

/-- Discovery of a whole frame: the ring left, SCR, and the code (42_framer.md R122, R124). -/
theorem discover_whole {r : RingSel} {s : State} {sep : Nat} {c0 c1 : Byte} {garbage len body rest : List Byte}
    (hi : (s.ring r).Inv (s.cap r)) (hb : BerForm len body.length)
    (hs : FirstSep (sepBytes sep) (s.contents r) garbage ([c0, c1] ++ len ++ body ++ rest))
    (hmax : 2 + len.length + body.length ≤ s.cfg.maxPacket) :
    ∃ rb m, rb = s.consumed r (garbage.length + 2 + (2 + len.length + body.length)) ∧
      discover r sep s = .ok (.ok, s.took r rb m (2 + len.length + body.length)) ∧
      garbage.length + 2 + (2 + len.length + body.length) ≤ (s.ring r).readable (s.cap r) ∧ rb.Inv (s.cap r) ∧
      rb.contents (s.cap r) = rest ∧ s.scr.Stores m 0 ([c0, c1] ++ len ++ body) ∧
      (s.took r rb m (2 + len.length + body.length)).frameCode = .ok (c0.toNat * 256 + c1.toNat) := by
  have h2 : (sepBytes sep).length = 2 := toBE_length sep 2
  have hd := discoverRing_takes (maxPacket := s.cfg.maxPacket) hi hb hmax hs
  have hl := congrArg List.length hs.1
  simp only [State.contents, List.length_append, Ring.contents_length, List.length_cons, List.length_nil, h2] at hl
  refine ⟨_, memWrite s.scr 0 ([c0, c1] ++ len ++ body), rfl, ?_, by omega, hi.drop (by omega), ?_, memWrite_stores _ _ _,
    ?_⟩
  · rw [discover_of hd]
    simp only [if_true, loadScr_took, List.length_append, List.length_cons, List.length_nil]
    rfl
  · have h1 := hs.1
    unfold State.contents at h1
    show ((s.ring r).drop (s.cap r) _).contents (s.cap r) = rest
    rw [Ring.drop_contents, h1, ← List.append_assoc, List.drop_left']
    simp only [List.length_append, List.length_cons, List.length_nil, h2]
  · have hh := (memWrite_stores s.scr 0 ([c0, c1] ++ len ++ body)).holds
    rw [List.append_assoc, Memory.Holds.append, ← List.append_assoc] at hh
    exact frameCode_of (by rw [took_scr]; exact hh.1)

theorem wireCode_pair (k : Kind) : ∃ c0 c1, wireCode k = [c0, c1] ∧ codeOf k = c0.toNat * 256 + c1.toNat := by
  cases k <;> exact ⟨_, _, rfl, rfl⟩

/-- Discovery of a frame that is a message. -/
theorem discover_takes {r : RingSel} {s : State} {k : Kind} {garbage frame rest body : List Byte}
    (hi : (s.ring r).Inv (s.cap r)) (hs : FirstSep (wireSep s.cfg.role r) (s.contents r) garbage (frame ++ rest))
    (hmf : MsgForm k body frame) (hmax : frame.length ≤ s.cfg.maxPacket) :
    ∃ rb m, rb = s.consumed r (garbage.length + 2 + frame.length) ∧
      discover r (sepOf s.cfg.role r) s = .ok (.ok, s.took r rb m frame.length) ∧
      rb.Inv (s.cap r) ∧ rb.contents (s.cap r) = rest ∧ s.scr.Stores m 0 frame ∧
      (s.took r rb m frame.length).frameCode = .ok (codeOf k) := by
  obtain ⟨len, hb, rfl⟩ := hmf
  obtain ⟨c0, c1, hw, hcode⟩ := wireCode_pair k
  rw [← sepBytes_sepOf] at hs
  rw [hw] at hs hmax ⊢
  rw [hcode]
  have hl : ([c0, c1] ++ len ++ body).length = 2 + len.length + body.length := by
    simp only [List.length_append, List.length_cons, List.length_nil]
  rw [hl] at hmax ⊢
  obtain ⟨rb, m, h1, h2, -, h3, h4, h5, h6⟩ := discover_whole hi hb hs hmax
  exact ⟨rb, m, h1, h2, h3, h4, h5, h6⟩

/-- AG_HANDLE on a whole frame: the ring left, SCR, and the dispatch of its role on the frame (45_agent.md R159). -/
theorem agHandle_whole {s : State} {c0 c1 : Byte} {garbage len body rest frame : List Byte} (ha : s.cfg.hasAgent = true)
    (hi : s.inRing.Inv s.cfg.capIn) (hf : frame = [c0, c1] ++ len ++ body) (hb : BerForm len body.length)
    (hs : FirstSep (wireSep s.cfg.role .inb) (s.contents .inb) garbage (frame ++ rest))
    (hmax : frame.length ≤ s.cfg.maxPacket) :
    ∃ rb m, rb = s.consumed .inb (garbage.length + 2 + frame.length) ∧ rb.Inv s.cfg.capIn ∧
      rb.contents s.cfg.capIn = rest ∧ s.scr.Stores m 0 frame ∧
      ∀ p : Progress, p = ⟨s.took .inb rb m frame.length, [c0.toNat * 256 + c1.toNat, frame.length], [], []⟩ →
        exec .agHandle s = conclude s (match s.cfg.role with
          | .uav => uavDispatch (c0.toNat * 256 + c1.toNat) p
          | .gc => gcDispatch (c0.toNat * 256 + c1.toNat) p) := by
  subst hf
  have hl : ([c0, c1] ++ len ++ body).length = 2 + len.length + body.length := by
    simp only [List.length_append, List.length_cons, List.length_nil]
  rw [← sepBytes_sepOf] at hs
  obtain ⟨rb, m, h1, h2, h3, h4, h5, h6, h7⟩ := discover_whole (r := .inb) (s := s) hi hb hs (by omega)
  rw [← hl] at h1 h2 h7
  refine ⟨rb, m, h1, h4, h5, h6, fun p hp => ?_⟩
  subst hp
  simp only [exec, execAgHandle, withAgent_present _ ha]
  rw [show sepIn s.cfg.role = sepOf s.cfg.role .inb from rfl, h2, ok_bind]
  cases s.cfg.role <;> simp only [ne_eq, not_true_eq_false, if_false, h7, ok_bind, took_scrLen]

/-! ### The payload of an ExchangePacket -/

theorem PacketForm.msgForm {k : Kind} {rsv st : Nat} {ect : Ect} {vals : List Nat} {payload trailer msg : List Byte}
    (h : PacketForm k rsv st ect vals payload trailer msg) : ∃ body, MsgForm k body msg := by
  obtain ⟨header, -, -, -, h⟩ := h
  exact ⟨_, h⟩

theorem AddressForm.lengths {msg payload : List Byte} {vals : List Nat} (h : AddressForm msg vals payload) :
    1 ≤ msg.length ∧ payload.length ≤ msg.length := by
  obtain ⟨_, _, _, _, _, _, _, _, _, header, -, -, -, -, -, len, -, rfl⟩ := h
  simp only [List.length_append, wireCode_length]
  omega

theorem viewBytes_holds {scr : Memory} {a p : Nat} {bytes : List Byte} (h : scr.Holds p bytes) :
    viewBytes scr ⟨a, p, p + bytes.length⟩ = .ok bytes := by
  unfold viewBytes Cursor.avail
  dsimp only
  rw [Nat.add_sub_cancel_left]
  exact memRead_holds h

/-- DecAddrSeq on a payload that is a sequence of AddressPackets (43_decode.md R140, 45_agent.md R160). -/
theorem decAddrSeq_forms {scr : Memory} {packets : List (List Byte × List Nat × List Byte)} {fuel : Nat} {c : Cursor}
    (hf : ∀ p ∈ packets, AddressForm p.1 p.2.1 p.2.2) (hm : scr.Holds c.cur (packets.map (·.1)).flatten)
    (hs : c.cur + (packets.map (·.1)).flatten.length = c.stop) (hfuel : packets.length ≤ fuel) :
    decAddrSeq scr fuel c = .ok (packets.map (·.2)) := by
  induction packets generalizing fuel c with
  | nil =>
    simp only [List.map_nil, List.flatten_nil, List.length_nil] at hs
    cases fuel with
    | zero => rfl
    | succ n =>
      unfold decAddrSeq
      rw [if_pos (by unfold Cursor.avail; omega)]
      rfl
  | cons p rest ih =>
    cases fuel with
    | zero => simp at hfuel
    | succ n =>
      simp only [List.map_cons, List.flatten_cons, List.length_append] at hm hs
      obtain ⟨hm1, hm2⟩ := Memory.Holds.append.1 hm
      have hlen := (hf p (by simp)).lengths.1
      obtain ⟨body, q, y, -, -, -, hh, e⟩ := decAddress_form (hf p (by simp)) hm1 (by omega)
      have hn : ¬ c.avail = 0 := by unfold Cursor.avail; omega
      unfold decAddrSeq
      rw [if_neg hn, e, ok_bind]
      simp only [viewBytes_holds hh, ok_bind]
      rw [ih (fun x hx => hf x (by simp [hx])) (by dsimp only; exact hm2) (by dsimp only; omega)
        (by simp only [List.length_cons] at hfuel; omega)]
      rfl

/-- As many turns as the payload has bytes are enough. -/
theorem packets_length_le {packets : List (List Byte × List Nat × List Byte)}
    (hf : ∀ p ∈ packets, AddressForm p.1 p.2.1 p.2.2) : packets.length ≤ (packets.map (·.1)).flatten.length := by
  induction packets with
  | nil => simp
  | cons p rest ih =>
    have h1 := ih fun x hx => hf x (by simp [hx])
    have h2 := (hf p (by simp)).lengths.1
    simp only [List.map_cons, List.flatten_cons, List.length_append, List.length_cons]
    omega

/-- DecAddrSeq on AddressPackets followed by bytes that are none (43_decode.md R140, 45_agent.md R160). -/
theorem decAddrSeq_fails {scr : Memory} {packets : List (List Byte × List Nat × List Byte)} {bad : List Byte} {e : Status}
    {fuel : Nat} {c : Cursor} (hf : ∀ p ∈ packets, AddressForm p.1 p.2.1 p.2.2)
    (hv : Views scr c ((packets.map (·.1)).flatten ++ bad)) (hn : bad ≠ []) (hb : MsgFails .addressPacket bad e)
    (hfuel : packets.length < fuel) : decAddrSeq scr fuel c = .error (.raised e) := by
  have hpos : 1 ≤ bad.length := List.length_pos_iff.2 hn
  induction packets generalizing fuel c with
  | nil =>
    cases fuel with
    | zero => simp at hfuel
    | succ n =>
      have hv : Views scr c bad := hv
      unfold decAddrSeq
      rw [if_neg (by unfold Cursor.avail; rw [hv.stop]; omega), decAddress_fails hv hb]
      rfl
  | cons p rest ih =>
    cases fuel with
    | zero => simp at hfuel
    | succ n =>
      simp only [List.map_cons, List.flatten_cons, List.append_assoc] at hv
      have ht := hv.tail
      obtain ⟨hm, hs⟩ := hv
      obtain ⟨hm1, -⟩ := Memory.Holds.append.1 hm
      simp only [List.length_append] at hs
      obtain ⟨body, q, y, -, -, -, hh, e1⟩ := decAddress_form (hf p (by simp)) hm1 (by omega)
      unfold decAddrSeq
      rw [if_neg (by unfold Cursor.avail; omega), e1, ok_bind]
      simp only [viewBytes_holds hh, ok_bind]
      rw [ih (fun x hx => hf x (by simp [hx])) ht (by simp only [List.length_cons] at hfuel; omega)]
      rfl

/-! ### The telemetry scan -/

/-- The newest `cap` bytes of a stream do not change when older ones are dropped first. -/
theorem drop_newest (cap : Nat) (a b : List Byte) :
    (a.drop (a.length - cap) ++ b).drop ((a.drop (a.length - cap) ++ b).length - cap) =
      (a ++ b).drop ((a ++ b).length - cap) := by
  rcases Nat.le_total a.length cap with h | h
  · rw [show a.length - cap = 0 by omega, List.drop_zero]
  · have h1 : (a.drop (a.length - cap)).length = cap := by rw [List.length_drop]; omega
    rw [List.length_append, h1, Nat.add_sub_cancel_left, List.length_append,
      show a.length + b.length - cap = (a.length - cap) + b.length by omega, ← List.drop_drop,
      List.drop_append_of_le_length (l₁ := a) (by omega)]

/-- The payloads appended to TM: of its bytes and the new ones the newest CAP_TM stay; as long as they are no more than
CAP_TM, the write offset moves past them and only their cells change (45_agent.md R162, 41_ring.md R111). -/
theorem foldl_push_tm {packets : List (List Nat × List Byte)} {s : State} {old : List Byte} (hi : s.tmRing.Inv s.cfg.capTm)
    (ho : s.contents .tm = old.drop (old.length - s.cfg.capTm))
    (hl : (packets.map (·.2)).flatten.length ≤ s.cfg.capTm) :
    ∃ tm, packets.foldl (fun (u : State) a => u.push .tm a.2) s = { s with tmRing := tm } ∧ tm.Inv s.cfg.capTm ∧
      tm.contents s.cfg.capTm = (old ++ (packets.map (·.2)).flatten).drop
        ((old ++ (packets.map (·.2)).flatten).length - s.cfg.capTm) ∧
      tm.wr = (s.tmRing.wr + (packets.map (·.2)).flatten.length) % s.cfg.capTm ∧
      (∀ a, (∀ k, k < (packets.map (·.2)).flatten.length → a ≠ (s.tmRing.wr + k) % s.cfg.capTm) →
        tm.data.read a = s.tmRing.data.read a) := by
  induction packets generalizing s old with
  | nil =>
    refine ⟨s.tmRing, rfl, hi, ?_, ?_, fun a _ => rfl⟩
    · simp only [List.map_nil, List.flatten_nil, List.append_nil]
      exact ho
    · simp only [List.map_nil, List.flatten_nil, List.length_nil, Nat.add_zero]
      exact (Nat.mod_eq_of_lt hi.wr).symm
  | cons p rest ih =>
    simp only [List.map_cons, List.flatten_cons, List.length_append] at hl ⊢
    have hx := ringWrite_contents (cap := s.cfg.capTm) p.2 hi
    have hk := ringKept_length s.cfg.capTm p.2
    have ho : s.tmRing.contents s.cfg.capTm = old.drop (old.length - s.cfg.capTm) := ho
    have hc : (s.push .tm p.2).contents .tm = (old ++ p.2).drop ((old ++ p.2).length - s.cfg.capTm) := by
      show (ringWrite s.cfg.capTm p.2 s.tmRing).contents s.cfg.capTm = _
      rw [hx, ho, drop_newest]
    have hw : (ringWrite s.cfg.capTm p.2 s.tmRing).wr = (s.tmRing.wr + p.2.length) % s.cfg.capTm := by
      unfold ringWrite
      simp only []
      split
      · simp only [Ring.append, Ring.drop, hk]
        congr 2
        omega
      · simp only [Ring.append, hk]
        congr 2
        omega
    obtain ⟨tm, h1, h2, h3, h4, h5⟩ := ih (s := s.push .tm p.2) (old := old ++ p.2) (ringWrite_Inv p.2 hi) hc
      (show _ ≤ s.cfg.capTm by omega)
    refine ⟨tm, by rw [List.foldl_cons, h1]; rfl, h2, ?_, ?_, ?_⟩
    · rw [List.append_assoc] at h3
      simp only [List.length_append] at h3
      exact h3
    · refine h4.trans ?_
      show ((ringWrite s.cfg.capTm p.2 s.tmRing).wr + _) % s.cfg.capTm = _
      rw [hw, Nat.mod_add_mod, Nat.add_assoc]
    · intro a ha
      refine (h5 a fun k hk => ?_).trans (ringWrite_read_other _ _ _ fun k hk => ha k (by omega))
      show a ≠ ((ringWrite s.cfg.capTm p.2 s.tmRing).wr + k) % s.cfg.capTm
      rw [hw, Nat.mod_add_mod, Nat.add_assoc]
      exact ha _ (by omega)

theorem beNat_pair_ne {c0 c1 : Byte} {k : Kind} (h : [c0, c1] ≠ wireCode k) : c0.toNat * 256 + c1.toNat ≠ codeOf k := by
  have := beNat_ne_code h
  simp only [beNat, leNat, List.reverse_cons, List.reverse_nil, List.nil_append, List.cons_append] at this
  omega

/-- A message whose body fails, alone in a view. -/
theorem MsgForm.fails {k : Kind} {body msg : List Byte} {e : Status} (h : MsgForm k body msg) (hb : BodyFails k body e) :
    MsgFails k msg e :=
  .inr (.inr (.inr (.inr ⟨msg, body, [], (List.append_nil _).symm, h, hb⟩)))

/-- What TmRescan reports of a frame that stands in SCR (45_agent.md R164). -/
theorem subFrameEvent_reports {t : State} {frame : List Byte} {event : Event} (hh : t.scr.Holds 0 frame)
    (hl : t.scrLen = frame.length) (hr : SubFrameReport frame event) : subFrameEvent t = .ok event := by
  have code : ∀ {k body}, MsgForm k body frame → t.frameCode = .ok (codeOf k) := by
    rintro k body ⟨len, -, rfl⟩
    obtain ⟨c0, c1, hw, hc⟩ := wireCode_pair k
    rw [hw, List.append_assoc, Memory.Holds.append] at hh
    rw [frameCode_of hh.1, hc]
  have hv : Views t.scr t.frameView frame := ⟨hh, by unfold State.frameView; simp only [hl, Nat.zero_add]⟩
  rcases hr with ⟨a, b, c, d, header, params, hf, h⟩ | ⟨k, body, e, hk, hm, hb, rfl⟩ | ⟨c0, c1, rest, rfl, h1, h2, rfl⟩
  · rcases h with ⟨hm, rfl⟩ | ⟨hm, rfl⟩
    all_goals
      obtain ⟨q, p, -, -, hp, e⟩ := decFour_form (c := t.frameView) hf hm hh (Nat.le_of_eq hv.stop.symm)
      unfold subFrameEvent
      rw [code hm, ok_bind]
      simp only [e, viewBytes_holds hp, ok_bind]
      rfl
  · have e1 := decFour_fails hk hv (hm.fails hb)
    unfold subFrameEvent
    rw [code hm, ok_bind]
    rcases hk with rfl | rfl
    · simp only [if_true, e1]
    · rw [if_neg (by decide)]
      simp only [if_true, e1]
  · unfold subFrameEvent
    rw [frameCode_of (Memory.Holds.append.1 (show t.scr.Holds 0 ([c0, c1] ++ rest) from hh)).1, ok_bind]
    simp only [beNat_pair_ne h1, beNat_pair_ne h2, if_false]
    rfl

theorem FirstSep.length_lt {sep stream garbage rest : List Byte} (h : FirstSep sep stream garbage rest) (hs : sep.length = 2) :
    rest.length + 2 ≤ stream.length := by
  rw [h.1]
  simp only [List.length_append, hs]
  omega

/-- The scan from `s`, with `ev` reported so far, takes `frames`, reports `events` and leaves `left` in TM: it only consumes
from TM, and puts the last frame taken into SCR. -/
def ScanLeaves (fuel : Nat) (s : State) (ev : List Event) (frames : List (List Byte)) (events : List Event)
    (left : List Byte) : Prop :=
  ∃ n tm, n ≤ s.tmRing.readable s.cfg.capTm ∧ tm = s.tmRing.drop s.cfg.capTm n ∧ tm.contents s.cfg.capTm = left ∧
    ((frames = [] ∧ tmRescan fuel s ev = .ok ({ s with tmRing := tm }, ev ++ events)) ∨
     ∃ last m, frames.getLast? = some last ∧ m.Holds 0 last ∧
      (∀ a, (∀ f ∈ frames, f.length ≤ a) → m.read a = s.scr.read a) ∧
      tmRescan fuel s ev = .ok (s.took .tm tm m last.length, ev ++ events))

/-- The scan over whatever TM holds (45_agent.md R164): what it takes, reports and leaves is what `TmScan` says. -/
theorem tmRescan_scan {mp : Nat} {stream left : List Byte} {frames : List (List Byte)} {events : List Event}
    (h : TmScan mp stream frames events left) :
    ∀ {fuel : Nat} {s : State} {ev : List Event}, s.cfg.maxPacket = mp → s.tmRing.Inv s.cfg.capTm →
      s.contents .tm = stream → stream.length < fuel →
      ScanLeaves fuel s ev frames events left := by
  have hsep : sepBytes sepTm = [0x04, 0x3D] := by decide
  -- a rejected header: the separator goes, the scan goes on
  have rejected : ∀ {stream rest garbage left : List Byte} {frames : List (List Byte)} {events : List Event} {st : Status}
      {fuel : Nat} {s : State} {ev : List Event},
      (st = .invalidBerLength ∨ st = .frameTooLarge) → FirstSep [0x04, 0x3D] stream garbage rest →
      s.tmRing.Inv s.cfg.capTm → s.contents .tm = stream → stream.length < fuel →
      discoverRing s.cfg.capTm s.cfg.maxPacket sepTm s.tmRing =
        .ok ⟨st, s.tmRing.drop s.cfg.capTm (garbage.length + 2), []⟩ →
      (∀ {fuel : Nat} {s' : State} {ev : List Event}, s'.cfg = s.cfg → s'.tmRing.Inv s'.cfg.capTm → s'.contents .tm = rest →
        rest.length < fuel → ScanLeaves fuel s' ev frames events left) →
      ScanLeaves fuel s ev frames (⟨.subframeError, [statusCode st], []⟩ :: events) left := by
    intro stream rest garbage left frames events st fuel s ev hst hs hi hc hfuel hd ih
    have hc : s.tmRing.contents s.cfg.capTm = stream := hc
    have hlen := congrArg List.length (hc.trans hs.1)
    simp only [Ring.contents_length, List.length_append, List.length_cons, List.length_nil] at hlen
    have hlt := hs.length_lt rfl
    cases fuel with
    | zero => omega
    | succ fuel =>
      have hd := discover_of (r := .tm) (s := s) hd
      obtain ⟨n, tm, h1, h2, h3, h4⟩ := ih (fuel := fuel)
        (s' := s.setRing .tm (s.tmRing.drop s.cfg.capTm (garbage.length + 2)))
        (ev := ev ++ [⟨.subframeError, [statusCode st], []⟩]) rfl (hi.drop (by omega))
        (by
          show (s.tmRing.drop s.cfg.capTm (garbage.length + 2)).contents s.cfg.capTm = rest
          rw [Ring.drop_contents, hc, hs.1, List.drop_left' (by simp only [List.length_append, List.length_cons, List.length_nil])])
        (by omega)
      have h2 : tm = s.tmRing.drop s.cfg.capTm (garbage.length + 2 + n) := h2.trans (Ring.drop_drop _ _ _ _)
      have h1 : n ≤ (s.tmRing.drop s.cfg.capTm (garbage.length + 2)).readable s.cfg.capTm := h1
      rw [Ring.drop_readable] at h1
      refine ⟨garbage.length + 2 + n, tm, by omega, h2, h3, ?_⟩
      have hstep : tmRescan (fuel + 1) s ev = tmRescan fuel (s.setRing .tm (s.tmRing.drop s.cfg.capTm (garbage.length + 2)))
          (ev ++ [⟨.subframeError, [statusCode st], []⟩]) := by
        show (discover .tm sepTm s >>= _) = _
        rw [hd, ok_bind]
        rcases hst with rfl | rfl <;> rfl
      rw [hstep]
      rcases h4 with ⟨h4, h5⟩ | ⟨last, m, h4, h5, h6, h7⟩
      · exact .inl ⟨h4, h5.trans (by rw [List.append_assoc ev]; rfl)⟩
      · exact .inr ⟨last, m, h4, h5, h6, h7.trans (by rw [List.append_assoc ev]; rfl)⟩
  induction h with
  | @noSep stream h =>
    intro fuel s ev hmp hi hc hfuel
    cases fuel with
    | zero => omega
    | succ fuel =>
      have hc : s.tmRing.contents s.cfg.capTm = stream := hc
      have hns : NoSep (sepBytes sepTm) (s.tmRing.contents s.cfg.capTm) := by rw [hsep, hc]; exact h
      have hd := discover_of (r := .tm) (s := s) (discoverRing_noFrame (maxPacket := s.cfg.maxPacket) hi hns)
      refine ⟨s.tmRing.readable s.cfg.capTm - 1, _, by omega, rfl, ?_, .inl ⟨rfl, ?_⟩⟩
      · rw [Ring.drop_contents, hc, ← Ring.contents_length s.cfg.capTm, hc]
      · show (discover .tm sepTm s >>= _) = _
        rw [hd, ok_bind, List.append_nil]
        rfl
  | @incomplete stream garbage rest h hp =>
    intro fuel s ev hmp hi hc hfuel
    cases fuel with
    | zero => omega
    | succ fuel =>
      have hc : s.tmRing.contents s.cfg.capTm = stream := hc
      have hlen := congrArg List.length (hc.trans h.1)
      simp only [Ring.contents_length, List.length_append] at hlen
      have hd := discover_of (r := .tm) (s := s)
        (discoverRing_incomplete (maxPacket := s.cfg.maxPacket) hi (by rw [hsep]; exact hc ▸ h) (by rw [hmp]; exact hp))
      refine ⟨garbage.length, _, by omega, rfl, ?_, .inl ⟨rfl, ?_⟩⟩
      · rw [Ring.drop_contents, hc, h.1, List.append_assoc, List.drop_left]
      · show (discover .tm sepTm s >>= _) = _
        rw [hd, ok_bind, List.append_nil]
        rfl
  | @badLength stream garbage rest more left c0 c1 x frames events hs he hh next ih =>
    intro fuel s ev hmp hi hc hfuel
    refine rejected (.inl rfl) hs hi hc hfuel ?_ fun hcfg => ih (by rw [hcfg]; exact hmp)
    rw [he] at hs
    exact discoverRing_badLength hi (by rw [hsep, show s.tmRing.contents s.cfg.capTm = stream from hc]; exact hs) hh
  | @tooLarge stream garbage rest len more left c0 c1 n frames events hs he hb hn next ih =>
    intro fuel s ev hmp hi hc hfuel
    refine rejected (.inr rfl) hs hi hc hfuel ?_ fun hcfg => ih (by rw [hcfg]; exact hmp)
    rw [he] at hs
    exact discoverRing_tooLarge hi hb (by rw [hmp]; exact hn)
      (by rw [hsep, show s.tmRing.contents s.cfg.capTm = stream from hc]; exact hs)
  | @frame stream garbage frame rest left event frames events hs hf hm hr next ih =>
    intro fuel s ev hmp hi hc hfuel
    have hlt := hs.length_lt rfl
    rw [List.length_append] at hlt
    cases fuel with
    | zero => omega
    | succ fuel =>
      obtain ⟨c0, c1, len, body, rfl, hb⟩ := hf
      have hl : ([c0, c1] ++ len ++ body).length = 2 + len.length + body.length := by
        simp only [List.length_append, List.length_cons, List.length_nil]
      obtain ⟨rb, m, h1, h2, h3, h4, h5, h6, -⟩ := discover_whole (r := .tm) (s := s) (sep := sepTm) hi hb
        (by rw [hsep, hc]; exact hs) (by omega)
      rw [← hl] at h1 h2 h3
      have hev := subFrameEvent_reports (t := s.took .tm rb m ([c0, c1] ++ len ++ body).length) h6.holds rfl hr
      have hstep : tmRescan (fuel + 1) s ev =
          tmRescan fuel (s.took .tm rb m ([c0, c1] ++ len ++ body).length) (ev ++ [event]) := by
        show (discover .tm sepTm s >>= _) = _
        rw [h2, ok_bind]
        dsimp only
        rw [hev, ok_bind]
      obtain ⟨n, tm, g1, g2, g3, g4⟩ := ih (fuel := fuel) (s := s.took .tm rb m ([c0, c1] ++ len ++ body).length)
        (ev := ev ++ [event]) hmp h4 h5 (by omega)
      have hrb : rb = s.tmRing.drop s.cfg.capTm (garbage.length + 2 + ([c0, c1] ++ len ++ body).length) := h1
      have g1 : n ≤ rb.readable s.cfg.capTm := g1
      have g2 : tm = rb.drop s.cfg.capTm n := g2
      rw [hrb, Ring.drop_readable] at g1
      rw [hrb, Ring.drop_drop] at g2
      have h3 : garbage.length + 2 + ([c0, c1] ++ len ++ body).length ≤ s.tmRing.readable s.cfg.capTm := h3
      refine ⟨_, tm, by omega, g2, g3, .inr ?_⟩
      rw [hstep]
      rcases g4 with ⟨rfl, g5⟩ | ⟨last, m', g4, g5, g6, g7⟩
      · refine ⟨_, m, rfl, h6.holds, fun a ha => h6.read_of_ge ?_, g5.trans (by rw [List.append_assoc ev]; rfl)⟩
        have := ha _ (List.mem_cons_self ..)
        omega
      · refine ⟨last, m', ?_, g5, fun a ha => ?_, g7.trans (by rw [List.append_assoc ev]; rfl)⟩
        · cases frames with
          | nil => simp at g4
          | cons y ys => rw [List.getLast?_cons_cons]; exact g4
        · rw [g6 a fun f hf => ha f (List.mem_cons_of_mem _ hf)]
          have := ha _ (List.mem_cons_self ..)
          exact h6.read_of_ge (by omega)

end Sys2Proof.Machine
end

