-- ==== Sys2Proof/Laws/Invariant.lean ====
section
/-! SUPPORT. The invariant of State under each shared update: what an update must meet for the invariant to hold after
it. -/

namespace Sys2Proof.Machine

variable {s : State}

/-! ### Endings and readers -/

theorem State.Inv.finish (h : s.Inv) (st : Status) (res : List Nat) (d : List Byte) (ev : List Event) :
    (Machine.finish st res d ev s).Inv :=
  { h with
    status := by
      rw [finish_status, status_toNat]
      exact statusCode_le st
    response := by
      intro r hr
      rw [finish_resp] at hr
      cases hr
      rfl }

theorem State.Inv.raise (h : s.Inv) (st : Status) : (Machine.raise st s).Inv := h.finish st [] [] []

theorem State.Inv.raised (h : s.Inv) {t : State} (ht : Raised s t) : t.Inv := by
  obtain ⟨st, rfl⟩ := ht
  exact h.raise st

theorem State.Inv.setReader (h : s.Inv) {c : RdSel} {x : Cursor} (hx : x.Inv s.scrLen) : (s.setReader c x).Inv := by
  have hr : ∀ d, ((s.setReader c x).reader d).Inv s.scrLen := by
    intro d
    have := h.readers d
    cases c <;> cases d <;> first | exact hx | exact this
  cases c <;> exact { h with readers := hr, rings := h.rings }

theorem State.Inv.loadScr (h : s.Inv) {bytes : List Byte} (hl : bytes.length ≤ s.cfg.maxPacket) : (s.loadScr bytes).Inv :=
  { h with
    rings := h.rings
    scr := memWrite_Inv (size := s.cfg.maxPacket) 0 bytes h.scr (by omega)
    scrLen := hl
    scrHeld := by
      have := (memWrite_stores s.scr 0 bytes).holds.written
      rwa [Nat.zero_add] at this
    readers := by
      intro c
      cases c <;> exact ⟨Nat.le_refl _, Nat.zero_le _, by first | exact Nat.le_refl _ | exact Nat.zero_le _⟩ }

/-! ### Rings -/

theorem State.Inv.setRing (h : s.Inv) {r : RingSel} {rb : Ring} (hp : r.present s.cfg = true) (hr : rb.Inv (s.cap r)) :
    (s.setRing r rb).Inv := by
  have hrings : ∀ q, ((s.setRing r rb).ring q).Inv ((s.setRing r rb).cap q) := by
    intro q
    have := h.rings q
    cases r <;> cases q <;> first | exact hr | exact this
  cases r with
  | inb => exact { h with rings := hrings, readers := h.readers }
  | outb => exact { h with rings := hrings, readers := h.readers }
  | tm =>
    refine { h with rings := hrings, readers := h.readers, tmAbsent := fun hu => ?_ }
    have hu : s.cfg.role = .uav := hu
    simp [RingSel.present, hu] at hp

theorem State.Inv.push (h : s.Inv) {r : RingSel} (bytes : List Byte) (hp : r.present s.cfg = true) :
    (s.push r bytes).Inv := h.setRing hp (ringWrite_Inv bytes (h.rings r))

/-- The ring and the frame a cycle leaves (42_framer.md R122). -/
theorem discoverRing_keeps {cap maxPacket sep : Nat} {rb : Ring} {c : Cycle} (h : rb.Inv cap)
    (hd : discoverRing cap maxPacket sep rb = .ok c) :
    c.ring.Inv cap ∧ c.ring.readable cap ≤ rb.readable cap ∧
      (c.status = .ok → 3 ≤ c.frame.length ∧ c.frame.length ≤ maxPacket) := by
  have h2 : (sepBytes sep).length = 2 := toBE_length sep 2
  rcases discoverRing_cases maxPacket sep h with ⟨-, e⟩ | ⟨g, rest, hs, hcases⟩
  · rw [e] at hd
    cases hd
    exact ⟨h.drop (by omega), by rw [Ring.drop_readable]; omega, by simp⟩
  · have hl := congrArg List.length hs.1
    simp only [List.length_append, Ring.contents_length, h2] at hl
    rcases hcases with ⟨-, e⟩ | ⟨c0, c1, x, more, rfl, -, e⟩ | ⟨c0, c1, len, n, more, rfl, -, -, e⟩ |
      ⟨c0, c1, len, body, more, rfl, hb, hm, e⟩
    all_goals
      rw [e] at hd
      cases hd
      try simp only [List.length_append, List.length_cons, List.length_nil] at hl
      refine ⟨h.drop (by omega), by rw [Ring.drop_readable]; omega, ?_⟩
    · intro hs; cases hs
    · intro hs; cases hs
    · intro hs; cases hs
    · intro _
      have := hb.length_pos
      simp only [List.length_append, List.length_cons, List.length_nil]
      omega

theorem State.Inv.discover (h : s.Inv) {r : RingSel} {sep : Nat} {st : Status} {t : State} (hp : r.present s.cfg = true)
    (hd : Machine.discover r sep s = .ok (st, t)) : t.Inv := by
  obtain ⟨c, hc, rfl, rfl⟩ := discover_ok hd
  obtain ⟨h1, -, h2⟩ := discoverRing_keeps (h.rings r) hc
  have h3 := h.setRing hp h1
  split
  · exact h3.loadScr (by rw [setRing_cfg]; exact (h2 ‹_›).2)
  · exact h3

/-! ### The writer and the frame stack -/

theorem framesFit.bounds {asmSize start : Nat} {frames : List FrameEntry} {cur stop : Nat}
    (h : framesFit asmSize start frames cur stop) : start ≤ cur ∧ cur ≤ stop ∧ stop ≤ asmSize := by
  induction frames generalizing cur stop with
  | nil => exact h
  | cons e rest ih =>
    obtain ⟨h1, h2, h3, h4, -, -, h5⟩ := h
    obtain ⟨h6, h7, h8⟩ := ih h5
    omega

/-- Every placeholder stands before the current index. -/
theorem framesFit.starts {asmSize start : Nat} {frames : List FrameEntry} {cur stop : Nat}
    (h : framesFit asmSize start frames cur stop) : ∀ e ∈ frames, e.start + 3 ≤ cur := by
  induction frames generalizing cur stop with
  | nil => intro e he; simp at he
  | cons e rest ih =>
    obtain ⟨h1, h2, h3, h4, -, -, h5⟩ := h
    intro f hf
    rcases List.mem_cons.1 hf with rfl | hf
    · omega
    · have := ih h5 f hf
      omega

/-- The current index may move between the newest body and the limit. -/
theorem framesFit.move {asmSize start : Nat} {frames : List FrameEntry} {cur cur' stop : Nat}
    (h : framesFit asmSize start frames cur stop) (h1 : cur ≤ cur') (h2 : cur' ≤ stop) :
    framesFit asmSize start frames cur' stop := by
  cases frames with
  | nil => exact ⟨by have := h.1; omega, h2, h.2.2⟩
  | cons e rest => exact ⟨h.1, by have := h.2.1; omega, h2, h.2.2.2⟩

theorem placeholder_length (e : FrameEntry) : (wireCode e.kind ++ [(0x00 : Byte)]).length = 3 := by
  cases e.kind <;> rfl

/-- A store at or above the current index keeps the placeholders. -/
theorem placeholders_kept {m m' : Memory} {i : Nat} {bytes : List Byte} {frames : List FrameEntry}
    (h : ∀ e ∈ frames, m.Holds e.start (wireCode e.kind ++ [0x00])) (hs : m.Stores m' i bytes)
    (hi : ∀ e ∈ frames, e.start + 3 ≤ i) : ∀ e ∈ frames, m'.Holds e.start (wireCode e.kind ++ [0x00]) := by
  intro e he
  refine hs.holds_other (h e he) (.inl ?_)
  have := hi e he
  rw [placeholder_length]
  omega

/-- A writer command that fits (40_cursor_ber.md R79). -/
theorem State.Inv.write (h : s.Inv) {bytes : List Byte} (hl : bytes.length ≤ s.w0.avail) :
    (s.setWriter (memWrite s.asm s.w0.cur bytes, { s.w0 with cur := s.w0.cur + bytes.length })).Inv := by
  obtain ⟨h1, h2, h3⟩ := h.frames.bounds
  have hs := memWrite_stores s.asm s.w0.cur bytes
  unfold Cursor.avail at hl
  exact { h with
    rings := h.rings
    readers := h.readers
    asm := memWrite_Inv (size := s.cfg.asmSize) _ _ h.asm (by omega)
    asmHeld := hs.written_append h.asmHeld
    frames := h.frames.move (by simp only [State.setWriter]; omega) (by simp only [State.setWriter]; omega)
    placeholders := placeholders_kept h.placeholders hs h.frames.starts }

theorem State.Inv.rewind (h : s.Inv) (hf : s.fstack = []) : s.rewind.Inv := by
  obtain ⟨h1, h2, h3⟩ := h.frames.bounds
  exact { h with
    rings := h.rings
    readers := h.readers
    asmHeld := fun k hk hl => by simp only [State.rewind] at hk hl; omega
    frames := by
      have : s.rewind.fstack = [] := hf
      rw [this]
      exact ⟨Nat.le_refl _, by simp only [State.rewind]; omega, h3⟩ }

theorem State.Inv.curSet (h : s.Inv) {a b : Nat} (hf : s.fstack = []) (hab : a ≤ b) (hb : b ≤ s.cfg.asmSize) :
    State.Inv { s with w0 := ⟨a, a, b⟩ } :=
  { h with
    rings := h.rings
    readers := h.readers
    asmHeld := fun k hk hl => by simp only [] at hk hl; omega
    frames := by
      simp only [hf]
      exact ⟨Nat.le_refl _, hab, hb⟩ }

theorem State.Inv.opened (h : s.Inv) {k : Kind} {header : List Byte} {ect : Option Ect} (he : ect.isSome = hasTrailer k)
    (hd : s.fstack.length ≠ fstackDepth) (hl : 3 + header.length + frameTrailer ect ≤ s.w0.avail) :
    (s.opened k header ect).Inv := by
  obtain ⟨h1, h2, h3⟩ := h.frames.bounds
  have hcode : (codeBytes k).length = 2 := toBE_length _ 2
  have hs := memWrite_stores s.asm s.w0.cur (codeBytes k ++ [0x00] ++ header)
  have hlen : (codeBytes k ++ [0x00] ++ header).length = 3 + header.length := by
    simp only [List.length_append, List.length_cons, List.length_nil, hcode]
  have hdep := h.depth
  unfold Cursor.avail at hl
  exact { h with
    rings := h.rings
    readers := h.readers
    asm := memWrite_Inv (size := s.cfg.asmSize) _ _ h.asm (by omega)
    asmHeld := by
      have := hs.written_append h.asmHeld
      rwa [hlen, ← Nat.add_assoc] at this
    frames := ⟨rfl, by simp only [State.opened]; omega, by simp only [State.opened]; omega,
      by simp only [State.opened]; omega, rfl, he, h.frames⟩
    placeholders := by
      intro e hm
      rcases List.mem_cons.1 hm with rfl | hm
      · have := hs.holds
        rw [Memory.Holds.append] at this
        have hw : codeBytes k = wireCode k := by cases k <;> decide
        rw [← hw]
        exact this.1
      · exact placeholders_kept h.placeholders hs h.frames.starts e hm
    depth := by
      simp only [State.opened, List.length_cons]
      omega }

theorem State.Inv.abort (h : s.Inv) {e : FrameEntry} {rest : List FrameEntry} (hf : s.fstack = e :: rest) :
    (abortFrame e rest s).Inv := by
  have hfit := h.frames
  rw [hf] at hfit
  obtain ⟨h1, h2, h3, h4, -, -, h5⟩ := hfit
  exact { h with
    rings := h.rings
    readers := h.readers
    asmHeld := h.asmHeld.mono (Nat.le_refl _) (by simp only [abortFrame]; omega)
    frames := h5
    placeholders := fun f hm => h.placeholders f (by rw [hf]; exact List.mem_cons_of_mem _ hm)
    depth := by
      have := h.depth
      rw [hf, List.length_cons] at this
      simp only [abortFrame]
      omega }

theorem berMin_length_pos (v : Nat) : 1 ≤ (berMin v).length := by
  unfold berMin
  split <;> simp

/-- END_FRAME's good end, on any writer in which the body stands (44_encode.md R153). -/
theorem State.Inv.closed (h : s.Inv) {e : FrameEntry} {rest : List FrameEntry} {lb : List Byte} {n : Nat} {t : State}
    (hf : s.fstack = e :: rest) (hlb : 1 ≤ lb.length) (hfit : s.w0.cur + (lb.length - 1) + e.trailer ≤ e.savedEnd)
    (hc : closeFrame e rest lb n s = .ok t) : t.Inv := by
  have hfr := h.frames
  rw [hf] at hfr
  obtain ⟨h1, h2, h3, h4, h5, h6, h7⟩ := hfr
  obtain ⟨h8, h9, h10⟩ := h7.bounds
  unfold closeFrame at hc
  obtain ⟨body, hb, hc⟩ := bind_ok.1 hc
  obtain ⟨hbl, -⟩ := memRead_ok hb
  dsimp only at hc
  obtain ⟨framed, -, hc⟩ := bind_ok.1 hc
  obtain ⟨tr, htl, rfl⟩ : ∃ tr : List Byte, tr.length = e.trailer ∧ t = Machine.finish .ok [n] [] [] { s with
      asm := memWrite (memWrite (memWrite s.asm (e.bodyStart + (lb.length - 1)) body) (e.start + 2) lb)
        (s.w0.cur + (lb.length - 1)) tr
      w0 := { s.w0 with cur := s.w0.cur + (lb.length - 1) + e.trailer, stop := e.savedEnd }
      fstack := rest } := by
    cases he : e.ect with
    | none =>
      rw [he] at hc
      cases hc
      exact ⟨[], by rw [h5, he]; rfl, rfl⟩
    | some x =>
      rw [he] at hc
      cases hc
      exact ⟨_, by rw [h5, he, trailerFn_length]; cases x <;> rfl, rfl⟩
  have s1 := memWrite_stores s.asm (e.bodyStart + (lb.length - 1)) body
  have s2 := memWrite_stores (memWrite s.asm (e.bodyStart + (lb.length - 1)) body) (e.start + 2) lb
  have s3 := memWrite_stores (memWrite (memWrite s.asm (e.bodyStart + (lb.length - 1)) body) (e.start + 2) lb)
    (s.w0.cur + (lb.length - 1)) tr
  have hrest : ∀ f ∈ rest, f ∈ s.fstack := fun f hm => by rw [hf]; exact List.mem_cons_of_mem _ hm
  have hst : ∀ f ∈ rest, f.start + 3 ≤ e.start := h7.starts
  have hw : Memory.Written (memWrite (memWrite s.asm (e.bodyStart + (lb.length - 1)) body) (e.start + 2) lb) s.w0.start
      (s.w0.cur + (lb.length - 1)) := by
    intro k hk hl
    rw [s2 k]
    split
    · rw [List.getElem?_eq_getElem (by omega)]
      rfl
    · rw [s1 k]
      split
      · rw [List.getElem?_eq_getElem (by omega)]
        rfl
      · exact h.asmHeld k (by omega) hl
  refine { h with
    rings := h.rings
    readers := h.readers
    asm := ?_
    asmHeld := ?_
    frames := h7.move (by dsimp only [Machine.finish]; omega) hfit
    placeholders := ?_
    depth := ?_
    status := Nat.zero_le _
    response := by intro r hr; cases hr; rfl }
  · exact memWrite_Inv (size := s.cfg.asmSize) _ _
      (memWrite_Inv _ _ (memWrite_Inv _ _ h.asm (by omega)) (by omega)) (by omega)
  · have := s3.written_append hw
    rwa [htl] at this
  · refine placeholders_kept (placeholders_kept (placeholders_kept (fun f hm => h.placeholders f (hrest f hm)) s1 ?_) s2 ?_)
      s3 ?_
    all_goals
      intro f hm
      have := hst f hm
      omega
  · have := h.depth
    rw [hf, List.length_cons] at this
    dsimp only [Machine.finish]
    omega

/-! ### The agent unit -/

/-- A frame no longer than AGB that a unit which is there builds and queues (10_state.md R30, 45_agent.md R158). -/
theorem State.Inv.queued (h : s.Inv) {x : List Byte} (hl : x.length ≤ s.cfg.asmSize) (ha : s.cfg.hasAgent = true) :
    (s.queued x).Inv :=
  State.Inv.push (s := s.setAgb (memWrite s.agb 0 x))
    { h with
      rings := h.rings
      readers := h.readers
      agb := memWrite_Inv (size := s.cfg.asmSize) 0 x h.agb (by omega)
      noAgent := fun hn => by
        have hn : s.cfg.hasAgent = false := hn
        rw [ha] at hn
        cases hn } _ rfl

theorem State.Inv.noteSent (h : s.Inv) (ha : s.cfg.hasAgent = true) : s.noteSent.Inv :=
  { h with
    rings := h.rings
    readers := h.readers
    uav := fun hr => by
      have hr : s.cfg.role = .uav := hr
      have := h.uav hr
      refine ⟨this.1, ?_⟩
      simp only [State.noteSent, hr, reduceCtorEq, if_false]
      exact this.2
    noAgent := fun hn => by
      have hn : s.cfg.hasAgent = false := hn
      rw [ha] at hn
      cases hn
    sent := fun _ => rfl
    unsent := fun hv => by cases hv }

theorem State.Inv.noteReceipt (h : s.Inv) (last : Nat) (hg : s.cfg.role = .gc) : (s.noteReceipt last).Inv := by
  unfold State.noteReceipt
  split
  · rename_i hm
    simp only [State.receiptMatches, Bool.and_eq_true] at hm
    exact { h with
      rings := h.rings
      readers := h.readers
      uav := fun hr => by
        have hr : s.cfg.role = .uav := hr
        rw [hg] at hr
        cases hr
      unsent := fun hv => by
        have hv : s.lastSentValid = false := hv
        rw [hm.1] at hv
        cases hv }
  · exact h

theorem State.Inv.setCmdInCtr (h : s.Inv) (v : U16) (hu : s.cfg.role = .uav) (ha : s.cfg.hasAgent = true) :
    State.Inv { s with cmdInCtr := v } :=
  { h with
    rings := h.rings
    readers := h.readers
    gc := fun hr => by
      have hr : s.cfg.role = .gc := hr
      rw [hu] at hr
      cases hr
    noAgent := fun hn => by
      have hn : s.cfg.hasAgent = false := hn
      rw [ha] at hn
      cases hn }

theorem State.Inv.advanceTm (h : s.Inv) (hg : s.cfg.role = .gc) (ha : s.cfg.hasAgent = true) : s.advanceTm.Inv :=
  { h with
    rings := h.rings
    readers := h.readers
    uav := fun hr => by
      have hr : s.cfg.role = .uav := hr
      rw [hg] at hr
      cases hr
    noAgent := fun hn => by
      have hn : s.cfg.hasAgent = false := hn
      rw [ha] at hn
      cases hn }

theorem State.Inv.pushAll (packets : List (List Nat × List Byte)) (h : s.Inv) (hg : s.cfg.role = .gc) :
    (packets.foldl (fun (u : State) a => u.push .tm a.2) s).Inv := by
  induction packets generalizing s with
  | nil => exact h
  | cons a rest ih => exact ih (h.push _ (by simp [RingSel.present, hg])) (by simpa [State.push] using hg)

theorem State.Inv.tmRescan {fuel : Nat} {ev ev' : List Event} {t : State} (h : s.Inv) (hg : s.cfg.role = .gc)
    (hr : Machine.tmRescan fuel s ev = .ok (t, ev')) : t.Inv := by
  have hp : RingSel.present s.cfg .tm = true := by simp [RingSel.present, hg]
  induction fuel generalizing s ev with
  | zero => cases hr; exact h
  | succ n ih =>
    unfold Machine.tmRescan at hr
    obtain ⟨⟨st, u⟩, hd, hr⟩ := bind_ok.1 hr
    have hu := h.discover hp hd
    have hcfg : u.cfg = s.cfg := by
      have := discover_tm_change hd
      rw [this]
    cases st
    all_goals dsimp only at hr
    all_goals first
      | (obtain ⟨e, -, hr⟩ := bind_ok.1 hr; exact ih hu (by rw [hcfg]; exact hg) hr (by rw [hcfg]; exact hp))
      | (cases hr; exact hu)
      | exact ih hu (by rw [hcfg]; exact hg) hr (by rw [hcfg]; exact hp)

/-! ### No command reads a cell without a value -/

theorem State.Inv.viewWritten (h : s.Inv) (c : RdSel) : s.scr.Written (s.reader c).cur (s.reader c).stop :=
  h.scrHeld.mono (Nat.zero_le _) (h.readers c).2.2

theorem State.Inv.frameWritten (h : s.Inv) : s.scr.Written s.frameView.cur s.frameView.stop := h.scrHeld

theorem State.Inv.assembled_ok (h : s.Inv) : ∃ bytes, s.assembled = .ok bytes := by
  have := h.frames.bounds.1
  exact memRead_written (h.asmHeld.mono (Nat.le_refl _) (by omega))

/-- A discovery cycle always ends; on OK the frame in SCR has its code. -/
theorem State.Inv.discover_goes (h : s.Inv) (r : RingSel) (sep : Nat) :
    ∃ st t, Machine.discover r sep s = .ok (st, t) ∧ (st = .ok → ∃ code, t.frameCode = .ok code) := by
  have hc : ∃ c, discoverRing (s.cap r) s.cfg.maxPacket sep (s.ring r) = .ok c := by
    rcases discoverRing_cases s.cfg.maxPacket sep (h.rings r) with ⟨-, e⟩ | ⟨g, rest, -, ⟨-, e⟩ | ⟨_, _, _, _, -, -, e⟩ |
      ⟨_, _, _, _, _, -, -, -, e⟩ | ⟨_, _, _, _, _, -, -, -, e⟩⟩
    all_goals exact ⟨_, e⟩
  obtain ⟨c, hc⟩ := hc
  have hk := (discoverRing_keeps (h.rings r) hc).2.2
  refine ⟨_, _, by unfold Machine.discover; rw [hc]; rfl, fun hst => ?_⟩
  have := (hk hst).1
  rw [if_pos hst]
  obtain ⟨bytes, hb⟩ := memRead_written (m := memWrite (s.setRing r c.ring).scr 0 c.frame) (i := 0) (n := 2)
    ((memWrite_stores _ 0 c.frame).holds.written.mono (Nat.le_refl _) (by omega))
  exact ⟨beNat bytes, by unfold State.frameCode State.loadScr; rw [hb]; rfl⟩

theorem viewBytes_written {scr : Memory} {c : Cursor} (h : scr.Written c.cur c.stop) (hc : c.cur ≤ c.stop) :
    ∃ bytes, viewBytes scr c = .ok bytes :=
  memRead_written (h.mono (Nat.le_refl _) (by unfold Cursor.avail; omega))

theorem decAddrSeq_written {scr : Memory} {fuel : Nat} {c : Cursor} (h : scr.Written c.cur c.stop) :
    decAddrSeq scr fuel c ≠ .error .noValue := by
  induction fuel generalizing c with
  | zero => intro he; cases he
  | succ n ih =>
    intro he
    unfold decAddrSeq at he
    split at he
    · cases he
    · rcases bind_error.1 he with he | ⟨d, hd, he⟩
      · exact decAddress_written h he
      · have hin := decAddress_in hd
        have h1 := hin.lo
        have h2 := hin.view
        have h3 := hin.hi
        have h4 := hin.stop
        have h5 := congrArg Cursor.stop hin.after
        dsimp only at h5
        rcases bind_error.1 he with he | ⟨bytes, -, he⟩
        · obtain ⟨bytes, hb⟩ := viewBytes_written (h.mono h1 (by omega)) h2
          rw [hb] at he
          cases he
        · rcases bind_error.1 he with he | ⟨rest, -, he⟩
          · exact ih (h.mono (by omega) (by omega)) he
          · cases he

theorem State.Inv.subFrameEvent_goes (h : s.Inv) (hc : ∃ code, s.frameCode = .ok code) :
    subFrameEvent s ≠ .error .noValue := by
  obtain ⟨code, hc⟩ := hc
  intro he
  unfold subFrameEvent at he
  rw [hc, ok_bind] at he
  dsimp only at he
  have key : ∀ (k : Kind) (kind : EventKind),
      (match decFour k s.scr s.frameView with
      | .ok d => do
        let params ← viewBytes s.scr d.payload
        return ⟨kind, d.fields.drop 1, params⟩
      | .error (.raised st) => .ok ⟨.subframeError, [statusCode st], []⟩
      | .error .noValue => .error .noValue : Res Event) ≠ .error .noValue := by
    intro k kind he
    have hw := decFour_written (k := k) h.frameWritten
    cases hd : decFour k s.scr s.frameView with
    | ok d =>
      rw [hd] at he
      have hin := decFour_in hd
      have h1 := hin.lo
      have h3 := hin.hi
      have h4 := hin.stop
      obtain ⟨bytes, hb⟩ := viewBytes_written (h.frameWritten.mono h1 (by omega)) hin.view
      dsimp only at he
      rw [hb] at he
      cases he
    | error e =>
      rw [hd] at he
      cases e with
      | raised st => cases he
      | noValue => exact hw hd
  split at he
  · exact key _ _ he
  · split at he
    · exact key _ _ he
    · cases he

theorem State.Inv.tmRescan_goes {fuel : Nat} {ev : List Event} (h : s.Inv) (hg : s.cfg.role = .gc) :
    Machine.tmRescan fuel s ev ≠ .error .noValue := by
  induction fuel generalizing s ev with
  | zero => intro he; cases he
  | succ n ih =>
    intro he
    have hp : RingSel.present s.cfg .tm = true := by simp [RingSel.present, hg]
    unfold Machine.tmRescan at he
    obtain ⟨st, u, hd, hcode⟩ := h.discover_goes .tm sepTm
    rw [hd, ok_bind] at he
    have hu := h.discover hp hd
    have hcfg : u.cfg.role = .gc := by
      have := discover_tm_change hd
      rw [this]
      exact hg
    cases st
    all_goals dsimp only at he
    all_goals first
      | (rcases bind_error.1 he with he | ⟨e, -, he⟩
         · exact hu.subFrameEvent_goes (hcode rfl) he
         · exact ih hu hcfg he)
      | cases he
      | exact ih hu hcfg he

end Sys2Proof.Machine
end

