-- ==== Sys2Proof/Laws/PerInstr.lean ====
section
/-! SUPPORT. The family TableRow: the encoding of every instruction fits a row of the opcode map (30_encoding.md R55,
R56), one lemma per instruction. -/

namespace Sys2Proof.Laws

open Sys2Proof.Machine

/-- The encoding of the instruction fits a row of the opcode map. -/
def TableRow.Statement (i : Instr) : Prop := ∃ row ∈ opRows, row.accepts (encode i)

/-- A row accepts the command with these fields. -/
theorem accepts_fields {row : OpRow} {op : BitVec 8} {tgt mod : BitVec 4} {imm : BitVec 16} {v : List U64} {d : List Byte}
    (h1 : op.toNat = row.op) (h2 : tgt.toNat < row.tgt.count) (h3 : mod.toNat < (if row.mod then 4 else 1))
    (h4 : imm.toNat < (if row.imm then 2 ^ 8 else 1))
    (h5 : List.Forall₂ (fun (x : U64) (w : Nat) => x.toNat < 2 ^ w) v row.v) (h6 : row.data = false → d = []) :
    row.accepts ⟨cmdWord op tgt mod imm, v, d⟩ := by
  have e1 := op_toNat ⟨cmdWord op tgt mod imm, v, d⟩
  have e2 := tgt_toNat ⟨cmdWord op tgt mod imm, v, d⟩
  have e3 := mod_toNat ⟨cmdWord op tgt mod imm, v, d⟩
  have e4 := imm_toNat ⟨cmdWord op tgt mod imm, v, d⟩
  rw [cmdWord_op] at e1
  rw [cmdWord_tgt] at e2
  rw [cmdWord_mod] at e3
  rw [cmdWord_imm] at e4
  unfold OpRow.accepts
  rw [← e1, ← e2, ← e3, ← e4]
  exact ⟨h1, h2, h3, h4, h5, h6⟩

theorem ring_field_lt (r : RingSel) : r.field.toNat < 3 := by cases r <;> decide

theorem reader_field_lt (c : RdSel) : c.field.toNat < 4 := by cases c <;> decide

theorem target_field_lt (t : CurTarget) : t.field.toNat < 5 := by
  cases t with
  | w0 => decide
  | rd c => cases c <;> decide

/-- Operands of 64 bits fit the rows that take them. -/
theorem operands_fit (v : List U64) :
    List.Forall₂ (fun (x : U64) (w : Nat) => x.toNat < 2 ^ w) v (List.replicate v.length 64) := by
  induction v with
  | nil => exact .nil
  | cons x xs ih => exact .cons x.isLt ih

/-- A narrow operand fits the row that takes it. -/
theorem operand_fits {w : Nat} (x : BitVec w) :
    List.Forall₂ (fun (x : U64) (w : Nat) => x.toNat < 2 ^ w) [x.setWidth 64] [w] := by
  refine .cons ?_ .nil
  rw [BitVec.toNat_setWidth]
  exact lt_of_le_of_lt (Nat.mod_le _ _) x.isLt

theorem TableRow.regRd (index : BitVec 8) : TableRow.Statement (.regRd index) :=
  ⟨⟨0x01, .unused, false, true, [], false⟩, by decide,
    accepts_fields rfl (by decide) (by decide) (by rw [BitVec.toNat_setWidth]; exact lt_of_le_of_lt (Nat.mod_le _ _) index.isLt) .nil (fun _ => rfl)⟩

theorem TableRow.rbWrite (r : RingSel) (data : List Byte) : TableRow.Statement (.rbWrite r data) :=
  ⟨⟨0x10, .ring, false, false, [], true⟩, by decide,
    accepts_fields rfl (ring_field_lt r) (by decide) (by decide) .nil (by simp)⟩

theorem TableRow.rbPeek (r : RingSel) (size offset : U64) : TableRow.Statement (.rbPeek r size offset) :=
  ⟨⟨0x11, .ring, false, false, [64, 64], false⟩, by decide,
    accepts_fields rfl (ring_field_lt r) (by decide) (by decide) (operands_fit _) (fun _ => rfl)⟩

theorem TableRow.rbRead (r : RingSel) (size : U64) : TableRow.Statement (.rbRead r size) :=
  ⟨⟨0x12, .ring, false, false, [64], false⟩, by decide,
    accepts_fields rfl (ring_field_lt r) (by decide) (by decide) (operands_fit _) (fun _ => rfl)⟩

theorem TableRow.rbErase (r : RingSel) (size : U64) : TableRow.Statement (.rbErase r size) :=
  ⟨⟨0x13, .ring, false, false, [64], false⟩, by decide,
    accepts_fields rfl (ring_field_lt r) (by decide) (by decide) (operands_fit _) (fun _ => rfl)⟩

theorem TableRow.rbStatus (r : RingSel) : TableRow.Statement (.rbStatus r) :=
  ⟨⟨0x14, .ring, false, false, [], false⟩, by decide,
    accepts_fields rfl (ring_field_lt r) (by decide) (by decide) .nil (fun _ => rfl)⟩

theorem TableRow.curSet (t : CurTarget) (start stop : U64) : TableRow.Statement (.curSet t start stop) :=
  ⟨⟨0x20, .cursor, false, false, [64, 64], false⟩, by decide,
    accepts_fields rfl (target_field_lt t) (by decide) (by decide) (operands_fit _) (fun _ => rfl)⟩

theorem TableRow.scrLoad (data : List Byte) : TableRow.Statement (.scrLoad data) :=
  ⟨⟨0x21, .unused, false, false, [], true⟩, by decide,
    accepts_fields rfl (by decide) (by decide) (by decide) .nil (by simp)⟩

theorem TableRow.rdU8 (c : RdSel) : TableRow.Statement (.rdU8 c) :=
  ⟨⟨0x22, .reader, false, false, [], false⟩, by decide,
    accepts_fields rfl (reader_field_lt c) (by decide) (by decide) .nil (fun _ => rfl)⟩

theorem TableRow.rdU16be (c : RdSel) : TableRow.Statement (.rdU16be c) :=
  ⟨⟨0x23, .reader, false, false, [], false⟩, by decide,
    accepts_fields rfl (reader_field_lt c) (by decide) (by decide) .nil (fun _ => rfl)⟩

theorem TableRow.rdU16le (c : RdSel) : TableRow.Statement (.rdU16le c) :=
  ⟨⟨0x24, .reader, false, false, [], false⟩, by decide,
    accepts_fields rfl (reader_field_lt c) (by decide) (by decide) .nil (fun _ => rfl)⟩

theorem TableRow.rdU32be (c : RdSel) : TableRow.Statement (.rdU32be c) :=
  ⟨⟨0x25, .reader, false, false, [], false⟩, by decide,
    accepts_fields rfl (reader_field_lt c) (by decide) (by decide) .nil (fun _ => rfl)⟩

theorem TableRow.rdU32le (c : RdSel) : TableRow.Statement (.rdU32le c) :=
  ⟨⟨0x26, .reader, false, false, [], false⟩, by decide,
    accepts_fields rfl (reader_field_lt c) (by decide) (by decide) .nil (fun _ => rfl)⟩

theorem TableRow.rdU64be (c : RdSel) : TableRow.Statement (.rdU64be c) :=
  ⟨⟨0x27, .reader, false, false, [], false⟩, by decide,
    accepts_fields rfl (reader_field_lt c) (by decide) (by decide) .nil (fun _ => rfl)⟩

theorem TableRow.rdU64le (c : RdSel) : TableRow.Statement (.rdU64le c) :=
  ⟨⟨0x28, .reader, false, false, [], false⟩, by decide,
    accepts_fields rfl (reader_field_lt c) (by decide) (by decide) .nil (fun _ => rfl)⟩

theorem TableRow.rdBer (c : RdSel) : TableRow.Statement (.rdBer c) :=
  ⟨⟨0x29, .reader, false, false, [], false⟩, by decide,
    accepts_fields rfl (reader_field_lt c) (by decide) (by decide) .nil (fun _ => rfl)⟩

theorem TableRow.rdSlice (src dst : RdSel) (len : U64) : TableRow.Statement (.rdSlice src dst len) :=
  ⟨⟨0x2A, .reader, true, false, [64], false⟩, by decide,
    accepts_fields rfl (reader_field_lt src) (reader_field_lt dst) (by decide) (operands_fit _) (fun _ => rfl)⟩

theorem TableRow.rdBytes (c : RdSel) (n : U64) : TableRow.Statement (.rdBytes c n) :=
  ⟨⟨0x2B, .reader, false, false, [64], false⟩, by decide,
    accepts_fields rfl (reader_field_lt c) (by decide) (by decide) (operands_fit _) (fun _ => rfl)⟩

theorem TableRow.wrU8 (value : BitVec 8) : TableRow.Statement (.wrU8 value) :=
  ⟨⟨0x30, .unused, false, false, [8], false⟩, by decide,
    accepts_fields rfl (by decide) (by decide) (by decide) (operand_fits value) (fun _ => rfl)⟩

theorem TableRow.wrU16be (value : BitVec 16) : TableRow.Statement (.wrU16be value) :=
  ⟨⟨0x31, .unused, false, false, [16], false⟩, by decide,
    accepts_fields rfl (by decide) (by decide) (by decide) (operand_fits value) (fun _ => rfl)⟩

theorem TableRow.wrU16le (value : BitVec 16) : TableRow.Statement (.wrU16le value) :=
  ⟨⟨0x32, .unused, false, false, [16], false⟩, by decide,
    accepts_fields rfl (by decide) (by decide) (by decide) (operand_fits value) (fun _ => rfl)⟩

theorem TableRow.wrU32be (value : BitVec 32) : TableRow.Statement (.wrU32be value) :=
  ⟨⟨0x33, .unused, false, false, [32], false⟩, by decide,
    accepts_fields rfl (by decide) (by decide) (by decide) (operand_fits value) (fun _ => rfl)⟩

theorem TableRow.wrU32le (value : BitVec 32) : TableRow.Statement (.wrU32le value) :=
  ⟨⟨0x34, .unused, false, false, [32], false⟩, by decide,
    accepts_fields rfl (by decide) (by decide) (by decide) (operand_fits value) (fun _ => rfl)⟩

theorem TableRow.wrU64be (value : U64) : TableRow.Statement (.wrU64be value) :=
  ⟨⟨0x35, .unused, false, false, [64], false⟩, by decide,
    accepts_fields rfl (by decide) (by decide) (by decide) (operands_fit _) (fun _ => rfl)⟩

theorem TableRow.wrU64le (value : U64) : TableRow.Statement (.wrU64le value) :=
  ⟨⟨0x36, .unused, false, false, [64], false⟩, by decide,
    accepts_fields rfl (by decide) (by decide) (by decide) (operands_fit _) (fun _ => rfl)⟩

theorem TableRow.wrBer (value : U64) : TableRow.Statement (.wrBer value) :=
  ⟨⟨0x37, .unused, false, false, [64], false⟩, by decide,
    accepts_fields rfl (by decide) (by decide) (by decide) (operands_fit _) (fun _ => rfl)⟩

theorem TableRow.wrBytes (data : List Byte) : TableRow.Statement (.wrBytes data) :=
  ⟨⟨0x38, .unused, false, false, [], true⟩, by decide,
    accepts_fields rfl (by decide) (by decide) (by decide) .nil (by simp)⟩

theorem TableRow.asmTake : TableRow.Statement .asmTake :=
  ⟨⟨0x39, .unused, false, false, [], false⟩, by decide,
    accepts_fields rfl (by decide) (by decide) (by decide) .nil (fun _ => rfl)⟩

theorem TableRow.asmCommit (r : RingSel) : TableRow.Statement (.asmCommit r) :=
  ⟨⟨0x3A, .ring, false, false, [], false⟩, by decide,
    accepts_fields rfl (ring_field_lt r) (by decide) (by decide) .nil (fun _ => rfl)⟩

theorem TableRow.discover (r : RingSel) : TableRow.Statement (.discover r) :=
  ⟨⟨0x40, .ring, false, false, [], false⟩, by decide,
    accepts_fields rfl (ring_field_lt r) (by decide) (by decide) .nil (fun _ => rfl)⟩

theorem TableRow.decCmdmsg (src dst : RdSel) : TableRow.Statement (.decCmdmsg src dst) :=
  ⟨⟨0x50, .reader, true, false, [], false⟩, by decide,
    accepts_fields rfl (reader_field_lt src) (reader_field_lt dst) (by decide) .nil (fun _ => rfl)⟩

theorem TableRow.decCmdresult (src dst : RdSel) : TableRow.Statement (.decCmdresult src dst) :=
  ⟨⟨0x51, .reader, true, false, [], false⟩, by decide,
    accepts_fields rfl (reader_field_lt src) (reader_field_lt dst) (by decide) .nil (fun _ => rfl)⟩

theorem TableRow.decTmstatus (src dst : RdSel) : TableRow.Statement (.decTmstatus src dst) :=
  ⟨⟨0x52, .reader, true, false, [], false⟩, by decide,
    accepts_fields rfl (reader_field_lt src) (reader_field_lt dst) (by decide) .nil (fun _ => rfl)⟩

theorem TableRow.decTmevent (src dst : RdSel) : TableRow.Statement (.decTmevent src dst) :=
  ⟨⟨0x53, .reader, true, false, [], false⟩, by decide,
    accepts_fields rfl (reader_field_lt src) (reader_field_lt dst) (by decide) .nil (fun _ => rfl)⟩

theorem TableRow.decAddress (src dst : RdSel) : TableRow.Statement (.decAddress src dst) :=
  ⟨⟨0x54, .reader, true, false, [], false⟩, by decide,
    accepts_fields rfl (reader_field_lt src) (reader_field_lt dst) (by decide) .nil (fun _ => rfl)⟩

theorem TableRow.decExchange (src dst : RdSel) : TableRow.Statement (.decExchange src dst) :=
  ⟨⟨0x55, .reader, true, false, [], false⟩, by decide,
    accepts_fields rfl (reader_field_lt src) (reader_field_lt dst) (by decide) .nil (fun _ => rfl)⟩

theorem TableRow.decCounteradj (src : RdSel) : TableRow.Statement (.decCounteradj src) :=
  ⟨⟨0x56, .reader, false, false, [], false⟩, by decide,
    accepts_fields rfl (reader_field_lt src) (by decide) (by decide) .nil (fun _ => rfl)⟩

theorem TableRow.decReceipt (src : RdSel) : TableRow.Statement (.decReceipt src) :=
  ⟨⟨0x57, .reader, false, false, [], false⟩, by decide,
    accepts_fields rfl (reader_field_lt src) (by decide) (by decide) .nil (fun _ => rfl)⟩

theorem TableRow.beginCmdmsg : TableRow.Statement .beginCmdmsg :=
  ⟨⟨0x60, .unused, false, false, [], false⟩, by decide,
    accepts_fields rfl (by decide) (by decide) (by decide) .nil (fun _ => rfl)⟩

theorem TableRow.beginCmdresult : TableRow.Statement .beginCmdresult :=
  ⟨⟨0x61, .unused, false, false, [], false⟩, by decide,
    accepts_fields rfl (by decide) (by decide) (by decide) .nil (fun _ => rfl)⟩

theorem TableRow.beginTmstatus (seg max comp msg : U64) : TableRow.Statement (.beginTmstatus seg max comp msg) :=
  ⟨⟨0x62, .unused, false, false, [64, 64, 64, 64], false⟩, by decide,
    accepts_fields rfl (by decide) (by decide) (by decide) (operands_fit _) (fun _ => rfl)⟩

theorem TableRow.beginTmevent (comp msg event ts : U64) : TableRow.Statement (.beginTmevent comp msg event ts) :=
  ⟨⟨0x63, .unused, false, false, [64, 64, 64, 64], false⟩, by decide,
    accepts_fields rfl (by decide) (by decide) (by decide) (operands_fit _) (fun _ => rfl)⟩

theorem TableRow.beginAddress (at_ src sc dc da sg dg tst ts : U64) :
    TableRow.Statement (.beginAddress at_ src sc dc da sg dg tst ts) :=
  ⟨⟨0x64, .unused, false, false, [64, 64, 64, 64, 64, 64, 64, 64, 64], false⟩, by decide,
    accepts_fields rfl (by decide) (by decide) (by decide) (operands_fit _) (fun _ => rfl)⟩

theorem TableRow.beginExchange (st ect ws seq : U64) : TableRow.Statement (.beginExchange st ect ws seq) :=
  ⟨⟨0x65, .unused, false, false, [64, 64, 64, 64], false⟩, by decide,
    accepts_fields rfl (by decide) (by decide) (by decide) (operands_fit _) (fun _ => rfl)⟩

theorem TableRow.beginCounteradj (st ect ctr : U64) : TableRow.Statement (.beginCounteradj st ect ctr) :=
  ⟨⟨0x66, .unused, false, false, [64, 64, 64], false⟩, by decide,
    accepts_fields rfl (by decide) (by decide) (by decide) (operands_fit _) (fun _ => rfl)⟩

theorem TableRow.beginReceipt (st ect last : U64) : TableRow.Statement (.beginReceipt st ect last) :=
  ⟨⟨0x67, .unused, false, false, [64, 64, 64], false⟩, by decide,
    accepts_fields rfl (by decide) (by decide) (by decide) (operands_fit _) (fun _ => rfl)⟩

theorem TableRow.endFrame : TableRow.Statement .endFrame :=
  ⟨⟨0x68, .unused, false, false, [], false⟩, by decide,
    accepts_fields rfl (by decide) (by decide) (by decide) .nil (fun _ => rfl)⟩

theorem TableRow.agHandle : TableRow.Statement .agHandle :=
  ⟨⟨0x70, .unused, false, false, [], false⟩, by decide,
    accepts_fields rfl (by decide) (by decide) (by decide) .nil (fun _ => rfl)⟩

theorem TableRow.agSendNetwork (ws src sc dc da tst ts : U64) (payload : List Byte) :
    TableRow.Statement (.agSendNetwork ws src sc dc da tst ts payload) :=
  ⟨⟨0x71, .unused, false, false, [64, 64, 64, 64, 64, 64, 64], true⟩, by decide,
    accepts_fields rfl (by decide) (by decide) (by decide) (operands_fit _) (by simp)⟩

theorem TableRow.agSendGroup (ws src sc dc da sg dg tst ts : U64) (payload : List Byte) :
    TableRow.Statement (.agSendGroup ws src sc dc da sg dg tst ts payload) :=
  ⟨⟨0x72, .unused, false, false, [64, 64, 64, 64, 64, 64, 64, 64, 64], true⟩, by decide,
    accepts_fields rfl (by decide) (by decide) (by decide) (operands_fit _) (by simp)⟩

theorem TableRow.agSendMulticast (ws src sc dc tst ts : U64) (payload : List Byte) :
    TableRow.Statement (.agSendMulticast ws src sc dc tst ts payload) :=
  ⟨⟨0x73, .unused, false, false, [64, 64, 64, 64, 64, 64], true⟩, by decide,
    accepts_fields rfl (by decide) (by decide) (by decide) (operands_fit _) (by simp)⟩

end Sys2Proof.Laws
end

