-- ==== Sys2Proof/Tests/Slice0.lean ====
section
/-! SUPPORT. Tests of the model: decoded words written out from 30_encoding.md R54 and R56, refused terms, single commands
with the responses of 95_test_vectors.md, and for each statement with hypotheses a state and operands that meet them. -/

namespace Sys2Proof.Tests

open Sys2Proof.Machine

/-! ### States the tests start from -/

/-- The test configuration of 95_test_vectors.md §0. -/
def cfg (role : Role) : Config :=
  { role := role, maxPacket := 1024, kIn := 1, kOut := 1, kTm := 1, outEct := .crc16, hasAgent := true, trailer := .zero }

def uav : State := State.resetOf (cfg .uav)

def gc : State := State.resetOf (cfg .gc)

/-- A Uav without the agent unit. -/
def bare : State := State.resetOf { cfg .uav with hasAgent := false }

/-- The stand-alone test ring of 95_test_vectors.md §2.2, as ring IN. -/
def ring8 (data : Memory) (rd wr free : Nat) : State :=
  { State.resetOf { cfg .uav with maxPacket := 8 } with inRing := ⟨data, rd, wr, free⟩ }

/-- `bytes` in SCR, R0 over them. -/
def loaded (bytes : List Byte) : State := uav.loadScr bytes

/-- `bytes` in ASM, W0 behind them with `stop` cells, the open frames `fs`. -/
def writing (bytes : List Byte) (stop : Nat) (fs : List FrameEntry) : State :=
  { uav with asm := memWrite [] 0 bytes, w0 := ⟨0, bytes.length, stop⟩, fstack := fs }

def reply : Out → Option Response
  | .next t => t.resp
  | _ => none

/-- `f` of the next state. -/
def after {α : Type} (f : State → α) : Out → Option α
  | .next t => some (f t)
  | _ => none

def ok (result : List Nat) : Option Response := some ⟨.ok, result, [], []⟩

def fails (st : Status) : Option Response := some ⟨st, [], [], []⟩

/-- F26(n), CA(n), RC(n), TS9 and T30(n) of 95_test_vectors.md §0. -/
def f26 (n : Byte) : List Byte :=
  [0x6C, 0x5A, 0x17, 1, 0, 1, 0x10, n, 0xAC, 0x5E, 0x0D, 4, 1, 2, 3, 5, 0, 0, 0x0C, 0x65, 3, 0xAA, 0xBB, 0xCC, 0, 0]

def ca (n : Byte) : List Byte := [0x6C, 0x5B, 6, 1, 0, 1, n, 0, 0]

def rc (n : Byte) : List Byte := [0x3C, 0x5C, 6, 1, 0, 1, n, 0, 0]

def ts9 : List Byte := [0x1C, 0x72, 6, 0, 1, 7, 2, 0xDE, 0xAD]

def t30 (n : Byte) : List Byte :=
  [0x6C, 0x5A, 0x1B, 1, 1, 1, 0x10, n, 0xAC, 0x5E, 0x11, 3, 1, 2, 3, 0, 0, 4, 0x3D] ++ ts9 ++ [0, 0]

/-- The payload of F26's AddressPacket. -/
def cmd6 : List Byte := [0x0C, 0x65, 3, 0xAA, 0xBB, 0xCC]

/-- The AddressPacket of F26 and that of T30. -/
def address16 : List Byte := [0xAC, 0x5E, 0x0D, 4, 1, 2, 3, 5, 0, 0] ++ cmd6

def address20 : List Byte := [0xAC, 0x5E, 0x11, 3, 1, 2, 3, 0, 0, 4, 0x3D] ++ ts9

/-- A Uav and a Gc whose IN holds a separator and `bytes`. -/
def uavGets (bytes : List Byte) : State := uav.push .inb ([0x4F, 0x07] ++ bytes)

def gcGets (bytes : List Byte) : State := gc.push .inb ([0xAC, 0xAC] ++ bytes)

/-! ### Decoding: the word of every command, from the fields of 30_encoding.md R54 and the map of R56 -/

theorem test_decode_reg_rd : decode ⟨0b00000001_0000_0000_0000000001100100, [], []⟩ = .ok (.regRd 0x64) := rfl

theorem test_decode_rings :
    decode ⟨0b00010000_0010_0000_0000000000000000, [], [1, 2]⟩ = .ok (.rbWrite .tm [1, 2]) ∧
    decode ⟨0b00010001_0001_0000_0000000000000000, [2, 1], []⟩ = .ok (.rbPeek .outb 2 1) ∧
    decode ⟨0b00010010_0000_0000_0000000000000000, [28], []⟩ = .ok (.rbRead .inb 28) ∧
    decode ⟨0b00010011_0001_0000_0000000000000000, [1], []⟩ = .ok (.rbErase .outb 1) ∧
    decode ⟨0b00010100_0001_0000_0000000000000000, [], []⟩ = .ok (.rbStatus .outb) ∧
    decode ⟨0b00111010_0001_0000_0000000000000000, [], []⟩ = .ok (.asmCommit .outb) ∧
    decode ⟨0b01000000_0010_0000_0000000000000000, [], []⟩ = .ok (.discover .tm) :=
  ⟨rfl, rfl, rfl, rfl, rfl, rfl, rfl⟩

theorem test_decode_cursors :
    decode ⟨0b00100000_0100_0000_0000000000000000, [0, 131], []⟩ = .ok (.curSet .w0 0 131) ∧
    decode ⟨0b00100000_0011_0000_0000000000000000, [1, 4], []⟩ = .ok (.curSet (.rd .r3) 1 4) ∧
    decode ⟨0b00100001_0000_0000_0000000000000000, [], [0x81, 0xFF]⟩ = .ok (.scrLoad [0x81, 0xFF]) ∧
    decode ⟨0b00101010_0000_0010_0000000000000000, [3], []⟩ = .ok (.rdSlice .r0 .r2 3) ∧
    decode ⟨0b00101011_0011_0000_0000000000000000, [3], []⟩ = .ok (.rdBytes .r3 3) ∧
    decode ⟨0b00111000_0000_0000_0000000000000000, [], [0xEE]⟩ = .ok (.wrBytes [0xEE]) ∧
    decode ⟨0b00111001_0000_0000_0000000000000000, [], []⟩ = .ok .asmTake :=
  ⟨rfl, rfl, rfl, rfl, rfl, rfl, rfl⟩

theorem test_decode_reads :
    decode ⟨0b00100010_0001_0000_0000000000000000, [], []⟩ = .ok (.rdU8 .r1) ∧
    decode ⟨0b00100011_0001_0000_0000000000000000, [], []⟩ = .ok (.rdU16be .r1) ∧
    decode ⟨0b00100100_0001_0000_0000000000000000, [], []⟩ = .ok (.rdU16le .r1) ∧
    decode ⟨0b00100101_0010_0000_0000000000000000, [], []⟩ = .ok (.rdU32be .r2) ∧
    decode ⟨0b00100110_0010_0000_0000000000000000, [], []⟩ = .ok (.rdU32le .r2) ∧
    decode ⟨0b00100111_0010_0000_0000000000000000, [], []⟩ = .ok (.rdU64be .r2) ∧
    decode ⟨0b00101000_0011_0000_0000000000000000, [], []⟩ = .ok (.rdU64le .r3) ∧
    decode ⟨0b00101001_0011_0000_0000000000000000, [], []⟩ = .ok (.rdBer .r3) :=
  ⟨rfl, rfl, rfl, rfl, rfl, rfl, rfl, rfl⟩

theorem test_decode_writes :
    decode ⟨0b00110000_0000_0000_0000000000000000, [0xFF], []⟩ = .ok (.wrU8 0xFF) ∧
    decode ⟨0b00110001_0000_0000_0000000000000000, [0x4f07], []⟩ = .ok (.wrU16be 0x4f07) ∧
    decode ⟨0b00110010_0000_0000_0000000000000000, [0xFFFF], []⟩ = .ok (.wrU16le 0xFFFF) ∧
    decode ⟨0b00110011_0000_0000_0000000000000000, [0x9ABCDEF0], []⟩ = .ok (.wrU32be 0x9ABCDEF0) ∧
    decode ⟨0b00110100_0000_0000_0000000000000000, [0xFFFFFFFF], []⟩ = .ok (.wrU32le 0xFFFFFFFF) ∧
    decode ⟨0b00110101_0000_0000_0000000000000000, [0x0102030405060708], []⟩ = .ok (.wrU64be 0x0102030405060708) ∧
    decode ⟨0b00110110_0000_0000_0000000000000000, [0xFFFFFFFFFFFFFFFF], []⟩ = .ok (.wrU64le 0xFFFFFFFFFFFFFFFF) ∧
    decode ⟨0b00110111_0000_0000_0000000000000000, [128], []⟩ = .ok (.wrBer 128) :=
  ⟨rfl, rfl, rfl, rfl, rfl, rfl, rfl, rfl⟩

theorem test_decode_decoders :
    decode ⟨0b01010000_0010_0011_0000000000000000, [], []⟩ = .ok (.decCmdmsg .r2 .r3) ∧
    decode ⟨0b01010001_0000_0001_0000000000000000, [], []⟩ = .ok (.decCmdresult .r0 .r1) ∧
    decode ⟨0b01010010_0000_0001_0000000000000000, [], []⟩ = .ok (.decTmstatus .r0 .r1) ∧
    decode ⟨0b01010011_0000_0001_0000000000000000, [], []⟩ = .ok (.decTmevent .r0 .r1) ∧
    decode ⟨0b01010100_0001_0010_0000000000000000, [], []⟩ = .ok (.decAddress .r1 .r2) ∧
    decode ⟨0b01010101_0000_0001_0000000000000000, [], []⟩ = .ok (.decExchange .r0 .r1) ∧
    decode ⟨0b01010110_0010_0000_0000000000000000, [], []⟩ = .ok (.decCounteradj .r2) ∧
    decode ⟨0b01010111_0011_0000_0000000000000000, [], []⟩ = .ok (.decReceipt .r3) :=
  ⟨rfl, rfl, rfl, rfl, rfl, rfl, rfl, rfl⟩

theorem test_decode_encoders :
    decode ⟨0b01100000_0000_0000_0000000000000000, [], []⟩ = .ok .beginCmdmsg ∧
    decode ⟨0b01100001_0000_0000_0000000000000000, [], []⟩ = .ok .beginCmdresult ∧
    decode ⟨0b01100010_0000_0000_0000000000000000, [0, 1, 7, 2], []⟩ = .ok (.beginTmstatus 0 1 7 2) ∧
    decode ⟨0b01100011_0000_0000_0000000000000000, [7, 3, 9, 0], []⟩ = .ok (.beginTmevent 7 3 9 0) ∧
    decode ⟨0b01100100_0000_0000_0000000000000000, [6, 1, 2, 3, 5, 7, 8, 9, 10], []⟩ =
      .ok (.beginAddress 6 1 2 3 5 7 8 9 10) ∧
    decode ⟨0b01100101_0000_0000_0000000000000000, [0, 1, 16, 5], []⟩ = .ok (.beginExchange 0 1 16 5) ∧
    decode ⟨0b01100110_0000_0000_0000000000000000, [0, 1, 3], []⟩ = .ok (.beginCounteradj 0 1 3) ∧
    decode ⟨0b01100111_0000_0000_0000000000000000, [0, 1, 5], []⟩ = .ok (.beginReceipt 0 1 5) ∧
    decode ⟨0b01101000_0000_0000_0000000000000000, [], []⟩ = .ok .endFrame :=
  ⟨rfl, rfl, rfl, rfl, rfl, rfl, rfl, rfl, rfl⟩

theorem test_decode_agent :
    decode ⟨0b01110000_0000_0000_0000000000000000, [], []⟩ = .ok .agHandle ∧
    decode ⟨0b01110001_0000_0000_0000000000000000, [16, 1, 2, 3, 5, 6, 7], [9]⟩ =
      .ok (.agSendNetwork 16 1 2 3 5 6 7 [9]) ∧
    decode ⟨0b01110010_0000_0000_0000000000000000, [16, 1, 2, 3, 5, 7, 8, 9, 10], []⟩ =
      .ok (.agSendGroup 16 1 2 3 5 7 8 9 10 []) ∧
    decode ⟨0b01110011_0000_0000_0000000000000000, [16, 1, 2, 3, 9, 10], [4]⟩ =
      .ok (.agSendMulticast 16 1 2 3 9 10 [4]) :=
  ⟨rfl, rfl, rfl, rfl⟩

/-! ### Refused terms: one for each check of the decoder (30_encoding.md R55, R57) and of WellFormed -/

theorem test_decode_refuses :
    decode ⟨0x00000000, [], []⟩ = .error .unassignedOpcode ∧
    decode ⟨0xFF000000, [], []⟩ = .error .unassignedOpcode ∧
    decode ⟨0x01000100, [], []⟩ = .error .unusedFieldNonZero ∧
    decode ⟨0x22010000, [], []⟩ = .error .unusedFieldNonZero ∧
    decode ⟨0x22400000, [], []⟩ = .error .targetOutOfRange ∧
    decode ⟨0x10300000, [], []⟩ = .error .targetOutOfRange ∧
    decode ⟨0x20500000, [0, 0], []⟩ = .error .targetOutOfRange ∧
    decode ⟨0x2A040000, [0], []⟩ = .error .modOutOfRange ∧
    decode ⟨0x12000000, [], []⟩ = .error .operandCount ∧
    decode ⟨0x30000000, [0x100], []⟩ = .error .operandRange ∧
    decode ⟨0x39000000, [], [1]⟩ = .error .dataNotTaken :=
  ⟨rfl, rfl, rfl, rfl, rfl, rfl, rfl, rfl, rfl, rfl, rfl⟩

theorem test_wellFormed_refuses_the_tm_ring_on_a_uav :
    (Instr.discover .tm).wellFormed (cfg .uav) = false ∧ (Instr.discover .tm).wellFormed (cfg .gc) = true := by decide

theorem test_wellFormed_refuses_absent_registers :
    (Instr.regRd 0x07).wellFormed (cfg .gc) = false ∧ (Instr.regRd 0x43).wellFormed (cfg .gc) = false ∧
    (Instr.regRd 0x61).wellFormed (cfg .uav) = false ∧ (Instr.regRd 0x60).wellFormed (cfg .gc) = false ∧
    (Instr.regRd 0x12).wellFormed (cfg .uav) = false := by decide

theorem test_wellFormed_refuses_a_long_scr_load :
    (Instr.scrLoad (List.replicate 1025 0)).wellFormed (cfg .uav) = false := by decide +kernel

theorem test_wellFormed_refuses_agent_commands_without_the_unit :
    Instr.agHandle.wellFormed bare.cfg = false ∧ (Instr.regRd 0x62).wellFormed bare.cfg = false := by decide

/-! ### REG_RD (95_test_vectors.md §2.6) -/

theorem test_reg_rd_w0_end : reply (exec (.regRd 0x52) uav) = ok [1026] := by decide

theorem test_reg_rd_absent : reply (exec (.regRd 0x61) uav) = fails .illegalCommand := by decide

/-! ### Rings (95_test_vectors.md §2.2; the numbers are its steps) -/

/-- Cells 0 .. 7 after steps 4, 6, 10. -/
def cells4 : Memory := memWrite [] 0 [1, 2, 3]
def cells6 : Memory := memWrite [] 0 [9, 0xA, 0xB, 0xC, 5, 6, 7, 8]
def cells10 : Memory := memWrite [] 0 [0x16, 0x17, 0x18, 0x19, 0x12, 0x13, 0x14, 0x15]

theorem test_rb_write_wraps_5 :
    after (·.inRing) (exec (.rbWrite .inb [4, 5, 6, 7, 8, 9, 0xA]) (ring8 cells4 2 3 7)) =
      some ⟨memWrite [] 0 [9, 0xA, 3, 4, 5, 6, 7, 8], 2, 2, 0⟩ := by decide

theorem test_rb_write_longer_than_the_ring_9 :
    after (·.inRing) (exec (.rbWrite .inb [0x10, 0x11, 0x12, 0x13, 0x14, 0x15, 0x16, 0x17, 0x18, 0x19])
      (ring8 cells6 4 4 8)) = some ⟨cells10, 4, 4, 0⟩ := by decide

theorem test_rb_peek_10 :
    reply (exec (.rbPeek .inb 8 0) (ring8 cells10 4 4 0)) =
      some ⟨.ok, [], [0x12, 0x13, 0x14, 0x15, 0x16, 0x17, 0x18, 0x19], []⟩ := by decide

theorem test_rb_peek_out_of_range_14 :
    reply (exec (.rbPeek .inb 0 6) (ring8 cells10 7 4 3)) = fails .outOfRange := by decide

theorem test_rb_read_7 :
    reply (exec (.rbRead .inb 8) (ring8 cells6 4 4 0)) = some ⟨.ok, [], [5, 6, 7, 8, 9, 0xA, 0xB, 0xC], []⟩ ∧
    after (·.inRing) (exec (.rbRead .inb 8) (ring8 cells6 4 4 0)) = some ⟨cells6, 4, 4, 8⟩ := by decide

theorem test_rb_erase_12 :
    after (·.inRing) (exec (.rbErase .inb 3) (ring8 cells10 4 4 0)) = some ⟨cells10, 7, 4, 3⟩ := by decide

theorem test_rb_erase_out_of_range_8 :
    reply (exec (.rbErase .inb 1) (ring8 cells6 4 4 8)) = fails .outOfRange := by decide

theorem test_rb_status_17 : reply (exec (.rbStatus .inb) (ring8 cells10 7 4 3)) = ok [5, 3] := by decide

/-! ### Cursors, fields and BER values (95_test_vectors.md §2.1) -/

theorem test_cur_set :
    after (·.r1) (exec (.curSet (.rd .r1) 1 4) (loaded [1, 2, 3, 4, 5])) = some ⟨1, 1, 4⟩ ∧
    reply (exec (.curSet (.rd .r1) 1 6) (loaded [1, 2, 3, 4, 5])) = fails .outOfRange := by decide

theorem test_cur_set_writer :
    reply (exec (.curSet .w0 0 1027) uav) = fails .outOfRange ∧
    after (·.w0) (exec (.curSet .w0 0 3) uav) = some ⟨0, 0, 3⟩ := by decide

theorem test_scr_load :
    after (fun t => (t.scr, t.scrLen, t.r0, t.r1)) (exec (.scrLoad [0x81, 0xFF]) (loaded [1, 2, 3])) =
      some ([(0, 0x81), (1, 0xFF), (2, 3)], 2, ⟨0, 0, 2⟩, ⟨0, 0, 0⟩) := by decide

/-- The 8 bytes of vector A. -/
def eight : State := loaded [0x12, 0x34, 0x56, 0x78, 0x9A, 0xBC, 0xDE, 0xF0]

theorem test_fixed_width_reads :
    reply (exec (.rdU8 .r0) eight) = ok [0x12] ∧ reply (exec (.rdU16be .r0) eight) = ok [0x1234] ∧
    reply (exec (.rdU16le .r0) eight) = ok [0x3412] ∧ reply (exec (.rdU32be .r0) eight) = ok [0x12345678] ∧
    reply (exec (.rdU32le .r0) eight) = ok [0x78563412] ∧
    reply (exec (.rdU64be .r0) eight) = ok [0x123456789ABCDEF0] ∧
    reply (exec (.rdU64le .r0) eight) = ok [0xF0DEBC9A78563412] := by decide

theorem test_fixed_width_reads_advance :
    after (·.r0) (exec (.rdU8 .r0) eight) = some ⟨0, 1, 8⟩ ∧ after (·.r0) (exec (.rdU16be .r0) eight) = some ⟨0, 2, 8⟩ ∧
    after (·.r0) (exec (.rdU16le .r0) eight) = some ⟨0, 2, 8⟩ ∧ after (·.r0) (exec (.rdU32be .r0) eight) = some ⟨0, 4, 8⟩ ∧
    after (·.r0) (exec (.rdU32le .r0) eight) = some ⟨0, 4, 8⟩ ∧ after (·.r0) (exec (.rdU64be .r0) eight) = some ⟨0, 8, 8⟩ ∧
    after (·.r0) (exec (.rdU64le .r0) eight) = some ⟨0, 8, 8⟩ := by decide

theorem test_rd_ber_long_forms :
    reply (exec (.rdBer .r0) (loaded [0x83, 0xCC, 0xDD, 0xEE])) = ok [0xeeddcc] ∧
    reply (exec (.rdBer .r0) (loaded [0x82, 0x80, 0x00])) = ok [128] ∧
    after (·.r0.cur) (exec (.rdBer .r0) (loaded [0x88, 0x88, 0x77, 0x66, 0x55, 0x44, 0x33, 0x22, 0x11])) = some 9 := by
  decide

theorem test_rd_ber_failures :
    reply (exec (.rdBer .r0) (loaded [])) = fails .unexpectedEndOfStream ∧
    reply (exec (.rdBer .r0) (loaded [0x80])) = fails .invalidBerLength ∧
    reply (exec (.rdBer .r0) (loaded [0x89, 1, 2, 3, 4, 5, 6, 7, 8, 9])) = fails .invalidBerLength ∧
    reply (exec (.rdBer .r0) (loaded [0x82, 1])) = fails .unexpectedEndOfStream := by decide

theorem test_rd_slice_destination_wins :
    after (fun t => (t.r0, t.r2)) (exec (.rdSlice .r0 .r2 3) (loaded [1, 2, 3, 4, 5])) = some (⟨0, 3, 5⟩, ⟨0, 0, 3⟩) ∧
    after (·.r0) (exec (.rdSlice .r0 .r0 2) (loaded [1, 2, 3, 4, 5])) = some ⟨0, 0, 2⟩ := by decide

theorem test_rd_bytes :
    reply (exec (.rdBytes .r0 3) (loaded [1, 2, 3, 4])) = some ⟨.ok, [], [1, 2, 3], []⟩ ∧
    reply (exec (.rdBytes .r0 5) (loaded [1, 2, 3, 4])) = fails .unexpectedEndOfStream := by decide

theorem test_fixed_width_writes :
    after (·.asm) (exec (.wrU8 0xAA) uav) = some [(0, 0xAA)] ∧
    after (·.asm) (exec (.wrU16be 0x0c65) uav) = some [(0, 0x0C), (1, 0x65)] ∧
    after (·.asm) (exec (.wrU16le 0x1234) uav) = some [(0, 0x34), (1, 0x12)] ∧
    after (·.asm) (exec (.wrU32be 0x9ABCDEF0) uav) = some (memWrite [] 0 [0x9A, 0xBC, 0xDE, 0xF0]) ∧
    after (·.asm) (exec (.wrU32le 0x04030201) uav) = some (memWrite [] 0 [1, 2, 3, 4]) ∧
    after (·.asm) (exec (.wrU64be 0x0102030405060708) uav) = some (memWrite [] 0 [1, 2, 3, 4, 5, 6, 7, 8]) ∧
    after (·.asm) (exec (.wrU64le 0x0807060504030201) uav) = some (memWrite [] 0 [1, 2, 3, 4, 5, 6, 7, 8]) := by decide

theorem test_wr_ber :
    after (·.asm) (exec (.wrBer 127) uav) = some [(0, 0x7F)] ∧
    after (·.asm) (exec (.wrBer 0xbbaa) uav) = some (memWrite [] 0 [0x82, 0xAA, 0xBB]) ∧
    after (·.asm) (exec (.wrBer 0x100000000) uav) = some (memWrite [] 0 [0x85, 0, 0, 0, 0, 1]) := by decide

theorem test_wr_bytes_needs_space :
    reply (exec (.wrBytes [0xBB]) (writing [0x0C, 0x65, 0xAA] 3 [])) = fails .notEnoughSpace ∧
    after (·.w0) (exec (.wrBytes [0xAA]) (writing [0x0C, 0x65] 3 [])) = some ⟨0, 3, 3⟩ := by decide

theorem test_asm_take :
    reply (exec .asmTake (writing [0x0C, 0x65, 0xAA] 3 [])) = some ⟨.ok, [], [0x0C, 0x65, 0xAA], []⟩ ∧
    after (·.w0) (exec .asmTake (writing [0x0C, 0x65, 0xAA] 3 [])) = some ⟨0, 0, 3⟩ := by decide

theorem test_asm_commit :
    after (fun t => (t.outRing, t.w0)) (exec (.asmCommit .outb) (writing [7, 8, 9] 1026 [])) =
      some (⟨[(0, 7), (1, 8), (2, 9)], 0, 3, 1021⟩, ⟨0, 0, 1026⟩) := by decide

/-! ### DISCOVER (95_test_vectors.md §2.3) -/

theorem test_discover_8 :
    reply (exec (.discover .inb) (uav.push .inb [0x11, 0x4F, 0x07, 0x0C, 0x65, 3, 0xAA, 0xBB, 0xCC])) =
      ok [0x0c65, 6] := by decide +kernel

theorem test_discover_rescan :
    reply (exec (.discover .inb) (uav.push .inb [0x4F, 0x4F, 0x07, 0x0C, 0x65, 0x80, 0x4F, 0x07, 0x0C, 0x65, 0])) =
      fails .invalidBerLength ∧
    after (·.contents .inb)
        (exec (.discover .inb) (uav.push .inb [0x4F, 0x4F, 0x07, 0x0C, 0x65, 0x80, 0x4F, 0x07, 0x0C, 0x65, 0])) =
      some [0x0C, 0x65, 0x80, 0x4F, 0x07, 0x0C, 0x65, 0] := by decide +kernel

/-! ### Decoders (95_test_vectors.md §2.4; the numbers are its rows) -/

theorem test_dec_cmdmsg_5 :
    reply (exec (.decCmdmsg .r0 .r1) (loaded [0x0C, 0x66, 2, 1, 2])) = fails .invalidDataHeader ∧
    reply (exec (.decCmdmsg .r0 .r1) (loaded cmd6)) = ok [3] := by decide

theorem test_dec_cmdresult_4 :
    reply (exec (.decCmdresult .r0 .r1) (loaded [0x0C, 0x66, 2, 1, 2])) = ok [2] ∧
    after (fun t => (t.r0, t.r1)) (exec (.decCmdresult .r0 .r1) (loaded [0x0C, 0x66, 2, 1, 2])) =
      some (⟨0, 5, 5⟩, ⟨3, 3, 5⟩) := by decide

theorem test_dec_tmstatus_6 :
    reply (exec (.decTmstatus .r0 .r1) (loaded ts9)) = ok [6, 0, 1, 7, 2] ∧
    after (·.r1) (exec (.decTmstatus .r0 .r1) (loaded ts9)) = some ⟨7, 7, 9⟩ := by decide

theorem test_dec_tmevent_7 :
    reply (exec (.decTmevent .r0 .r1) (loaded [0x0C, 0x78, 6, 7, 3, 9, 0, 0xBE, 0xEF])) = ok [6, 7, 3, 9, 0] := by decide

theorem test_dec_address_9 :
    reply (exec (.decAddress .r0 .r1) (loaded [0xAC, 0x5E, 7, 3, 1, 2, 3, 0, 0, 0xEE])) =
      ok [7, 3, 1, 2, 3, 0, 0, 0, 0, 0] ∧
    after (·.r1) (exec (.decAddress .r0 .r1) (loaded [0xAC, 0x5E, 7, 3, 1, 2, 3, 0, 0, 0xEE])) = some ⟨9, 9, 10⟩ := by
  decide

theorem test_dec_address_10 :
    reply (exec (.decAddress .r0 .r1) (loaded [0xAC, 0x5E, 9, 6, 1, 2, 3, 5, 7, 8, 0, 0])) =
      ok [9, 6, 1, 2, 3, 5, 7, 8, 0, 0] := by decide

theorem test_dec_exchange_1 :
    reply (exec (.decExchange .r0 .r1) (loaded (f26 0))) = some ⟨.ok, [23, 1, 0, 1, 16, 0], [0, 0], []⟩ ∧
    after (fun t => (t.r0, t.r1)) (exec (.decExchange .r0 .r1) (loaded (f26 0))) = some (⟨0, 26, 26⟩, ⟨8, 8, 24⟩) := by
  decide

theorem test_dec_exchange_16 :
    reply (exec (.decExchange .r0 .r1) (loaded [0x6C, 0x5A, 9, 1, 0, 1, 0x82, 0, 0x80, 0, 0, 0])) =
      fails .invalidWindowSize := by decide

theorem test_dec_counteradj_28 :
    reply (exec (.decCounteradj .r0) (loaded [0x6C, 0x5B, 7, 1, 0, 1, 3, 0x99, 0, 0])) =
      some ⟨.ok, [7, 1, 0, 1, 3], [0, 0], []⟩ := by decide

theorem test_dec_receipt_31 :
    reply (exec (.decReceipt .r0) (loaded [0x3C, 0x5C, 8, 1, 0, 1, 0x82, 0xFF, 0xFF, 0, 0])) =
      some ⟨.ok, [8, 1, 0, 1, 65535], [0, 0], []⟩ := by decide

/-! ### Encoders (95_test_vectors.md §2.5; the numbers are its rows) -/

theorem test_begin_command_messages :
    after (fun t => (t.asm, t.w0.cur)) (exec .beginCmdmsg uav) = some ([(0, 0x0C), (1, 0x65), (2, 0)], 3) ∧
    after (fun t => (t.asm, t.w0.cur)) (exec .beginCmdresult uav) = some ([(0, 0x0C), (1, 0x66), (2, 0)], 3) := by decide

theorem test_begin_telemetry_3_4 :
    after (·.asm) (exec (.beginTmstatus 0 1 7 2) uav) = some (memWrite [] 0 [0x1C, 0x72, 0, 0, 1, 7, 2]) ∧
    after (·.asm) (exec (.beginTmevent 7 3 9 0) uav) = some (memWrite [] 0 [0x0C, 0x78, 0, 7, 3, 9, 0]) := by decide

theorem test_begin_address_5_6 :
    after (·.asm) (exec (.beginAddress 3 1 2 3 9 9 9 0 0) uav) =
      some (memWrite [] 0 [0xAC, 0x5E, 0, 3, 1, 2, 3, 0, 0]) ∧
    after (·.asm) (exec (.beginAddress 6 1 2 3 5 7 8 0 0) uav) =
      some (memWrite [] 0 [0xAC, 0x5E, 0, 6, 1, 2, 3, 5, 7, 8, 0, 0]) := by decide

theorem test_begin_exchange_7 :
    after (fun t => (t.asm, t.w0, t.fstack)) (exec (.beginExchange 0 2 16 0) uav) =
      some (memWrite [] 0 [0x6C, 0x5A, 0, 1, 0, 2, 0x10, 0], ⟨0, 8, 1022⟩,
        [⟨.exchangePacket, 0, 3, 1026, 4, some .reedSolomon⟩]) := by decide

theorem test_begin_counters_8_10 :
    after (·.asm) (exec (.beginCounteradj 0 1 3) uav) = some (memWrite [] 0 [0x6C, 0x5B, 0, 1, 0, 1, 3]) ∧
    after (·.asm) (exec (.beginReceipt 0 1 65535) uav) = some (memWrite [] 0 [0x3C, 0x5C, 0, 1, 0, 1, 0x82, 0xFF, 0xFF]) := by
  decide

/-- The frame of vector 2.5.20, its CommandMessage full. -/
def nest : State :=
  writing ([0xAC, 0x5E, 0, 3, 1, 2, 3, 0, 0, 0x0C, 0x65, 0] ++ List.replicate 128 0x11) 140
    [⟨.commandMessage, 9, 12, 140, 0, none⟩, ⟨.addressPacket, 0, 3, 140, 0, none⟩]

theorem test_end_frame_drops_20 :
    after (fun t => (t.status.toNat, t.w0, t.fstack.length)) (exec .endFrame nest) = some (2, ⟨0, 9, 140⟩, 1) := by
  decide +kernel

/-- A CommandMessage with a body of 200 bytes: vector 11. -/
def body200 : State :=
  writing ([0x0C, 0x65, 0] ++ List.replicate 200 0x55) 1026 [⟨.commandMessage, 0, 3, 1026, 0, none⟩]

/-- An ExchangePacket in a view of 10 cells, its trailer reserved: vector 2.5.18. -/
def openPacket : State :=
  writing [0x6C, 0x5A, 0, 1, 0, 1, 0, 0] 8 [⟨.exchangePacket, 0, 3, 10, 2, some .crc16⟩]

theorem test_end_frame_closes_11_18 :
    after (fun t => (t.asm, t.w0)) (exec .endFrame body200) =
      some (memWrite [] 0 ([0x0C, 0x65, 0x81, 0xC8] ++ List.replicate 200 0x55), ⟨0, 204, 1026⟩) ∧
    after (fun t => (t.asm, t.w0)) (exec .endFrame openPacket) =
      some (memWrite [] 0 [0x6C, 0x5A, 7, 1, 0, 1, 0, 0, 0, 0], ⟨0, 10, 10⟩) := by decide +kernel

/-! ### The agent unit (95_test_vectors.md §2.7; the numbers are its rows) -/

theorem test_ag_handle_1 :
    reply (exec .agHandle (uavGets (f26 0))) =
      some ⟨.ok, [0x6c5a, 26], [0, 0], [⟨.address, [4, 1, 2, 3, 5, 0, 0, 0, 0], cmd6⟩]⟩ := by decide +kernel

theorem test_ag_handle_14 :
    reply (exec .agHandle (gcGets (t30 0))) =
      some ⟨.ok, [0x6c5a, 30], [0, 0], [⟨.tmStatus, [0, 1, 7, 2], [0xDE, 0xAD]⟩]⟩ ∧
    after (fun t => (t.tmCtr.toNat, t.tmRing.rd, t.tmRing.wr, t.scrLen)) (exec .agHandle (gcGets (t30 0))) =
      some (1, 11, 11, 9) := by decide +kernel

theorem test_ag_send_network_25 :
    after (fun t => (t.contents .outb, t.outCtr.toNat))
        (exec (.agSendNetwork 16 1 2 3 5 0 0 cmd6) { gc with outCtr := 65535 }) =
      some ([0x4F, 0x07, 0x6C, 0x5A, 0x19, 1, 0, 1, 0x10, 0x82, 0xFF, 0xFF] ++ address16 ++ [0, 0], 0) := by
  decide +kernel

theorem test_ag_send_group_21 :
    after (·.contents .outb) (exec (.agSendGroup 16 1 2 3 5 7 8 0 0 []) gc) =
      some [0x4F, 0x07, 0x6C, 0x5A, 0x13, 1, 0, 1, 0x10, 0, 0xAC, 0x5E, 9, 6, 1, 2, 3, 5, 7, 8, 0, 0, 0, 0] := by
  decide +kernel

theorem test_ag_send_multicast_20 :
    after (·.contents .outb) (exec (.agSendMulticast 16 1 2 3 0 0 ([4, 0x3D] ++ ts9)) uav) =
      some ([0xAC, 0xAC] ++ t30 0) := by decide +kernel

/-- AGB keeps the frame sent, and the CounterAdjustmentPacket of a gap (45_agent.md R158, R161). -/
theorem test_agb_keeps_the_frame :
    after (fun t => [0xAC, 0xAC] ++ t.agb.map (·.2) == t.contents .outb)
      (exec (.agSendMulticast 16 1 2 3 0 0 ([4, 0x3D] ++ ts9)) uav) = some true ∧
    after (·.agb) (exec .agHandle (uavGets (f26 2))) = some (memWrite [] 0 (ca 0)) := by decide +kernel

/-- The kind numbers of 45_agent.md R157. -/
theorem test_event_codes :
    [EventKind.address, .tmStatus, .tmEvent, .tmSeqMismatch, .receipt, .counterAdj, .subframeError].map eventCode =
      [1, 2, 3, 4, 5, 6, 7] := rfl

/-! ### Tools for the witnesses -/

theorem next_of_after {α : Type} {f : State → α} {o : Out} {x : α} (h : after f o = some x) :
    ∃ t, o = .next t ∧ f t = x := by
  match o with
  | .next t => exact ⟨t, rfl, Option.some.inj h⟩
  | .fault _ => cases h
  | .refused _ => cases h

theorem ring_inv {cap : Nat} {rb : Ring} (h : rb.data.wf = true ∧ (∀ c ∈ rb.data, c.1 < cap) ∧ rb.rd < cap ∧ rb.wr < cap ∧
    rb.free ≤ cap ∧ rb.wr = (rb.rd + rb.readable cap) % cap ∧
    ∀ k, k < rb.readable cap → (rb.data.read ((rb.rd + k) % cap)).isSome = true) : rb.Inv cap :=
  ⟨⟨h.1, h.2.1⟩, h.2.2.1, h.2.2.2.1, h.2.2.2.2.1, h.2.2.2.2.2.1, h.2.2.2.2.2.2⟩

/-- Bytes below 128 are the short forms of their values. -/
theorem fields_short : ∀ bytes : List Byte, (∀ b ∈ bytes, b.toNat < 128) → FieldsForm bytes (bytes.map (·.toNat))
  | [], _ => rfl
  | b :: rest, h => ⟨[b], rest, rfl, .inl ⟨b, rfl, h b (by simp), rfl⟩, fields_short rest fun x hx => h x (by simp [hx])⟩

theorem ber_short (b : Byte) (h : b.toNat < 128) : BerForm [b] b.toNat := .inl ⟨b, rfl, h, rfl⟩

/-- The long form 82 FB 03 of 1019 (95_test_vectors.md S6). -/
theorem ber_1019 : BerForm [0x82, 0xFB, 0x03] 1019 :=
  .inr ⟨0x82, [0xFB, 0x03], rfl, by decide, by decide, by decide, by decide⟩

theorem firstSep_here {sep rest stream : List Byte} (h : stream = sep ++ rest) : FirstSep sep stream [] rest :=
  ⟨h, fun _ hk => absurd hk (Nat.not_lt_zero _)⟩

/-- F26(n) is the ExchangePacket 30_encoding.md R77 says it is. -/
theorem f26_form (n : Byte) (h : n.toNat < 128) :
    PacketForm .exchangePacket 1 0 .crc16 [16, n.toNat] address16 [0, 0] (f26 n) := by
  refine ⟨[1, 0, 1, 0x10, n], by decide, fields_short [1, 0, 1, 0x10, n] ?_, rfl, [0x17], ber_short 0x17 (by decide), rfl⟩
  simp [h]

theorem t30_form (n : Byte) (h : n.toNat < 128) :
    PacketForm .exchangePacket 1 1 .crc16 [16, n.toNat] address20 [0, 0] (t30 n) := by
  refine ⟨[1, 1, 1, 0x10, n], by decide, fields_short [1, 1, 1, 0x10, n] ?_, rfl, [0x1B], ber_short 0x1B (by decide), rfl⟩
  simp [h]

theorem ca_form (n : Byte) (h : n.toNat < 128) :
    PacketForm .counterAdjustmentPacket 1 0 .crc16 [n.toNat] [] [0, 0] (ca n) := by
  refine ⟨[1, 0, 1, n], by decide, fields_short [1, 0, 1, n] ?_, rfl, [6], ber_short 6 (by decide), rfl⟩
  simp [h]

theorem rc_form (n : Byte) (h : n.toNat < 128) :
    PacketForm .receiptPacket 1 0 .crc16 [n.toNat] [] [0, 0] (rc n) := by
  refine ⟨[1, 0, 1, n], by decide, fields_short [1, 0, 1, n] ?_, rfl, [6], ber_short 6 (by decide), rfl⟩
  simp [h]

theorem address16_form : AddressForm address16 [4, 1, 2, 3, 5, 0, 0, 0, 0] cmd6 :=
  ⟨4, 1, 2, 3, 5, 0, 0, 0, 0, [4, 1, 2, 3, 5, 0, 0], .inr (.inl rfl), by decide, fun _ => ⟨rfl, rfl⟩, rfl,
    fields_short [4, 1, 2, 3, 5, 0, 0] (by decide), [0x0D], ber_short 0x0D (by decide), rfl⟩

theorem address20_form : AddressForm address20 [3, 1, 2, 3, 0, 0, 0, 0, 0] ([4, 0x3D] ++ ts9) :=
  ⟨3, 1, 2, 3, 0, 0, 0, 0, 0, [3, 1, 2, 3, 0, 0], .inl rfl, fun _ => rfl, fun _ => ⟨rfl, rfl⟩, rfl,
    fields_short [3, 1, 2, 3, 0, 0] (by decide), [0x11], ber_short 0x11 (by decide), rfl⟩

theorem ts9_form : SubFrameForm ts9 ⟨.tmStatus, [0, 1, 7, 2], [0xDE, 0xAD]⟩ :=
  ⟨0, 1, 7, 2, [0, 1, 7, 2], [0xDE, 0xAD], fields_short [0, 1, 7, 2] (by decide),
    .inl ⟨⟨[6], ber_short 6 (by decide), rfl⟩, rfl⟩⟩

/-- A Uav with an AG_HANDLE and an RB_STATUS OUT pending. -/
def pending : State := { uav with cmdQ := [⟨0x70000000, [], []⟩], tpQ := [⟨0x14100000, [], []⟩] }

theorem pending_inv : pending.Inv where
  cfg := by decide
  rings := fun r => by cases r <;> exact ring_inv (by decide)
  tmAbsent := fun _ => rfl
  scr := ⟨rfl, fun _ hc => absurd hc (by simp [pending, uav, State.resetOf])⟩
  scrLen := by decide
  scrHeld := fun _ hk => absurd hk (Nat.not_lt_zero _)
  readers := fun c => by cases c <;> exact ⟨by decide, by decide, by decide⟩
  asm := ⟨rfl, fun _ hc => absurd hc (by simp [pending, uav, State.resetOf])⟩
  asmHeld := fun _ hk => absurd hk (Nat.not_lt_zero _)
  frames := ⟨by decide, by decide, by decide⟩
  placeholders := fun _ he => absurd he (by simp [pending, uav, State.resetOf])
  depth := by decide
  agb := ⟨rfl, fun _ hc => absurd hc (by simp [pending, uav, State.resetOf])⟩
  status := by decide
  response := fun _ hr => absurd hr (by simp [pending, uav, State.resetOf])
  uav := fun _ => ⟨rfl, rfl⟩
  gc := fun h => absurd h (by decide)
  noAgent := fun h => absurd h (by decide)
  sent := fun h => absurd h (by decide)
  unsent := fun _ => ⟨rfl, rfl, rfl⟩

/-! ### Witnesses: encoding, steps and whole-machine statements -/

theorem witness_EncodeOfDecode : decode ⟨0x12000000, [28], []⟩ = .ok (.rbRead .inb 28) := rfl

theorem witness_StepRunsTheDecodedCommand :
    (uav.resetIn = false ∧ decode ⟨0x70000000, [], []⟩ = .ok .agHandle) ∧
    (decode ⟨0x14100000, [], []⟩ = .ok (.rbStatus .outb) ∧ portAllows .transport (.rbStatus .outb) = true) :=
  ⟨⟨rfl, rfl⟩, rfl, rfl⟩

/-- The choice at the first grant is one or the other; which one, nothing says. -/
theorem witness_StepGrantsOneOfTwoPorts :
    (pending.resetIn = false ∧ pending.cmdQ = [⟨0x70000000, [], []⟩] ∧ pending.tpQ = [⟨0x14100000, [], []⟩]) ∧
    (Config.grantsTransport pending.grants = false ∨ Config.grantsTransport pending.grants = true) ∧
    (uav.resetIn = false ∧ uav.cmdQ = [] ∧ uav.tpQ = []) :=
  ⟨⟨rfl, rfl, rfl⟩, by cases Config.grantsTransport pending.grants <;> simp, rfl, rfl, rfl⟩

theorem witness_ResetStep : ({ pending with resetIn := true } : State).resetIn = true := rfl

theorem witness_IllegalCommands :
    (¬ ∃ row ∈ opRows, row.accepts ⟨0, [], []⟩) ∧
    (decode ⟨0x12000000, [28], []⟩ = .ok (.rbRead .inb 28) ∧ ∀ n, Instr.rbRead .inb 28 ≠ .rbRead .outb n) ∧
    uav.cfg.role = .uav ∧ uav.cfg.maxPacket < (List.replicate 1025 (0 : Byte)).length ∧
    uav.cfg.hasReg 0x53 = false ∧ uav.cfg.hasReg 0x65 = false ∧
    (decode ⟨0x70000000, [], []⟩ = .ok .agHandle ∧ bare.cfg.hasAgent = false ∧
      0x70 ≤ (0x70000000 : CmdWord).toNat / 2 ^ 24) := by
  refine ⟨?_, ⟨rfl, by simp⟩, rfl, by decide +kernel, by decide, by decide, rfl, rfl, by decide⟩
  rintro ⟨row, hr, h, -⟩
  have : ∀ row ∈ opRows, row.op ≠ 0 := by decide
  exact this row hr h.symm

theorem witness_FailuresRaise : ∃ t, exec (.rbErase .inb 1) uav = .next t ∧ t.status ≠ 0 := ⟨_, rfl, by decide⟩

theorem witness_ResetMeetsInv :
    ({ cfg .gc with maxPacket := 16, hasAgent := false } : Config).wf = true ∧
    ({ cfg .uav with maxPacket := 65533 } : Config).wf = true := by decide

theorem witness_StepKeepsInv : pending.Inv ∧ ({ pending with resetIn := true } : State).resetIn = true ∧
    ∃ t, step { pending with resetIn := true } = .next t := ⟨pending_inv, rfl, _, rfl⟩

theorem witness_StepGoesOn : pending.Inv := pending_inv

theorem witness_StatusAndResponse :
    pending.Inv ∧ (∃ t, exec (.regRd 0x52) pending = .next t) ∧
    (encode (.regRd 0x52)).word.toNat / 2 ^ 24 < 0x70 ∧
    (encode (.agSendMulticast 0 0 0 0 0 0 [])).word.toNat / 2 ^ 24 = 0x73 ∧
    ∃ t, exec .agHandle (gcGets (t30 1)) = .next t ∧
      t.resp.map (·.events) = some [⟨.tmSeqMismatch, [0, 1], []⟩, ⟨.tmStatus, [0, 1, 7, 2], [0xDE, 0xAD]⟩] :=
  ⟨pending_inv, ⟨_, rfl⟩, by decide, by decide, next_of_after (by decide +kernel)⟩

theorem witness_StateChangesOnlyThroughItsOwners : (∃ t, exec (.wrU8 7) uav = .next t) ∧
    (encode (.wrU8 7)).word.toNat / 2 ^ 24 = 0x30 ∧ (encode .beginCmdmsg).word.toNat / 2 ^ 24 = 0x60 ∧
    (encode (.rdBytes .r0 0)).word.toNat / 2 ^ 24 = 0x2B ∧ (encode .endFrame).word.toNat / 2 ^ 24 < 0x70 :=
  ⟨⟨_, rfl⟩, by decide, by decide, by decide, by decide⟩

theorem witness_TransportPortReachesOnlyRings : ∃ t, issue .transport ⟨0x10000000, [], [1, 2]⟩ uav = .next t := ⟨_, rfl⟩

/-- A Gc after a send, its receipt in IN; and one that may send again. -/
def awaiting : State := { gcGets (rc 0) with lastSentValid := true, outCtr := 1 }

def ready : State := { gc with lastSentValid := true, outCtr := 1, readyToSend := true }

theorem witness_ReadyToSendGate :
    (awaiting.readyToSend = false ∧ ∃ t, exec .agHandle awaiting = .next t ∧ t.readyToSend = true) ∧
    (ready.readyToSend = true ∧ ready.cfg.role = .gc ∧
      ∃ t, exec (.agSendNetwork 16 1 2 3 5 0 0 []) ready = .next t ∧ (t.readyToSend, t.status.toNat) = (false, 0)) :=
  ⟨⟨rfl, next_of_after (by decide +kernel)⟩, rfl, rfl, next_of_after (by decide +kernel)⟩

theorem witness_RegRdReadsTheMap :
    uav.cfg.role = .uav ∧ gc.cfg.role = .gc ∧ uav.cfg.hasAgent = true ∧ gc.cfg.hasAgent = true := ⟨rfl, rfl, rfl, rfl⟩

/-! ### Witnesses: cursors, fields and BER values -/

theorem witness_CurSetSetsTheBounds :
    (loaded [1, 2, 3]).scrLen = 3 ∧ ((3 : U64).toNat ≤ (3 : U64).toNat ∧ (3 : U64).toNat ≤ 3) ∧ 3 < (4 : U64).toNat ∧
    (2 : U64).toNat < (3 : U64).toNat ∧ uav.fstack = [] ∧ (1026 : U64).toNat ≤ uav.cfg.maxPacket + 2 ∧
    uav.cfg.maxPacket + 2 < (1027 : U64).toNat ∧ nest.fstack ≠ [] :=
  ⟨rfl, by decide, by decide, by decide, rfl, by decide, by decide, List.cons_ne_nil _ _⟩

theorem witness_ScrLoadCopiesData : (List.replicate 1024 (0 : Byte)).length ≤ uav.cfg.maxPacket := by decide +kernel

theorem witness_FixedWidthReads :
    eight.scr.Holds (eight.reader .r0).cur [0x12, 0x34, 0x56, 0x78, 0x9A, 0xBC, 0xDE, 0xF0] ∧
    (eight.reader .r0).cur + 8 = (eight.reader .r0).stop ∧
    ((loaded [1, 2, 3, 4]).scr.Holds 0 [1, 2, 3, 4] ∧ (loaded [1, 2, 3, 4]).reader .r0 = ⟨0, 0, 0 + 4⟩) ∧
    ((loaded [1, 2]).scr.Holds 0 [1, 2] ∧ (loaded [1, 2]).reader .r0 = ⟨0, 0, 0 + 2⟩) ∧
    ((loaded [1]).scr.Holds 0 [1] ∧ (loaded [1]).reader .r0 = ⟨0, 0, 0 + 1⟩) := by unfold Memory.Holds; decide

theorem witness_RdBerReadsEveryForm :
    (BerForm [0x82, 0xFB, 0x03] 1019 ∧ (loaded [0x82, 0xFB, 0x03]).scr.Holds 0 [0x82, 0xFB, 0x03] ∧
      (loaded [0x82, 0xFB, 0x03]).r0 = ⟨0, 0, 3⟩) ∧
    (loaded []).r0.stop ≤ (loaded []).r0.cur ∧
    ((loaded [0x80]).r0.cur < (loaded [0x80]).r0.stop ∧ (loaded [0x80]).scr.read 0 = some 0x80 ∧
      (loaded [0x89]).scr.read 0 = some 0x89 ∧ (0x89 : Byte).toNat = 0x89) ∧
    ((loaded [0x81]).scr.read 0 = some 0x81 ∧ (loaded [0x81]).r0.stop < 0 + 1 + ((0x81 : Byte).toNat - 0x80)) ∧
    ((loaded [0x88, 1]).scr.read 0 = some 0x88 ∧ (loaded [0x88, 1]).r0.stop < 0 + 1 + ((0x88 : Byte).toNat - 0x80)) :=
  ⟨⟨ber_1019, by unfold Memory.Holds; decide, by decide⟩, by decide, by decide, by decide, by decide⟩

theorem witness_SlicesAndBytes :
    (8 : U64).toNat = (eight.reader .r0).stop - (eight.reader .r0).cur ∧
    (eight.reader .r0).stop - (eight.reader .r0).cur < (9 : U64).toNat ∧
    eight.scr.Holds (eight.reader .r0).cur [0x12, 0x34] ∧ ([0x12, 0x34] : List Byte).length = (2 : U64).toNat :=
  ⟨by decide, by decide, by unfold Memory.Holds; decide, by decide⟩

/-- Readers with 0, 1, 3 and 7 bytes left. -/
theorem witness_ShortReadsRaise :
    ((loaded []).reader .r0).stop - ((loaded []).reader .r0).cur = 0 ∧
    ((loaded [1]).reader .r0).stop - ((loaded [1]).reader .r0).cur = 1 ∧
    ((loaded [1, 2, 3]).reader .r0).stop - ((loaded [1, 2, 3]).reader .r0).cur = 3 ∧
    ((loaded [1, 2, 3, 4, 5, 6, 7]).reader .r0).stop - ((loaded [1, 2, 3, 4, 5, 6, 7]).reader .r0).cur = 7 := by decide

theorem witness_FixedWidthWrites :
    (writing [1, 2] 3 []).w0.cur + 1 = (writing [1, 2] 3 []).w0.stop ∧
    (writing [1, 2] 4 []).w0.cur + 2 = (writing [1, 2] 4 []).w0.stop ∧
    (writing [1, 2] 6 []).w0.cur + 4 = (writing [1, 2] 6 []).w0.stop ∧
    (writing [1, 2] 10 []).w0.cur + 8 = (writing [1, 2] 10 []).w0.stop := by decide

theorem witness_WritesFitOrRaise :
    (writing [1, 2] 4 []).w0.stop - (writing [1, 2] 4 []).w0.cur = 2 ∧ (berMin (255 : U64).toNat).length = 2 ∧
    2 < (berMin (256 : U64).toNat).length ∧ uav.w0.stop - uav.w0.cur = 1026 ∧
    (writing [1, 2] 2 []).w0.stop - (writing [1, 2] 2 []).w0.cur = 0 := by decide

theorem witness_AssembledBytesLeaveTheWriter :
    RingSel.outb.present uav.cfg = true ∧ (writing [7, 8, 9] 1026 []).fstack = [] ∧
    (writing [7, 8, 9] 1026 []).asm.Holds 0 [7, 8, 9] ∧ (writing [7, 8, 9] 1026 []).w0 = ⟨0, 3, 1026⟩ ∧
    ((writing [7, 8, 9] 1026 []).ring .outb).Inv ((writing [7, 8, 9] 1026 []).cap .outb) ∧ nest.fstack ≠ [] :=
  ⟨rfl, rfl, by unfold Memory.Holds; decide, by decide, ring_inv (by decide), List.cons_ne_nil _ _⟩

theorem witness_BerRoundTrip :
    (memWrite [] 0 (berMin 127)).Holds 0 (berMin 127) ∧ (memWrite [] 0 (berMin 128)).Holds 0 (berMin 128) ∧
    (memWrite [] 0 (berMin (2 ^ 64 - 1))).Holds 0 (berMin (2 ^ 64 - 1)) := by unfold Memory.Holds; decide

/-- The values where the length changes (95_test_vectors.md §2.1 C). -/
theorem witness_BerMinIsShortest :
    (berMin 127).length = 1 ∧ (berMin 128).length = 2 ∧ (berMin 255).length = 2 ∧ (berMin 256).length = 3 ∧
    (berMin 65535).length = 3 ∧ (berMin 65536).length = 4 ∧ (berMin (2 ^ 56 - 1)).length = 8 ∧
    (berMin (2 ^ 56)).length = 9 ∧ (berMin (2 ^ 64 - 1)).length = 9 := by decide

/-! ### Witnesses: rings and frame discovery -/

/-- The ring of step 5, full, and that of step 17. -/
def full8 : State := ring8 cells6 4 4 0

def part8 : State := ring8 cells10 7 4 3

theorem witness_RbWriteAppends :
    RingSel.inb.present full8.cfg = true ∧ (full8.ring .inb).Inv (full8.cap .inb) ∧
    (part8.ring .inb).Inv (part8.cap .inb) ∧ min (List.replicate 9 (1 : Byte)).length (full8.cap .inb) = 8 :=
  ⟨rfl, ring_inv (by decide), ring_inv (by decide), by decide⟩

theorem witness_RbPeekAndRbStatus :
    RingSel.inb.present part8.cfg = true ∧ (part8.ring .inb).Inv (part8.cap .inb) ∧ (1 : U64).toNat + (4 : U64).toNat = (part8.contents .inb).length ∧
    (part8.contents .inb).length < (6 : U64).toNat + (0 : U64).toNat ∧ (part8.ring .inb).free ≤ part8.cap .inb :=
  ⟨rfl, ring_inv (by decide), by decide, by decide, by decide⟩

theorem witness_RbReadAndRbErase :
    RingSel.inb.present part8.cfg = true ∧ (part8.ring .inb).Inv (part8.cap .inb) ∧ (5 : U64).toNat = (part8.contents .inb).length ∧
    (part8.contents .inb).length < (6 : U64).toNat := ⟨rfl, ring_inv (by decide), by decide, by decide⟩

theorem witness_RingFifo :
    RingSel.inb.present part8.cfg = true ∧ (part8.ring .inb).Inv (part8.cap .inb) ∧ ([[1, 2], [], [3]] : List (List Byte)).flatten.length = (part8.ring .inb).free ∧
    (([4, 0, 4] : List U64).map (·.toNat)).sum =
      (part8.contents .inb).length + ([[1, 2], [], [3]] : List (List Byte)).flatten.length :=
  ⟨rfl, ring_inv (by decide), by decide, by decide⟩

/-- A frame of exactly MAX_PACKET bytes (95_test_vectors.md 2.3.10, with garbage before it and K_IN = 2). -/
def widest : State :=
  State.push { State.resetOf { cfg .uav with kIn := 2 } with inRing := Ring.empty 2048 } .inb
    ([0x11] ++ [0x4F, 0x07] ++ ([0x0C, 0x65] ++ [0x82, 0xFB, 0x03] ++ List.replicate 1019 0x55 ++ [0x4F]))

theorem witness_DiscoverTakesTheFrame :
    RingSel.inb.present uav.cfg = true ∧ 2 + 1 + 23 ≤ uav.cfg.maxPacket ∧ ((uavGets (f26 0)).ring .inb).Inv ((uavGets (f26 0)).cap .inb) ∧ BerForm [0x17] 23 ∧
    FirstSep (wireSep .uav .inb) ((uavGets (f26 0)).contents .inb) []
      ([0x6C, 0x5A] ++ [0x17] ++ (f26 0).drop 3 ++ []) ∧
    (BerForm [0x82, 0xFB, 0x03] (List.replicate 1019 (0x55 : Byte)).length ∧ 2 + 3 + 1019 = widest.cfg.maxPacket) :=
  ⟨rfl, by decide, ring_inv (by decide +kernel), ber_short 0x17 (by decide), firstSep_here (by decide +kernel),
    by rw [List.length_replicate]; exact ber_1019, by decide⟩

theorem witness_DiscoverTakesTheFrame_after_garbage :
    FirstSep [0x4F, 0x07] ((uav.push .inb ([0x4F, 0x4F, 0x07] ++ cmd6)).contents .inb) [0x4F] cmd6 :=
  ⟨by decide +kernel, by decide⟩

theorem witness_DiscoverWaitsForTheRest :
    RingSel.inb.present uav.cfg = true ∧
    (((uav.push .inb [0x4F]).inRing.Inv 1024 ∧ (uavGets [0x6C, 0x5A]).inRing.Inv 1024) ∧
      (uavGets [0x6C, 0x5A, 0x82, 0]).inRing.Inv 1024 ∧ (uavGets ((f26 0).take 25)).inRing.Inv 1024) ∧
    NoSep (wireSep .uav .inb) ((uav.push .inb [0x4F]).contents .inb) ∧
    (FirstSep (wireSep .uav .inb) ((uavGets [0x6C, 0x5A]).contents .inb) [] [0x6C, 0x5A] ∧ Partial 1024 [0x6C, 0x5A]) ∧
    (FirstSep (wireSep .uav .inb) ((uavGets [0x6C, 0x5A, 0x82, 0]).contents .inb) [] [0x6C, 0x5A, 0x82, 0] ∧
      Partial 1024 [0x6C, 0x5A, 0x82, 0]) ∧
    (FirstSep (wireSep .uav .inb) ((uavGets ((f26 0).take 25)).contents .inb) [] ((f26 0).take 25) ∧
      Partial 1024 ((f26 0).take 25)) := by
  refine ⟨rfl, ⟨⟨ring_inv (by decide +kernel), ring_inv (by decide +kernel)⟩, ring_inv (by decide +kernel),
    ring_inv (by decide +kernel)⟩, ?_, ⟨firstSep_here (by decide +kernel), .inl (by decide)⟩,
    ⟨firstSep_here (by decide +kernel), .inr (.inl ⟨_, _, 0x82, [0], rfl, by decide, by decide, by decide⟩)⟩,
    firstSep_here (by decide +kernel),
    .inr (.inr ⟨0x6C, 0x5A, [0x17], ((f26 0).take 25).drop 3, 23, rfl, ber_short 0x17 (by decide), by decide, by decide⟩)⟩
  have hc : (uav.push .inb [0x4F]).contents .inb = [0x4F] := by decide +kernel
  rw [hc]
  intro k
  match k with
  | 0 => decide
  | k + 1 => simp [wireSep]

theorem witness_DiscoverRejects :
    RingSel.inb.present uav.cfg = true ∧
    ((uavGets [0x6C, 0x5A, 0x80]).inRing.Inv 1024 ∧ (uavGets [0x6C, 0x5A, 0x89]).inRing.Inv 1024 ∧
      (uavGets [0x6C, 0x5A, 0x82, 0, 4]).inRing.Inv 1024) ∧
    FirstSep (wireSep .uav .inb) ((uavGets [0x6C, 0x5A, 0x80]).contents .inb) [] (0x6C :: 0x5A :: 0x80 :: []) ∧
    FirstSep (wireSep .uav .inb) ((uavGets [0x6C, 0x5A, 0x89]).contents .inb) [] (0x6C :: 0x5A :: 0x89 :: []) ∧
    (BerForm [0x82, 0x00, 0x04] 1024 ∧ uav.cfg.maxPacket < 2 + 3 + 1024 ∧
      FirstSep (wireSep .uav .inb) ((uavGets [0x6C, 0x5A, 0x82, 0, 4]).contents .inb) []
        ([0x6C, 0x5A] ++ [0x82, 0, 4] ++ [])) :=
  ⟨rfl, ⟨ring_inv (by decide +kernel), ring_inv (by decide +kernel), ring_inv (by decide +kernel)⟩,
    firstSep_here (by decide +kernel), firstSep_here (by decide +kernel),
    .inr ⟨0x82, [0, 4], rfl, by decide, by decide, by decide, by decide⟩, by decide, firstSep_here (by decide +kernel)⟩

theorem witness_DiscoverIgnoresLaterBytes :
    ((uavGets (f26 0)).ring .inb).Inv ((uavGets (f26 0)).cap .inb) ∧
    ((uavGets (f26 0 ++ [1])).inRing).Inv ((uavGets (f26 0)).cap .inb) ∧
    (uavGets (f26 0 ++ [1])).inRing.contents ((uavGets (f26 0)).cap .inb) = (uavGets (f26 0)).contents .inb ++ [1] ∧
    (∃ t, exec (.discover .inb) (uavGets (f26 0)) = .next t ∧ t.status.toNat = 0) ∧
    (∃ t, exec (.discover .inb) (uavGets [0x6C, 0x5A, 0x80]) = .next t ∧ t.status.toNat = 3) ∧
    (∃ t, exec (.discover .inb) (uavGets [0x6C, 0x5A, 0x82, 0, 4]) = .next t ∧ t.status.toNat = 13) :=
  ⟨ring_inv (by decide +kernel), ring_inv (by decide +kernel), by decide +kernel, next_of_after (by decide +kernel),
    next_of_after (by decide +kernel), next_of_after (by decide +kernel)⟩

theorem witness_DiscoverMakesProgress :
    RingSel.inb.present uav.cfg = true ∧ ((uavGets (f26 0)).ring .inb).Inv ((uavGets (f26 0)).cap .inb) ∧
    (∃ t, exec (.discover .inb) (uavGets (f26 0)) = .next t ∧ t.status.toNat = 0) ∧
    ((uavGets [0x6C]).ring .inb).Inv ((uavGets [0x6C]).cap .inb) ∧
    (∃ t, exec (.discover .inb) (uavGets [0x6C]) = .next t ∧ t.status.toNat = 12) ∧
    (∃ t, exec (.discover .inb) uav = .next t ∧ t.status.toNat = 11) :=
  ⟨rfl, ring_inv (by decide +kernel), next_of_after (by decide +kernel), ring_inv (by decide +kernel),
    next_of_after (by decide +kernel), next_of_after (by decide +kernel)⟩

/-! ### Witnesses: decoders -/

theorem witness_DecodesCommandMessages :
    (MsgForm .commandMessage [0xAA, 0xBB, 0xCC] cmd6 ∧ (loaded cmd6).scr.Holds 0 cmd6 ∧ (loaded cmd6).r0 = ⟨0, 0, 6⟩) ∧
    (MsgForm .commandResult [1, 2] [0x0C, 0x66, 2, 1, 2] ∧
      (loaded [0x0C, 0x66, 2, 1, 2]).scr.Holds 0 [0x0C, 0x66, 2, 1, 2] ∧ (loaded [0x0C, 0x66, 2, 1, 2]).r0 = ⟨0, 0, 5⟩) :=
  ⟨⟨⟨[3], ber_short 3 (by decide), rfl⟩, by unfold Memory.Holds; decide, by decide⟩,
    ⟨[2], ber_short 2 (by decide), rfl⟩, by unfold Memory.Holds; decide, by decide⟩

theorem witness_DecodesTelemetryMessages :
    FieldsForm [0, 1, 7, 2] [0, 1, 7, 2] ∧
    (MsgForm .tmStatusMessage ([0, 1, 7, 2] ++ [0xDE, 0xAD]) ts9 ∧ (loaded ts9).scr.Holds 0 ts9 ∧
      (loaded ts9).r0 = ⟨0, 0, 9⟩) ∧
    MsgForm .tmEventMessage ([0, 1, 7, 2] ++ []) [0x0C, 0x78, 4, 0, 1, 7, 2] :=
  ⟨fields_short [0, 1, 7, 2] (by decide),
    ⟨⟨[6], ber_short 6 (by decide), rfl⟩, by unfold Memory.Holds; decide, by decide⟩, [4], ber_short 4 (by decide), rfl⟩

theorem witness_DecodesAddressPackets :
    AddressForm address16 [4, 1, 2, 3, 5, 0, 0, 0, 0] cmd6 ∧ (loaded address16).scr.Holds 0 address16 ∧
    (loaded address16).r0 = ⟨0, 0, 16⟩ := ⟨address16_form, by unfold Memory.Holds; decide, by decide⟩

theorem witness_DecodesExchangePackets :
    PacketForm .exchangePacket 1 0 .crc16 [16, 0] address16 [0, 0] (f26 0) ∧ (loaded (f26 0)).scr.Holds 0 (f26 0) ∧
    (loaded (f26 0)).r0 = ⟨0, 0, 26⟩ := ⟨f26_form 0 (by decide), by unfold Memory.Holds; decide, by decide⟩

theorem witness_DecodesCounterPackets :
    (PacketForm .counterAdjustmentPacket 1 0 .crc16 [3] [] [0, 0] (ca 3) ∧ (loaded (ca 3)).scr.Holds 0 (ca 3) ∧
      (loaded (ca 3)).r0 = ⟨0, 0, 9⟩) ∧
    (PacketForm .receiptPacket 1 0 .crc16 [5] [] [0, 0] (rc 5) ∧ (loaded (rc 5)).scr.Holds 0 (rc 5) ∧
      (loaded (rc 5)).r0 = ⟨0, 0, 9⟩) :=
  ⟨⟨ca_form 3 (by decide), by unfold Memory.Holds; decide, by decide⟩, rc_form 5 (by decide),
    by unfold Memory.Holds; decide, by decide⟩

theorem witness_DecodersCheckTheCodeFirst :
    ((loaded [0x0C, 0x66]).scr.Holds 0 [0x0C, 0x66] ∧ (loaded [0x0C, 0x66]).r0 = ⟨0, 0, 2⟩ ∧
      ([0x0C, 0x66] : List Byte) ≠ wireCode .commandMessage) ∧
    ((loaded [0x0C]).reader .r0).stop < ((loaded [0x0C]).reader .r0).cur + 2 :=
  ⟨⟨by unfold Memory.Holds; decide, by decide, by decide⟩, by decide⟩

/-- For each check a packet that fails it and passes the ones before it. -/
theorem witness_DecExchangeChecksInByteOrder :
    ((loaded [0x6C, 0x5A, 2, 1, 2]).scr.Holds 0 [0x6C, 0x5A, 2, 1, 2] ∧ (loaded [0x6C, 0x5A, 2, 1, 2]).r0 = ⟨0, 0, 5⟩) ∧
    (MsgForm .exchangePacket ([1, 2] ++ []) [0x6C, 0x5A, 2, 1, 2] ∧ FieldsForm [1, 2] [1, 2]) ∧
    (MsgForm .exchangePacket ([1, 1, 3] ++ []) [0x6C, 0x5A, 3, 1, 1, 3] ∧ FieldsForm [1, 1, 3] [1, 1, 3]) ∧
    (MsgForm .exchangePacket ([1, 0, 1, 0x82, 0, 0x80] ++ [0, 0]) [0x6C, 0x5A, 8, 1, 0, 1, 0x82, 0, 0x80, 0, 0] ∧
      FieldsForm [1, 0, 1, 0x82, 0, 0x80] [1, 0, 1, 32768]) ∧
    (MsgForm .exchangePacket ([1, 0, 2, 0x10, 0x83, 0, 0, 1] ++ [0, 0, 0, 0])
        [0x6C, 0x5A, 12, 1, 0, 2, 0x10, 0x83, 0, 0, 1, 0, 0, 0, 0] ∧
      FieldsForm [1, 0, 2, 0x10, 0x83, 0, 0, 1] [1, 0, 2, 16, 65536]) :=
  ⟨⟨by unfold Memory.Holds; decide, by decide⟩,
    ⟨⟨[2], ber_short 2 (by decide), rfl⟩, fields_short [1, 2] (by decide)⟩,
    ⟨⟨[3], ber_short 3 (by decide), rfl⟩, fields_short [1, 1, 3] (by decide)⟩,
    ⟨⟨[8], ber_short 8 (by decide), rfl⟩,
      [1], _, rfl, ber_short 1 (by decide), [0], _, rfl, ber_short 0 (by decide), [1], _, rfl, ber_short 1 (by decide),
      [0x82, 0, 0x80], [], rfl, .inr ⟨0x82, [0, 0x80], rfl, by decide, by decide, by decide, by decide⟩, rfl⟩,
    ⟨⟨[12], ber_short 12 (by decide), rfl⟩,
      [1], _, rfl, ber_short 1 (by decide), [0], _, rfl, ber_short 0 (by decide), [2], _, rfl, ber_short 2 (by decide),
      [0x10], _, rfl, ber_short 16 (by decide),
      [0x83, 0, 0, 1], [], rfl, .inr ⟨0x83, [0, 0, 1], rfl, by decide, by decide, by decide, by decide⟩, rfl⟩⟩

/-! ### Witnesses: encoders -/

/-- Three frames open, and room for exactly `n` more cells. -/
def roomFor (n : Nat) : State :=
  writing [0x0C, 0x65, 0, 0x0C, 0x65, 0, 0x0C, 0x65, 0] (9 + n)
    [⟨.commandMessage, 6, 9, 9 + n, 0, none⟩, ⟨.commandMessage, 3, 6, 9 + n, 0, none⟩, ⟨.commandMessage, 0, 3, 9 + n, 0, none⟩]

theorem witness_BeginsDataHeaderFrames :
    (roomFor 3).fstack.length < 4 ∧ (roomFor 3).w0.cur + 3 = (roomFor 3).w0.stop ∧
    (roomFor 7).w0.cur + 3 + (berMin 0 ++ berMin 1 ++ berMin 7 ++ berMin 2).length = (roomFor 7).w0.stop ∧
    (roomFor 9).w0.cur + 3 + ((addressFields 3 1 2 3 9 9 9 0 0).map berMin).flatten.length = (roomFor 9).w0.stop ∧
    (roomFor 12).w0.cur + 3 + ((addressFields 6 1 2 3 9 9 9 0 0).map berMin).flatten.length = (roomFor 12).w0.stop := by
  decide

theorem witness_BeginsPacketHeaderFrames :
    (roomFor 14).fstack.length < 4 ∧ (65535 : U64).toNat ≤ 65535 ∧ (32767 : U64).toNat ≤ 32767 ∧
    (roomFor 16).w0.cur + 3 + ([0x01] ++ [(1 : U64).setWidth 8] ++ [(2 : U64).setWidth 8] ++ berMin 32767 ++
      berMin 127).length + 2 * (2 : U64).toNat ≤ (roomFor 16).w0.stop ∧
    (roomFor 11).w0.cur + 3 + ([0x01] ++ [(0 : U64).setWidth 8] ++ [(1 : U64).setWidth 8] ++ berMin 65535).length +
      2 * (1 : U64).toNat = (roomFor 11).w0.stop := by decide

/-- Four frames open, and room for `n` more cells. -/
def fourDeep (n : Nat) : State :=
  { roomFor n with fstack := ⟨.commandMessage, 9, 9, 9 + n, 0, none⟩ :: (roomFor n).fstack }

theorem witness_BeginChecksInOrder :
    (((5 : U64) ≠ 3 ∧ (5 : U64) ≠ 4 ∧ (5 : U64) ≠ 6) ∧ ((2 : U64) ≠ 0 ∧ (2 : U64) ≠ 1) ∧ ((3 : U64) ≠ 1 ∧ (3 : U64) ≠ 2) ∧
      32767 < (32768 : U64).toNat ∧ 65535 < (65536 : U64).toNat) ∧
    ((fourDeep 30).fstack.length = 4 ∧ (roomFor 2).fstack.length < 4) ∧
    (BeginForm .beginCmdresult [] none ∧ (roomFor 2).w0.stop < (roomFor 2).w0.cur + 3 + 0) ∧
    (BeginForm (.beginTmevent 0 1 7 2) [0, 1, 7, 2] none ∧ (roomFor 6).w0.stop < (roomFor 6).w0.cur + 3 + 4) ∧
    (BeginForm (.beginAddress 3 1 2 3 9 9 9 0 0) [3, 1, 2, 3, 0, 0] none ∧
      (roomFor 8).w0.stop < (roomFor 8).w0.cur + 3 + 6) ∧
    (BeginForm (.beginExchange 0 1 16 0) [1, 0, 1, 16, 0] (some .crc16) ∧
      (roomFor 9).w0.stop < (roomFor 9).w0.cur + 3 + 5 + frameTrailer (some .crc16)) ∧
    (BeginForm (.beginReceipt 0 2 3) [1, 0, 2, 3] (some .reedSolomon) ∧
      (roomFor 10).w0.stop < (roomFor 10).w0.cur + 3 + 4 + frameTrailer (some .reedSolomon)) :=
  ⟨by decide, by decide, ⟨.inl ⟨.inr rfl, rfl, rfl⟩, by decide⟩,
    ⟨.inr (.inl ⟨0, 1, 7, 2, .inr rfl, by decide, rfl⟩), by decide⟩,
    ⟨.inr (.inr (.inl ⟨3, 1, 2, 3, 9, 9, 9, 0, 0, rfl, .inl rfl, by decide, rfl⟩)), by decide⟩,
    ⟨.inr (.inr (.inr (.inl ⟨0, 16, 0, .crc16, rfl, .inl rfl, by decide, by decide, by decide, rfl⟩))), by decide⟩,
    ⟨.inr (.inr (.inr (.inr ⟨0, 3, .reedSolomon, .inr rfl, .inl rfl, by decide, by decide, rfl⟩))), by decide⟩⟩

/-- A CommandMessage before its END_FRAME. -/
def openMsg : State :=
  writing [0x0C, 0x65, 0, 0xAA, 0xBB, 0xCC] 6 [⟨.commandMessage, 0, 3, 6, 0, none⟩]

theorem witness_EndFrameClosesTheNewest :
    (openMsg.asm.Holds 0 [0x0C, 0x65] ∧ openMsg.asm.Holds 3 [0xAA, 0xBB, 0xCC] ∧ openMsg.w0.cur = 3 + 3 ∧
      0 + 2 + (berMin 3).length + 3 = 6) ∧
    (openPacket.asm.Holds 0 [0x6C, 0x5A] ∧ openPacket.asm.Holds 3 [1, 0, 1, 0, 0] ∧ openPacket.w0.cur = 3 + 5 ∧
      frameTrailer (some .crc16) = 2 ∧ 2 + (berMin 7).length + 7 ≤ openPacket.cfg.maxPacket ∧
      0 + 2 + (berMin 7).length + 7 = 10) := by unfold Memory.Holds; decide

/-- Bodies of 1020 bytes (a frame of 1025) and of 128 bytes in a view that they fill. -/
theorem witness_EndFrameDropsWhatDoesNotFit :
    (List.replicate 1020 (0x55 : Byte)).length = 1020 ∧
    ((writing ([0x0C, 0x65, 0] ++ List.replicate 1020 0x55) 1026 [⟨.commandMessage, 0, 3, 1026, 0, none⟩]).cfg.maxPacket <
      2 + (berMin 1020).length + 1020) ∧
    (nest.w0.cur - 12 + 0 = 128 ∧ 2 + (berMin 128).length + 128 ≤ nest.cfg.maxPacket ∧ 140 < nest.w0.cur + ((berMin 128).length - 1) + 0) ∧
    uav.fstack = [] :=
  ⟨by decide +kernel, by decide +kernel, by decide +kernel, rfl⟩

theorem witness_FrameRoundTrip :
    (uav.cfg.wf = true ∧ uav.fstack = [] ∧ uav.w0.start = uav.w0.cur ∧ uav.w0.cur + uav.cfg.maxPacket ≤ uav.w0.stop) ∧
    ([1, (0 : U64).toNat, ectCode .crc16, (16 : U64).toNat, (0 : U64).toNat].map berMin).flatten.length + 2 + 2 = 9 ∧
    2 + (berMin 9).length + 9 ≤ uav.cfg.maxPacket ∧
    ([0, 1, 7, 2].map berMin).flatten.length + 2 + frameTrailer none = 6 ∧
    ((addressFields 3 1 2 3 9 9 9 0 0).map berMin).flatten.length + 1 + frameTrailer none = 7 ∧
    ((addressFields 6 1 2 3 5 7 8 0 0).map berMin).flatten.length + 0 + frameTrailer none = 9 ∧
    0 + (List.replicate 1019 (0x55 : Byte)).length + frameTrailer none = 1019 ∧
    2 + (berMin 1019).length + 1019 = uav.cfg.maxPacket := by decide +kernel

/-! ### Witnesses: the agent unit -/

theorem witness_SendsQueueTheFrame :
    gc.cfg.hasAgent = true ∧ gc.outRing.Inv gc.cfg.capOut ∧
    ((32767 : U64).toNat ≤ 32767 ∧ (sentFrame gc 32767 [4, 1, 2, 3, 5, 0, 0] cmd6).length ≤ gc.cfg.maxPacket) ∧
    32767 < (32768 : U64).toNat ∧
    (sentFrame gc 16 [4, 1, 2, 3, 5, 0, 0] (List.replicate 1000 0)).length = gc.cfg.maxPacket ∧
    gc.cfg.maxPacket < (sentFrame gc 16 [4, 1, 2, 3, 5, 0, 0] (List.replicate 1001 0)).length :=
  ⟨rfl, ring_inv (by decide), by decide +kernel, by decide, by decide +kernel, by decide +kernel⟩

theorem witness_SendEqualsHostBuiltFrame :
    (gc.fstack = [] ∧ gc.w0.start = gc.w0.cur ∧ gc.w0.cur + gc.cfg.maxPacket + 2 ≤ gc.w0.stop) ∧
    (∃ t, exec (.agSendNetwork 16 1 2 3 5 0 0 cmd6) gc = .next t ∧ t.status.toNat = 0) ∧
    (∃ t, exec (.agSendGroup 16 1 2 3 5 7 8 0 0 cmd6) gc = .next t ∧ t.status.toNat = 0) ∧
    (∃ t, exec (.agSendMulticast 16 1 2 3 0 0 cmd6) gc = .next t ∧ t.status.toNat = 0) :=
  ⟨⟨rfl, rfl, by decide⟩, next_of_after (by decide +kernel), next_of_after (by decide +kernel),
    next_of_after (by decide +kernel)⟩

/-- The host's commands for a group and a multicast send (45_agent.md R166, R168, R169). -/
theorem test_sends_as_a_host_builds_them :
    after (·.outRing) (execAll [.wrU16be 0x4f07, .beginExchange 0 1 16 0, .beginAddress 6 1 2 3 5 7 8 0 0, .wrBytes cmd6,
      .endFrame, .endFrame, .asmCommit .outb] gc) = after (·.outRing) (exec (.agSendGroup 16 1 2 3 5 7 8 0 0 cmd6) gc) ∧
    after (·.outRing) (execAll [.wrU16be 0xacac, .beginExchange 1 1 16 0, .beginAddress 3 1 2 3 0 0 0 0 0, .wrBytes cmd6,
      .endFrame, .endFrame, .asmCommit .outb] uav) = after (·.outRing) (exec (.agSendMulticast 16 1 2 3 0 0 cmd6) uav) := by
  decide +kernel

theorem witness_UavHandlesCommandsInSequence :
    ((uavGets (f26 0)).cfg = cfg .uav ∧ (f26 0).length ≤ (uavGets (f26 0)).cfg.maxPacket) ∧
    (uavGets (f26 0)).inRing.Inv (uavGets (f26 0)).cfg.capIn ∧
    FirstSep [0x4F, 0x07] ((uavGets (f26 0)).contents .inb) [] (f26 0 ++ []) ∧
    PacketForm .exchangePacket 1 0 .crc16 [16, (uavGets (f26 0)).cmdInCtr.toNat] address16 [0, 0] (f26 0) ∧
    AddressForm address16 [4, 1, 2, 3, 5, 0, 0, 0, 0] cmd6 ∧
    address16 = ([(address16, [4, 1, 2, 3, 5, 0, 0, 0, 0], cmd6)].map (·.1)).flatten :=
  ⟨by decide +kernel, ring_inv (by decide +kernel), firstSep_here (by decide +kernel), f26_form 0 (by decide),
    address16_form, by decide⟩

theorem witness_UavAnswersAGapWithCounterAdjustment :
    ((uavGets (f26 2)).cfg = cfg .uav ∧ (f26 2).length ≤ (uavGets (f26 2)).cfg.maxPacket) ∧
    (uavGets (f26 2)).inRing.Inv (uavGets (f26 2)).cfg.capIn ∧ (uavGets (f26 2)).outRing.Inv (uavGets (f26 2)).cfg.capOut ∧
    FirstSep [0x4F, 0x07] ((uavGets (f26 2)).contents .inb) [] (f26 2 ++ []) ∧
    PacketForm .exchangePacket 1 0 .crc16 [16, 2] address16 [0, 0] (f26 2) ∧ 2 ≠ (uavGets (f26 2)).cmdInCtr.toNat :=
  ⟨by decide +kernel, ring_inv (by decide +kernel), ring_inv (by decide +kernel), firstSep_here (by decide +kernel), f26_form 2 (by decide),
    by decide +kernel⟩

theorem witness_CounterAdjustmentIsHandled :
    ((uavGets (ca 5)).cfg = cfg .uav ∧ (gcGets (ca 5)).cfg = cfg .gc ∧ (ca 5).length ≤ (cfg .gc).maxPacket) ∧
    (uavGets (ca 5)).inRing.Inv (uavGets (ca 5)).cfg.capIn ∧
    FirstSep (wireSep .uav .inb) ((uavGets (ca 5)).contents .inb) [] (ca 5 ++ []) ∧
    (gcGets (ca 5)).inRing.Inv (gcGets (ca 5)).cfg.capIn ∧
    FirstSep (wireSep .gc .inb) ((gcGets (ca 5)).contents .inb) [] (ca 5 ++ []) ∧
    PacketForm .counterAdjustmentPacket 1 0 .crc16 [5] [] [0, 0] (ca 5) :=
  ⟨by decide +kernel, ring_inv (by decide +kernel), firstSep_here (by decide +kernel), ring_inv (by decide +kernel),
    firstSep_here (by decide +kernel), ca_form 5 (by decide)⟩

/-- A receipt that matches the last send, and one after no send. -/
theorem witness_GcHandlesReceipts :
    (awaiting.cfg = cfg .gc ∧ awaiting.inRing.Inv awaiting.cfg.capIn) ∧
    FirstSep [0xAC, 0xAC] (awaiting.contents .inb) [] (rc 0 ++ []) ∧
    PacketForm .receiptPacket 1 0 .crc16 [0] [] [0, 0] (rc 0) ∧
    (true = true ↔ awaiting.lastSentValid = true ∧ 0 = awaiting.lastSent.toNat) ∧
    (false = true ↔ (gcGets (rc 0)).lastSentValid = true ∧ 0 = (gcGets (rc 0)).lastSent.toNat) :=
  ⟨⟨rfl, ring_inv (by decide +kernel)⟩, firstSep_here (by decide +kernel), rc_form 0 (by decide), by decide,
    by decide +kernel⟩

theorem noSep_one (b : Byte) : NoSep [0x04, 0x3D] [b] := by
  intro k
  match k with
  | 0 => simp
  | k + 1 => simp

theorem scan_end (b : Byte) : TmScan 1024 [b] [] [] [b] := .noSep (noSep_one b)

/-- A whole good sub-frame, then nothing. -/
theorem scan_ts9 : TmScan 1024 ([0x04, 0x3D] ++ ts9) [ts9] [⟨.tmStatus, [0, 1, 7, 2], [0xDE, 0xAD]⟩] [] :=
  .frame (garbage := []) (rest := []) (firstSep_here (by simp))
    ⟨0x1C, 0x72, [6], [0, 1, 7, 2, 0xDE, 0xAD], rfl, ber_short 6 (by decide)⟩ (by decide) (.inl ts9_form)
    (.noSep fun k => by simp)

/-- TM with a bad length octet in it; the telemetry ExchangePacket t30 in IN. -/
def rescans : State := (gcGets (t30 0)).push .tm [0x04, 0x3D, 0x1C, 0x72, 0x80]

theorem witness_GcHandlesTelemetry :
    (rescans.cfg = cfg .gc ∧ (t30 0).length ≤ (cfg .gc).maxPacket ∧ rescans.cfg.maxPacket ≤ rescans.cfg.capTm) ∧
    rescans.inRing.Inv rescans.cfg.capIn ∧ rescans.tmRing.Inv rescans.cfg.capTm ∧
    FirstSep [0xAC, 0xAC] (rescans.contents .inb) [] (t30 0 ++ []) ∧
    PacketForm .exchangePacket 1 1 .crc16 [16, 0] address20 [0, 0] (t30 0) ∧
    AddressForm address20 [3, 1, 2, 3, 0, 0, 0, 0, 0] ([4, 0x3D] ++ ts9) ∧
    rescans.contents .tm ++ ([4, 0x3D] ++ ts9) = [0x04, 0x3D, 0x1C, 0x72, 0x80, 0x04, 0x3D] ++ ts9 ∧
    TmScan 1024 ([0x04, 0x3D, 0x1C, 0x72, 0x80, 0x04, 0x3D] ++ ts9) [ts9]
      [⟨.subframeError, [3], []⟩, ⟨.tmStatus, [0, 1, 7, 2], [0xDE, 0xAD]⟩] [] :=
  ⟨by decide +kernel, ring_inv (by decide +kernel), ring_inv (by decide +kernel), firstSep_here (by decide +kernel),
    t30_form 0 (by decide), address20_form, by decide +kernel,
    .badLength (garbage := []) (c0 := 0x1C) (c1 := 0x72) (h := 0x80) (firstSep_here rfl) rfl (by decide)
      (.frame (garbage := [0x1C, 0x72, 0x80]) (rest := []) ⟨rfl, by decide⟩
        ⟨0x1C, 0x72, [6], [0, 1, 7, 2, 0xDE, 0xAD], rfl, ber_short 6 (by decide)⟩ (by decide) (.inl ts9_form)
        (.noSep fun k => by simp))⟩

/-- The other turns of the scan: nothing but one byte, a good sub-frame, one not yet whole, a length octet 0x89, a frame of
1029 bytes, a body that fails, another code. -/
theorem witness_TmScan :
    TmScan 1024 [0x04] [] [] [0x04] ∧
    TmScan 1024 ([0x04, 0x3D] ++ ts9) [ts9] [⟨.tmStatus, [0, 1, 7, 2], [0xDE, 0xAD]⟩] [] ∧
    TmScan 1024 [0x04, 0x3D, 0x1C] [] [] [0x04, 0x3D, 0x1C] ∧
    (∃ left, TmScan 1024 [0x04, 0x3D, 0x1C, 0x72, 0x89] [] [⟨.subframeError, [3], []⟩] left) ∧
    (∃ left, TmScan 1024 [0x04, 0x3D, 0x1C, 0x72, 0x82, 0, 4] [] [⟨.subframeError, [13], []⟩] left) ∧
    TmScan 1024 [0x04, 0x3D, 0x1C, 0x72, 1, 0x80, 0xEE] [[0x1C, 0x72, 1, 0x80]] [⟨.subframeError, [3], []⟩] [0xEE] ∧
    TmScan 1024 [0x04, 0x3D, 0x0C, 0x65, 0, 0xEE] [[0x0C, 0x65, 0]] [⟨.subframeError, [4], []⟩] [0xEE] := by
  have none3 : NoSep [0x04, 0x3D] [0x1C, 0x72, 0x89] := by
    intro k
    match k with
    | 0 => decide
    | 1 => decide
    | 2 => decide
    | k + 3 => simp
  have none5 : NoSep [0x04, 0x3D] [0x1C, 0x72, 0x82, 0, 4] := by
    intro k
    match k with
    | 0 => decide
    | 1 => decide
    | 2 => decide
    | 3 => decide
    | 4 => decide
    | k + 5 => simp
  refine ⟨scan_end 0x04, scan_ts9, .incomplete (garbage := []) (firstSep_here rfl) (.inl (by decide)),
    ⟨_, .badLength (garbage := []) (c0 := 0x1C) (c1 := 0x72) (h := 0x89) (firstSep_here rfl) rfl (by decide)
      (.noSep none3)⟩,
    ⟨_, .tooLarge (garbage := []) (c0 := 0x1C) (c1 := 0x72) (len := [0x82, 0, 4]) (more := []) (n := 1024)
      (firstSep_here rfl) rfl (.inr ⟨0x82, [0, 4], rfl, by decide, by decide, by decide, by decide⟩) (by decide)
      (.noSep none5)⟩,
    .frame (garbage := []) (firstSep_here rfl) ⟨0x1C, 0x72, [1], [0x80], rfl, ber_short 1 (by decide)⟩ (by decide)
      (.inr (.inl ⟨.tmStatusMessage, [0x80], .invalidBerLength, .inl rfl, ⟨[1], ber_short 1 (by decide), rfl⟩,
        .inl (.inr ⟨0x80, [], rfl, .inl ⟨.inl rfl, rfl⟩⟩), rfl⟩)) (scan_end 0xEE),
    .frame (garbage := []) (firstSep_here rfl) ⟨0x0C, 0x65, [0], [], rfl, ber_short 0 (by decide)⟩ (by decide)
      (.inr (.inr ⟨0x0C, 0x65, [0], rfl, by decide, by decide, rfl⟩)) (scan_end 0xEE)⟩

theorem witness_FailingHandleKeepsTheAgent :
    (∃ t, exec .agHandle (uavGets (f26 2)) = .next t ∧ t.status.toNat = 14) ∧
    (∃ t, exec .agHandle (uavGets (rc 0)) = .next t ∧ t.status.toNat = 4) ∧
    (uav.cfg.hasAgent = true ∧ ∃ t, exec (.discover .inb) uav = .next t ∧ t.status.toNat = 11) :=
  ⟨next_of_after (by decide +kernel), next_of_after (by decide +kernel), rfl, next_of_after (by decide +kernel)⟩

/-! ### Witnesses: what the decoders and AG_HANDLE reject -/

/-- 65536 as a BER value. -/
theorem ber_65536 : BerForm [0x83, 0, 0, 1] 65536 :=
  .inr ⟨0x83, [0, 0, 1], rfl, by decide, by decide, by decide, by decide⟩

/-- `header` reads as [1, 0, 1]: reserved, stream 0, a trailer of 2 bytes. -/
theorem header_101 : FieldsForm [1, 0, 1] [1, 0, ectCode .crc16] := fields_short [1, 0, 1] (by decide)

/-- For each way to fail a message: no code, another code, no length, a bad length, a length cut short, a body cut short; a
field of a telemetry message and of an AddressPacket, its type; a header field, a body shorter than its trailer, a counter
of 65536. -/
theorem witness_DecodersRaiseTheFirstFailure :
    ((loaded [0x0C]).scr.Holds ((loaded [0x0C]).reader .r0).cur [0x0C] ∧
      ((loaded [0x0C]).reader .r0).stop = ((loaded [0x0C]).reader .r0).cur + 1) ∧
    (MsgFails .commandMessage [0x0C] .unexpectedEndOfStream ∧ MsgFails .commandMessage [0x0C, 0x66] .invalidDataHeader ∧
      MsgFails .commandMessage [0x0C, 0x65] .unexpectedEndOfStream ∧
      MsgFails .commandResult [0x0C, 0x66, 0x80] .invalidBerLength ∧
      MsgFails .commandResult [0x0C, 0x66, 0x89] .invalidBerLength ∧
      MsgFails .commandMessage [0x0C, 0x65, 0x82, 1] .unexpectedEndOfStream ∧
      MsgFails .commandMessage [0x0C, 0x65, 2, 1] .unexpectedEndOfStream) ∧
    (MsgFails .tmStatusMessage [0x1C, 0x72, 1, 0x80] .invalidBerLength ∧
      MsgFails .tmEventMessage [0x0C, 0x78, 1, 7] .unexpectedEndOfStream) ∧
    (MsgFails .addressPacket [0xAC, 0x5E, 1, 5] .invalidAddressType ∧
      MsgFails .addressPacket [0xAC, 0x5E, 1, 6] .unexpectedEndOfStream) ∧
    (MsgFails .exchangePacket [0x6C, 0x5A, 2, 1, 2] .invalidStreamType ∧
      MsgFails .exchangePacket [0x6C, 0x5A, 4, 1, 0, 1, 0] .unexpectedEndOfStream ∧
      MsgFails .counterAdjustmentPacket [0x6C, 0x5B, 9, 1, 0, 1, 0x83, 0, 0, 1, 0, 0] .invalidSequenceCounter ∧
      MsgFails .receiptPacket [0x3C, 0x5C, 9, 1, 0, 1, 0x83, 0, 0, 1, 0, 0] .invalidSequenceCounter) := by
  have ends : BadBer [] .unexpectedEndOfStream := .inl ⟨rfl, rfl⟩
  have bad : ∀ h : Byte, h.toNat = 0x80 ∨ 0x89 ≤ h.toNat → BadBer [h] .invalidBerLength :=
    fun h hh => .inr ⟨h, [], rfl, .inl ⟨hh, rfl⟩⟩
  have body : ∀ (k : Kind) (msg b : List Byte) (l : Byte) (e : Status), l.toNat < 128 → l.toNat = b.length →
      msg = wireCode k ++ [l] ++ b → BodyFails k b e → MsgFails k msg e :=
    fun k msg b l e h1 h2 h3 h4 => .inr (.inr (.inr (.inr ⟨msg, b, [], by simp, ⟨[l], h2 ▸ ber_short l h1, h3⟩, h4⟩)))
  have counter : FieldsFail [inRange 65535 .invalidSequenceCounter] [0x83, 0, 0, 1] .invalidSequenceCounter :=
    .inr ⟨_, _, [], rfl, ber_65536, .inl rfl⟩
  have packet : ∀ checks fields e, FieldsFail checks fields e → PacketFails checks ([1, 0, 1] ++ (fields ++ [0, 0])) e :=
    fun checks fields e h => .inr ⟨[1, 0, 1], 1, 0, .crc16, _, rfl, by decide, header_101, .inr ⟨fields, [0, 0], rfl, rfl, h⟩⟩
  refine ⟨⟨by unfold Memory.Holds; decide, by decide⟩, ⟨.inl ⟨by decide, rfl⟩, .inr (.inl ⟨_, _, [], rfl, by decide, rfl⟩),
      .inr (.inr (.inl ⟨[], rfl, ends⟩)), .inr (.inr (.inl ⟨_, rfl, bad 0x80 (by decide)⟩)),
      .inr (.inr (.inl ⟨_, rfl, bad 0x89 (by decide)⟩)),
      .inr (.inr (.inl ⟨_, rfl, .inr ⟨0x82, [1], rfl, .inr ⟨by decide, by decide, by decide, rfl⟩⟩⟩)),
      .inr (.inr (.inr (.inl ⟨[2], 2, [1], rfl, ber_short 2 (by decide), by decide, rfl⟩)))⟩,
    ⟨body _ _ [0x80] 1 _ (by decide) rfl rfl (.inl (bad 0x80 (by decide))),
      body _ _ [7] 1 _ (by decide) rfl rfl (.inr ⟨[7], 7, [], rfl, ber_short 7 (by decide), .inr ⟨rfl, .inl ends⟩⟩)⟩,
    ⟨body _ _ [5] 1 _ (by decide) rfl rfl (.inl (.inr ⟨[5], 5, [], rfl, ber_short 5 (by decide), .inl rfl⟩)),
      body _ _ [6] 1 _ (by decide) rfl rfl
        (.inr ⟨[6], 6, [], rfl, ber_short 6 (by decide), .inr (.inr ⟨rfl, .inl ends⟩)⟩)⟩,
    body _ _ [1, 2] 2 _ (by decide) rfl rfl (.inl (.inr ⟨[1], 1, [2], rfl, ber_short 1 (by decide), .inr ⟨rfl,
      .inr ⟨[2], 2, [], rfl, ber_short 2 (by decide), .inl rfl⟩⟩⟩)),
    body _ _ [1, 0, 1, 0] 4 _ (by decide) rfl rfl
      (.inr ⟨[1, 0, 1], 1, 0, .crc16, [0], rfl, by decide, header_101, .inl ⟨by decide, rfl⟩⟩),
    body .counterAdjustmentPacket _ _ 9 _ (by decide) rfl rfl (packet _ _ _ counter),
    body .receiptPacket _ _ 9 _ (by decide) rfl rfl (packet _ _ _ counter)⟩

/-- An unknown code, a body that fails, the wrong stream on either role, a payload with a bad packet behind a good one, a
telemetry-stream receipt: in each case the premises that the clause shares, and those of its own. -/
theorem witness_HandleFailuresFinish :
    (uav.cfg.hasAgent = true ∧ (uavGets (rc 0)).inRing.Inv (uavGets (rc 0)).cfg.capIn ∧
      FirstSep (wireSep .uav .inb) ((uavGets (rc 0)).contents .inb) [] (rc 0 ++ []) ∧
      rc 0 = [0x3C, 0x5C] ++ [6] ++ [1, 0, 1, 0, 0, 0] ∧ BerForm [6] 6 ∧ (rc 0).length ≤ (uavGets (rc 0)).cfg.maxPacket) ∧
    ([0x3C, 0x5C] ≠ wireCode .exchangePacket ∧ [0x3C, 0x5C] ≠ wireCode .counterAdjustmentPacket) ∧
    BodyFails .exchangePacket [] .unexpectedEndOfStream ∧
    (PacketForm .exchangePacket 1 1 .crc16 [16, 0] address20 [0, 0] (t30 0) ∧
      PacketForm .exchangePacket 1 0 .crc16 [16, 0] address16 [0, 0] (f26 0)) ∧
    (PacketForm .exchangePacket 1 0 .crc16 [16, 0] (address16 ++ [0xAC]) [0, 0]
        ([0x6C, 0x5A, 0x18, 1, 0, 1, 0x10, 0] ++ address16 ++ [0xAC] ++ [0, 0]) ∧
      AddressForm address16 [4, 1, 2, 3, 5, 0, 0, 0, 0] cmd6 ∧ MsgFails .addressPacket [0xAC] .unexpectedEndOfStream ∧
      0 = uav.cmdInCtr.toNat) ∧
    PacketForm .receiptPacket 1 1 .crc16 [0] [] [0, 0] [0x3C, 0x5C, 6, 1, 1, 1, 0, 0, 0] :=
  ⟨⟨rfl, ring_inv (by decide +kernel), firstSep_here (by decide +kernel), rfl, ber_short 6 (by decide), by decide +kernel⟩,
    by decide, .inl (.inl (.inl ⟨rfl, rfl⟩)), ⟨t30_form 0 (by decide), f26_form 0 (by decide)⟩,
    ⟨⟨[1, 0, 1, 0x10, 0], by decide, fields_short [1, 0, 1, 0x10, 0] (by decide), rfl, [0x18], ber_short 0x18 (by decide),
      rfl⟩, address16_form, .inl ⟨by decide, rfl⟩, rfl⟩,
    [1, 1, 1, 0], by decide, fields_short [1, 1, 1, 0] (by decide), rfl, [6], ber_short 6 (by decide), rfl⟩

end Sys2Proof.Tests
end

section
/-! PROOFS. The statements about State as a whole (10_state.md): reset, the invariant, progress, the response. -/

namespace Sys2Proof.Machine

/-! ### Reset -/

theorem Config.wf_iff {cfg : Config} : cfg.wf = true ↔
    16 ≤ cfg.maxPacket ∧ cfg.asmSize < 2 ^ 16 ∧ 1 ≤ cfg.kIn ∧ 1 ≤ cfg.kOut ∧ 1 ≤ cfg.kTm ∧
      cfg.capIn < 2 ^ 64 ∧ cfg.capOut < 2 ^ 64 ∧ cfg.capTm < 2 ^ 64 := by
  simp only [Config.wf, Bool.and_eq_true, decide_eq_true_eq, and_assoc]

/-- Every ring of a legal configuration has a cell. -/
theorem resetOf_cap_pos {cfg : Config} (h : cfg.wf = true) (r : RingSel) : 0 < (State.resetOf cfg).cap r := by
  obtain ⟨hp, -, hin, hout, htm, -⟩ := Config.wf_iff.1 h
  have hp : 0 < cfg.maxPacket := by omega
  cases r with
  | inb => exact Nat.mul_pos hin hp
  | outb => exact Nat.mul_pos hout hp
  | tm => exact Nat.mul_pos htm hp

theorem resetOf_ring (cfg : Config) (r : RingSel) :
    (State.resetOf cfg).ring r = Ring.empty ((State.resetOf cfg).cap r) := by cases r <;> rfl

theorem resetOf_reader (cfg : Config) (c : RdSel) : (State.resetOf cfg).reader c = ⟨0, 0, 0⟩ := by cases c <;> rfl

theorem Memory.Inv_nil (size : Nat) : Memory.Inv size [] := ⟨rfl, fun c hc => by simp at hc⟩

theorem resetOf_inv {cfg : Config} (h : cfg.wf = true) : (State.resetOf cfg).Inv where
  cfg := h
  rings r := by
    rw [resetOf_ring]
    exact Ring.Inv_empty (resetOf_cap_pos h r)
  tmAbsent _ := rfl
  scr := Memory.Inv_nil _
  scrLen := Nat.zero_le _
  scrHeld _ hk := absurd hk (Nat.not_lt_zero _)
  readers c := by
    rw [resetOf_reader]
    exact ⟨Nat.le_refl _, Nat.le_refl _, Nat.zero_le _⟩
  asm := Memory.Inv_nil _
  asmHeld _ hk := absurd hk (Nat.not_lt_zero _)
  frames := ⟨Nat.le_refl _, Nat.zero_le _, Nat.le_refl _⟩
  placeholders _ he := absurd he List.not_mem_nil
  depth := Nat.zero_le _
  agb := Memory.Inv_nil _
  status := Nat.zero_le _
  response _ hr := nomatch hr
  uav _ := ⟨rfl, rfl⟩
  gc _ := rfl
  noAgent _ := ⟨rfl, rfl, rfl, rfl⟩
  sent hv := nomatch hv
  unsent _ := ⟨rfl, rfl, rfl⟩

/-- Settles O10: the reset state of a legal configuration is empty, and `Config.initial` is legal. -/
theorem resetMeetsInv : Obligations.ResetMeetsInv :=
  ⟨fun _ h => resetOf_inv h, resetOf_inv (cfg := Config.initial) (by decide)⟩

/-! ### REG_RD -/

theorem exec_regRd_of_reg {s : State} {index : BitVec 8} {v : Nat} (h : s.reg index = some v) :
    exec (.regRd index) s = .next (finish .ok [v] [] [] s) := by
  show execRegRd index s = _
  unfold execRegRd
  rw [h]

theorem exec_regRd_of_map {s : State} {rows : List (Nat × Nat)}
    (h : List.Forall (fun p => s.reg (BitVec.ofNat 8 p.1) = some p.2) rows) :
    ∀ p ∈ rows, exec (.regRd (BitVec.ofNat 8 p.1)) s = .next (finish .ok [p.2] [] [] s) :=
  fun p hp => exec_regRd_of_reg (List.forall_iff_forall_mem.1 h p hp)

theorem ectCode_eq_ite (e : Ect) : ectCode e = if e = .crc16 then 1 else 2 := by cases e <;> rfl

theorem onGc_of_gc {s : State} (h : s.cfg.role = .gc) (v : Nat) : onGc s v = some v := by
  simp only [onGc, h]

theorem onUav_of_uav {s : State} (h : s.cfg.role = .uav) (v : Nat) : onUav s v = some v := by
  simp only [onUav, h]

theorem onAgent_of_agent {s : State} (h : s.cfg.hasAgent = true) (v : Option Nat) : onAgent s v = v := by
  simp only [onAgent, h, if_true]

/-- The value that the statement writes out for AGENT_FLAGS (10_state.md R31). -/
theorem agentFlags_eq (s : State) : s.agentFlags =
    (if s.readyToSend = true ∧ s.cfg.role = .gc then 1 else 0) + (if s.lastSentValid = true then 2 else 0) := by
  simp [State.agentFlags]

/-- Settles O17: REG_RD answers what `State.reg` reads, and each list of indices is a part of that map. -/
theorem regRdReadsTheMap : Obligations.RegRdReadsTheMap := by
  intro s
  refine ⟨exec_regRd_of_map ?_, fun hu => exec_regRd_of_map ?_, fun hg => exec_regRd_of_map ?_,
    fun ha => exec_regRd_of_map ?_⟩
  · rw [← ectCode_eq_ite]
    simp [State.reg, State.cap, State.readable, State.ring, Ring.readable, Config.capIn, Config.capOut]
  · simp [State.reg, hu, roleCode, sepIn, sepOut]
  · simp [State.reg, hg, roleCode, sepIn, sepOut, sepTm, onGc_of_gc, State.cap, State.readable, State.ring,
      Ring.readable, Config.capTm]
  · rw [← agentFlags_eq]
    cases hr : s.cfg.role with
    | uav => simp [State.reg, ha, hr, onAgent_of_agent, onUav_of_uav]
    | gc => simp [State.reg, ha, hr, onAgent_of_agent, onGc_of_gc]

/-! ### Shared facts about discovery and the commands -/

/-- A discovery cycle never touches the configuration. -/
theorem discover_cfg {r : RingSel} {sep : Nat} {s t : State} {st : Status} (h : discover r sep s = .ok (st, t)) :
    t.cfg = s.cfg := by
  obtain ⟨c, -, -, rfl⟩ := discover_ok h
  split <;> simp

theorem foldl_push_tm_cfg (packets : List (List Nat × List Byte)) (s : State) :
    (packets.foldl (fun (u : State) a => u.push .tm a.2) s).cfg = s.cfg := by
  rw [foldl_push_tm_change packets s]

section Keeps

variable {s t : State}

/-! ### Every command keeps the invariant -/

theorem State.Inv.grant (h : s.Inv) {p : Port} {c : Command} (hg : s.grant = some (p, c, t)) : t.Inv := by
  unfold State.grant at hg
  split at hg
  · cases hg
  · cases hg; exact { h with rings := h.rings, readers := h.readers }
  · cases hg; exact { h with rings := h.rings, readers := h.readers }
  · split at hg
    · cases hg; exact { h with rings := h.rings, readers := h.readers }
    · cases hg; exact { h with rings := h.rings, readers := h.readers }

theorem State.Inv.applyReset (h : s.Inv) : s.applyReset.Inv :=
  have h0 := resetOf_inv h.cfg
  { h0 with rings := h0.rings, readers := h0.readers }

/-- A reader moved forward inside its view keeps its bounds. -/
theorem Cursor.Inv.advance {hi n : Nat} {c : Cursor} (h : c.Inv hi) (hn : n ≤ c.avail) :
    Cursor.Inv hi { c with cur := c.cur + n } := by
  obtain ⟨h1, h2, h3⟩ := h
  unfold Cursor.avail at hn
  exact ⟨by dsimp only; omega, by dsimp only; omega, h3⟩

/-- The view of `n` bytes at a reader lies inside it. -/
theorem Cursor.Inv.slice {hi n : Nat} {c : Cursor} (h : c.Inv hi) (hn : n ≤ c.avail) :
    Cursor.Inv hi ⟨c.cur, c.cur, c.cur + n⟩ := by
  obtain ⟨h1, h2, h3⟩ := h
  unfold Cursor.avail at hn
  exact ⟨Nat.le_refl _, by dsimp only; omega, by dsimp only; omega⟩

theorem DecodedIn.after_inv {hi : Nat} {c : Cursor} {d : Decoded} (hd : DecodedIn c d) (h : c.Inv hi) :
    d.after.Inv hi := by
  obtain ⟨h1, -, h3⟩ := h
  have hp := hd.past
  have hs := hd.stop
  rw [hd.after]
  exact ⟨by dsimp only; omega, hs, h3⟩

theorem DecodedIn.payload_inv {hi : Nat} {c : Cursor} {d : Decoded} (hd : DecodedIn c d) (h : c.Inv hi) :
    Cursor.Inv hi ⟨d.payload.cur, d.payload.cur, d.payload.stop⟩ := by
  have h1 := hd.hi
  have h2 := hd.stop
  have h3 := h.2.2
  exact ⟨Nat.le_refl _, hd.view, by dsimp only; omega⟩

theorem State.Inv.unlessRaised (h : s.Inv) {P : Prop} (ht : P ∨ Raised s t) (hp : P → t.Inv) : t.Inv :=
  ht.elim hp h.raised

theorem State.Inv.readFixed (h : s.Inv) {n : Nat} {value : List Byte → Nat} {c : RdSel}
    (ht : Machine.readFixed n value c s = .next t) : t.Inv := by
  rcases readFixed_cases ht with ⟨bytes, c', hr, rfl⟩ | ht
  · obtain ⟨-, hn, -, rfl⟩ := readN_ok hr
    exact (h.setReader ((h.readers c).advance hn)).finish ..
  · exact h.raised ht

theorem State.Inv.writeThrough (h : s.Inv) {bytes : List Byte} (ht : Machine.writeThrough bytes s = .next t) :
    t.Inv := by
  rcases writeThrough_cases ht with ⟨hl, rfl⟩ | ht
  · exact (h.write hl).finish ..
  · exact h.raised ht

theorem State.Inv.decodeTo (h : s.Inv) {dec : Memory → Cursor → Res Decoded} {src dst : RdSel}
    (hdec : ∀ {d}, dec s.scr (s.reader src) = .ok d → DecodedIn (s.reader src) d)
    (ht : Machine.decodeTo dec src dst s = .next t) : t.Inv := by
  rcases decodeTo_cases ht with ⟨d, hd, rfl⟩ | ht
  · have hc := h.readers src
    have hin := hdec hd
    refine State.Inv.finish (State.Inv.setReader (h.setReader (hin.after_inv hc)) ?_) ..
    rw [setReader_scrLen]
    exact hin.payload_inv hc
  · exact h.raised ht

theorem State.Inv.decodeOnly (h : s.Inv) {dec : Memory → Cursor → Res Decoded} {src : RdSel}
    (hdec : ∀ {d}, dec s.scr (s.reader src) = .ok d → DecodedIn (s.reader src) d)
    (ht : Machine.decodeOnly dec src s = .next t) : t.Inv := by
  rcases decodeOnly_cases ht with ⟨d, hd, rfl⟩ | ht
  · exact (h.setReader ((hdec hd).after_inv (h.readers src))).finish ..
  · exact h.raised ht

theorem State.Inv.begun (h : s.Inv) {k : Kind} (ht : Begun k s t ∨ Raised s t) : t.Inv := by
  rcases ht with ⟨header, ect, he, hd, hl, rfl⟩ | ht
  · exact (h.opened he hd hl).finish ..
  · exact h.raised ht

theorem State.Inv.endFrame (h : s.Inv) (ht : execEndFrame s = .next t) : t.Inv := by
  rcases execEndFrame_cases ht with ⟨e, rest, lb, hf, rfl, ⟨st, -, rfl⟩ | ⟨-, hfit, hc⟩⟩ | ht
  · exact (h.abort hf).finish ..
  · exact h.closed hf (berMin_length_pos _) hfit hc
  · exact h.raised ht

theorem State.Inv.send (h : s.Inv) {ws : Nat} {address payload : List Byte}
    (ht : Machine.send ws address payload s = .next t) : t.Inv := by
  rcases send_cases ht with ⟨ha, -, hl, rfl⟩ | ht
  · exact ((h.queued (by unfold Config.asmSize; omega) ha).noteSent (by simpa using ha)).finish ..
  · exact h.raised ht

/-- UavDispatch keeps the invariant, on the agents that run it (45_agent.md R161). -/
theorem State.Inv.uavDispatch (h : s.Inv) (hu : s.cfg.role = .uav) (ha : s.cfg.hasAgent = true) {code : Nat}
    {res : List Nat} {d : List Byte} {ev : List Event} (ht : Machine.uavDispatch code ⟨s, res, d, ev⟩ = .ok t) :
    t.Inv := by
  have hmax := (Config.wf_iff.1 h.cfg).1
  rcases uavDispatch_cases ht with ⟨_, _, x, rfl, -, hx⟩ | ⟨_, _, rfl⟩ | ⟨_, _, rfl⟩ | ⟨_, _, rfl⟩
  · exact (h.queued (by unfold Config.asmSize; omega) ha).finish ..
  · exact (h.setCmdInCtr _ hu ha).finish ..
  · exact (h.setCmdInCtr _ hu ha).finish ..
  · exact h.finish ..

/-- GcDispatch keeps the invariant, on the agents that run it (45_agent.md R162). -/
theorem State.Inv.gcDispatch (h : s.Inv) (hg : s.cfg.role = .gc) (ha : s.cfg.hasAgent = true) {code : Nat}
    {res : List Nat} {d : List Byte} {ev : List Event} (ht : Machine.gcDispatch code ⟨s, res, d, ev⟩ = .ok t) :
    t.Inv := by
  rcases gcDispatch_cases ht with ⟨_, packets, _, _, u, hu, rfl⟩ | ⟨_, last, -, rfl⟩ | ⟨_, _, rfl⟩ | ⟨_, _, rfl⟩
  · have hpush := (h.advanceTm hg ha).pushAll packets hg
    exact (hpush.tmRescan (by rw [foldl_push_tm_cfg]; exact hg) hu).finish ..
  · exact (h.noteReceipt last hg).finish ..
  · exact h.finish ..
  · exact h.finish ..

theorem State.Inv.agHandle (h : s.Inv) (ht : execAgHandle s = .next t) : t.Inv := by
  rcases execAgHandle_cases ht with ⟨st, u, ha, hd, hcases⟩ | ht
  · have hu := h.discover rfl hd
    rw [← discover_cfg hd] at ha hcases
    rcases hcases with ⟨-, rfl⟩ | ⟨-, code, -, ⟨hr, ht⟩ | ⟨hr, ht⟩⟩
    · exact hu.finish ..
    · exact hu.uavDispatch hr ha ht
    · exact hu.gcDispatch hr ha ht
  · exact h.raised ht

theorem State.Inv.ringErase (h : s.Inv) {r : RingSel} {n : Nat} {rb : Ring} (hp : r.present s.cfg = true)
    (he : Machine.ringErase (s.cap r) n (s.ring r) = .ok rb) : (s.setRing r rb).Inv := by
  unfold Machine.ringErase at he
  split at he
  · cases he
  · cases he
    exact h.setRing hp ((h.rings r).drop (by omega))

/-- Every instruction keeps the invariant. -/
theorem exec_keeps_inv (h : s.Inv) (i : Instr) (ht : exec i s = .next t) : t.Inv := by
  cases i with
  | regRd index =>
    exact h.unlessRaised (execRegRd_cases ht) fun ⟨v, _, e⟩ => e ▸ h.finish ..
  | rbWrite r data =>
    exact h.unlessRaised (execRbWrite_cases ht) fun ⟨hp, e⟩ => e ▸ (h.push data hp).finish ..
  | rbPeek r n off =>
    exact h.unlessRaised (execRbPeek_cases ht) fun ⟨bytes, _, _, e⟩ => e ▸ h.finish ..
  | rbRead r n =>
    exact h.unlessRaised (execRbRead_cases ht) fun ⟨bytes, rb, hp, _, he, e⟩ => e ▸ (h.ringErase hp he).finish ..
  | rbErase r n =>
    exact h.unlessRaised (execRbErase_cases ht) fun ⟨rb, hp, he, e⟩ => e ▸ (h.ringErase hp he).finish ..
  | rbStatus r =>
    exact h.unlessRaised (execRbStatus_cases ht) fun ⟨_, e⟩ => e ▸ h.finish ..
  | curSet tg a b =>
    rcases execCurSet_cases ht with ⟨c, -, hab, hb, rfl⟩ | ⟨-, hf, hab, hb, rfl⟩ | ht
    · exact (h.setReader (x := ⟨a.toNat, a.toNat, b.toNat⟩) ⟨Nat.le_refl _, hab, hb⟩).finish ..
    · exact (h.curSet hf hab hb).finish ..
    · exact h.raised ht
  | scrLoad data =>
    exact h.unlessRaised (execScrLoad_cases ht) fun ⟨hl, e⟩ => e ▸ (h.loadScr hl).finish ..
  | rdU8 c => exact h.readFixed ht
  | rdU16be c => exact h.readFixed ht
  | rdU16le c => exact h.readFixed ht
  | rdU32be c => exact h.readFixed ht
  | rdU32le c => exact h.readFixed ht
  | rdU64be c => exact h.readFixed ht
  | rdU64le c => exact h.readFixed ht
  | rdBer c =>
    rcases execRdBer_cases ht with ⟨v, c', hr, rfl⟩ | ht
    · obtain ⟨bytes, -, -, hn, rfl⟩ := readBer_ok hr
      exact (h.setReader ((h.readers c).advance (by unfold Cursor.avail; omega))).finish ..
    · exact h.raised ht
  | rdSlice src dst n =>
    rcases execRdSlice_cases ht with ⟨hn, rfl⟩ | ht
    · refine State.Inv.finish (State.Inv.setReader (h.setReader ((h.readers src).advance hn)) ?_) ..
      rw [setReader_scrLen]
      exact (h.readers src).slice hn
    · exact h.raised ht
  | rdBytes c n =>
    rcases execRdBytes_cases ht with ⟨bytes, c', hr, rfl⟩ | ht
    · obtain ⟨-, hn, -, rfl⟩ := readN_ok hr
      exact (h.setReader ((h.readers c).advance hn)).finish ..
    · exact h.raised ht
  | wrU8 v => exact h.writeThrough ht
  | wrU16be v => exact h.writeThrough ht
  | wrU16le v => exact h.writeThrough ht
  | wrU32be v => exact h.writeThrough ht
  | wrU32le v => exact h.writeThrough ht
  | wrU64be v => exact h.writeThrough ht
  | wrU64le v => exact h.writeThrough ht
  | wrBer v => exact h.writeThrough (bytes := berMin v.toNat) ht
  | wrBytes data => exact h.writeThrough ht
  | asmTake =>
    exact h.unlessRaised (execAsmTake_cases ht) fun ⟨bytes, hf, _, e⟩ => e ▸ (h.rewind hf).finish ..
  | asmCommit r =>
    exact h.unlessRaised (execAsmCommit_cases ht) fun ⟨bytes, hp, hf, _, e⟩ =>
      e ▸ ((h.push bytes hp).rewind (by simpa [State.push] using hf)).finish ..
  | discover r =>
    rcases execDiscover_cases ht with ⟨st, u, hp, hd, ⟨-, code, -, rfl⟩ | ⟨-, rfl⟩⟩ | ht
    · exact (h.discover hp hd).finish ..
    · exact (h.discover hp hd).finish ..
    · exact h.raised ht
  | decCmdmsg src dst => exact h.decodeTo decBody_in ht
  | decCmdresult src dst => exact h.decodeTo decBody_in ht
  | decTmstatus src dst => exact h.decodeTo decFour_in ht
  | decTmevent src dst => exact h.decodeTo decFour_in ht
  | decAddress src dst => exact h.decodeTo decAddress_in ht
  | decExchange src dst => exact h.decodeTo decExchange_in ht
  | decCounteradj src => exact h.decodeOnly decCounter_in ht
  | decReceipt src => exact h.decodeOnly decCounter_in ht
  | beginCmdmsg => exact h.begun (execBeginCmdmsg_cases ht)
  | beginCmdresult => exact h.begun (execBeginCmdresult_cases ht)
  | beginTmstatus => exact h.begun (execBeginTmstatus_cases ht)
  | beginTmevent => exact h.begun (execBeginTmevent_cases ht)
  | beginAddress => exact h.begun (execBeginAddress_cases ht)
  | beginExchange => exact h.begun (execBeginExchange_cases ht)
  | beginCounteradj => exact h.begun (execBeginCounteradj_cases ht)
  | beginReceipt => exact h.begun (execBeginReceipt_cases ht)
  | endFrame => exact h.endFrame ht
  | agHandle => exact h.agHandle ht
  | agSendNetwork => exact h.send ht
  | agSendGroup => exact h.send ht
  | agSendMulticast => exact h.send ht

/-- A granted command, legal or not, keeps the invariant. -/
theorem issue_keeps_inv (h : s.Inv) {p : Port} {c : Command} (ht : issue p c s = .next t) : t.Inv := by
  unfold issue at ht
  split at ht
  · cases ht; exact h.raise _
  · split at ht
    · exact exec_keeps_inv h _ ht
    · cases ht; exact h.raise _

end Keeps

/-- Settles O11: reset, an idle step and a granted command each keep the invariant. -/
theorem stepKeepsInv : Obligations.StepKeepsInv := by
  intro s t h ht
  unfold step tick at ht
  split at ht
  · cases ht; exact h.applyReset
  · split at ht
    · cases ht; exact h
    · rename_i hg
      exact issue_keeps_inv (h.grant hg) ht

section Goes

variable {s : State}

/-! ### Every command goes on -/

theorem goes_next (t : State) : Out.Goes (.next t) := ⟨t, rfl⟩

/-- A sequence does not stop with `e` when its parts do not. -/
theorem bind_ne_error {α β : Type} {e : Stop} {x : Res α} {f : α → Res β} (hx : x ≠ .error e)
    (hf : ∀ a, x = .ok a → f a ≠ .error e) : (x >>= f) ≠ .error e := by
  intro he
  rcases bind_error.1 he with he | ⟨a, ha, he⟩
  · exact hx he
  · exact hf a ha he

theorem ok_ne_error {α : Type} {e : Stop} (a : α) : (.ok a : Res α) ≠ .error e := nofun

theorem pure_ne_error {α : Type} {e : Stop} (a : α) : (pure a : Res α) ≠ .error e := nofun

theorem raised_ne_noValue {α : Type} (st : Status) : (.error (.raised st) : Res α) ≠ .error .noValue := nofun

theorem orFinish_ne_noValue {α : Type} {p : Progress} {r : Res α} {k : α → Res State} (hr : r ≠ .error .noValue)
    (hk : ∀ a, r = .ok a → k a ≠ .error .noValue) : p.orFinish r k ≠ .error .noValue := by
  unfold Progress.orFinish
  split
  · exact hk _ rfl
  · exact ok_ne_error _
  · exact absurd rfl hr

theorem withRing_goes {r : RingSel} {k : Out} (hk : Out.Goes k) : Out.Goes (withRing s r k) := by
  unfold withRing
  split
  · exact hk
  · exact goes_next _

theorem withAgent_goes {k : Out} (hk : Out.Goes k) : Out.Goes (withAgent s k) := by
  unfold withAgent
  split
  · exact hk
  · exact goes_next _

theorem ringPeek_ne_noValue {cap n off : Nat} {rb : Ring} (h : rb.Inv cap) :
    ringPeek cap n off rb ≠ .error .noValue := by
  by_cases hn : off + n ≤ rb.readable cap
  · rw [ringPeek_ok h hn]
    exact ok_ne_error _
  · rw [ringPeek_range (by omega)]
    exact raised_ne_noValue _

theorem ringErase_ne_noValue (cap n : Nat) (rb : Ring) : ringErase cap n rb ≠ .error .noValue := by
  unfold ringErase
  split
  · exact raised_ne_noValue _
  · exact ok_ne_error _

theorem readFixed_goes (h : s.Inv) (n : Nat) (value : List Byte → Nat) (c : RdSel) :
    Out.Goes (readFixed n value c s) :=
  conclude_goes (bind_ne_error (readN_written (h.viewWritten c)) fun _ _ => pure_ne_error _)

/-- The writer reads no cell. -/
theorem writeThrough_goes (bytes : List Byte) (s : State) : Out.Goes (writeThrough bytes s) := by
  refine conclude_goes (bind_ne_error ?_ fun _ _ => pure_ne_error _)
  unfold writeN
  split
  · exact raised_ne_noValue _
  · exact ok_ne_error _

theorem decodeTo_goes (h : s.Inv) {dec : Memory → Cursor → Res Decoded} {src : RdSel} (dst : RdSel)
    (hdec : s.scr.Written (s.reader src).cur (s.reader src).stop → dec s.scr (s.reader src) ≠ .error .noValue) :
    Out.Goes (decodeTo dec src dst s) :=
  conclude_goes (bind_ne_error (hdec (h.viewWritten src)) fun _ _ => pure_ne_error _)

theorem decodeOnly_goes (h : s.Inv) {dec : Memory → Cursor → Res Decoded} {src : RdSel}
    (hdec : s.scr.Written (s.reader src).cur (s.reader src).stop → dec s.scr (s.reader src) ≠ .error .noValue) :
    Out.Goes (decodeOnly dec src s) :=
  conclude_goes (bind_ne_error (hdec (h.viewWritten src)) fun _ _ => pure_ne_error _)

/-- A BEGIN command reads no cell. -/
theorem beginWith_ne_noValue {k : Kind} {header : List Byte} {ect : Option Ect} :
    beginWith k header ect s ≠ .error .noValue := by
  refine bind_ne_error ?_ fun _ _ => pure_ne_error _
  unfold beginFrame
  dsimp only
  split
  · exact raised_ne_noValue _
  · split
    · exact raised_ne_noValue _
    · exact ok_ne_error _

theorem checkStreamEct_ne_noValue {st e : Nat} {k : Ect → Res State} (hk : ∀ ect, k ect ≠ .error .noValue) :
    checkStreamEct st e k ≠ .error .noValue := by
  unfold checkStreamEct
  split
  · exact raised_ne_noValue _
  · split
    · exact raised_ne_noValue _
    · exact hk _

/-- A check that raises before the rest of a command. -/
theorem ite_raised_ne_noValue {α : Type} {c : Prop} [Decidable c] {st : Status} {r : Res α}
    (hr : r ≠ .error .noValue) : (if c then .error (.raised st) else r) ≠ .error .noValue := by
  split
  · exact raised_ne_noValue _
  · exact hr

/-- The frame END_FRAME closes stands in written cells of ASM: its code is the placeholder's, its body lies below W0.cur
(10_state.md R25). -/
theorem State.Inv.closeFrame_ne_noValue (h : s.Inv) {e : FrameEntry} {rest : List FrameEntry} {lb : List Byte} {n : Nat}
    (hf : s.fstack = e :: rest) (hlb : 1 ≤ lb.length) : closeFrame e rest lb n s ≠ .error .noValue := by
  have hfit := h.frames
  rw [hf] at hfit
  obtain ⟨hbs, hcur, -, -, -, -, hrest⟩ := hfit
  obtain ⟨hstart, -⟩ := hrest.bounds
  obtain ⟨c0, c1, hcode, -⟩ := wireCode_pair e.kind
  have hc : s.asm.Holds e.start [c0, c1] := by
    have := h.placeholders e (by rw [hf]; exact List.mem_cons_self)
    rw [hcode] at this
    exact (Memory.Holds.append.1 this).1
  obtain ⟨body, hb⟩ := memRead_written (m := s.asm) (i := e.bodyStart) (n := s.w0.cur - e.bodyStart)
    (h.asmHeld.mono (by omega) (by omega))
  obtain ⟨hbl, hbd⟩ := memRead_ok hb
  obtain ⟨m, -, hm⟩ := closeFrame_form (n := n) (rest := rest) hbs hc hbd (by omega) hlb
  rw [hm]
  exact ok_ne_error _

theorem endFrame_goes (h : s.Inv) : Out.Goes (execEndFrame s) := by
  refine conclude_goes ?_
  split
  · exact raised_ne_noValue _
  · rename_i e rest hf
    dsimp only
    split
    · exact ok_ne_error _
    · split
      · exact ok_ne_error _
      · exact h.closeFrame_ne_noValue hf (berMin_length_pos _)

theorem discover_goes (h : s.Inv) (r : RingSel) : Out.Goes (execDiscover r s) := by
  obtain ⟨st, t, hd, hcode⟩ := h.discover_goes r (sepOf s.cfg.role r)
  refine withRing_goes (conclude_goes ?_)
  rw [hd, ok_bind]
  dsimp only
  split
  · rename_i hst
    obtain ⟨code, hc⟩ := hcode hst
    rw [hc]
    exact ok_ne_error _
  · exact ok_ne_error _

theorem DecodedIn.payload_written {scr : Memory} {c : Cursor} {d : Decoded} (hd : DecodedIn c d)
    (h : scr.Written c.cur c.stop) : scr.Written d.payload.cur d.payload.stop :=
  h.mono hd.lo (le_trans hd.hi hd.stop)

/-- UavDispatch on a frame in SCR reads no cell without a value (45_agent.md R161). -/
theorem State.Inv.uavDispatch_ne_noValue (h : s.Inv) {code : Nat} {res : List Nat} {d : List Byte} {ev : List Event} :
    Machine.uavDispatch code ⟨s, res, d, ev⟩ ≠ .error .noValue := by
  unfold Machine.uavDispatch
  split
  · refine orFinish_ne_noValue (decExchange_written h.frameWritten) fun x hx => ?_
    have hpay := (decExchange_in hx).payload_written h.frameWritten
    dsimp only
    split
    · exact ok_ne_error _
    · split
      · rw [queueFrame_eq]
        exact ok_ne_error _
      · exact orFinish_ne_noValue (decAddrSeq_written hpay) fun _ _ => ok_ne_error _
  · split
    · exact orFinish_ne_noValue (decCounter_written h.frameWritten) fun _ _ => ok_ne_error _
    · exact ok_ne_error _

/-- GcDispatch on a frame in SCR reads no cell without a value (45_agent.md R162). -/
theorem State.Inv.gcDispatch_ne_noValue (h : s.Inv) (hg : s.cfg.role = .gc) (ha : s.cfg.hasAgent = true) {code : Nat}
    {res : List Nat} {d : List Byte} {ev : List Event} :
    Machine.gcDispatch code ⟨s, res, d, ev⟩ ≠ .error .noValue := by
  unfold Machine.gcDispatch
  split
  · refine orFinish_ne_noValue (decExchange_written h.frameWritten) fun x hx => ?_
    have hpay := (decExchange_in hx).payload_written h.frameWritten
    dsimp only
    split
    · exact ok_ne_error _
    · refine orFinish_ne_noValue (decAddrSeq_written hpay) fun packets _ => ?_
      have hpush := (h.advanceTm hg ha).pushAll packets hg
      exact bind_ne_error (hpush.tmRescan_goes (by rw [foldl_push_tm_cfg]; exact hg)) fun _ _ => ok_ne_error _
  · split
    · refine orFinish_ne_noValue (decCounter_written h.frameWritten) fun x _ => ?_
      dsimp only
      split
      · exact ok_ne_error _
      · exact ok_ne_error _
    · split
      · exact orFinish_ne_noValue (decCounter_written h.frameWritten) fun _ _ => ok_ne_error _
      · exact ok_ne_error _

theorem agHandle_goes (h : s.Inv) : Out.Goes (execAgHandle s) := by
  unfold execAgHandle
  cases ha : s.cfg.hasAgent with
  | false =>
    rw [withAgent_absent _ ha]
    exact goes_next _
  | true =>
    rw [withAgent_present _ ha]
    obtain ⟨st, t, hd, hcode⟩ := h.discover_goes .inb (sepIn s.cfg.role)
    have ht := h.discover rfl hd
    have hcfg := discover_cfg hd
    refine conclude_goes ?_
    rw [hd, ok_bind]
    dsimp only
    split
    · exact ok_ne_error _
    · rename_i hst
      obtain ⟨code, hc⟩ := hcode (not_not.1 hst)
      rw [hc, ok_bind]
      cases hr : s.cfg.role with
      | uav => exact ht.uavDispatch_ne_noValue
      | gc => exact ht.gcDispatch_ne_noValue (by rw [hcfg, hr]) (by rw [hcfg, ha])

/-- What a send reads back from AGB it has just built there (45_agent.md R166). -/
theorem send_goes (ws : Nat) (address payload : List Byte) (s : State) : Out.Goes (send ws address payload s) := by
  refine withAgent_goes (conclude_goes (ite_raised_ne_noValue (ite_raised_ne_noValue ?_)))
  rw [queueFrame_eq]
  exact ok_ne_error _

/-- Every instruction goes on. -/
theorem exec_goes (h : s.Inv) (i : Instr) : Out.Goes (exec i s) := by
  cases i with
  | regRd index =>
    show Out.Goes (execRegRd index s)
    unfold execRegRd
    split
    · exact goes_next _
    · exact goes_next _
  | rbWrite r data => exact withRing_goes (goes_next _)
  | rbPeek r n off =>
    exact withRing_goes (conclude_goes (bind_ne_error (ringPeek_ne_noValue (h.rings r)) fun _ _ => pure_ne_error _))
  | rbRead r n =>
    exact withRing_goes (conclude_goes (bind_ne_error (ringPeek_ne_noValue (h.rings r)) fun _ _ =>
      bind_ne_error (ringErase_ne_noValue _ _ _) fun _ _ => pure_ne_error _))
  | rbErase r n =>
    exact withRing_goes (conclude_goes (bind_ne_error (ringErase_ne_noValue _ _ _) fun _ _ => pure_ne_error _))
  | rbStatus r => exact withRing_goes (goes_next _)
  | curSet tg a b =>
    cases tg with
    | rd c =>
      refine conclude_goes ?_
      split
      · exact ok_ne_error _
      · exact raised_ne_noValue _
    | w0 =>
      refine conclude_goes (ite_raised_ne_noValue ?_)
      split
      · exact ok_ne_error _
      · exact raised_ne_noValue _
  | scrLoad data =>
    show Out.Goes (execScrLoad data s)
    unfold execScrLoad
    split
    · exact goes_next _
    · exact goes_next _
  | rdU8 c => exact readFixed_goes h ..
  | rdU16be c => exact readFixed_goes h ..
  | rdU16le c => exact readFixed_goes h ..
  | rdU32be c => exact readFixed_goes h ..
  | rdU32le c => exact readFixed_goes h ..
  | rdU64be c => exact readFixed_goes h ..
  | rdU64le c => exact readFixed_goes h ..
  | rdBer c => exact conclude_goes (bind_ne_error (readBer_written (h.viewWritten c)) fun _ _ => pure_ne_error _)
  | rdSlice src dst n => exact conclude_goes (ite_raised_ne_noValue (ok_ne_error _))
  | rdBytes c n => exact conclude_goes (bind_ne_error (readN_written (h.viewWritten c)) fun _ _ => pure_ne_error _)
  | wrU8 v => exact writeThrough_goes ..
  | wrU16be v => exact writeThrough_goes ..
  | wrU16le v => exact writeThrough_goes ..
  | wrU32be v => exact writeThrough_goes ..
  | wrU32le v => exact writeThrough_goes ..
  | wrU64be v => exact writeThrough_goes ..
  | wrU64le v => exact writeThrough_goes ..
  | wrBer v => exact writeThrough_goes (berMin v.toNat) s
  | wrBytes data => exact writeThrough_goes ..
  | asmTake =>
    obtain ⟨bytes, hb⟩ := h.assembled_ok
    refine conclude_goes (ite_raised_ne_noValue ?_)
    rw [hb]
    exact ok_ne_error _
  | asmCommit r =>
    obtain ⟨bytes, hb⟩ := h.assembled_ok
    refine withRing_goes (conclude_goes (ite_raised_ne_noValue ?_))
    rw [hb]
    exact ok_ne_error _
  | discover r => exact discover_goes h r
  | decCmdmsg src dst => exact decodeTo_goes h dst decBody_written
  | decCmdresult src dst => exact decodeTo_goes h dst decBody_written
  | decTmstatus src dst => exact decodeTo_goes h dst decFour_written
  | decTmevent src dst => exact decodeTo_goes h dst decFour_written
  | decAddress src dst => exact decodeTo_goes h dst decAddress_written
  | decExchange src dst => exact decodeTo_goes h dst decExchange_written
  | decCounteradj src => exact decodeOnly_goes h decCounter_written
  | decReceipt src => exact decodeOnly_goes h decCounter_written
  | beginCmdmsg => exact conclude_goes beginWith_ne_noValue
  | beginCmdresult => exact conclude_goes beginWith_ne_noValue
  | beginTmstatus => exact conclude_goes beginWith_ne_noValue
  | beginTmevent => exact conclude_goes beginWith_ne_noValue
  | beginAddress => exact conclude_goes (ite_raised_ne_noValue beginWith_ne_noValue)
  | beginExchange =>
    exact conclude_goes (checkStreamEct_ne_noValue fun _ =>
      ite_raised_ne_noValue (ite_raised_ne_noValue beginWith_ne_noValue))
  | beginCounteradj =>
    exact conclude_goes (checkStreamEct_ne_noValue fun _ => ite_raised_ne_noValue beginWith_ne_noValue)
  | beginReceipt =>
    exact conclude_goes (checkStreamEct_ne_noValue fun _ => ite_raised_ne_noValue beginWith_ne_noValue)
  | endFrame => exact endFrame_goes h
  | agHandle => exact agHandle_goes h
  | agSendNetwork => exact send_goes ..
  | agSendGroup => exact send_goes ..
  | agSendMulticast => exact send_goes ..

theorem issue_goes (h : s.Inv) (p : Port) (c : Command) : Out.Goes (issue p c s) := by
  unfold issue
  split
  · exact goes_next _
  · split
    · exact exec_goes h _
    · exact goes_next _

end Goes

/-- Settles O12: under the invariant no command meets a cell without a value, the one fault of the model. -/
theorem stepGoesOn : Obligations.StepGoesOn := by
  intro s h
  unfold step tick
  split
  · exact goes_next _
  · split
    · exact goes_next _
    · rename_i hg
      exact issue_goes (h.grant hg) _ _

/-! ### The rows of the event table (45_agent.md R157) -/

theorem eventForm_address {vals : List Nat} (h : vals.length = 9) (bytes : List Byte) :
    EventForm .uav ⟨.address, vals, bytes⟩ := .inl ⟨rfl, rfl, h⟩

theorem eventForm_telemetry {kind : EventKind} (hk : kind = .tmStatus ∨ kind = .tmEvent) {vals : List Nat}
    (h : vals.length = 4) (bytes : List Byte) : EventForm .gc ⟨kind, vals, bytes⟩ := by
  rcases hk with rfl | rfl
  · exact .inr (.inl ⟨rfl, rfl, h⟩)
  · exact .inr (.inr (.inl ⟨rfl, rfl, h⟩))

theorem eventForm_tmSeqMismatch (expected seq : Nat) : EventForm .gc ⟨.tmSeqMismatch, [expected, seq], []⟩ :=
  .inr (.inr (.inr (.inl ⟨rfl, rfl, rfl, rfl⟩)))

theorem eventForm_receipt (last : Nat) (matched : Bool) :
    EventForm .gc ⟨.receipt, [last, if matched then 1 else 0], []⟩ :=
  .inr (.inr (.inr (.inr (.inl ⟨rfl, rfl, ⟨_, _, rfl, by cases matched <;> decide⟩, rfl⟩))))

theorem eventForm_counterAdj (ctr : Nat) : EventForm .gc ⟨.counterAdj, [ctr], []⟩ :=
  .inr (.inr (.inr (.inr (.inr (.inl ⟨rfl, rfl, rfl, rfl⟩)))))

theorem statusCode_pos {st : Status} (h : st ≠ .ok) : 1 ≤ statusCode st :=
  Nat.pos_of_ne_zero fun h0 => h (statusCode_inj (b := .ok) h0)

theorem eventForm_subframeError {st : Status} (h : st ≠ .ok) :
    EventForm .gc ⟨.subframeError, [statusCode st], []⟩ :=
  .inr (.inr (.inr (.inr (.inr (.inr ⟨rfl, rfl, ⟨_, rfl, statusCode_pos h, statusCode_le st⟩, rfl⟩)))))

/-! ### What the decoders hand to the events -/

theorem memRead_ne_ok (m : Memory) (i n : Nat) : memRead m i n ≠ .error (.raised .ok) :=
  fun h => nomatch memRead_no_raise h

theorem readN_ne_ok (scr : Memory) (c : Cursor) (n : Nat) : readN scr c n ≠ .error (.raised .ok) := by
  unfold readN
  split
  · exact nofun
  · exact bind_ne_error (memRead_ne_ok _ _ _) fun _ _ => pure_ne_error _

theorem berDecode_ne_ok (m : Memory) (i e : Nat) : berDecode m i e ≠ .error (.raised .ok) := by
  unfold berDecode
  split
  · exact nofun
  · split
    · exact nofun
    · split
      · exact nofun
      · dsimp only
        split
        · exact nofun
        · split
          · exact nofun
          · exact bind_ne_error (memRead_ne_ok _ _ _) fun _ _ => pure_ne_error _

theorem readBer_ne_ok (scr : Memory) (c : Cursor) : readBer scr c ≠ .error (.raised .ok) :=
  bind_ne_error (berDecode_ne_ok _ _ _) fun _ _ => pure_ne_error _

theorem decHeader_ne_ok (scr : Memory) (c : Cursor) (k : Kind) : decHeader scr c k ≠ .error (.raised .ok) := by
  refine bind_ne_error (readN_ne_ok _ _ _) fun _ _ => ?_
  dsimp only
  split
  · exact nofun
  · refine bind_ne_error (readBer_ne_ok _ _) fun _ _ => ?_
    split
    · exact nofun
    · exact pure_ne_error _

/-- A telemetry decoder that raises names a failure (43_decode.md R131). -/
theorem decFour_ne_ok (k : Kind) (scr : Memory) (c : Cursor) : decFour k scr c ≠ .error (.raised .ok) :=
  bind_ne_error (decHeader_ne_ok _ _ _) fun _ _ => bind_ne_error (readBer_ne_ok _ _) fun _ _ =>
    bind_ne_error (readBer_ne_ok _ _) fun _ _ => bind_ne_error (readBer_ne_ok _ _) fun _ _ =>
    bind_ne_error (readBer_ne_ok _ _) fun _ _ => pure_ne_error _

theorem decFour_fields_length {k : Kind} {scr : Memory} {c : Cursor} {d : Decoded} (h : decFour k scr c = .ok d) :
    d.fields.length = 5 := by
  unfold decFour at h
  obtain ⟨_, -, h⟩ := bind_ok.1 h
  obtain ⟨_, -, h⟩ := bind_ok.1 h
  obtain ⟨_, -, h⟩ := bind_ok.1 h
  obtain ⟨_, -, h⟩ := bind_ok.1 h
  obtain ⟨_, -, h⟩ := bind_ok.1 h
  cases h
  rfl

theorem decAddress_fields_length {scr : Memory} {c : Cursor} {d : Decoded} (h : decAddress scr c = .ok d) :
    d.fields.length = 10 := by
  unfold decAddress at h
  obtain ⟨_, -, h⟩ := bind_ok.1 h
  obtain ⟨_, -, h⟩ := bind_ok.1 h
  dsimp only at h
  split at h
  · cases h
  · obtain ⟨_, -, h⟩ := bind_ok.1 h
    obtain ⟨_, -, h⟩ := bind_ok.1 h
    obtain ⟨_, -, h⟩ := bind_ok.1 h
    obtain ⟨_, -, h⟩ := bind_ok.1 h
    obtain ⟨_, -, h⟩ := bind_ok.1 h
    obtain ⟨_, -, h⟩ := bind_ok.1 h
    obtain ⟨_, -, h⟩ := bind_ok.1 h
    obtain ⟨_, -, h⟩ := bind_ok.1 h
    cases h
    rfl

/-- The nine address values of every packet of a payload (45_agent.md R157). -/
theorem decAddrSeq_values_length {scr : Memory} {fuel : Nat} {c : Cursor} {packets : List (List Nat × List Byte)}
    (h : decAddrSeq scr fuel c = .ok packets) : ∀ a ∈ packets, a.1.length = 9 := by
  induction fuel generalizing c packets with
  | zero => cases h; exact fun a ha => absurd ha List.not_mem_nil
  | succ n ih =>
    unfold decAddrSeq at h
    split at h
    · cases h; exact fun a ha => absurd ha List.not_mem_nil
    · obtain ⟨d, hd, h⟩ := bind_ok.1 h
      obtain ⟨payload, -, h⟩ := bind_ok.1 h
      obtain ⟨rest, hrest, h⟩ := bind_ok.1 h
      cases h
      intro a ha
      rcases List.mem_cons.1 ha with rfl | ha
      · rw [List.length_drop, decAddress_fields_length hd]
      · exact ih hrest a ha

theorem addressEvents_form {packets : List (List Nat × List Byte)} (h : ∀ a ∈ packets, a.1.length = 9) :
    ∀ e ∈ addressEvents packets, EventForm .uav e := by
  intro e he
  obtain ⟨a, ha, rfl⟩ := List.mem_map.1 he
  exact eventForm_address (h a ha) a.2

theorem subFrameEvent_form {s : State} {e : Event} (h : subFrameEvent s = .ok e) : EventForm .gc e := by
  unfold subFrameEvent at h
  obtain ⟨code, -, h⟩ := bind_ok.1 h
  have report : ∀ (k : Kind) (kind : EventKind), kind = .tmStatus ∨ kind = .tmEvent →
      (match decFour k s.scr s.frameView with
      | .ok d => do
        let params ← viewBytes s.scr d.payload
        return ⟨kind, d.fields.drop 1, params⟩
      | .error (.raised st) => .ok ⟨.subframeError, [statusCode st], []⟩
      | .error .noValue => .error .noValue : Res Event) = .ok e → EventForm .gc e := by
    intro k kind hk h
    split at h
    · rename_i d hd
      obtain ⟨params, -, h⟩ := bind_ok.1 h
      cases h
      exact eventForm_telemetry hk (by rw [List.length_drop, decFour_fields_length hd]) params
    · rename_i st hd
      cases h
      refine eventForm_subframeError fun hst => ?_
      rw [hst] at hd
      exact decFour_ne_ok k _ _ hd
    · cases h
  dsimp only at h
  split at h
  · exact report .tmStatusMessage .tmStatus (.inl rfl) h
  · split at h
    · exact report .tmEventMessage .tmEvent (.inr rfl) h
    · cases h
      exact eventForm_subframeError (st := .invalidDataHeader) (by decide)

theorem forall_mem_concat {α : Type} {P : α → Prop} {xs : List α} {x : α} (hxs : ∀ a ∈ xs, P a) (hx : P x) :
    ∀ a ∈ xs ++ [x], P a := by
  intro a ha
  rcases List.mem_append.1 ha with ha | ha
  · exact hxs a ha
  · rw [List.mem_singleton.1 ha]
    exact hx

/-- The telemetry scan adds rows of the event table (45_agent.md R164). -/
theorem tmRescan_events {fuel : Nat} {s t : State} {ev ev' : List Event} (h : tmRescan fuel s ev = .ok (t, ev'))
    (hev : ∀ e ∈ ev, EventForm .gc e) : ∀ e ∈ ev', EventForm .gc e := by
  induction fuel generalizing s ev with
  | zero => cases h; exact hev
  | succ n ih =>
    unfold tmRescan at h
    obtain ⟨⟨st, u⟩, -, h⟩ := bind_ok.1 h
    dsimp only at h
    split at h
    · cases h; exact hev
    · cases h; exact hev
    · obtain ⟨e, he, h⟩ := bind_ok.1 h
      exact ih h (forall_mem_concat hev (subFrameEvent_form he))
    · rename_i hok
      exact ih h (forall_mem_concat hev (eventForm_subframeError hok))

/-! ### Responses -/

/-- The state ends a command with rows of the event table and, where `bounded` holds, RESULT values of at most 64
bits. -/
def Replies (role : Role) (bounded : Prop) (t : State) : Prop :=
  ∃ st res d ev u, t = finish st res d ev u ∧ (∀ e ∈ ev, EventForm role e) ∧ (bounded → ∀ v ∈ res, v < 2 ^ 64)

/-- The state ends a command without events. -/
def Silent (bounded : Prop) (t : State) : Prop :=
  ∃ st res d u, t = finish st res d [] u ∧ (bounded → ∀ v ∈ res, v < 2 ^ 64)

/-- What an agent command has to report so far may stand in its response. -/
structure Progress.Reports (role : Role) (bounded : Prop) (p : Progress) : Prop where
  events : ∀ e ∈ p.events, EventForm role e
  result : bounded → ∀ v ∈ p.result, v < 2 ^ 64

section Dispatchers

variable {role : Role} {bounded : Prop} {p : Progress} {t : State}

theorem Silent.replies (h : Silent bounded t) : Replies role bounded t := by
  obtain ⟨st, res, d, u, rfl, hres⟩ := h
  exact ⟨st, res, d, [], u, rfl, fun e he => absurd he List.not_mem_nil, hres⟩

theorem Progress.Reports.outb (hp : p.Reports role bounded) (bytes : List Byte) : (p.outb bytes).Reports role bounded :=
  ⟨hp.events, hp.result⟩

theorem Progress.Reports.setState (hp : p.Reports role bounded) (u : State) :
    Progress.Reports role bounded { p with state := u } := ⟨hp.events, hp.result⟩

theorem Progress.Reports.setEvents (hp : p.Reports role bounded) {ev : List Event} (hev : ∀ e ∈ ev, EventForm role e)
    (u : State) : Progress.Reports role bounded { p with state := u, events := ev } := ⟨hev, hp.result⟩

theorem Progress.Reports.out (hp : p.Reports role bounded) {v : Nat} (hv : v < 2 ^ 64) :
    (p.out v).Reports role bounded := ⟨hp.events, fun hb => forall_mem_concat (hp.result hb) hv⟩

theorem Progress.Reports.emit (hp : p.Reports role bounded) {k : EventKind} {vals : List Nat} {bytes : List Byte}
    (he : EventForm role ⟨k, vals, bytes⟩) : (p.emit k vals bytes).Reports role bounded :=
  ⟨forall_mem_concat hp.events he, hp.result⟩

theorem Progress.Reports.finish (hp : p.Reports role bounded) {st : Status} (h : p.finish st = .ok t) :
    Replies role bounded t := by
  cases h
  exact ⟨st, _, _, _, _, rfl, hp.events, hp.result⟩

theorem Progress.Reports.orFinish (hp : p.Reports role bounded) {α : Type} {r : Res α} {k : α → Res State}
    (hk : ∀ a, r = .ok a → k a = .ok t → Replies role bounded t) (h : p.orFinish r k = .ok t) :
    Replies role bounded t := by
  rcases orFinish_ok h with ⟨a, ha, h⟩ | ⟨st, -, rfl⟩
  · exact hk a ha h
  · exact hp.finish (st := st) rfl

theorem getD_lt {l : List Nat} {bound : Nat} (h : ∀ v ∈ l, v < bound) (hb : 0 < bound) (i : Nat) :
    l.getD i 0 < bound := by
  rw [List.getD_eq_getElem?_getD]
  cases hi : l[i]? with
  | none => exact hb
  | some v => exact h v (List.mem_of_getElem? hi)

theorem beNat_lt (bytes : List Byte) : beNat bytes < 256 ^ bytes.length := by
  have := leNat_lt bytes.reverse
  rwa [List.length_reverse] at this

theorem counter_lt (x : U16) : x.toNat < 2 ^ 64 := lt_trans x.isLt (by decide)

theorem uavExchange_replies (hp : p.Reports .uav bounded) (h : uavExchange p = .ok t) : Replies .uav bounded t := by
  refine hp.orFinish (fun d hd h => ?_) h
  have hpd := hp.outb d.trailer
  dsimp only at h
  split at h
  · exact hpd.finish h
  · split at h
    · rw [queueFrame_eq] at h
      exact (((hpd.out (counter_lt _)).out (getD_lt (decExchange_in hd).values (by decide) 5)).setState _).finish h
    · refine hpd.orFinish (fun packets hps h => ?_) h
      have hform := addressEvents_form (decAddrSeq_values_length hps)
      exact (hpd.setEvents (fun e he => (List.mem_append.1 he).elim (hpd.events e) (hform e)) _).finish h

theorem uavCounterAdj_replies (hp : p.Reports .uav bounded) (h : uavCounterAdj p = .ok t) : Replies .uav bounded t :=
  hp.orFinish (fun d _ h => ((hp.outb d.trailer).setState _).finish h) h

theorem uavDispatch_replies {code : Nat} (hp : p.Reports .uav bounded) (h : uavDispatch code p = .ok t) :
    Replies .uav bounded t := by
  unfold uavDispatch at h
  split at h
  · exact uavExchange_replies hp h
  · split at h
    · exact uavCounterAdj_replies hp h
    · exact hp.finish h

theorem gcExchange_replies (hp : p.Reports .gc bounded) (h : gcExchange p = .ok t) : Replies .gc bounded t := by
  refine hp.orFinish (fun d _ h => ?_) h
  have hpd := hp.outb d.trailer
  dsimp only at h
  split at h
  · exact hpd.finish h
  · refine hpd.orFinish (fun packets _ h => ?_) h
    obtain ⟨⟨u, events⟩, hu, h⟩ := bind_ok.1 h
    have hpm := hpd.emit (eventForm_tmSeqMismatch p.state.tmCtr.toNat (d.fields.getD 5 0))
    have hev := tmRescan_events hu (by split; exacts [hpm.events, hpd.events])
    split at h
    · exact (hpm.setEvents hev u).finish h
    · exact (hpd.setEvents hev u).finish h

theorem gcReceipt_replies (hp : p.Reports .gc bounded) (h : gcReceipt p = .ok t) : Replies .gc bounded t := by
  refine hp.orFinish (fun d _ h => ?_) h
  dsimp only at h
  split at h
  · exact (hp.outb d.trailer).finish h
  · exact (((hp.outb d.trailer).setState _).emit (eventForm_receipt _ _)).finish h

theorem gcCounterAdj_replies (hp : p.Reports .gc bounded) (h : gcCounterAdj p = .ok t) : Replies .gc bounded t :=
  hp.orFinish (fun d _ h => ((hp.outb d.trailer).emit (eventForm_counterAdj _)).finish h) h

theorem gcDispatch_replies {code : Nat} (hp : p.Reports .gc bounded) (h : gcDispatch code p = .ok t) :
    Replies .gc bounded t := by
  unfold gcDispatch at h
  split at h
  · exact gcExchange_replies hp h
  · split at h
    · exact gcReceipt_replies hp h
    · split at h
      · exact gcCounterAdj_replies hp h
      · exact hp.finish h

end Dispatchers

section Values

variable {s t : State}

/-! ### RESULT values have at most 64 bits -/

theorem onGc_eq_some {a v : Nat} : onGc s a = some v ↔ s.cfg.role = .gc ∧ a = v := by
  unfold onGc
  cases s.cfg.role <;> simp

theorem onUav_eq_some {a v : Nat} : onUav s a = some v ↔ s.cfg.role = .uav ∧ a = v := by
  unfold onUav
  cases s.cfg.role <;> simp

theorem onAgent_eq_some {o : Option Nat} {v : Nat} : onAgent s o = some v ↔ s.cfg.hasAgent = true ∧ o = some v := by
  unfold onAgent
  cases s.cfg.hasAgent <;> simp

theorem State.Inv.maxPacket_lt (h : s.Inv) : s.cfg.maxPacket < 2 ^ 16 := by
  have := (Config.wf_iff.1 h.cfg).2.1
  unfold Config.asmSize at this
  omega

theorem State.Inv.cap_lt (h : s.Inv) (r : RingSel) : s.cap r < 2 ^ 64 := by
  obtain ⟨-, -, -, -, -, hin, hout, htm⟩ := Config.wf_iff.1 h.cfg
  cases r with
  | inb => exact hin
  | outb => exact hout
  | tm => exact htm

/-- The registers of a ring (10_state.md R31). -/
theorem State.Inv.ring_lt (h : s.Inv) (r : RingSel) :
    s.readable r < 2 ^ 64 ∧ (s.ring r).free < 2 ^ 64 ∧ (s.ring r).rd < 2 ^ 64 ∧ (s.ring r).wr < 2 ^ 64 := by
  have hc := h.cap_lt r
  have hr := h.rings r
  have h1 := Ring.readable_le (s.cap r) (s.ring r)
  have h2 := hr.free
  have h3 := hr.rd
  have h4 := hr.wr
  unfold State.readable
  omega

/-- The registers of a reader (10_state.md R31). -/
theorem State.Inv.reader_lt (h : s.Inv) (c : RdSel) :
    (s.reader c).start < 2 ^ 64 ∧ (s.reader c).cur < 2 ^ 64 ∧ (s.reader c).stop < 2 ^ 64 := by
  obtain ⟨h1, h2, h3⟩ := h.readers c
  have := h.scrLen
  have := h.maxPacket_lt
  omega

/-- The registers of the writer (10_state.md R31). -/
theorem State.Inv.writer_lt (h : s.Inv) : s.w0.start < 2 ^ 64 ∧ s.w0.cur < 2 ^ 64 ∧ s.w0.stop < 2 ^ 64 := by
  obtain ⟨h1, h2, h3⟩ := h.frames.bounds
  have := (Config.wf_iff.1 h.cfg).2.1
  omega

/-- The registers that are constants of the configuration (10_state.md R31). -/
theorem constants_lt (cfg : Config) :
    roleCode cfg.role < 2 ^ 64 ∧ sepIn cfg.role < 2 ^ 64 ∧ sepOut cfg.role < 2 ^ 64 ∧ sepTm < 2 ^ 64 := by
  cases cfg.role <;> decide

theorem agentFlags_lt (s : State) : s.agentFlags < 2 ^ 64 := by
  unfold State.agentFlags
  split <;> split <;> decide

/-- Every register reads as a 64-bit value: one bound for each group of the map (10_state.md R31). -/
theorem State.Inv.reg_lt (h : s.Inv) {index : BitVec 8} {v : Nat} (hv : s.reg index = some v) : v < 2 ^ 64 := by
  have hmax := h.maxPacket_lt
  have hscr := h.scrLen
  have hdepth := h.depth
  have hstatus := h.status
  obtain ⟨hin1, hin2, hin3, hin4⟩ := h.ring_lt .inb
  obtain ⟨hout1, hout2, hout3, hout4⟩ := h.ring_lt .outb
  obtain ⟨htm1, htm2, htm3, htm4⟩ := h.ring_lt .tm
  obtain ⟨hrole, hsin, hsout, hstm⟩ := constants_lt s.cfg
  obtain ⟨h01, h02, h03⟩ := h.reader_lt .r0
  obtain ⟨h11, h12, h13⟩ := h.reader_lt .r1
  obtain ⟨h21, h22, h23⟩ := h.reader_lt .r2
  obtain ⟨h31, h32, h33⟩ := h.reader_lt .r3
  obtain ⟨hw1, hw2, hw3⟩ := h.writer_lt
  have hcin := h.cap_lt .inb
  have hcout := h.cap_lt .outb
  have hctm := h.cap_lt .tm
  have hect := ectCode_lt s.cfg.outEct
  have hflags := agentFlags_lt s
  have c1 := counter_lt s.cmdInCtr
  have c2 := counter_lt s.tmCtr
  have c3 := counter_lt s.outCtr
  have c4 := counter_lt s.lastSent
  simp only [State.ring, State.reader, fstackDepth] at *
  unfold State.reg at hv
  split at hv
  all_goals simp only [onAgent_eq_some, onUav_eq_some, onGc_eq_some, Option.some.injEq, reduceCtorEq] at hv
  all_goals omega

/-- The values of a frame that was taken: its code and its length (42_framer.md R124). -/
theorem State.Inv.frame_lt (h : s.Inv) {code : Nat} (hc : s.frameCode = .ok code) :
    ∀ v ∈ [code, s.scrLen], v < 2 ^ 64 := by
  have hcode : code < 256 ^ 2 := by
    unfold State.frameCode at hc
    obtain ⟨bytes, hb, hc⟩ := bind_ok.1 hc
    cases hc
    have := beNat_lt bytes
    rwa [(memRead_ok hb).1] at this
  have := h.scrLen
  have := h.maxPacket_lt
  simp only [List.mem_cons, List.not_mem_nil, or_false, forall_eq_or_imp, forall_eq]
  omega

/-! ### Every command but AG_HANDLE answers without events -/

theorem silent_finish {bounded : Prop} {st : Status} {res : List Nat} {d : List Byte} {u : State}
    (h : bounded → ∀ v ∈ res, v < 2 ^ 64) : Silent bounded (finish st res d [] u) := ⟨st, res, d, u, rfl, h⟩

theorem silent_empty {bounded : Prop} {st : Status} {d : List Byte} {u : State} :
    Silent bounded (finish st [] d [] u) := silent_finish fun _ _ hv => absurd hv List.not_mem_nil

theorem silent_singleton {bounded : Prop} {st : Status} {v : Nat} {d : List Byte} {u : State}
    (h : bounded → v < 2 ^ 64) : Silent bounded (finish st [v] d [] u) := silent_finish fun hb w hw => by rw [List.mem_singleton.1 hw]; exact h hb

theorem silent_pair {bounded : Prop} {st : Status} {v w : Nat} {d : List Byte} {u : State}
    (h : bounded → v < 2 ^ 64 ∧ w < 2 ^ 64) : Silent bounded (finish st [v, w] d [] u) :=
  silent_finish fun hb => by simpa using h hb

theorem Raised.silent {bounded : Prop} (h : Raised s t) : Silent bounded t := by
  obtain ⟨st, rfl⟩ := h
  exact silent_empty

theorem silent_unless_raised {bounded P : Prop} (h : P ∨ Raised s t) (hp : P → Silent bounded t) : Silent bounded t :=
  h.elim hp Raised.silent

theorem begun_silent {bounded : Prop} {k : Kind} (h : Begun k s t ∨ Raised s t) : Silent bounded t := by
  rcases h with ⟨_, _, -, -, -, rfl⟩ | h
  · exact silent_empty
  · exact h.silent

theorem writeThrough_silent {bounded : Prop} {bytes : List Byte} (h : writeThrough bytes s = .next t) :
    Silent bounded t := by
  rcases writeThrough_cases h with ⟨-, rfl⟩ | h
  · exact silent_empty
  · exact h.silent

/-- A fixed-width read of at most eight bytes, in either byte order (40_cursor_ber.md R87). -/
theorem readFixed_silent {bounded : Prop} {n : Nat} {value : List Byte → Nat} {c : RdSel} (hn : n ≤ 8)
    (hv : ∀ bytes, value bytes < 256 ^ bytes.length) (h : readFixed n value c s = .next t) : Silent bounded t := by
  rcases readFixed_cases h with ⟨bytes, c', hr, rfl⟩ | h
  · refine silent_singleton fun _ => lt_of_lt_of_le (hv bytes) ?_
    calc 256 ^ bytes.length ≤ 256 ^ 8 := Nat.pow_le_pow_right (by decide) (by rw [(readN_ok hr).1]; exact hn)
      _ = 2 ^ 64 := by norm_num
  · exact h.silent

theorem decodeTo_silent {bounded : Prop} {dec : Memory → Cursor → Res Decoded} {src dst : RdSel}
    (hdec : ∀ {d}, dec s.scr (s.reader src) = .ok d → DecodedIn (s.reader src) d)
    (h : decodeTo dec src dst s = .next t) : Silent bounded t := by
  rcases decodeTo_cases h with ⟨d, hd, rfl⟩ | h
  · exact silent_finish fun _ => (hdec hd).values
  · exact h.silent

theorem decodeOnly_silent {bounded : Prop} {dec : Memory → Cursor → Res Decoded} {src : RdSel}
    (hdec : ∀ {d}, dec s.scr (s.reader src) = .ok d → DecodedIn (s.reader src) d)
    (h : decodeOnly dec src s = .next t) : Silent bounded t := by
  rcases decodeOnly_cases h with ⟨d, hd, rfl⟩ | h
  · exact silent_finish fun _ => (hdec hd).values
  · exact h.silent

theorem endFrame_silent (h : execEndFrame s = .next t) : Silent s.Inv t := by
  rcases execEndFrame_cases h with ⟨e, rest, lb, -, -, ⟨st, -, rfl⟩ | ⟨hsize, -, hc⟩⟩ | h
  · exact silent_empty
  · obtain ⟨asm, rfl⟩ := closeFrame_ok hc
    exact silent_singleton fun hi => by have := hi.maxPacket_lt; omega
  · exact h.silent

theorem discover_silent {r : RingSel} (h : execDiscover r s = .next t) : Silent s.Inv t := by
  rcases execDiscover_cases h with ⟨st, u, hp, hd, ⟨-, code, hc, rfl⟩ | ⟨-, rfl⟩⟩ | h
  · exact silent_finish fun hi => (hi.discover hp hd).frame_lt hc
  · exact silent_empty
  · exact h.silent

theorem send_silent {ws : Nat} {address payload : List Byte} (h : send ws address payload s = .next t) :
    Silent s.Inv t := by
  rcases send_cases h with ⟨-, -, hl, rfl⟩ | h
  · exact silent_pair fun hi => ⟨counter_lt _, by have := hi.maxPacket_lt; omega⟩
  · exact h.silent

theorem agHandle_replies (h : execAgHandle s = .next t) : Replies s.cfg.role s.Inv t := by
  rcases execAgHandle_cases h with ⟨st, u, -, hd, ⟨-, rfl⟩ | ⟨-, code, hc, hcases⟩⟩ | h
  · exact silent_empty.replies
  · have hp : ∀ role, Progress.Reports role s.Inv ⟨u, [code, u.scrLen], [], []⟩ := fun role =>
      ⟨fun _ he => absurd he List.not_mem_nil, fun hi => (hi.discover rfl hd).frame_lt hc⟩
    rcases hcases with ⟨hr, h⟩ | ⟨hr, h⟩
    · rw [hr]; exact uavDispatch_replies (hp .uav) h
    · rw [hr]; exact gcDispatch_replies (hp .gc) h
  · exact h.silent.replies

/-- Every instruction but AG_HANDLE answers without events. -/
theorem exec_silent {i : Instr} (hi : i ≠ .agHandle) (h : exec i s = .next t) : Silent s.Inv t := by
  cases i with
  | agHandle => exact absurd rfl hi
  | regRd index =>
    exact silent_unless_raised (execRegRd_cases h) fun ⟨v, hv, e⟩ => e ▸ silent_singleton fun hi => hi.reg_lt hv
  | rbWrite r data => exact silent_unless_raised (execRbWrite_cases h) fun ⟨_, e⟩ => e ▸ silent_empty
  | rbPeek r n off => exact silent_unless_raised (execRbPeek_cases h) fun ⟨_, _, _, e⟩ => e ▸ silent_empty
  | rbRead r n => exact silent_unless_raised (execRbRead_cases h) fun ⟨_, _, _, _, _, e⟩ => e ▸ silent_empty
  | rbErase r n => exact silent_unless_raised (execRbErase_cases h) fun ⟨_, _, _, e⟩ => e ▸ silent_empty
  | rbStatus r =>
    exact silent_unless_raised (execRbStatus_cases h) fun ⟨_, e⟩ => e ▸ silent_pair fun hi =>
      have ⟨hreadable, hfree, _, _⟩ := hi.ring_lt r
      ⟨hreadable, hfree⟩
  | curSet tg a b =>
    rcases execCurSet_cases h with ⟨_, -, -, -, rfl⟩ | ⟨-, -, -, -, rfl⟩ | h
    · exact silent_empty
    · exact silent_empty
    · exact h.silent
  | scrLoad data => exact silent_unless_raised (execScrLoad_cases h) fun ⟨_, e⟩ => e ▸ silent_empty
  | rdU8 c => exact readFixed_silent (by decide) beNat_lt h
  | rdU16be c => exact readFixed_silent (by decide) beNat_lt h
  | rdU16le c => exact readFixed_silent (by decide) leNat_lt h
  | rdU32be c => exact readFixed_silent (by decide) beNat_lt h
  | rdU32le c => exact readFixed_silent (by decide) leNat_lt h
  | rdU64be c => exact readFixed_silent (by decide) beNat_lt h
  | rdU64le c => exact readFixed_silent (by decide) leNat_lt h
  | rdBer c =>
    exact silent_unless_raised (execRdBer_cases h) fun ⟨v, c', hr, e⟩ => e ▸ silent_singleton fun _ => (readBer_in hr).1
  | rdSlice src dst n => exact silent_unless_raised (execRdSlice_cases h) fun ⟨_, e⟩ => e ▸ silent_empty
  | rdBytes c n => exact silent_unless_raised (execRdBytes_cases h) fun ⟨_, _, _, e⟩ => e ▸ silent_empty
  | wrU8 v => exact writeThrough_silent h
  | wrU16be v => exact writeThrough_silent h
  | wrU16le v => exact writeThrough_silent h
  | wrU32be v => exact writeThrough_silent h
  | wrU32le v => exact writeThrough_silent h
  | wrU64be v => exact writeThrough_silent h
  | wrU64le v => exact writeThrough_silent h
  | wrBer v => exact writeThrough_silent (bytes := berMin v.toNat) h
  | wrBytes data => exact writeThrough_silent h
  | asmTake => exact silent_unless_raised (execAsmTake_cases h) fun ⟨_, _, _, e⟩ => e ▸ silent_empty
  | asmCommit r => exact silent_unless_raised (execAsmCommit_cases h) fun ⟨_, _, _, _, e⟩ => e ▸ silent_empty
  | discover r => exact discover_silent h
  | decCmdmsg src dst => exact decodeTo_silent decBody_in h
  | decCmdresult src dst => exact decodeTo_silent decBody_in h
  | decTmstatus src dst => exact decodeTo_silent decFour_in h
  | decTmevent src dst => exact decodeTo_silent decFour_in h
  | decAddress src dst => exact decodeTo_silent decAddress_in h
  | decExchange src dst => exact decodeTo_silent decExchange_in h
  | decCounteradj src => exact decodeOnly_silent decCounter_in h
  | decReceipt src => exact decodeOnly_silent decCounter_in h
  | beginCmdmsg => exact begun_silent (execBeginCmdmsg_cases h)
  | beginCmdresult => exact begun_silent (execBeginCmdresult_cases h)
  | beginTmstatus => exact begun_silent (execBeginTmstatus_cases h)
  | beginTmevent => exact begun_silent (execBeginTmevent_cases h)
  | beginAddress => exact begun_silent (execBeginAddress_cases h)
  | beginExchange => exact begun_silent (execBeginExchange_cases h)
  | beginCounteradj => exact begun_silent (execBeginCounteradj_cases h)
  | beginReceipt => exact begun_silent (execBeginReceipt_cases h)
  | endFrame => exact endFrame_silent h
  | agSendNetwork => exact send_silent h
  | agSendGroup => exact send_silent h
  | agSendMulticast => exact send_silent h

end Values

/-- Settles O13: every command ends in `finish`; AG_HANDLE with rows of the event table, every other without events. -/
theorem statusAndResponse : Obligations.StatusAndResponse := by
  intro i s t h
  by_cases hi : i = .agHandle
  · subst hi
    obtain ⟨st, res, d, ev, u, rfl, hev, hres⟩ := agHandle_replies h
    exact ⟨_, finish_resp .., status_toNat st, (status_toNat st).trans_le (statusCode_le st),
      fun hop => absurd hop (by decide), hev, hres⟩
  · obtain ⟨st, res, d, u, rfl, hres⟩ := exec_silent hi h
    exact ⟨_, finish_resp .., status_toNat st, (status_toNat st).trans_le (statusCode_le st), fun _ => rfl,
      fun _ he => absurd he List.not_mem_nil, hres⟩

end Sys2Proof.Machine
end

section
/-! PROOFS. The two ports and the arbiter (20_memory.md §6): which command a step grants, and what a command of the
transport port reaches. -/

namespace Sys2Proof.Machine

section Grants

variable {s t : State} {p : Port} {c d : Command} {cs ds : List Command} {i : Instr}

/-! ### Issuing a command -/

theorem issue_of_decode (hd : decode c = .ok i) (ha : portAllows p i = true) : issue p c s = exec i s := by
  simp [issue, hd, ha]

/-- A granted command that completes ran as the legal instruction it decodes to, or raised. -/
theorem issue_cases (h : issue p c s = .next t) :
    (∃ i, decode c = .ok i ∧ portAllows p i = true ∧ exec i s = .next t) ∨ Raised s t := by
  unfold issue at h
  split at h
  · cases h; exact .inr ⟨_, rfl⟩
  · next i hd =>
    split at h
    · next ha => exact .inl ⟨i, hd, ha, h⟩
    · cases h; exact .inr ⟨_, rfl⟩

/-- The commands legal on the transport port are the push to IN and the two of a pull from OUT (20_memory.md R46). -/
theorem portAllows_transport : portAllows .transport i = true ↔
    (∃ data, i = .rbWrite .inb data) ∨ i = .rbStatus .outb ∨ (∃ n, i = .rbRead .outb n) := by
  constructor
  · intro h
    simp only [portAllows] at h
    split at h
    · exact .inl ⟨_, rfl⟩
    · exact .inr (.inl rfl)
    · exact .inr (.inr ⟨_, rfl⟩)
    · cases h
  · rintro (⟨data, rfl⟩ | rfl | ⟨n, rfl⟩) <;> rfl

/-! ### What the arbiter grants -/

/-- The state with a command of port `p` taken from its queue, which leaves `rest` there. -/
def State.afterGrant (s : State) (p : Port) (rest : List Command) : State :=
  match p with
  | .command => { s with cmdQ := rest, granted := some .command, grants := s.grants + 1 }
  | .transport => { s with tpQ := rest, granted := some .transport, grants := s.grants + 1 }

theorem grant_idle (hc : s.cmdQ = []) (ht : s.tpQ = []) : s.grant = none := by
  simp [State.grant, hc, ht]

theorem grant_command_alone (hc : s.cmdQ = c :: cs) (ht : s.tpQ = []) :
    s.grant = some (.command, c, s.afterGrant .command cs) := by
  simp [State.grant, hc, ht, State.afterGrant]

theorem grant_transport_alone (hc : s.cmdQ = []) (ht : s.tpQ = d :: ds) :
    s.grant = some (.transport, d, s.afterGrant .transport ds) := by
  simp [State.grant, hc, ht, State.afterGrant]

theorem grant_both_command (hc : s.cmdQ = c :: cs) (ht : s.tpQ = d :: ds) (hg : Config.grantsTransport s.grants = false) :
    s.grant = some (.command, c, s.afterGrant .command cs) := by
  simp [State.grant, hc, ht, hg, State.afterGrant]

theorem grant_both_transport (hc : s.cmdQ = c :: cs) (ht : s.tpQ = d :: ds)
    (hg : Config.grantsTransport s.grants = true) :
    s.grant = some (.transport, d, s.afterGrant .transport ds) := by
  simp [State.grant, hc, ht, hg, State.afterGrant]

/-! ### A step without reset -/

theorem step_of_grant (hr : s.resetIn = false) (hg : s.grant = some (p, c, t)) : step s = issue p c t := by
  simp [step, tick, hr, hg]

theorem step_of_idle (hr : s.resetIn = false) (hg : s.grant = none) : step s = .next s := by
  simp [step, tick, hr, hg]

/-! ### The frame of the transport port -/

/-- From `s` to `t` nothing changed but rings IN and OUT, STATUS and the response (60_exceptions.md R185). -/
def TransportReach (s t : State) : Prop :=
  t = { s with inRing := t.inRing, outRing := t.outRing, status := t.status, resp := t.resp }

theorem Raised.transportReach (h : Raised s t) : TransportReach s t := by
  obtain ⟨st, rfl⟩ := h
  rfl

/-- Each of the three commands legal on the transport port keeps to its reach. -/
theorem exec_transportReach (ha : portAllows .transport i = true) (h : exec i s = .next t) : TransportReach s t := by
  rcases portAllows_transport.1 ha with ⟨data, rfl⟩ | rfl | ⟨n, rfl⟩
  · rcases execRbWrite_cases h with ⟨-, rfl⟩ | h
    · rfl
    · exact h.transportReach
  · rcases execRbStatus_cases h with ⟨-, rfl⟩ | h
    · rfl
    · exact h.transportReach
  · rcases execRbRead_cases h with ⟨bytes, rb, -, -, -, rfl⟩ | h
    · rfl
    · exact h.transportReach

end Grants

/-- Settles O15: a command refused at the port raises, and each of the three legal there has the frame. -/
theorem transportPortReachesOnlyRings : Obligations.TransportPortReachesOnlyRings := by
  intro c s t h
  rcases issue_cases h with ⟨i, -, ha, hx⟩ | hraised
  · exact exec_transportReach ha hx
  · exact hraised.transportReach

/-- Settles O5: the arbiter grants the lone command, and issuing it runs what it decodes to. -/
theorem stepRunsTheDecodedCommand : Obligations.StepRunsTheDecodedCommand := by
  constructor
  · intro c cs i s hr hc ht hd
    rw [step_of_grant hr (grant_command_alone hc ht)]
    exact issue_of_decode hd rfl
  · intro c cs i s hr hc ht hd ha
    rw [step_of_grant hr (grant_transport_alone hc ht)]
    exact issue_of_decode hd ha

/-- Settles O6: the two grant orders of the arbiter, and its idle case. -/
theorem stepGrantsOneOfTwoPorts : Obligations.StepGrantsOneOfTwoPorts := by
  constructor
  · intro c d cs ds s hr hc ht
    exact ⟨fun hg => step_of_grant hr (grant_both_command hc ht hg),
      fun hg => step_of_grant hr (grant_both_transport hc ht hg)⟩
  · intro s hr hc ht
    exact step_of_idle hr (grant_idle hc ht)

end Sys2Proof.Machine
end

section
/-! PROOFS. Decode and encode agree, and the decoder accepts exactly the opcode map (30_encoding.md R54 to R57). -/

namespace Sys2Proof

open Sys2Proof.Machine

/-! ### The formats on an encoded word -/

section Encoded

variable {op : BitVec 8} {word : CmdWord} {v : List U64} {d : List Byte}

theorem formatI_cmdWord (x : BitVec 8) (k : BitVec 8 → Except DecodeError Instr) :
    formatI ⟨cmdWord op 0#4 0#4 (x.setWidth 16), v, d⟩ k = k x := by
  have hx : (x.setWidth 16).extractLsb' 8 8 = 0 := by rw [index_field, index_low]
  unfold formatI
  rw [cmdWord_imm, if_pos ⟨cmdWord_tgt .., cmdWord_mod .., hx⟩, index_low]

theorem formatN_cmdWord (k : Except DecodeError Instr) : formatN ⟨cmdWord op 0#4 0#4 0#16, v, d⟩ k = k :=
  if_pos ⟨cmdWord_tgt .., cmdWord_mod .., cmdWord_imm ..⟩

theorem formatRing_cmdWord (r : RingSel) (k : RingSel → Except DecodeError Instr) :
    formatRing ⟨cmdWord op r.field 0#4 0#16, v, d⟩ k = k r := by
  unfold formatRing
  rw [if_pos ⟨cmdWord_mod .., cmdWord_imm ..⟩, cmdWord_tgt, ringOfField_field]

theorem formatReader_cmdWord (r : RdSel) (k : RdSel → Except DecodeError Instr) :
    formatReader ⟨cmdWord op r.field 0#4 0#16, v, d⟩ k = k r := by
  unfold formatReader
  rw [if_pos ⟨cmdWord_mod .., cmdWord_imm ..⟩, cmdWord_tgt, readerOfField_field]

theorem formatCur_cmdWord (t : CurTarget) (k : CurTarget → Except DecodeError Instr) :
    formatCur ⟨cmdWord op t.field 0#4 0#16, v, d⟩ k = k t := by
  unfold formatCur
  rw [if_pos ⟨cmdWord_mod .., cmdWord_imm ..⟩, cmdWord_tgt, curTargetOfField_field]

theorem formatReaders_cmdWord (src dst : RdSel) (k : RdSel → RdSel → Except DecodeError Instr) :
    formatReaders ⟨cmdWord op src.field dst.field 0#16, v, d⟩ k = k src dst := by
  unfold formatReaders
  rw [cmdWord_imm, if_pos (show 0#16 = 0 from rfl), cmdWord_tgt, cmdWord_mod, readerOfField_field, readerOfField_field]

/-- A narrow operand is read back at its width. -/
theorem argWidth_setWidth {w : Nat} (hw : w ≤ 64) (x : BitVec w) (k : BitVec w → Instr) :
    argWidth w ⟨word, [x.setWidth 64], d⟩ k = .ok (k x) :=
  (argWidth_ok hw).2 ⟨x, rfl, rfl⟩

end Encoded

/-- The decoder reads an instruction back from its encoding: the format of its opcode reads the selectors back, and the
rest is the shape of V and DATA. -/
theorem decode_encode (i : Instr) : decode (encode i) = .ok i := by
  cases i with
  | regRd => simp [encode, decode, cmdWord_op, formatI_cmdWord, noData_ok, args0_ok]
  | rbWrite | rbStatus | asmCommit | discover =>
    simp [encode, decode, cmdWord_op, formatRing_cmdWord, noData_ok, args0_ok]
  | rbPeek => simp [encode, decode, cmdWord_op, formatRing_cmdWord, noData_ok, args2_ok]
  | rbRead | rbErase => simp [encode, decode, cmdWord_op, formatRing_cmdWord, noData_ok, args1_ok]
  | curSet => simp [encode, decode, cmdWord_op, formatCur_cmdWord, noData_ok, args2_ok]
  | rdU8 | rdU16be | rdU16le | rdU32be | rdU32le | rdU64be | rdU64le | rdBer | decCounteradj | decReceipt =>
    simp [encode, decode, cmdWord_op, formatReader_cmdWord, noData_ok, args0_ok]
  | rdBytes => simp [encode, decode, cmdWord_op, formatReader_cmdWord, noData_ok, args1_ok]
  | decCmdmsg | decCmdresult | decTmstatus | decTmevent | decAddress | decExchange =>
    simp [encode, decode, cmdWord_op, formatReaders_cmdWord, noData_ok, args0_ok]
  | rdSlice => simp [encode, decode, cmdWord_op, formatReaders_cmdWord, noData_ok, args1_ok]
  | wrU8 | wrU16be | wrU16le | wrU32be | wrU32le =>
    simp [encode, decode, cmdWord_op, formatN_cmdWord, noData_ok, argWidth_setWidth]
  | wrU64be | wrU64le | wrBer => simp [encode, decode, cmdWord_op, formatN_cmdWord, noData_ok, args1_ok]
  | scrLoad | wrBytes | asmTake | beginCmdmsg | beginCmdresult | endFrame | agHandle =>
    simp [encode, decode, cmdWord_op, formatN_cmdWord, noData_ok, args0_ok]
  | beginCounteradj | beginReceipt => simp [encode, decode, cmdWord_op, formatN_cmdWord, noData_ok, args3_ok]
  | beginTmstatus | beginTmevent | beginExchange =>
    simp [encode, decode, cmdWord_op, formatN_cmdWord, noData_ok, args4_ok]
  | agSendMulticast => simp [encode, decode, cmdWord_op, formatN_cmdWord, args6_ok]
  | agSendNetwork => simp [encode, decode, cmdWord_op, formatN_cmdWord, args7_ok]
  | agSendGroup => simp [encode, decode, cmdWord_op, formatN_cmdWord, args9_ok]
  | beginAddress => simp [encode, decode, cmdWord_op, formatN_cmdWord, noData_ok, args9_ok]

/-! ### The way back: what a format that answers says of the command -/

section Decoded

variable {c : Command} {i : Instr} {n : Nat} {word : CmdWord} {d : List Byte}

/-- A command whose word has these fields. -/
theorem command_eq_of_fields {tgt mod : BitVec 4} {imm : BitVec 16} (hop : c.op.toNat = n) (ht : c.tgt = tgt)
    (hm : c.mod = mod) (hi : c.imm = imm) : (⟨cmdWord (BitVec.ofNat 8 n) tgt mod imm, c.v, c.data⟩ : Command) = c := by
  subst hop ht hm hi
  rw [BitVec.ofNat_toNat, BitVec.setWidth_eq]
  exact command_eta c

theorem encode_of_formatI {k : BitVec 8 → Except DecodeError Instr} (hop : c.op.toNat = n) (h : formatI c k = .ok i)
    (hk : ∀ x, k x = .ok i → encode i = ⟨cmdWord (BitVec.ofNat 8 n) 0 0 (x.setWidth 16), c.v, c.data⟩) :
    encode i = c := by
  obtain ⟨⟨ht, hm⟩, x, hx, h⟩ := formatI_ok.1 h
  exact (hk x h).trans (command_eq_of_fields hop ht hm hx)

theorem encode_of_formatN {k : Except DecodeError Instr} (hop : c.op.toNat = n) (h : formatN c k = .ok i)
    (hk : k = .ok i → encode i = ⟨cmdWord (BitVec.ofNat 8 n) 0 0 0, c.v, c.data⟩) : encode i = c := by
  obtain ⟨⟨ht, hm, hi⟩, h⟩ := formatN_ok.1 h
  exact (hk h).trans (command_eq_of_fields hop ht hm hi)

theorem encode_of_formatRing {k : RingSel → Except DecodeError Instr} (hop : c.op.toNat = n)
    (h : formatRing c k = .ok i)
    (hk : ∀ r, k r = .ok i → encode i = ⟨cmdWord (BitVec.ofNat 8 n) r.field 0 0, c.v, c.data⟩) : encode i = c := by
  obtain ⟨⟨hm, hi⟩, r, ht, h⟩ := formatRing_ok.1 h
  exact (hk r h).trans (command_eq_of_fields hop ht hm hi)

theorem encode_of_formatReader {k : RdSel → Except DecodeError Instr} (hop : c.op.toNat = n)
    (h : formatReader c k = .ok i)
    (hk : ∀ r, k r = .ok i → encode i = ⟨cmdWord (BitVec.ofNat 8 n) r.field 0 0, c.v, c.data⟩) : encode i = c := by
  obtain ⟨⟨hm, hi⟩, r, ht, h⟩ := formatReader_ok.1 h
  exact (hk r h).trans (command_eq_of_fields hop ht hm hi)

theorem encode_of_formatCur {k : CurTarget → Except DecodeError Instr} (hop : c.op.toNat = n)
    (h : formatCur c k = .ok i)
    (hk : ∀ t, k t = .ok i → encode i = ⟨cmdWord (BitVec.ofNat 8 n) t.field 0 0, c.v, c.data⟩) : encode i = c := by
  obtain ⟨⟨hm, hi⟩, t, ht, h⟩ := formatCur_ok.1 h
  exact (hk t h).trans (command_eq_of_fields hop ht hm hi)

theorem encode_of_formatReaders {k : RdSel → RdSel → Except DecodeError Instr} (hop : c.op.toNat = n)
    (h : formatReaders c k = .ok i)
    (hk : ∀ src dst, k src dst = .ok i →
      encode i = ⟨cmdWord (BitVec.ofNat 8 n) src.field dst.field 0, c.v, c.data⟩) : encode i = c := by
  obtain ⟨hi, src, dst, ht, hm, h⟩ := formatReaders_ok.1 h
  exact (hk src dst h).trans (command_eq_of_fields hop ht hm hi)

theorem encode_of_noData {k : Except DecodeError Instr} (h : noData c k = .ok i)
    (hk : k = .ok i → encode i = ⟨word, c.v, []⟩) : encode i = ⟨word, c.v, c.data⟩ := by
  obtain ⟨hd, h⟩ := noData_ok.1 h
  rw [hd]
  exact hk h

theorem encode_of_args0 {j : Instr} (h : args0 c j = .ok i) (hk : encode j = ⟨word, [], d⟩) :
    encode i = ⟨word, c.v, d⟩ := by
  obtain ⟨hv, rfl⟩ := args0_ok.1 h
  rwa [hv]

theorem encode_of_args1 {k : U64 → Instr} (h : args1 c k = .ok i) (hk : ∀ a, encode (k a) = ⟨word, [a], d⟩) :
    encode i = ⟨word, c.v, d⟩ := by
  obtain ⟨a, hv, rfl⟩ := args1_ok.1 h
  rw [hv]
  exact hk a

theorem encode_of_args2 {k : U64 → U64 → Instr} (h : args2 c k = .ok i)
    (hk : ∀ a b, encode (k a b) = ⟨word, [a, b], d⟩) : encode i = ⟨word, c.v, d⟩ := by
  obtain ⟨a, b, hv, rfl⟩ := args2_ok.1 h
  rw [hv]
  exact hk a b

theorem encode_of_args3 {k : U64 → U64 → U64 → Instr} (h : args3 c k = .ok i)
    (hk : ∀ a b e, encode (k a b e) = ⟨word, [a, b, e], d⟩) : encode i = ⟨word, c.v, d⟩ := by
  obtain ⟨a, b, e, hv, rfl⟩ := args3_ok.1 h
  rw [hv]
  exact hk a b e

theorem encode_of_args4 {k : U64 → U64 → U64 → U64 → Instr} (h : args4 c k = .ok i)
    (hk : ∀ a b e f, encode (k a b e f) = ⟨word, [a, b, e, f], d⟩) : encode i = ⟨word, c.v, d⟩ := by
  obtain ⟨a, b, e, f, hv, rfl⟩ := args4_ok.1 h
  rw [hv]
  exact hk a b e f

theorem encode_of_args6 {k : U64 → U64 → U64 → U64 → U64 → U64 → Instr} (h : args6 c k = .ok i)
    (hk : ∀ a b e f g l, encode (k a b e f g l) = ⟨word, [a, b, e, f, g, l], d⟩) :
    encode i = ⟨word, c.v, d⟩ := by
  obtain ⟨a, b, e, f, g, l, hv, rfl⟩ := args6_ok.1 h
  rw [hv]
  exact hk a b e f g l

theorem encode_of_args7 {k : U64 → U64 → U64 → U64 → U64 → U64 → U64 → Instr} (h : args7 c k = .ok i)
    (hk : ∀ a b e f g l m, encode (k a b e f g l m) = ⟨word, [a, b, e, f, g, l, m], d⟩) :
    encode i = ⟨word, c.v, d⟩ := by
  obtain ⟨a, b, e, f, g, l, m, hv, rfl⟩ := args7_ok.1 h
  rw [hv]
  exact hk a b e f g l m

theorem encode_of_args9 {k : U64 → U64 → U64 → U64 → U64 → U64 → U64 → U64 → U64 → Instr} (h : args9 c k = .ok i)
    (hk : ∀ a b e f g l m o p, encode (k a b e f g l m o p) = ⟨word, [a, b, e, f, g, l, m, o, p], d⟩) :
    encode i = ⟨word, c.v, d⟩ := by
  obtain ⟨a, b, e, f, g, l, m, o, p, hv, rfl⟩ := args9_ok.1 h
  rw [hv]
  exact hk a b e f g l m o p

theorem encode_of_argWidth {w : Nat} {k : BitVec w → Instr} (h : argWidth w c k = .ok i) (hw : w ≤ 64)
    (hk : ∀ x, encode (k x) = ⟨word, [x.setWidth 64], d⟩) : encode i = ⟨word, c.v, d⟩ := by
  obtain ⟨x, hv, rfl⟩ := (argWidth_ok hw).1 h
  rw [hv]
  exact hk x

end Decoded

/-- A command that decodes is the encoding of what it decodes to: in every arm the format fixes the word, and the
checks of V and DATA the rest. -/
theorem encode_of_decode {c : Command} {i : Instr} (h : decode c = .ok i) : encode i = c := by
  unfold decode at h
  split at h
  · next hop => exact encode_of_formatI hop h fun x h => encode_of_noData h fun h => encode_of_args0 h rfl
  · next hop => exact encode_of_formatRing hop h fun r h => encode_of_args0 h rfl
  · next hop => exact encode_of_formatRing hop h fun r h => encode_of_noData h fun h => encode_of_args2 h fun _ _ => rfl
  iterate 2 -- 0x12 and 0x13
    next hop => exact encode_of_formatRing hop h fun r h => encode_of_noData h fun h => encode_of_args1 h fun _ => rfl
  · next hop => exact encode_of_formatRing hop h fun r h => encode_of_noData h fun h => encode_of_args0 h rfl
  · next hop => exact encode_of_formatCur hop h fun t h => encode_of_noData h fun h => encode_of_args2 h fun _ _ => rfl
  · next hop => exact encode_of_formatN hop h fun h => encode_of_args0 h rfl
  iterate 8 -- 0x22 to 0x29
    next hop => exact encode_of_formatReader hop h fun r h => encode_of_noData h fun h => encode_of_args0 h rfl
  · next hop => exact encode_of_formatReaders hop h fun src dst h =>
      encode_of_noData h fun h => encode_of_args1 h fun _ => rfl
  · next hop => exact encode_of_formatReader hop h fun r h => encode_of_noData h fun h => encode_of_args1 h fun _ => rfl
  iterate 5 -- 0x30 to 0x34
    next hop => exact encode_of_formatN hop h fun h =>
      encode_of_noData h fun h => encode_of_argWidth h (by decide) fun _ => rfl
  iterate 3 -- 0x35 to 0x37
    next hop => exact encode_of_formatN hop h fun h => encode_of_noData h fun h => encode_of_args1 h fun _ => rfl
  · next hop => exact encode_of_formatN hop h fun h => encode_of_args0 h rfl
  · next hop => exact encode_of_formatN hop h fun h => encode_of_noData h fun h => encode_of_args0 h rfl
  iterate 2 -- 0x3A and 0x40
    next hop => exact encode_of_formatRing hop h fun r h => encode_of_noData h fun h => encode_of_args0 h rfl
  iterate 6 -- 0x50 to 0x55
    next hop => exact encode_of_formatReaders hop h fun src dst h => encode_of_noData h fun h => encode_of_args0 h rfl
  iterate 2 -- 0x56 and 0x57
    next hop => exact encode_of_formatReader hop h fun r h => encode_of_noData h fun h => encode_of_args0 h rfl
  iterate 2 -- 0x60 and 0x61
    next hop => exact encode_of_formatN hop h fun h => encode_of_noData h fun h => encode_of_args0 h rfl
  iterate 2 -- 0x62 and 0x63
    next hop => exact encode_of_formatN hop h fun h => encode_of_noData h fun h => encode_of_args4 h fun _ _ _ _ => rfl
  · next hop => exact encode_of_formatN hop h fun h =>
      encode_of_noData h fun h => encode_of_args9 h fun _ _ _ _ _ _ _ _ _ => rfl
  · next hop => exact encode_of_formatN hop h fun h => encode_of_noData h fun h => encode_of_args4 h fun _ _ _ _ => rfl
  iterate 2 -- 0x66 and 0x67
    next hop => exact encode_of_formatN hop h fun h => encode_of_noData h fun h => encode_of_args3 h fun _ _ _ => rfl
  iterate 2 -- 0x68 and 0x70
    next hop => exact encode_of_formatN hop h fun h => encode_of_noData h fun h => encode_of_args0 h rfl
  · next hop => exact encode_of_formatN hop h fun h => encode_of_args7 h fun _ _ _ _ _ _ _ => rfl
  · next hop => exact encode_of_formatN hop h fun h => encode_of_args9 h fun _ _ _ _ _ _ _ _ _ => rfl
  · next hop => exact encode_of_formatN hop h fun h => encode_of_args6 h fun _ _ _ _ _ _ => rfl
  · cases h

/-! ### The opcode map -/

/-- The encoding of every instruction fits a row of the map. -/
theorem encode_fits_row (i : Instr) : ∃ row ∈ opRows, row.accepts (encode i) :=
  match i with
  | .regRd .. => Laws.TableRow.regRd ..
  | .rbWrite .. => Laws.TableRow.rbWrite ..
  | .rbPeek .. => Laws.TableRow.rbPeek ..
  | .rbRead .. => Laws.TableRow.rbRead ..
  | .rbErase .. => Laws.TableRow.rbErase ..
  | .rbStatus .. => Laws.TableRow.rbStatus ..
  | .curSet .. => Laws.TableRow.curSet ..
  | .scrLoad .. => Laws.TableRow.scrLoad ..
  | .rdU8 .. => Laws.TableRow.rdU8 ..
  | .rdU16be .. => Laws.TableRow.rdU16be ..
  | .rdU16le .. => Laws.TableRow.rdU16le ..
  | .rdU32be .. => Laws.TableRow.rdU32be ..
  | .rdU32le .. => Laws.TableRow.rdU32le ..
  | .rdU64be .. => Laws.TableRow.rdU64be ..
  | .rdU64le .. => Laws.TableRow.rdU64le ..
  | .rdBer .. => Laws.TableRow.rdBer ..
  | .rdSlice .. => Laws.TableRow.rdSlice ..
  | .rdBytes .. => Laws.TableRow.rdBytes ..
  | .wrU8 .. => Laws.TableRow.wrU8 ..
  | .wrU16be .. => Laws.TableRow.wrU16be ..
  | .wrU16le .. => Laws.TableRow.wrU16le ..
  | .wrU32be .. => Laws.TableRow.wrU32be ..
  | .wrU32le .. => Laws.TableRow.wrU32le ..
  | .wrU64be .. => Laws.TableRow.wrU64be ..
  | .wrU64le .. => Laws.TableRow.wrU64le ..
  | .wrBer .. => Laws.TableRow.wrBer ..
  | .wrBytes .. => Laws.TableRow.wrBytes ..
  | .asmTake => Laws.TableRow.asmTake
  | .asmCommit .. => Laws.TableRow.asmCommit ..
  | .discover .. => Laws.TableRow.discover ..
  | .decCmdmsg .. => Laws.TableRow.decCmdmsg ..
  | .decCmdresult .. => Laws.TableRow.decCmdresult ..
  | .decTmstatus .. => Laws.TableRow.decTmstatus ..
  | .decTmevent .. => Laws.TableRow.decTmevent ..
  | .decAddress .. => Laws.TableRow.decAddress ..
  | .decExchange .. => Laws.TableRow.decExchange ..
  | .decCounteradj .. => Laws.TableRow.decCounteradj ..
  | .decReceipt .. => Laws.TableRow.decReceipt ..
  | .beginCmdmsg => Laws.TableRow.beginCmdmsg
  | .beginCmdresult => Laws.TableRow.beginCmdresult
  | .beginTmstatus .. => Laws.TableRow.beginTmstatus ..
  | .beginTmevent .. => Laws.TableRow.beginTmevent ..
  | .beginAddress .. => Laws.TableRow.beginAddress ..
  | .beginExchange .. => Laws.TableRow.beginExchange ..
  | .beginCounteradj .. => Laws.TableRow.beginCounteradj ..
  | .beginReceipt .. => Laws.TableRow.beginReceipt ..
  | .endFrame => Laws.TableRow.endFrame
  | .agHandle => Laws.TableRow.agHandle
  | .agSendNetwork .. => Laws.TableRow.agSendNetwork ..
  | .agSendGroup .. => Laws.TableRow.agSendGroup ..
  | .agSendMulticast .. => Laws.TableRow.agSendMulticast ..

section Accepted

variable {c : Command} {n : Nat} {use : TgtUse} {mod imm data : Bool} {widths : List Nat}

/-- A row accepts a command by its fields. -/
theorem accepts_iff {row : OpRow} : row.accepts c ↔
    c.op.toNat = row.op ∧ c.tgt.toNat < row.tgt.count ∧ c.mod.toNat < (if row.mod then 4 else 1) ∧
    c.imm.toNat < (if row.imm then 2 ^ 8 else 1) ∧
    List.Forall₂ (fun (x : U64) (w : Nat) => x.toNat < 2 ^ w) c.v row.v ∧ (row.data = false → c.data = []) := by
  rw [op_toNat, tgt_toNat, mod_toNat, imm_toNat]
  rfl

theorem ring_of_lt {f : BitVec 4} (h : f.toNat < 3) : ∃ r : RingSel, f = r.field := by
  have hs : ∀ f : BitVec 4, f.toNat < 3 → (ringOfField f).isSome := by decide
  obtain ⟨r, hr⟩ := Option.isSome_iff_exists.1 (hs f h)
  exact ⟨r, ringOfField_some.1 hr⟩

theorem reader_of_lt {f : BitVec 4} (h : f.toNat < 4) : ∃ r : RdSel, f = r.field := by
  have hs : ∀ f : BitVec 4, f.toNat < 4 → (readerOfField f).isSome := by decide
  obtain ⟨r, hr⟩ := Option.isSome_iff_exists.1 (hs f h)
  exact ⟨r, readerOfField_some.1 hr⟩

theorem target_of_lt {f : BitVec 4} (h : f.toNat < 5) : ∃ t : CurTarget, f = t.field := by
  have hs : ∀ f : BitVec 4, f.toNat < 5 → (curTargetOfField f).isSome := by decide
  obtain ⟨t, ht⟩ := Option.isSome_iff_exists.1 (hs f h)
  exact ⟨t, curTargetOfField_some.1 ht⟩

/-- A field a row does not use is zero. -/
theorem unused_field_zero {w : Nat} {x : BitVec w} (h : x.toNat < 1) : x = 0 :=
  BitVec.eq_of_toNat_eq (by simpa using h)

/-- The decoder, or a part of it, answers. -/
def Answers (x : Except DecodeError Instr) : Prop := ∃ i, x = .ok i

theorem formatI_answers {k : BitVec 8 → Except DecodeError Instr}
    (h : OpRow.accepts ⟨n, .unused, false, true, widths, data⟩ c) (hk : ∀ x, Answers (k x)) :
    Answers (formatI c k) := by
  obtain ⟨-, ht, hm, hi, -⟩ := accepts_iff.1 h
  have hi : c.imm = (c.imm.setWidth 8).setWidth 16 := BitVec.eq_of_toNat_eq <| by
    rw [BitVec.toNat_setWidth, BitVec.toNat_setWidth, Nat.mod_eq_of_lt (show c.imm.toNat < 2 ^ 8 from hi),
      Nat.mod_eq_of_lt c.imm.isLt]
  obtain ⟨i, hx⟩ := hk (c.imm.setWidth 8)
  exact ⟨i, formatI_ok.2 ⟨⟨unused_field_zero ht, unused_field_zero hm⟩, _, hi, hx⟩⟩

theorem formatN_answers {k : Except DecodeError Instr}
    (h : OpRow.accepts ⟨n, .unused, false, false, widths, data⟩ c) (hk : Answers k) : Answers (formatN c k) := by
  obtain ⟨-, ht, hm, hi, -⟩ := accepts_iff.1 h
  obtain ⟨i, hx⟩ := hk
  exact ⟨i, formatN_ok.2 ⟨⟨unused_field_zero ht, unused_field_zero hm, unused_field_zero hi⟩, hx⟩⟩

theorem formatRing_answers {k : RingSel → Except DecodeError Instr}
    (h : OpRow.accepts ⟨n, .ring, false, false, widths, data⟩ c) (hk : ∀ r, Answers (k r)) :
    Answers (formatRing c k) := by
  obtain ⟨-, ht, hm, hi, -⟩ := accepts_iff.1 h
  obtain ⟨r, hr⟩ := ring_of_lt ht
  obtain ⟨i, hx⟩ := hk r
  exact ⟨i, formatRing_ok.2 ⟨⟨unused_field_zero hm, unused_field_zero hi⟩, r, hr, hx⟩⟩

theorem formatReader_answers {k : RdSel → Except DecodeError Instr}
    (h : OpRow.accepts ⟨n, .reader, false, false, widths, data⟩ c) (hk : ∀ r, Answers (k r)) :
    Answers (formatReader c k) := by
  obtain ⟨-, ht, hm, hi, -⟩ := accepts_iff.1 h
  obtain ⟨r, hr⟩ := reader_of_lt ht
  obtain ⟨i, hx⟩ := hk r
  exact ⟨i, formatReader_ok.2 ⟨⟨unused_field_zero hm, unused_field_zero hi⟩, r, hr, hx⟩⟩

theorem formatCur_answers {k : CurTarget → Except DecodeError Instr}
    (h : OpRow.accepts ⟨n, .cursor, false, false, widths, data⟩ c) (hk : ∀ t, Answers (k t)) :
    Answers (formatCur c k) := by
  obtain ⟨-, ht, hm, hi, -⟩ := accepts_iff.1 h
  obtain ⟨t, hr⟩ := target_of_lt ht
  obtain ⟨i, hx⟩ := hk t
  exact ⟨i, formatCur_ok.2 ⟨⟨unused_field_zero hm, unused_field_zero hi⟩, t, hr, hx⟩⟩

theorem formatReaders_answers {k : RdSel → RdSel → Except DecodeError Instr}
    (h : OpRow.accepts ⟨n, .reader, true, false, widths, data⟩ c) (hk : ∀ src dst, Answers (k src dst)) :
    Answers (formatReaders c k) := by
  obtain ⟨-, ht, hm, hi, -⟩ := accepts_iff.1 h
  obtain ⟨src, hs⟩ := reader_of_lt ht
  obtain ⟨dst, hd⟩ := reader_of_lt hm
  obtain ⟨i, hx⟩ := hk src dst
  exact ⟨i, formatReaders_ok.2 ⟨unused_field_zero hi, src, dst, hs, hd, hx⟩⟩

theorem noData_answers {k : Except DecodeError Instr} (h : OpRow.accepts ⟨n, use, mod, imm, widths, false⟩ c)
    (hk : Answers k) : Answers (noData c k) := by
  obtain ⟨-, -, -, -, -, hd⟩ := accepts_iff.1 h
  obtain ⟨i, hx⟩ := hk
  exact ⟨i, noData_ok.2 ⟨hd rfl, hx⟩⟩

/-- V has as many elements as the row has widths. -/
theorem v_length (h : OpRow.accepts ⟨n, use, mod, imm, widths, data⟩ c) : c.v.length = widths.length := by
  obtain ⟨-, -, -, -, hv, -⟩ := accepts_iff.1 h
  exact hv.length_eq

theorem args0_answers {j : Instr} (h : OpRow.accepts ⟨n, use, mod, imm, [], data⟩ c) : Answers (args0 c j) :=
  ⟨j, args0_ok.2 ⟨List.length_eq_zero_iff.1 (v_length h), rfl⟩⟩

theorem argWidth_answers {w : Nat} {k : BitVec w → Instr} (h : OpRow.accepts ⟨n, use, mod, imm, [w], data⟩ c) :
    Answers (argWidth w c k) := by
  obtain ⟨-, -, -, -, hv, -⟩ := accepts_iff.1 h
  obtain ⟨a, v, ha, hnil, hc⟩ := List.forall₂_cons_right_iff.1 hv
  rw [List.forall₂_nil_right_iff.1 hnil] at hc
  refine ⟨k (a.setWidth w), ?_⟩
  unfold argWidth
  rw [hc]
  exact if_pos ha

theorem args1_answers {k : U64 → Instr}
    (h : OpRow.accepts ⟨n, use, mod, imm, [64], data⟩ c) : Answers (args1 c k) :=
  match hv : c.v, v_length h with
  | [_], _ => ⟨_, args1_ok.2 ⟨_, hv, rfl⟩⟩

theorem args2_answers {k : U64 → U64 → Instr}
    (h : OpRow.accepts ⟨n, use, mod, imm, [64, 64], data⟩ c) : Answers (args2 c k) :=
  match hv : c.v, v_length h with
  | [_, _], _ => ⟨_, args2_ok.2 ⟨_, _, hv, rfl⟩⟩

theorem args3_answers {k : U64 → U64 → U64 → Instr}
    (h : OpRow.accepts ⟨n, use, mod, imm, List.replicate 3 64, data⟩ c) : Answers (args3 c k) :=
  match hv : c.v, v_length h with
  | [_, _, _], _ => ⟨_, args3_ok.2 ⟨_, _, _, hv, rfl⟩⟩

theorem args4_answers {k : U64 → U64 → U64 → U64 → Instr}
    (h : OpRow.accepts ⟨n, use, mod, imm, List.replicate 4 64, data⟩ c) : Answers (args4 c k) :=
  match hv : c.v, v_length h with
  | [_, _, _, _], _ => ⟨_, args4_ok.2 ⟨_, _, _, _, hv, rfl⟩⟩

theorem args6_answers {k : U64 → U64 → U64 → U64 → U64 → U64 → Instr}
    (h : OpRow.accepts ⟨n, use, mod, imm, List.replicate 6 64, data⟩ c) : Answers (args6 c k) :=
  match hv : c.v, v_length h with
  | [_, _, _, _, _, _], _ => ⟨_, args6_ok.2 ⟨_, _, _, _, _, _, hv, rfl⟩⟩

theorem args7_answers {k : U64 → U64 → U64 → U64 → U64 → U64 → U64 → Instr}
    (h : OpRow.accepts ⟨n, use, mod, imm, List.replicate 7 64, data⟩ c) : Answers (args7 c k) :=
  match hv : c.v, v_length h with
  | [_, _, _, _, _, _, _], _ => ⟨_, args7_ok.2 ⟨_, _, _, _, _, _, _, hv, rfl⟩⟩

theorem args9_answers {k : U64 → U64 → U64 → U64 → U64 → U64 → U64 → U64 → U64 → Instr}
    (h : OpRow.accepts ⟨n, use, mod, imm, List.replicate 9 64, data⟩ c) : Answers (args9 c k) :=
  match hv : c.v, v_length h with
  | [_, _, _, _, _, _, _, _, _], _ => ⟨_, args9_ok.2 ⟨_, _, _, _, _, _, _, _, _, hv, rfl⟩⟩

end Accepted

/-! ### Rows: one list per opcode group -/

section Rows

variable {c : Command} {row : OpRow}

/-- The decoder answers a command of a ring row. -/
theorem decode_answers_of_ringRow (hrow : row ∈ ringRows) (h : row.accepts c) : Answers (decode c) := by
  obtain ⟨hop, -⟩ := accepts_iff.1 h
  unfold decode
  rw [hop]
  simp only [ringRows, List.mem_cons, List.not_mem_nil, or_false] at hrow
  rcases hrow with rfl | rfl | rfl | rfl | rfl | rfl | rfl
  · exact formatRing_answers h fun _ => args0_answers h
  · exact formatRing_answers h fun _ => noData_answers h (args2_answers h)
  iterate 2
    exact formatRing_answers h fun _ => noData_answers h (args1_answers h)
  iterate 3
    exact formatRing_answers h fun _ => noData_answers h (args0_answers h)

/-- The decoder answers a command of a cursor, reader or decoder row. -/
theorem decode_answers_of_cursorRow (hrow : row ∈ cursorRows) (h : row.accepts c) : Answers (decode c) := by
  obtain ⟨hop, -⟩ := accepts_iff.1 h
  unfold decode
  rw [hop]
  simp only [cursorRows, List.map_cons, List.map_nil, List.cons_append, List.nil_append, List.mem_cons,
    List.not_mem_nil, or_false] at hrow
  rcases hrow with rfl | rfl | hrow
  · exact formatCur_answers h fun _ => noData_answers h (args2_answers h)
  · exact formatN_answers h (args0_answers h)
  rcases hrow with rfl | rfl | rfl | rfl | rfl | rfl | rfl | rfl | rfl | rfl | hrow
  iterate 10
    exact formatReader_answers h fun _ => noData_answers h (args0_answers h)
  rcases hrow with rfl | rfl | hrow
  · exact formatReaders_answers h fun _ _ => noData_answers h (args1_answers h)
  · exact formatReader_answers h fun _ => noData_answers h (args1_answers h)
  rcases hrow with rfl | rfl | rfl | rfl | rfl | rfl
  iterate 6
    exact formatReaders_answers h fun _ _ => noData_answers h (args0_answers h)

/-- The decoder answers a command of a row without a target. -/
theorem decode_answers_of_plainRow (hrow : row ∈ plainRows) (h : row.accepts c) : Answers (decode c) := by
  obtain ⟨hop, -⟩ := accepts_iff.1 h
  unfold decode
  rw [hop]
  simp only [plainRows, List.mem_cons, List.not_mem_nil, or_false] at hrow
  rcases hrow with rfl | hrow
  · exact formatI_answers h fun _ => noData_answers h (args0_answers h)
  rcases hrow with rfl | rfl | rfl | rfl | rfl | hrow
  iterate 5
    exact formatN_answers h (noData_answers h (argWidth_answers h))
  rcases hrow with rfl | rfl | rfl | hrow
  iterate 3
    exact formatN_answers h (noData_answers h (args1_answers h))
  rcases hrow with rfl | rfl | rfl | rfl | hrow
  · exact formatN_answers h (args0_answers h)
  iterate 3
    exact formatN_answers h (noData_answers h (args0_answers h))
  rcases hrow with rfl | rfl | rfl | rfl | rfl | rfl | hrow
  iterate 2
    exact formatN_answers h (noData_answers h (args4_answers h))
  · exact formatN_answers h (noData_answers h (args9_answers h))
  · exact formatN_answers h (noData_answers h (args4_answers h))
  iterate 2
    exact formatN_answers h (noData_answers h (args3_answers h))
  rcases hrow with rfl | rfl | rfl | rfl | rfl
  iterate 2
    exact formatN_answers h (noData_answers h (args0_answers h))
  · exact formatN_answers h (args7_answers h)
  · exact formatN_answers h (args9_answers h)
  · exact formatN_answers h (args6_answers h)

theorem decode_answers_of_row (hrow : row ∈ opRows) (h : row.accepts c) : Answers (decode c) := by
  rcases List.mem_append.1 hrow with hrow | hrow
  · rcases List.mem_append.1 hrow with hrow | hrow
    · exact decode_answers_of_ringRow hrow h
    · exact decode_answers_of_cursorRow hrow h
  · exact decode_answers_of_plainRow hrow h

end Rows

/-- Settles O1: the decoder computes on each word. -/
theorem writtenWordsDecode : Obligations.WrittenWordsDecode :=
  ⟨rfl, rfl, rfl, rfl, rfl, rfl, rfl, rfl, rfl, rfl, rfl⟩

/-- Settles O2, by the format of each instruction. -/
theorem decodeOfEncode : Obligations.DecodeOfEncode := decode_encode

/-- Settles O3, by the arms of the decoder. -/
theorem encodeOfDecode : Obligations.EncodeOfDecode := fun _ _ => encode_of_decode

/-- Settles O4: what decodes is an encoding, and encodings fit the map; what fits a row, the row's format and operand
count answer. -/
theorem decodesExactlyTheMap : Obligations.DecodesExactlyTheMap := by
  intro c
  constructor
  · rintro ⟨i, h⟩
    obtain ⟨row, hrow, ha⟩ := encode_fits_row i
    rw [encode_of_decode h] at ha
    exact ⟨row, hrow, ha⟩
  · rintro ⟨row, hrow, ha⟩
    exact decode_answers_of_row hrow ha

end Sys2Proof
end

section
/-! PROOFS. The shortest BER form (30_encoding.md R60, R61). -/

namespace Sys2Proof.Machine

/-- N of R61 is the least number of bytes that hold the value. -/
theorem byteLen_le_iff {v n : Nat} (hv : v < 2 ^ 64) (hn : 1 ≤ n) : byteLen v ≤ n ↔ v < 256 ^ n := by
  obtain ⟨-, -, hlt, hleast⟩ := byteLen_spec hv
  constructor
  · intro h
    exact hlt.trans_le (Nat.pow_le_pow_right (by decide) h)
  · intro h
    rcases hleast with h1 | hge
    · omega
    · have := (Nat.pow_lt_pow_iff_right (a := 256) (by decide)).1 (hge.trans_lt h)
      omega

theorem byteLen_eq {v n : Nat} (hn : 2 ≤ n) (hn8 : n ≤ 8) (hge : 256 ^ (n - 1) ≤ v) (hlt : v < 256 ^ n) :
    byteLen v = n := by
  have hv : v < 2 ^ 64 := calc
    v < 256 ^ n := hlt
    _ ≤ 256 ^ 8 := Nat.pow_le_pow_right (by decide) hn8
    _ = 2 ^ 64 := by norm_num
  have hle := (byteLen_le_iff hv (by omega)).2 hlt
  have hgt := mt (byteLen_le_iff hv (n := n - 1) (by omega)).1 (by omega)
  omega

theorem berMin_of_lt {v : Nat} (h : v < 128) : berMin v = [BitVec.ofNat 8 v] := if_pos h

theorem berMin_length_of_ge {v : Nat} (h : 128 ≤ v) : (berMin v).length = 1 + byteLen v := by
  rw [berMin, if_neg (by omega), List.length_cons, toLE_length, Nat.add_comm]

/-- A long form holds its value in its length bytes, so it has at least N of them; the short form holds only values
below 2^7. -/
theorem berMin_length_le {v : Nat} {bytes : List Byte} (h : BerForm bytes v) : (berMin v).length ≤ bytes.length := by
  rcases Nat.lt_or_ge v 128 with hv | hv
  · rw [berMin_of_lt hv]
    exact h.length_pos
  · rw [berMin_length_of_ge hv]
    have hv64 := h.lt
    rcases h with ⟨x, -, hx, rfl⟩ | ⟨x, vals, rfl, hpos, -, -, hval⟩
    · omega
    · have hlt : v < 256 ^ vals.length := by
        rw [hval, ← leNat_eq_ofDigits]
        exact leNat_lt vals
      have := (byteLen_le_iff hv64 hpos).2 hlt
      rw [List.length_cons]
      omega

/-- Settles O28: `ber_min` is a form, no form is shorter, and N is the least number of bytes. -/
theorem berMinIsShortest : Obligations.BerMinIsShortest := by
  intro v hv
  refine ⟨berForm_berMin hv, fun _ => berMin_length_le, berMin_of_lt, fun hge hlt => ?_, fun n h2 h8 hge hlt => ?_⟩
  · rw [berMin_length_of_ge hge, Nat.le_antisymm ((byteLen_le_iff hv le_rfl).2 hlt) (byteLen_spec hv).1]
  · rw [Nat.pow_mul] at hge hlt
    have h128 : 128 ≤ v := calc
      128 ≤ 256 ^ 1 := by decide
      _ ≤ 256 ^ (n - 1) := Nat.pow_le_pow_right (by decide) (by omega)
      _ ≤ v := hge
    rw [berMin_length_of_ge h128, byteLen_eq h2 h8 hge hlt]

end Sys2Proof.Machine
end

section
/-! PROOFS. Cursors, fields, BER values and the assembled bytes (40_cursor_ber.md §2 to §6; 41_ring.md R117). -/

namespace Sys2Proof.Machine

/-! ### Byte orders and concatenated bytes -/

theorem toNat_append_byte {w : Nat} (x : BitVec w) (b : Byte) : (x ++ b).toNat = x.toNat * 256 + b.toNat := by
  rw [BitVec.toNat_append, ← Nat.shiftLeft_add_eq_or_of_lt b.isLt, Nat.shiftLeft_eq]

/-- Each further byte of a concatenation is the low byte of its value. -/
theorem leNat_cons_append {w : Nat} {x : BitVec w} {bytes : List Byte} (h : leNat bytes = x.toNat) (b : Byte) :
    leNat (b :: bytes) = (x ++ b).toNat := by
  rw [leNat, h, toNat_append_byte, Nat.mul_comm, Nat.add_comm]

theorem leNat_one (b : Byte) : leNat [b] = b.toNat := by simp [leNat]

theorem leNat_two (b0 b1 : Byte) : leNat [b1, b0] = (b0 ++ b1).toNat := leNat_cons_append (leNat_one b0) b1

theorem leNat_four (b0 b1 b2 b3 : Byte) : leNat [b3, b2, b1, b0] = (b0 ++ b1 ++ b2 ++ b3).toNat :=
  leNat_cons_append (leNat_cons_append (leNat_two b0 b1) b2) b3

theorem leNat_eight (b0 b1 b2 b3 b4 b5 b6 b7 : Byte) :
    leNat [b7, b6, b5, b4, b3, b2, b1, b0] = (b0 ++ b1 ++ b2 ++ b3 ++ b4 ++ b5 ++ b6 ++ b7).toNat :=
  leNat_cons_append (leNat_cons_append (leNat_cons_append (leNat_cons_append (leNat_four b0 b1 b2 b3) b4) b5) b6) b7

theorem toLE_leNat (bytes : List Byte) : toLE (leNat bytes) bytes.length = bytes := by
  induction bytes with
  | nil => rfl
  | cons b bs ih =>
    have hb := b.isLt
    have hlow : BitVec.ofNat 8 (leNat (b :: bs)) = b := by
      apply BitVec.eq_of_toNat_eq
      rw [leNat, BitVec.toNat_ofNat]
      omega
    have hrest : leNat (b :: bs) / 256 = leNat bs := by
      rw [leNat]
      omega
    rw [List.length_cons, toLE, hlow, hrest, ih]

theorem toLE_of_leNat {bytes : List Byte} {v : Nat} (h : leNat bytes = v) : toLE v bytes.length = bytes := by
  rw [← h, toLE_leNat]

theorem toBE_of_leNat {bytes : List Byte} {v : Nat} (h : leNat bytes = v) : toBE v bytes.length = bytes.reverse := by
  rw [toBE, toLE_of_leNat h]

/-! ### BerDecode where it raises (40_cursor_ber.md R80) -/

theorem berDecode_empty {m : Memory} {i e : Nat} (h : e ≤ i) :
    berDecode m i e = .error (.raised .unexpectedEndOfStream) := by
  unfold berDecode
  rw [if_pos (by omega)]

theorem berDecode_invalid {m : Memory} {i e : Nat} {x : Byte} (hi : i < e) (hx : m.read i = some x)
    (h : x.toNat = 0x80 ∨ 0x89 ≤ x.toNat) : berDecode m i e = .error (.raised .invalidBerLength) := by
  unfold berDecode
  rw [if_neg (by omega), hx]
  dsimp only
  rw [if_neg (by omega), if_pos (by omega)]

theorem berDecode_short {m : Memory} {i e : Nat} {x : Byte} (hi : i < e) (hx : m.read i = some x)
    (hlo : 0x81 ≤ x.toNat) (hhi : x.toNat ≤ 0x88) (h : e < i + 1 + (x.toNat - 0x80)) :
    berDecode m i e = .error (.raised .unexpectedEndOfStream) := by
  unfold berDecode
  rw [if_neg (by omega), hx]
  dsimp only
  rw [if_neg (by omega), if_neg (by omega), if_pos (by omega)]

/-! ### The templates of the reads and writes (40_cursor_ber.md R87, R98) -/

section Templates

variable {s : State} {c : RdSel} {i : Instr} {bytes : List Byte} {n v : Nat} {value : List Byte → Nat} {st : Status}

theorem readFixed_holds (hv : value bytes = v) (h : s.scr.Holds (s.reader c).cur bytes)
    (ha : (s.reader c).cur + bytes.length ≤ (s.reader c).stop) :
    readFixed bytes.length value c s = .next (finish .ok [v] [] []
      (s.setReader c { s.reader c with cur := (s.reader c).cur + bytes.length })) := by
  unfold readFixed
  rw [readN_holds h ha, ok_bind, ← hv]
  rfl

theorem readFixed_short (h : (s.reader c).avail < n) :
    readFixed n value c s = .next (raise .unexpectedEndOfStream s) := by
  unfold readFixed
  rw [readN_short h]
  rfl

theorem exec_rdBytes_holds {k : U64} (hk : bytes.length = k.toNat) (h : s.scr.Holds (s.reader c).cur bytes)
    (ha : (s.reader c).cur + k.toNat ≤ (s.reader c).stop) :
    exec (.rdBytes c k) s = .next (finish .ok [] bytes []
      (s.setReader c { s.reader c with cur := (s.reader c).cur + k.toNat })) := by
  show execRdBytes c k s = _
  unfold execRdBytes
  rw [← hk] at ha ⊢
  rw [readN_holds h ha, ok_bind]
  rfl

theorem exec_rdBytes_short {k : U64} (h : (s.reader c).avail < k.toNat) :
    exec (.rdBytes c k) s = .next (raise .unexpectedEndOfStream s) := by
  show execRdBytes c k s = _
  unfold execRdBytes
  rw [readN_short h]
  rfl

theorem exec_rdBer_form (hb : BerForm bytes v) (h : s.scr.Holds (s.reader c).cur bytes)
    (ha : (s.reader c).cur + bytes.length ≤ (s.reader c).stop) :
    exec (.rdBer c) s = .next (finish .ok [v] [] []
      (s.setReader c { s.reader c with cur := (s.reader c).cur + bytes.length })) := by
  show execRdBer c s = _
  unfold execRdBer
  rw [readBer_form hb h ha, ok_bind]
  rfl

theorem exec_rdBer_raised (h : berDecode s.scr (s.reader c).cur (s.reader c).stop = .error (.raised st)) :
    exec (.rdBer c) s = .next (raise st s) := by
  show execRdBer c s = _
  unfold execRdBer readBer
  rw [h]
  rfl

theorem writesAtW0_of_fits (hi : exec i s = writeThrough bytes s) (h : bytes.length ≤ s.w0.avail) :
    WritesAtW0 i bytes s := by
  refine ⟨memWrite s.asm s.w0.cur bytes, memWrite_stores _ _ _, ?_⟩
  rw [hi, writeThrough, writeN_fits h]
  rfl

theorem writeThrough_full (h : s.w0.avail < bytes.length) :
    writeThrough bytes s = .next (raise .notEnoughSpace s) := by
  rw [writeThrough, writeN_full h]
  rfl

end Templates

/-! ### Views and the assembled bytes -/

/-- Readers set one after the other are all that changes (40_cursor_ber.md R96). -/
theorem setReader_setReader_frame (s : State) (c d : RdSel) (x y : Cursor) :
    (s.setReader c x).setReader d y =
      { s with r0 := ((s.setReader c x).setReader d y).r0, r1 := ((s.setReader c x).setReader d y).r1,
               r2 := ((s.setReader c x).setReader d y).r2, r3 := ((s.setReader c x).setReader d y).r3 } := by
  cases c <;> cases d <;> rfl

theorem exec_rdSlice_fits {src dst : RdSel} {n : U64} {s : State} (h : n.toNat ≤ (s.reader src).avail) :
    exec (.rdSlice src dst n) s = .next (finish .ok [] [] []
      ((s.setReader src { s.reader src with cur := (s.reader src).cur + n.toNat }).setReader dst
        ⟨(s.reader src).cur, (s.reader src).cur, (s.reader src).cur + n.toNat⟩)) := by
  show execRdSlice src dst n s = _
  unfold execRdSlice
  dsimp only
  rw [if_neg (by omega)]
  rfl

theorem exec_rdSlice_short {src dst : RdSel} {n : U64} {s : State} (h : (s.reader src).avail < n.toNat) :
    exec (.rdSlice src dst n) s = .next (raise .unexpectedEndOfStream s) := by
  show execRdSlice src dst n s = _
  unfold execRdSlice
  dsimp only
  rw [if_pos h]
  rfl

theorem assembled_of_holds {s : State} {bytes : List Byte} (h : s.asm.Holds s.w0.start bytes)
    (hc : s.w0.cur = s.w0.start + bytes.length) : s.assembled = .ok bytes := by
  rw [State.assembled, hc, Nat.add_sub_cancel_left, memRead_holds h]

theorem exec_asmTake_closed {s : State} {bytes : List Byte} (hf : s.fstack = []) (h : s.assembled = .ok bytes) :
    exec .asmTake s = .next (finish .ok [] bytes [] s.rewind) := by
  show execAsmTake s = _
  unfold execAsmTake
  rw [if_neg (not_not.2 hf), h]
  rfl

theorem exec_asmTake_open {s : State} (hf : s.fstack ≠ []) :
    exec .asmTake s = .next (raise .frameStackError s) := by
  show execAsmTake s = _
  unfold execAsmTake
  rw [if_pos hf]
  rfl

theorem exec_asmCommit_closed {s : State} {r : RingSel} {bytes : List Byte} (hp : r.present s.cfg = true)
    (hf : s.fstack = []) (h : s.assembled = .ok bytes) :
    exec (.asmCommit r) s = .next (finish .ok [] [] [] (s.push r bytes).rewind) := by
  show execAsmCommit r s = _
  unfold execAsmCommit
  rw [withRing_present _ hp, if_neg (not_not.2 hf), h]
  rfl

theorem exec_asmCommit_open {s : State} {r : RingSel} (hp : r.present s.cfg = true) (hf : s.fstack ≠ []) :
    exec (.asmCommit r) s = .next (raise .frameStackError s) := by
  show execAsmCommit r s = _
  unfold execAsmCommit
  rw [withRing_present _ hp, if_pos hf]
  rfl

theorem rewind_push (s : State) (r : RingSel) (bytes : List Byte) : (s.push r bytes).rewind =
    { s.setRing r (ringWrite (s.cap r) bytes (s.ring r)) with w0 := { s.w0 with cur := s.w0.start } } := by
  rw [State.rewind, State.push, setRing_w0]

/-! ### The statements -/

/-- Settles O20: ReadN gives the bytes, and their value in either order is that of their concatenation; `beNat` is
`leNat` from the other end. -/
theorem fixedWidthReads : Obligations.FixedWidthReads := by
  intro c s b0 b1 b2 b3 b4 b5 b6 b7
  refine ⟨fun h ha => ?_, fun h ha => ⟨?_, ?_⟩, fun h ha => ⟨?_, ?_⟩, fun h ha => ⟨?_, ?_⟩⟩ <;>
    refine readFixed_holds ?_ h ha
  · exact leNat_one b0
  · exact (leNat_two b0 b1).trans (toNat_append_byte b0 b1)
  · exact (leNat_two b1 b0).trans (toNat_append_byte b1 b0)
  · exact leNat_four b0 b1 b2 b3
  · exact leNat_four b3 b2 b1 b0
  · exact leNat_eight b0 b1 b2 b3 b4 b5 b6 b7
  · exact leNat_eight b7 b6 b5 b4 b3 b2 b1 b0

/-- Settles O21: RD_BER is BerDecode on the reader: it accepts every form and checks the header as R80 orders. -/
theorem rdBerReadsEveryForm : Obligations.RdBerReadsEveryForm := by
  intro c s
  refine ⟨fun bytes v => exec_rdBer_form, fun h => exec_rdBer_raised (berDecode_empty h), fun x hi hx => ⟨?_, ?_⟩⟩
  · exact fun h => exec_rdBer_raised (berDecode_invalid hi hx h)
  · exact fun hlo hhi h => exec_rdBer_raised (berDecode_short hi hx hlo hhi h)

/-- Settles O24: each write is WriteN of the bytes of its value, which are those it is the concatenation of. -/
theorem fixedWidthWrites : Obligations.FixedWidthWrites := by
  intro s b0 b1 b2 b3 b4 b5 b6 b7
  refine ⟨fun h => ?_, fun h => ⟨?_, ?_⟩, fun h => ⟨?_, ?_⟩, fun h => ⟨?_, ?_⟩⟩ <;>
    refine writesAtW0_of_fits (congrArg (writeThrough · s) ?_) (Nat.le_sub_of_add_le' h)
  · exact toBE_of_leNat (leNat_one b0)
  · exact toBE_of_leNat (leNat_two b0 b1)
  · exact toLE_of_leNat (leNat_two b0 b1)
  · exact toBE_of_leNat (leNat_four b0 b1 b2 b3)
  · exact toLE_of_leNat (leNat_four b0 b1 b2 b3)
  · exact toBE_of_leNat (leNat_eight b0 b1 b2 b3 b4 b5 b6 b7)
  · exact toLE_of_leNat (leNat_eight b0 b1 b2 b3 b4 b5 b6 b7)

/-- Settles O25: every write command is WriteN of its bytes, and `toBE` and `toLE` give as many bytes as the width. -/
theorem writesFitOrRaise : Obligations.WritesFitOrRaise := by
  rintro s _ rfl
  refine ⟨fun v => writesAtW0_of_fits rfl, fun data => writesAtW0_of_fits rfl, fun v => writeThrough_full,
    fun data => writeThrough_full, fun x h => ?_, fun x h => ⟨?_, ?_⟩, fun x h => ⟨?_, ?_⟩, fun x h => ⟨?_, ?_⟩⟩ <;>
    exact writeThrough_full h

/-- Settles O26: ASM_COMMIT pushes what ASM_TAKE returns, and a push keeps the newest CAP bytes (41_ring.md R111). -/
theorem assembledBytesLeaveTheWriter : Obligations.AssembledBytesLeaveTheWriter := by
  intro s r bytes hp
  refine ⟨fun hf hh hc => ?_, fun hf => ⟨exec_asmTake_open hf, exec_asmCommit_open hp hf⟩⟩
  have hb := assembled_of_holds hh hc
  refine ⟨exec_asmTake_closed hf hb, fun hr => ⟨ringWrite (s.cap r) bytes (s.ring r), ?_, ?_, ?_⟩⟩
  · rw [exec_asmCommit_closed hp hf hb, rewind_push]
  · exact withRing_present _ hp
  · exact ringWrite_contents bytes hr

/-- Settles O27: `ber_min` is one of the forms BerDecode reads, and its long form has a header and at least one byte. -/
theorem berRoundTrip : Obligations.BerRoundTrip := by
  intro v m hv hm
  constructor
  · simpa using berDecode_form (berForm_berMin hv) hm (Nat.zero_add _).le
  · rcases Nat.lt_or_ge v 128 with h | h
    · simp [berMin_of_lt h, h]
    · have := (byteLen_spec hv).1
      rw [berMin_length_of_ge h]
      omega

/-- Settles O18: the checks of CUR_SET are taken one by one; MAX_PACKET + 2 is ASM_SIZE. -/
theorem curSetSetsTheBounds : Obligations.CurSetSetsTheBounds := by
  intro a b s
  have hw0 : exec (.curSet .w0 a b) s = execCurSet .w0 a b s := rfl
  have hrd (c : RdSel) : exec (.curSet (.rd c) a b) s = execCurSet (.rd c) a b s := rfl
  refine ⟨fun c hab hb => ?_, fun c h => ?_, fun hf hab hb => ?_, fun hf h => ?_, fun hf => ?_⟩
  · rw [hrd, execCurSet, if_pos ⟨hab, hb⟩, conclude_ok]
  · rw [hrd, execCurSet, if_neg (by omega), conclude_raised]
  · rw [hw0, execCurSet, if_neg (not_not.2 hf), if_pos ⟨hab, hb⟩, conclude_ok]
  · rw [hw0, execCurSet, if_neg (not_not.2 hf), if_neg (by unfold Config.asmSize; omega), conclude_raised]
  · rw [hw0, execCurSet, if_pos hf, conclude_raised]

/-- Settles O19: DATA that fits is stored by MemWrite. -/
theorem scrLoadCopiesData : Obligations.ScrLoadCopiesData := by
  intro data s h
  refine ⟨memWrite s.scr 0 data, memWrite_stores _ _ _, ?_⟩
  show execScrLoad data s = _
  rw [execScrLoad, if_neg (by omega)]
  rfl

/-- Settles O22: RD_SLICE sets the source, then the destination, so the later write wins; RD_BYTES is ReadN. -/
theorem slicesAndBytes : Obligations.SlicesAndBytes := by
  intro src dst n s
  refine ⟨fun h => ⟨_, exec_rdSlice_fits h, setReader_reader_self .., fun hne => ?_, fun c hs hd => ?_,
    setReader_setReader_frame ..⟩, exec_rdSlice_short, fun bytes => exec_rdBytes_holds⟩
  · rw [setReader_reader_other _ _ _ _ hne, setReader_reader_self]
  · rw [setReader_reader_other _ _ _ _ hd, setReader_reader_other _ _ _ _ hs]

/-- Settles O23: every read goes through ReadN, which checks the bytes left before it reads. -/
theorem shortReadsRaise : Obligations.ShortReadsRaise := by
  rintro c s _ rfl
  refine ⟨fun h => ?_, fun h => ⟨?_, ?_⟩, fun h => ⟨?_, ?_⟩, fun h => ⟨?_, ?_⟩, fun n => exec_rdBytes_short⟩ <;>
    exact readFixed_short h

end Sys2Proof.Machine
end

section
/-! PROOFS. The ring buffer commands (41_ring.md §1 and §2; the order of the bytes, R119). -/

namespace Sys2Proof.Machine

/-! ### The offsets and the free space after RingWrite (41_ring.md R111) -/

/-- RingWrite discards as many of the oldest bytes as the kept ones need beyond the free space, then appends; the discard
of none is RingErase of 0 bytes. -/
theorem ringWrite_eq_append_drop {cap : Nat} {rb : Ring} (bytes : List Byte) (h : rb.Inv cap) :
    ringWrite cap bytes rb =
      (rb.drop cap (min bytes.length cap - rb.free)).append cap (ringKept cap bytes) := by
  unfold ringWrite
  dsimp only
  rw [ringKept_length]
  split
  · rfl
  · rw [Nat.sub_eq_zero_of_le (by omega), Ring.drop_zero h]

theorem ringWrite_rd {cap : Nat} {rb : Ring} (bytes : List Byte) (h : rb.Inv cap) :
    (ringWrite cap bytes rb).rd = (rb.rd + (min bytes.length cap - rb.free)) % cap := by
  rw [ringWrite_eq_append_drop bytes h]
  rfl

theorem ringWrite_wr {cap : Nat} {rb : Ring} (bytes : List Byte) (h : rb.Inv cap) :
    (ringWrite cap bytes rb).wr = (rb.wr + min bytes.length cap) % cap := by
  rw [ringWrite_eq_append_drop bytes h, ← ringKept_length]
  rfl

theorem ringWrite_free {cap : Nat} {rb : Ring} (bytes : List Byte) (h : rb.Inv cap) :
    (ringWrite cap bytes rb).free = rb.free - min bytes.length cap := by
  rw [ringWrite_eq_append_drop bytes h]
  simp only [Ring.append, Ring.drop, ringKept_length]
  omega

/-! ### What each ring command answers on a ring of the instance -/

section Commands

variable {s : State} {r : RingSel} {n off : U64}

theorem State.contents_length (s : State) (r : RingSel) : (s.contents r).length = (s.ring r).readable (s.cap r) :=
  Ring.contents_length _ _

theorem exec_rbWrite_present (data : List Byte) (hp : r.present s.cfg = true) :
    exec (.rbWrite r data) s = .next (finish .ok [] [] [] (s.push r data)) :=
  withRing_present _ hp

theorem exec_rbStatus_present (hp : r.present s.cfg = true) :
    exec (.rbStatus r) s = .next (finish .ok [(s.contents r).length, (s.ring r).free] [] [] s) := by
  rw [State.contents_length]
  exact withRing_present _ hp

theorem exec_rbPeek_ok (hp : r.present s.cfg = true) (hi : (s.ring r).Inv (s.cap r))
    (h : off.toNat + n.toNat ≤ (s.contents r).length) :
    exec (.rbPeek r n off) s = .next (finish .ok [] (((s.contents r).drop off.toNat).take n.toNat) [] s) := by
  rw [State.contents_length] at h
  show execRbPeek r n off s = _
  rw [execRbPeek, withRing_present _ hp, ringPeek_ok hi h, ok_bind]
  rfl

theorem exec_rbPeek_range (hp : r.present s.cfg = true) (h : (s.contents r).length < off.toNat + n.toNat) :
    exec (.rbPeek r n off) s = .next (raise .outOfRange s) := by
  rw [State.contents_length] at h
  show execRbPeek r n off s = _
  rw [execRbPeek, withRing_present _ hp, ringPeek_range h, error_bind, conclude_raised]

theorem exec_rbRead_ok (hp : r.present s.cfg = true) (hi : (s.ring r).Inv (s.cap r))
    (h : n.toNat ≤ (s.contents r).length) :
    exec (.rbRead r n) s = .next (finish .ok [] ((s.contents r).take n.toNat) []
      (s.setRing r ((s.ring r).drop (s.cap r) n.toNat))) := by
  rw [State.contents_length] at h
  show execRbRead r n s = _
  rw [execRbRead, withRing_present _ hp, ringPeek_ok hi (by omega), ringErase_ok h, ok_bind, ok_bind]
  rfl

theorem exec_rbRead_range (hp : r.present s.cfg = true) (h : (s.contents r).length < n.toNat) :
    exec (.rbRead r n) s = .next (raise .outOfRange s) := by
  rw [State.contents_length] at h
  show execRbRead r n s = _
  rw [execRbRead, withRing_present _ hp, ringPeek_range (by omega), error_bind, conclude_raised]

theorem exec_rbErase_ok (hp : r.present s.cfg = true) (h : n.toNat ≤ (s.contents r).length) :
    exec (.rbErase r n) s = .next (finish .ok [] [] [] (s.setRing r ((s.ring r).drop (s.cap r) n.toNat))) := by
  rw [State.contents_length] at h
  show execRbErase r n s = _
  rw [execRbErase, withRing_present _ hp, ringErase_ok h, ok_bind]
  rfl

theorem exec_rbErase_range (hp : r.present s.cfg = true) (h : (s.contents r).length < n.toNat) :
    exec (.rbErase r n) s = .next (raise .outOfRange s) := by
  rw [State.contents_length] at h
  show execRbErase r n s = _
  rw [execRbErase, withRing_present _ hp, ringErase_range h, error_bind, conclude_raised]

end Commands

/-! ### Runs of writes and of reads (41_ring.md R119) -/

theorem execAll_cons {i : Instr} {is : List Instr} {s t : State} (h : exec i s = .next t) :
    execAll (i :: is) s = execAll is t := by
  rw [execAll, h]

theorem execOuts_cons {i : Instr} {is : List Instr} {s t : State} (h : exec i s = .next t) :
    execOuts (i :: is) s = (execOuts is t).map fun p => ((t.resp.map (·.dataOut)).getD [] :: p.1, p.2) := by
  rw [execOuts, h]

/-- Ring `r` is one of the instance, has capacity `cap`, meets its invariant, and `bytes` are its readable bytes: what a
run of writes and reads carries from command to command. -/
structure State.Carries (s : State) (r : RingSel) (cap : Nat) (bytes : List Byte) : Prop where
  present : r.present s.cfg = true
  cap_eq : s.cap r = cap
  inv : (s.ring r).Inv cap
  contents : (s.ring r).contents cap = bytes

section Runs

variable {s : State} {r : RingSel} {cap : Nat}

/-- A command that sets ring `r` and finishes leaves the new ring's bytes. -/
theorem State.Carries.finish_setRing {old bytes : List Byte} {rb : Ring} (h : s.Carries r cap old) (hi : rb.Inv cap)
    (hc : rb.contents cap = bytes) (st : Status) (res : List Nat) (out : List Byte) (ev : List Event) :
    (finish st res out ev (s.setRing r rb)).Carries r cap bytes where
  present := by simpa using h.present
  cap_eq := by simpa using h.cap_eq
  inv := by simpa using hi
  contents := by simpa using hc

/-- One RB_WRITE of bytes that fit. -/
theorem State.Carries.exec_rbWrite {old data : List Byte} (h : s.Carries r cap old)
    (hl : old.length + data.length ≤ cap) :
    ∃ t, exec (.rbWrite r data) s = .next t ∧ t.Carries r cap (old ++ data) := by
  refine ⟨_, exec_rbWrite_present data h.present, ?_⟩
  rw [State.push, h.cap_eq]
  refine h.finish_setRing (ringWrite_Inv data h.inv) ?_ _ _ _ _
  rw [ringWrite_contents data h.inv, h.contents, List.length_append, Nat.sub_eq_zero_of_le hl, List.drop_zero]

/-- One RB_READ of no more than the readable bytes. -/
theorem State.Carries.exec_rbRead {bytes : List Byte} {n : U64} (h : s.Carries r cap bytes)
    (hn : n.toNat ≤ bytes.length) :
    ∃ t, exec (.rbRead r n) s = .next t ∧ (t.resp.map (·.dataOut)).getD [] = bytes.take n.toNat ∧
      t.Carries r cap (bytes.drop n.toNat) := by
  obtain ⟨hp, rfl, hi, rfl⟩ := h
  have hc : s.Carries r (s.cap r) (s.contents r) := ⟨hp, rfl, hi, rfl⟩
  refine ⟨_, exec_rbRead_ok hp hi hn, rfl, ?_⟩
  exact hc.finish_setRing (hi.drop (by simpa using hn)) Ring.drop_contents _ _ _ _

/-- Writes that fit append their bytes in write order. -/
theorem State.Carries.execAll_rbWrite {old : List Byte} {chunks : List (List Byte)} (h : s.Carries r cap old)
    (hl : old.length + chunks.flatten.length ≤ cap) :
    ∃ t, execAll (chunks.map (.rbWrite r)) s = .next t ∧ t.Carries r cap (old ++ chunks.flatten) := by
  induction chunks generalizing s old with
  | nil => exact ⟨s, rfl, by simpa using h⟩
  | cons data rest ih =>
    rw [List.flatten_cons, List.length_append] at hl
    obtain ⟨u, hu, hcu⟩ := h.exec_rbWrite (data := data) (by omega)
    obtain ⟨t, ht, hct⟩ := ih hcu (by rw [List.length_append]; omega)
    exact ⟨t, (execAll_cons hu).trans ht, by simpa using hct⟩

/-- Reads whose sizes total the readable bytes give all of them, cut into pieces of those sizes. -/
theorem State.Carries.execOuts_rbRead {bytes : List Byte} {sizes : List U64} (h : s.Carries r cap bytes)
    (hl : (sizes.map (·.toNat)).sum = bytes.length) :
    ∃ parts u, execOuts (sizes.map (.rbRead r)) s = some (parts, u) ∧ parts.flatten = bytes ∧
      parts.map (·.length) = sizes.map (·.toNat) ∧ u.Carries r cap [] := by
  induction sizes generalizing s bytes with
  | nil =>
    obtain rfl : bytes = [] := List.eq_nil_of_length_eq_zero hl.symm
    exact ⟨[], s, rfl, rfl, rfl, h⟩
  | cons n rest ih =>
    rw [List.map_cons, List.sum_cons] at hl
    obtain ⟨t, ht, hout, hct⟩ := h.exec_rbRead (n := n) (by omega)
    obtain ⟨parts, u, hu, hflat, hlen, hcu⟩ := ih hct (by rw [List.length_drop]; omega)
    refine ⟨bytes.take n.toNat :: parts, u, ?_, ?_, ?_, hcu⟩
    · rw [List.map_cons, execOuts_cons ht, hu, hout]
      rfl
    · rw [List.flatten_cons, hflat, List.take_append_drop]
    · rw [List.map_cons, List.map_cons, hlen, List.length_take, Nat.min_eq_left (by omega)]

end Runs

/-! ### The statements -/

/-- Settles O29: RB_WRITE is RingWrite, which discards, then appends. -/
theorem rbWriteAppends : Obligations.RbWriteAppends := by
  rintro r data s _ hp hi rfl
  exact ⟨_, exec_rbWrite_present data hp, ringWrite_contents data hi, ringWrite_rd data hi, ringWrite_wr data hi,
    ringWrite_free data hi, ringWrite_read_other _ data⟩

/-- Settles O30: RB_PEEK is RingPeek, which checks offset + size first; the readable bytes are CAP less the free space. -/
theorem rbPeekAndRbStatus : Obligations.RbPeekAndRbStatus := by
  intro r n off s hp
  refine ⟨exec_rbPeek_ok hp, exec_rbPeek_range hp, exec_rbStatus_present hp, fun hf => ?_⟩
  rw [State.contents_length, Ring.readable, Nat.sub_add_cancel hf]

/-- Settles O31: RB_READ is RingPeek at offset 0 and RingErase, RB_ERASE is RingErase alone. -/
theorem rbReadAndRbErase : Obligations.RbReadAndRbErase := by
  rintro r n s _ hp rfl
  exact ⟨fun h => ⟨fun hi => exec_rbRead_ok hp hi h, exec_rbErase_ok hp h, Ring.drop_contents⟩,
    fun h => ⟨exec_rbRead_range hp h, exec_rbErase_range hp h⟩⟩

/-- Settles O32: the writes carry the ring to the old bytes and the new ones, the reads carry it from there to none. -/
theorem ringFifo : Obligations.RingFifo := by
  intro r s chunks sizes hp hi hfree hsum
  have hs : s.Carries r (s.cap r) (s.contents r) := ⟨hp, rfl, hi, rfl⟩
  have hfit : (s.contents r).length + chunks.flatten.length ≤ s.cap r := by
    have := hi.free
    rw [State.contents_length, Ring.readable]
    omega
  obtain ⟨t, ht, hct⟩ := hs.execAll_rbWrite hfit
  obtain ⟨parts, u, hu, hflat, hlen, hcu⟩ := hct.execOuts_rbRead (by rw [hsum, List.length_append])
  refine ⟨t, u, parts, ht, hu, hflat, hlen, ?_⟩
  rw [State.contents, hcu.cap_eq, hcu.contents]

end Sys2Proof.Machine
end

section
/-! PROOFS. Frame discovery (42_framer.md): a cycle as a relation on the readable bytes, from which each statement about
DISCOVER follows. -/

namespace Sys2Proof.Machine

/-! ### A discovery cycle on the readable bytes -/

/-- A cycle over the readable bytes `stream` ends with a status, the number of bytes it consumes, and the frame it takes
(empty unless the status is OK) (42_framer.md R122, R123). -/
inductive CycleOn (maxPacket : Nat) (sep stream : List Byte) : Status → Nat → List Byte → Prop where
  | noFrame (hs : NoSep sep stream) : CycleOn maxPacket sep stream .noFrame (stream.length - 1) []
  | incomplete {garbage rest : List Byte} (hs : FirstSep sep stream garbage rest) (hp : Partial maxPacket rest) :
      CycleOn maxPacket sep stream .incomplete garbage.length []
  | badLength {garbage more : List Byte} {c0 c1 x : Byte} (hs : FirstSep sep stream garbage (c0 :: c1 :: x :: more))
      (hx : x.toNat = 0x80 ∨ 0x89 ≤ x.toNat) : CycleOn maxPacket sep stream .invalidBerLength (garbage.length + 2) []
  | tooLarge {garbage len more : List Byte} {c0 c1 : Byte} {n : Nat}
      (hs : FirstSep sep stream garbage ([c0, c1] ++ len ++ more)) (hb : BerForm len n)
      (hn : maxPacket < 2 + len.length + n) : CycleOn maxPacket sep stream .frameTooLarge (garbage.length + 2) []
  | takes {garbage len body more : List Byte} {c0 c1 : Byte}
      (hs : FirstSep sep stream garbage ([c0, c1] ++ len ++ body ++ more)) (hb : BerForm len body.length)
      (hm : 2 + len.length + body.length ≤ maxPacket) :
      CycleOn maxPacket sep stream .ok (garbage.length + 2 + (2 + len.length + body.length)) ([c0, c1] ++ len ++ body)

/-- The statuses that end a cycle for good: a frame taken or rejected (42_framer.md R126). -/
def Decided (st : Status) : Prop := st = .ok ∨ st = .invalidBerLength ∨ st = .frameTooLarge

section Cycles

variable {maxPacket n : Nat} {sep stream garbage rest frame : List Byte} {st : Status}

theorem FirstSep.length (h : FirstSep sep stream garbage rest) (h2 : sep.length = 2) :
    stream.length = garbage.length + 2 + rest.length := by
  rw [h.1, List.length_append, List.length_append, h2]

theorem FirstSep.drop_garbage (h : FirstSep sep stream garbage rest) : stream.drop garbage.length = sep ++ rest := by
  rw [h.1, List.append_assoc, List.drop_left]

theorem FirstSep.drop_sep (h : FirstSep sep stream garbage rest) (h2 : sep.length = 2) :
    stream.drop (garbage.length + 2) = rest := by
  rw [← List.drop_drop, h.drop_garbage, List.drop_left' h2]

/-- What stands at the separator starts with it. -/
theorem FirstSep.at_sep : FirstSep sep (sep ++ rest) [] rest := ⟨rfl, fun _ hk => absurd hk (Nat.not_lt_zero _)⟩

/-- The separator lies whole in the stream, so bytes behind the stream make no earlier one. -/
theorem FirstSep.append (h : FirstSep sep stream garbage rest) (h2 : sep.length = 2) (later : List Byte) :
    FirstSep sep (stream ++ later) garbage (rest ++ later) := by
  refine ⟨by rw [h.1, List.append_assoc], fun k hk => ?_⟩
  have hl := h.length h2
  rw [List.drop_append_of_le_length (by omega), List.take_append_of_le_length (by rw [List.length_drop]; omega)]
  exact h.2 k hk

theorem NoSep.drop (h : NoSep sep stream) (n : Nat) : NoSep sep (stream.drop n) := fun k => by
  rw [List.drop_drop]
  exact h (n + k)

/-- A cycle always ends (42_framer.md R125). -/
theorem cycleOn_total (maxPacket : Nat) (h2 : sep.length = 2) (stream : List Byte) :
    ∃ st n frame, CycleOn maxPacket sep stream st n frame := by
  rcases firstSep_or_noSep h2 stream with ⟨garbage, rest, hs⟩ | hs
  · rcases rest_cases maxPacket rest with hp | ⟨c0, c1, x, more, rfl, hx⟩ | ⟨c0, c1, len, n, more, rfl, hb, hn⟩ |
      ⟨c0, c1, len, body, more, rfl, hb, hm⟩
    · exact ⟨_, _, _, .incomplete hs hp⟩
    · exact ⟨_, _, _, .badLength hs hx⟩
    · exact ⟨_, _, _, .tooLarge hs hb hn⟩
    · exact ⟨_, _, _, .takes hs hb hm⟩
  · exact ⟨_, _, _, .noFrame hs⟩

theorem CycleOn.consumes_le (h : CycleOn maxPacket sep stream st n frame) (h2 : sep.length = 2) : n ≤ stream.length := by
  cases h with
  | noFrame => omega
  | incomplete hs | badLength hs | tooLarge hs =>
    have := hs.length h2
    omega
  | takes hs =>
    have := hs.length h2
    simp only [List.length_append, List.length_cons, List.length_nil] at this
    omega

/-- A decided cycle consumes the separator at least (42_framer.md R125). -/
theorem CycleOn.two_le (h : CycleOn maxPacket sep stream st n frame) (hd : Decided st) : 2 ≤ n := by
  cases h with
  | noFrame | incomplete => simp [Decided] at hd
  | badLength | tooLarge | takes => omega

/-- A decided cycle ends the same way with more bytes behind: it looked at none of them (42_framer.md R126). -/
theorem CycleOn.append (h : CycleOn maxPacket sep stream st n frame) (hd : Decided st) (h2 : sep.length = 2)
    (later : List Byte) : CycleOn maxPacket sep (stream ++ later) st n frame := by
  cases h with
  | noFrame | incomplete => simp [Decided] at hd
  | badLength hs hx => exact .badLength (hs.append h2 later) hx
  | tooLarge hs hb hn => exact .tooLarge (List.append_assoc .. ▸ hs.append h2 later) hb hn
  | takes hs hb hm => exact .takes (List.append_assoc .. ▸ hs.append h2 later) hb hm

/-- A cycle that waits for more bytes leaves bytes on which the next one consumes none (42_framer.md R125). -/
theorem CycleOn.again (h : CycleOn maxPacket sep stream st n frame) (hw : st = .noFrame ∨ st = .incomplete) :
    frame = [] ∧ CycleOn maxPacket sep (stream.drop n) st 0 [] := by
  cases h with
  | noFrame hs =>
    have h0 : (stream.drop (stream.length - 1)).length - 1 = 0 := by
      rw [List.length_drop]
      omega
    exact ⟨rfl, h0 ▸ .noFrame (hs.drop _)⟩
  | incomplete hs hp => exact ⟨rfl, hs.drop_garbage ▸ .incomplete .at_sep hp⟩
  | badLength | tooLarge | takes => simp at hw

/-- Discover on a ring is the cycle over its readable bytes (42_framer.md R122). -/
theorem discoverRing_cycleOn {cap s : Nat} {rb : Ring} (hi : rb.Inv cap)
    (h : CycleOn maxPacket (sepBytes s) (rb.contents cap) st n frame) :
    discoverRing cap maxPacket s rb = .ok ⟨st, rb.drop cap n, frame⟩ := by
  cases h with
  | noFrame hs => rw [discoverRing_noFrame hi hs, Ring.contents_length]
  | incomplete hs hp => exact discoverRing_incomplete hi hs hp
  | badLength hs hx => exact discoverRing_badLength hi hs hx
  | tooLarge hs hb hn => exact discoverRing_tooLarge hi hb hn hs
  | takes hs hb hm => exact discoverRing_takes hi hb hm hs

end Cycles

/-! ### Rings set and consumed -/

section States

variable {s t : State} {r : RingSel} {n : Nat} {st : Status} {frame : List Byte} {rb : Ring}

theorem setRing_contents : (s.setRing r rb).contents r = rb.contents (s.cap r) := by
  rw [State.contents, setRing_ring_self, setRing_cap]

theorem consumed_inv (hi : (s.ring r).Inv (s.cap r)) (hn : n ≤ (s.contents r).length) : (s.consumed r n).Inv (s.cap r) :=
  hi.drop (by rwa [← State.contents_length])

theorem consumed_contents : (s.consumed r n).contents (s.cap r) = (s.contents r).drop n := Ring.drop_contents

theorem consumed_zero (hi : (s.ring r).Inv (s.cap r)) : s.consumed r 0 = s.ring r := Ring.drop_zero hi

/-! ### DISCOVER on the state -/

/-- The state that DISCOVER on ring `r` leaves when its cycle ends with `st`, leaves the ring `rb` and took `frame`: a frame
taken has its code at least, and none is the empty list (42_framer.md R123, R124). -/
def State.cycled (s : State) (r : RingSel) (st : Status) (rb : Ring) : List Byte → State
  | c0 :: c1 :: rest =>
    finish st [c0.toNat * 256 + c1.toNat, rest.length + 2] [] []
      (s.took r rb (memWrite s.scr 0 (c0 :: c1 :: rest)) (rest.length + 2))
  | _ => finish st [] [] [] (s.setRing r rb)

theorem took_ring_self (m : Memory) : (s.took r rb m n).ring r = rb := by cases r <;> rfl

theorem took_cap (m : Memory) : (s.took r rb m n).cap r = s.cap r := by cases r <;> rfl

theorem took_cfg (m : Memory) : (s.took r rb m n).cfg = s.cfg := by cases r <;> rfl

@[simp] theorem cycled_status : (s.cycled r st rb frame).status = BitVec.ofNat 8 (statusCode st) := by
  unfold State.cycled
  split <;> exact finish_status ..

@[simp] theorem cycled_ring_self : (s.cycled r st rb frame).ring r = rb := by
  unfold State.cycled
  split
  · rw [finish_ring, took_ring_self]
  · rw [finish_ring, setRing_ring_self]

@[simp] theorem cycled_cap : (s.cycled r st rb frame).cap r = s.cap r := by
  unfold State.cycled
  split
  · rw [finish_cap, took_cap]
  · rw [finish_cap, setRing_cap]

@[simp] theorem cycled_cfg : (s.cycled r st rb frame).cfg = s.cfg := by
  unfold State.cycled
  split
  · rw [finish_cfg, took_cfg]
  · rw [finish_cfg, setRing_cfg]

/-- The state a cycle leaves does not depend on the ring it found, and holds the ring left in its place. -/
theorem setRing_cycled (rb₀ rb₁ : Ring) :
    (s.setRing r rb₀).cycled r st rb₁ frame = (s.cycled r st rb frame).setRing r rb₁ := by
  unfold State.cycled
  split <;> cases r <;> rfl

/-- A second ending without a frame over the ring left by the first changes nothing. -/
theorem cycled_cycled : (s.cycled r st rb []).cycled r st rb [] = s.cycled r st rb [] := by
  cases r <;> rfl

theorem cycled_contents : (s.cycled r st (s.consumed r n) frame).contents r = (s.contents r).drop n := by
  rw [State.contents, cycled_ring_self, cycled_cap, consumed_contents]

/-- DISCOVER is the cycle over the readable bytes of its ring (42_framer.md R122 to R124). -/
theorem exec_discover_cycleOn (hp : r.present s.cfg = true) (hi : (s.ring r).Inv (s.cap r))
    (h : CycleOn s.cfg.maxPacket (wireSep s.cfg.role r) (s.contents r) st n frame) :
    exec (.discover r) s = .next (s.cycled r st (s.consumed r n) frame) := by
  rw [← sepBytes_sepOf] at h
  have hd := discoverRing_cycleOn hi h
  cases h with
  | noFrame | incomplete | badLength | tooLarge => exact execDiscover_fail hp (by decide) hd
  | takes => exact execDiscover_takes hp hd

/-- A cycle that takes no frame consumes bytes of its ring and leaves those behind them; nothing else changes. -/
theorem exec_discover_without_frame {bytes : List Byte} (hp : r.present s.cfg = true)
    (hi : (s.ring r).Inv (s.cap r))
    (h : CycleOn s.cfg.maxPacket (wireSep s.cfg.role r) (s.contents r) st n [])
    (hb : (s.contents r).drop n = bytes) :
    ∃ rb, rb = s.consumed r n ∧ exec (.discover r) s = .next (finish st [] [] [] (s.setRing r rb)) ∧
      rb.Inv (s.cap r) ∧ rb.contents (s.cap r) = bytes :=
  ⟨_, rfl, exec_discover_cycleOn hp hi h, consumed_inv hi (h.consumes_le (wireSep_length ..)), consumed_contents.trans hb⟩

/-- A DISCOVER on a ring that is there is one of the cycles. -/
theorem exec_discover_next (hp : r.present s.cfg = true) (hi : (s.ring r).Inv (s.cap r))
    (ht : exec (.discover r) s = .next t) :
    ∃ st n frame, CycleOn s.cfg.maxPacket (wireSep s.cfg.role r) (s.contents r) st n frame ∧
      t = s.cycled r st (s.consumed r n) frame := by
  obtain ⟨st, n, frame, h⟩ := cycleOn_total s.cfg.maxPacket (wireSep_length s.cfg.role r) (s.contents r)
  rw [exec_discover_cycleOn hp hi h] at ht
  cases ht
  exact ⟨st, n, frame, h, rfl⟩

theorem status_eq_iff {a b : Status} : BitVec.ofNat 8 (statusCode a) = BitVec.ofNat 8 (statusCode b) ↔ a = b := by
  refine ⟨fun h => statusCode_inj ?_, fun h => h ▸ rfl⟩
  rw [← status_toNat a, h, status_toNat]

/-- Codes 0, 3 and 13 are those of the decided statuses (60_exceptions.md R175). -/
theorem cycled_decided (h : (s.cycled r st rb frame).status = 0 ∨ (s.cycled r st rb frame).status = 3 ∨
    (s.cycled r st rb frame).status = 13) : Decided st := by
  rw [cycled_status] at h
  exact h.imp status_eq_iff.1 (.imp status_eq_iff.1 status_eq_iff.1)

/-- Codes 11 and 12 are NoFrame and Incomplete (60_exceptions.md R175). -/
theorem cycled_waits (h : (s.cycled r st rb frame).status = 11 ∨ (s.cycled r st rb frame).status = 12) :
    st = .noFrame ∨ st = .incomplete := by
  rw [cycled_status] at h
  exact h.imp status_eq_iff.1 status_eq_iff.1

/-- On a ring that is not there DISCOVER raises IllegalCommand, code 15 (30_encoding.md R56, 60_exceptions.md R175). -/
theorem exec_discover_present (ht : exec (.discover r) s = .next t) (hst : t.status ≠ 15) : r.present s.cfg = true := by
  by_contra hp
  have h : exec (.discover r) s = .next (raise .illegalCommand s) := withRing_absent _ (Bool.not_eq_true _ ▸ hp)
  cases h.symm.trans ht
  exact hst rfl

end States

/-! ### The statements -/

/-- Settles O33: the case of CycleOn that takes a frame, with MemWrite as the store. -/
theorem discoverTakesTheFrame : Obligations.DiscoverTakesTheFrame := by
  intro r s c0 c1 garbage len body rest hp hi hb hm hs
  have h : CycleOn .. := .takes hs hb hm
  have h2 := wireSep_length s.cfg.role r
  have hl : (len ++ body).length + 2 = 2 + len.length + body.length := by
    rw [List.length_append]
    omega
  refine ⟨_, memWrite s.scr 0 ([c0, c1] ++ len ++ body), rfl, ?_, consumed_inv hi (h.consumes_le h2), ?_,
    memWrite_stores _ _ _⟩
  · rw [exec_discover_cycleOn hp hi h, ← hl]
    rfl
  · rw [consumed_contents, ← List.drop_drop, hs.drop_sep h2, List.drop_left' (by simp; omega)]

/-- Settles O34: the two cases of CycleOn that wait. -/
theorem discoverWaitsForTheRest : Obligations.DiscoverWaitsForTheRest := fun _ _ hp hi =>
  ⟨fun hs => exec_discover_without_frame hp hi (.noFrame hs) rfl,
    fun _ _ hs hpart => exec_discover_without_frame hp hi (.incomplete hs hpart) hs.drop_garbage⟩

/-- Settles O35: the two cases of CycleOn that reject. -/
theorem discoverRejects : Obligations.DiscoverRejects := fun _ _ _ _ _ _ hp hi =>
  ⟨fun _ hx hs => exec_discover_without_frame hp hi (.badLength hs hx) (hs.drop_sep (wireSep_length ..)),
    fun _ _ hb hn hs => exec_discover_without_frame hp hi (.tooLarge hs hb hn) (hs.drop_sep (wireSep_length ..))⟩

/-- Settles O36: a decided cycle is the same cycle over the longer stream, and leaves the same state but for the ring. -/
theorem discoverIgnoresLaterBytes : Obligations.DiscoverIgnoresLaterBytes := by
  intro r s t rb later hi hrb hc ht hst
  have h2 := wireSep_length s.cfg.role r
  have hp : r.present s.cfg = true := exec_discover_present ht fun h15 => absurd (h15 ▸ hst) (by decide)
  obtain ⟨st, n, frame, h, rfl⟩ := exec_discover_next hp hi ht
  have hiu : ((s.setRing r rb).ring r).Inv ((s.setRing r rb).cap r) := by rwa [setRing_ring_self, setRing_cap]
  have hcu : (s.setRing r rb).contents r = s.contents r ++ later := setRing_contents.trans hc
  have hu : CycleOn (s.setRing r rb).cfg.maxPacket (wireSep (s.setRing r rb).cfg.role r) ((s.setRing r rb).contents r)
      st n frame := by
    rw [setRing_cfg, hcu]
    exact h.append (cycled_decided hst) h2 later
  refine ⟨(s.setRing r rb).consumed r n, ?_, ?_, ?_⟩
  · rw [exec_discover_cycleOn (by rwa [setRing_cfg]) hiu hu, setRing_cycled]
  · rw [← setRing_cap (s := s) r r rb]
    exact consumed_inv hiu (hu.consumes_le (wireSep_length ..))
  · rw [← setRing_cap (s := s) r r rb, consumed_contents, hcu, cycled_contents,
      List.drop_append_of_le_length (h.consumes_le h2)]

/-- Settles O37: a decided cycle consumes the separator; after one that waits the next is the same cycle and consumes
nothing. -/
theorem discoverMakesProgress : Obligations.DiscoverMakesProgress := by
  intro r s t hp hi ht
  obtain ⟨st, n, frame, h, rfl⟩ := exec_discover_next hp hi ht
  have hn := h.consumes_le (wireSep_length s.cfg.role r)
  refine ⟨fun hst => ?_, fun hst => ?_⟩
  · have := h.two_le (cycled_decided hst)
    rw [cycled_contents, List.length_drop]
    omega
  · obtain ⟨rfl, h'⟩ := h.again (cycled_waits hst)
    have hit : ((s.cycled r st (s.consumed r n) []).ring r).Inv ((s.cycled r st (s.consumed r n) []).cap r) := by
      rw [cycled_ring_self, cycled_cap]
      exact consumed_inv hi hn
    rw [exec_discover_cycleOn (by rwa [cycled_cfg]) hit (by rwa [cycled_cfg, cycled_contents]), consumed_zero hit,
      cycled_ring_self, cycled_cycled]

end Sys2Proof.Machine
end

section
/-! PROOFS. The packet decoders (43_decode.md): what each command answers on a message of its kind, and the failure it
raises on any other view. -/

namespace Sys2Proof.Machine

/-! ### A decoder command that answers -/

/-- A payload-bearing decoder that reads a message of `n` bytes moves the source past it and views the payload in the
destination (43_decode.md R130). -/
theorem decodeTo_reads {dec : Memory → Cursor → Res Decoded} {src : RdSel} {s : State} {fields : List Nat}
    {trailer : List Byte} {q n lo hi lo' hi' : Nat} (dst : RdSel)
    (h : dec s.scr (s.reader src) =
      .ok ⟨fields, trailer, ⟨q, lo', hi'⟩, { s.reader src with cur := (s.reader src).cur + n }⟩)
    (hlo : lo' = lo) (hhi : hi' = hi) :
    decodeTo dec src dst s = .next (finish .ok fields trailer [] (s.decoded src dst n lo hi)) := by
  subst hlo hhi
  rw [decodeTo, h]
  rfl

theorem decodeOnly_reads {dec : Memory → Cursor → Res Decoded} {src : RdSel} {s : State} {d : Decoded}
    (h : dec s.scr (s.reader src) = .ok d) :
    decodeOnly dec src s = .next (finish .ok d.fields d.trailer [] (s.setReader src d.after)) := by
  rw [decodeOnly, h]
  rfl

/-- The decoder of both command messages views the whole body (43_decode.md R132, R133). -/
theorem decodeTo_body {k : Kind} {src : RdSel} {s : State} {body msg : List Byte} (dst : RdSel) (h : MsgForm k body msg)
    (hm : s.scr.Holds (s.reader src).cur msg) (hs : (s.reader src).cur + msg.length ≤ (s.reader src).stop) :
    decodeTo (decBody k) src dst s = .next (finish .ok [body.length] [] [] (s.decoded src dst msg.length
      ((s.reader src).cur + (msg.length - body.length)) ((s.reader src).cur + msg.length))) := by
  obtain ⟨p, hlo, hp, e⟩ := decBody_form h hm hs
  exact decodeTo_reads dst e (by omega) hp

/-- The decoder of both telemetry messages views what follows the four numbers (43_decode.md R134, R135). -/
theorem decodeTo_four {k : Kind} {src : RdSel} {s : State} {header params msg : List Byte} {n1 n2 n3 n4 : Nat}
    (dst : RdSel) (hf : FieldsForm header [n1, n2, n3, n4]) (h : MsgForm k (header ++ params) msg)
    (hm : s.scr.Holds (s.reader src).cur msg) (hs : (s.reader src).cur + msg.length ≤ (s.reader src).stop) :
    decodeTo (decFour k) src dst s = .next (finish .ok [header.length + params.length, n1, n2, n3, n4] [] []
      (s.decoded src dst msg.length ((s.reader src).cur + (msg.length - params.length))
        ((s.reader src).cur + msg.length))) := by
  obtain ⟨q, p, hlo, hp, -, e⟩ := decFour_form hf h hm hs
  exact decodeTo_reads dst e (by omega) hp

/-- The decoder of both counter packets sets no destination (43_decode.md R138, R139). -/
theorem decodeOnly_counter {k : Kind} {src : RdSel} {s : State} {msg extra trailer : List Byte} {rsv st ctr : Nat}
    {ect : Ect} (hc : ctr ≤ 65535) (h : PacketForm k rsv st ect [ctr] extra trailer msg)
    (hm : s.scr.Holds (s.reader src).cur msg) (hs : (s.reader src).cur + msg.length ≤ (s.reader src).stop) :
    ∃ len body, MsgForm k body msg ∧ len = body.length ∧ decodeOnly (decCounter k) src s =
      .next (finish .ok [len, rsv, st, if ect = .crc16 then 1 else 2, ctr] trailer []
        (s.setReader src { s.reader src with cur := (s.reader src).cur + msg.length })) := by
  obtain ⟨body, payload, hb, e⟩ := decCounter_form h hc hm hs
  exact ⟨_, body, hb, rfl, by rw [decodeOnly_reads e, ectCode_eq_ite]⟩

/-! ### A decoder command that raises -/

/-- The decoder of each message kind (43_decode.md R132 to R139). -/
def decoderOf : Kind → Memory → Cursor → Res Decoded
  | .commandMessage => decBody .commandMessage
  | .commandResult => decBody .commandResult
  | .tmStatusMessage => decFour .tmStatusMessage
  | .tmEventMessage => decFour .tmEventMessage
  | .addressPacket => decAddress
  | .exchangePacket => decExchange
  | .counterAdjustmentPacket => decCounter .counterAdjustmentPacket
  | .receiptPacket => decCounter .receiptPacket

/-- The decoder commands with the kind each decodes. -/
def decoderCommands (src dst : RdSel) : List (Kind × Instr) :=
  [(.commandMessage, .decCmdmsg src dst), (.commandResult, .decCmdresult src dst),
    (.tmStatusMessage, .decTmstatus src dst), (.tmEventMessage, .decTmevent src dst),
    (.addressPacket, .decAddress src dst), (.exchangePacket, .decExchange src dst),
    (.counterAdjustmentPacket, .decCounteradj src), (.receiptPacket, .decReceipt src)]

theorem decodeTo_raises {dec : Memory → Cursor → Res Decoded} {src dst : RdSel} {s : State} {e : Status}
    (h : dec s.scr (s.reader src) = .error (.raised e)) : decodeTo dec src dst s = .next (raise e s) := by
  rw [decodeTo, h]
  rfl

theorem decodeOnly_raises {dec : Memory → Cursor → Res Decoded} {src : RdSel} {s : State} {e : Status}
    (h : dec s.scr (s.reader src) = .error (.raised e)) : decodeOnly dec src s = .next (raise e s) := by
  rw [decodeOnly, h]
  rfl

/-- A decoder command raises what its decoder raises, and moves no cursor (43_decode.md R131). -/
theorem exec_decoder_raises {src dst : RdSel} {s : State} {k : Kind} {i : Instr} {e : Status}
    (hi : (k, i) ∈ decoderCommands src dst) (h : decoderOf k s.scr (s.reader src) = .error (.raised e)) :
    exec i s = .next (raise e s) := by
  simp only [decoderCommands, List.mem_cons, List.not_mem_nil, or_false, Prod.mk.injEq] at hi
  rcases hi with ⟨rfl, rfl⟩ | ⟨rfl, rfl⟩ | ⟨rfl, rfl⟩ | ⟨rfl, rfl⟩ | ⟨rfl, rfl⟩ | ⟨rfl, rfl⟩ | ⟨rfl, rfl⟩ | ⟨rfl, rfl⟩
  iterate 6 exact decodeTo_raises h
  iterate 2 exact decodeOnly_raises h

/-- Every decoder starts with DecHeader of its kind, so it stops where DecHeader stops (43_decode.md R128). -/
theorem decoderOf_header_error {scr : Memory} {c : Cursor} {k : Kind} {x : Stop} (h : decHeader scr c k = .error x) :
    decoderOf k scr c = .error x := by
  cases k <;> exact bind_error.2 (.inl h)

/-- Every decoder stops with the first failure of the view (43_decode.md R131). -/
theorem decoderOf_fails {scr : Memory} {c : Cursor} {k : Kind} {bytes : List Byte} {e : Status} (hv : Views scr c bytes)
    (h : MsgFails k bytes e) : decoderOf k scr c = .error (.raised e) := by
  cases k with
  | commandMessage => exact decBody_fails (.inl rfl) hv h
  | commandResult => exact decBody_fails (.inr rfl) hv h
  | tmStatusMessage => exact decFour_fails (.inl rfl) hv h
  | tmEventMessage => exact decFour_fails (.inr rfl) hv h
  | addressPacket => exact decAddress_fails hv h
  | exchangePacket => exact decExchange_fails hv h
  | counterAdjustmentPacket => exact decCounter_fails (.inl rfl) hv h
  | receiptPacket => exact decCounter_fails (.inr rfl) hv h

/-! ### The code -/

/-- DecHeader compares the two bytes of the code before it reads anything behind them (43_decode.md R128). -/
theorem decHeader_otherCode {scr : Memory} {c : Cursor} {k : Kind} {b0 b1 : Byte} (hm : scr.Holds c.cur [b0, b1])
    (hs : c.cur + 2 ≤ c.stop) (h : [b0, b1] ≠ wireCode k) :
    decHeader scr c k = .error (.raised .invalidDataHeader) := by
  have hr : readN scr c 2 = .ok ([b0, b1], { c with cur := c.cur + 2 }) :=
    readN_holds hm hs
  unfold decHeader
  rw [hr, ok_bind]
  exact if_pos (beNat_ne_code h)

theorem decHeader_short {scr : Memory} {c : Cursor} {k : Kind} (h : c.stop < c.cur + 2) :
    decHeader scr c k = .error (.raised .unexpectedEndOfStream) := by
  unfold decHeader
  rw [readN_short (by unfold Cursor.avail; omega), error_bind]

/-! ### The values of an ExchangePacket -/

/-- A sequence that stops goes on stopping when what comes second stops wherever it did. -/
theorem bind_error_mono {α β γ : Type} {y : Res α} {f : α → Res β} {g : α → Res γ} {x : Stop}
    (h : (y >>= f) = .error x) (hfg : ∀ a, f a = .error x → g a = .error x) : (y >>= g) = .error x := by
  rcases bind_error.1 h with h | ⟨a, hy, hf⟩
  · exact bind_error.2 (.inl h)
  · exact bind_error.2 (.inr ⟨a, hy, hfg a hf⟩)

/-- What stands behind a whole ExchangePacket has no part in its failure: two source readers that give one body fail
alike (43_decode.md R128). -/
theorem decExchange_error_of_header {scr : Memory} {c c' b after after' : Cursor} {len : Nat} {x : Stop}
    (h : decHeader scr c .exchangePacket = .ok (len, b, after))
    (h' : decHeader scr c' .exchangePacket = .ok (len, b, after')) (he : decExchange scr c' = .error x) :
    decExchange scr c = .error x := by
  unfold decExchange at he ⊢
  rw [h', ok_bind] at he
  rw [h, ok_bind]
  refine bind_error_mono he fun _ he => bind_error_mono he fun w he => ?_
  dsimp only at he ⊢
  by_cases hw : w.1 > maxWindow
  · rwa [if_pos hw] at he ⊢
  · rw [if_neg hw] at he ⊢
    refine bind_error_mono he fun q he => ?_
    by_cases hq : q.1 > maxCounter
    · rwa [if_pos hq] at he ⊢
    · rw [if_neg hq] at he
      cases he

/-- DEC_EXCHANGE on a whole message whose body fails, whatever stands behind it (43_decode.md R129, R137). -/
theorem exec_decExchange_bodyFails {src : RdSel} {s : State} {body msg : List Byte} {e : Status} (dst : RdSel)
    (h : MsgForm .exchangePacket body msg) (hm : s.scr.Holds (s.reader src).cur msg)
    (hs : (s.reader src).cur + msg.length ≤ (s.reader src).stop) (hb : BodyFails .exchangePacket body e) :
    exec (.decExchange src dst) s = .next (raise e s) := by
  obtain ⟨p, -, hp, -, e1⟩ := decHeader_form h hm hs
  obtain ⟨q, -, hq, -, e2⟩ := decHeader_form
    (c := { s.reader src with stop := (s.reader src).cur + msg.length }) h hm (Nat.le_refl _)
  obtain rfl : p = q := by simp only [] at hq; omega
  exact decodeTo_raises (decExchange_error_of_header e1 e2 (decExchange_fails ⟨hm, rfl⟩ (h.fails hb)))

/-- A sequence of BER values comes apart where its list of values does (30_encoding.md R64). -/
theorem FieldsForm.split {vs ws : List Nat} : ∀ {bytes : List Byte}, FieldsForm bytes (vs ++ ws) →
    ∃ x y, bytes = x ++ y ∧ FieldsForm x vs ∧ FieldsForm y ws := by
  induction vs with
  | nil => exact fun h => ⟨[], _, rfl, rfl, h⟩
  | cons v vs ih =>
    rintro _ ⟨b, rest, rfl, hb, h⟩
    obtain ⟨x, y, rfl, hx, hy⟩ := ih h
    exact ⟨b ++ x, y, (List.append_assoc ..).symm, ⟨b, x, rfl, hb, hx⟩, hy⟩

/-- Values that pass their checks up to one that does not: the sequence fails there, whatever follows (43_decode.md
R131). -/
theorem fieldsFail_of_form {check : FieldCheck} {v : Nat} {e : Status} {vs : List Nat} {checks : List FieldCheck}
    (later : List FieldCheck) (more : List Byte) (hv : check v = some e)
    (hvs : List.Forall₂ (fun c v => c v = none) checks vs) :
    ∀ {bytes : List Byte}, FieldsForm bytes (vs ++ [v]) → FieldsFail (checks ++ check :: later) (bytes ++ more) e := by
  induction hvs with
  | nil =>
    rintro _ ⟨b, rest, rfl, hb, -⟩
    exact .inr ⟨b, v, rest ++ more, List.append_assoc .., hb, .inl hv⟩
  | cons hc _ ih =>
    rintro _ ⟨b, rest, rfl, hb, h⟩
    exact .inr ⟨b, _, rest ++ more, List.append_assoc .., hb, .inr ⟨hc, ih h⟩⟩

theorem oneOf_of_mem {legal : List Nat} {v : Nat} (e : Status) (h : v ∈ legal) : oneOf legal e v = none := if_pos h

theorem oneOf_of_not_mem {legal : List Nat} {v : Nat} (e : Status) (h : v ∉ legal) : oneOf legal e v = some e := if_neg h

theorem inRange_of_le {limit v : Nat} (e : Status) (h : v ≤ limit) : inRange limit e v = none := if_pos h

theorem inRange_of_lt {limit v : Nat} (e : Status) (h : limit < v) : inRange limit e v = some e :=
  if_neg (Nat.not_le.2 h)

/-- A packet whose header is good and whose trailer has room fails at the kind's field that does (43_decode.md R129). -/
theorem packetFails_of_fields {checks : List FieldCheck} {header more : List Byte} {rsv st n : Nat} {vs : List Nat}
    {e : Status} (hf : FieldsForm header ([rsv, st, n] ++ vs)) (hst : st ≤ 1) (hn : n = 1 ∨ n = 2)
    (hl : 2 * n ≤ more.length)
    (hfail : ∀ {fields : List Byte}, FieldsForm fields vs → ∀ extra, FieldsFail checks (fields ++ extra) e) :
    PacketFails checks (header ++ more) e := by
  obtain ⟨x, y, rfl, hx, hy⟩ := hf.split
  obtain ⟨ect, rfl, ht⟩ : ∃ ect, n = ectCode ect ∧ trailerSize ect = 2 * n := by
    rcases hn with rfl | rfl
    · exact ⟨.crc16, rfl, rfl⟩
    · exact ⟨.reedSolomon, rfl, rfl⟩
  refine .inr ⟨x, rsv, st, ect, y ++ more, List.append_assoc .., hst, hx, .inr
    ⟨y ++ more.take (more.length - trailerSize ect), more.drop (more.length - trailerSize ect), ?_, ?_, hfail hy _⟩⟩
  · rw [List.append_assoc, List.take_append_drop]
  · rw [List.length_drop]
    omega

/-! ### The statements -/

/-- Settles O38: the payload that `decBody_form` finds is the end of the message. -/
theorem decodesCommandMessages : Obligations.DecodesCommandMessages := by
  rintro src dst s body msg _ rfl hm hs
  exact ⟨fun h => decodeTo_body dst h hm hs, fun h => decodeTo_body dst h hm hs⟩

/-- Settles O39: the four numbers are read one after the other, and the parameters are what is left of the body. -/
theorem decodesTelemetryMessages : Obligations.DecodesTelemetryMessages := by
  rintro src dst s header params msg n1 n2 n3 n4 _ rfl hm hs hf
  exact ⟨fun h => decodeTo_four dst hf h hm hs, fun h => decodeTo_four dst hf h hm hs⟩

/-- Settles O40: `decAddress_form` takes the three address types apart. -/
theorem decodesAddressPackets : Obligations.DecodesAddressPackets := by
  rintro src dst s msg payload vals _ rfl hm hs h
  obtain ⟨body, q, p, hb, hlo, hp, -, e⟩ := decAddress_form h hm hs
  exact ⟨_, body, hb, rfl, decodeTo_reads dst e (by omega) hp⟩

/-- Settles O41: the trailer is cut off before the two values of the kind are read, and the payload is what is left. -/
theorem decodesExchangePackets : Obligations.DecodesExchangePackets := by
  rintro src dst s msg payload trailer rsv st ws seq _ ect rfl hm hs h hw hq
  obtain ⟨body, q, p, hb, hlo, hp, -, e⟩ := decExchange_form h hw hq hm hs
  rw [ectCode_eq_ite] at e
  exact ⟨_, body, hb, rfl, decodeTo_reads dst e (by omega) (by omega)⟩

/-- Settles O42: the bytes between the counter and the trailer are in the body and are not read. -/
theorem decodesCounterPackets : Obligations.DecodesCounterPackets := by
  rintro src s msg extra trailer rsv st ctr _ ect rfl hm hs hc
  exact ⟨fun h => decodeOnly_counter hc h hm hs, fun h => decodeOnly_counter hc h hm hs⟩

/-- Settles O43: DecHeader comes first in each decoder, and the code first in DecHeader. -/
theorem decodersCheckTheCodeFirst : Obligations.DecodersCheckTheCodeFirst := by
  intro src dst s b0 b1 k i hi
  exact ⟨fun hm hs hc => exec_decoder_raises hi (decoderOf_header_error (decHeader_otherCode hm hs hc)),
    fun hs => exec_decoder_raises hi (decoderOf_header_error (decHeader_short hs))⟩

/-- Settles O44: each premise places the body among those that `PacketFails` rejects, by the first value out of range. -/
theorem decExchangeChecksInByteOrder : Obligations.DecExchangeChecksInByteOrder := by
  intro src dst s msg header more rsv st e ws seq h hm hs
  have raises {x : Status} : BodyFails .exchangePacket (header ++ more) x → _ :=
    exec_decExchange_bodyFails dst h hm hs
  have stream (hst : st ≤ 1) : oneOf [0, 1] .invalidStreamType st = none :=
    oneOf_of_mem _ (by simp only [List.mem_cons, List.not_mem_nil, or_false]; omega)
  refine ⟨fun hf hst => raises (.inl ?_), fun hf hst h1 h2 => raises (.inl ?_),
    fun hf hst he hl hw => raises (packetFails_of_fields (vs := [ws]) hf hst he hl ?_),
    fun hf hst he hl hw hq => raises (packetFails_of_fields (vs := [ws, seq]) hf hst he hl ?_)⟩
  · have bad : oneOf [0, 1] .invalidStreamType st = some .invalidStreamType :=
      oneOf_of_not_mem _ (by simp only [List.mem_cons, List.not_mem_nil, or_false]; omega)
    exact fieldsFail_of_form (vs := [rsv]) (checks := [anyValue]) _ more bad (.cons rfl .nil) hf
  · have bad : oneOf [1, 2] .invalidErrorControlType e = some .invalidErrorControlType :=
      oneOf_of_not_mem _ (by simp only [List.mem_cons, List.not_mem_nil, or_false]; omega)
    exact fieldsFail_of_form (vs := [rsv, st]) (checks := [anyValue, _]) [] more bad
      (.cons rfl (.cons (stream hst) .nil)) hf
  · exact fun hw' extra => fieldsFail_of_form (vs := []) _ extra (inRange_of_lt _ hw) .nil hw'
  · exact fun hf' extra => fieldsFail_of_form (vs := [ws]) [] extra (inRange_of_lt _ hq)
      (.cons (inRange_of_le _ hw) .nil) hf'

/-- Settles O59: each decoder has one lemma that follows `MsgFails` clause by clause (`decBody_fails` to
`decCounter_fails`). -/
theorem decodersRaiseTheFirstFailure : Obligations.DecodersRaiseTheFirstFailure := by
  intro src dst s k i bytes e hi hm hs hf
  exact exec_decoder_raises hi (decoderOf_fails ⟨hm, hs⟩ hf)

end Sys2Proof.Machine
end

section
/-! PROOFS. The BEGIN commands and END_FRAME (44_encode.md §1 to §3): each BEGIN with values in range is Begin of its kind
and header, which opens the frame or raises. -/

namespace Sys2Proof.Machine

/-! ### Begin(K, H, T, ect) (44_encode.md R143, R144) -/

/-- With its values in range, the command is Begin of kind `k`, header `header` and the trailer of `ect` (44_encode.md
R143). -/
def Begins (i : Instr) (k : Kind) (header : List Byte) (ect : Option Ect) : Prop :=
  ∀ s : State, exec i s = conclude s (beginWith k header ect s)

theorem beginWith_deep {k : Kind} {header : List Byte} {ect : Option Ect} {s : State} (h : s.fstack.length = 4) :
    beginWith k header ect s = .error (.raised .frameStackError) := by
  unfold beginWith beginFrame
  simp only [fstackDepth]
  rw [if_pos h, error_bind]

theorem beginWith_full {k : Kind} {header : List Byte} {ect : Option Ect} {s : State} (hd : s.fstack.length < 4)
    (hs : s.w0.avail < 3 + header.length + frameTrailer ect) :
    beginWith k header ect s = .error (.raised .notEnoughSpace) := by
  unfold beginWith beginFrame
  simp only [frameTrailer_eq, fstackDepth]
  rw [if_neg (by omega), if_pos hs, error_bind]

section Begins

variable {i : Instr} {k : Kind} {header : List Byte} {ect : Option Ect} {s : State}

theorem Begins.opensFrame (h : Begins i k header ect) (hd : s.fstack.length < 4)
    (hs : s.w0.cur + 3 + header.length + frameTrailer ect ≤ s.w0.stop) : OpensFrame i k header ect s := by
  refine ⟨memWrite s.asm s.w0.cur (wireCode k ++ [0x00] ++ header), memWrite_stores _ _ _, ?_⟩
  rw [h s, beginWith_opens hd (by unfold Cursor.avail; omega), conclude_ok, State.opened, codeBytes_wire]

theorem Begins.exec_deep (h : Begins i k header ect) (hd : s.fstack.length = 4) :
    exec i s = .next (raise .frameStackError s) := by
  rw [h s, beginWith_deep hd, conclude_raised]

theorem Begins.exec_full (h : Begins i k header ect) (hd : s.fstack.length < 4)
    (hs : s.w0.stop < s.w0.cur + 3 + header.length + frameTrailer ect) :
    exec i s = .next (raise .notEnoughSpace s) := by
  rw [h s, beginWith_full hd (by unfold Cursor.avail; omega), conclude_raised]

end Begins

/-! ### The kinds with a DataHeader (44_encode.md R145 to R149) -/

theorem begins_cmdmsg : Begins .beginCmdmsg .commandMessage [] none := fun _ => rfl

theorem begins_cmdresult : Begins .beginCmdresult .commandResult [] none := fun _ => rfl

/-- Four minimal forms one after the other, as BEGIN_TMSTATUS and BEGIN_TMEVENT join them. -/
theorem flatten_berMin_four (a b c d : Nat) :
    ([a, b, c, d].map berMin).flatten = berMin a ++ berMin b ++ berMin c ++ berMin d := by
  simp

theorem begins_tmstatus (a b c d : U64) : Begins (.beginTmstatus a b c d) .tmStatusMessage
    ([a.toNat, b.toNat, c.toNat, d.toNat].map berMin).flatten none := by
  rw [flatten_berMin_four]
  exact fun _ => rfl

theorem begins_tmevent (a b c d : U64) : Begins (.beginTmevent a b c d) .tmEventMessage
    ([a.toNat, b.toNat, c.toNat, d.toNat].map berMin).flatten none := by
  rw [flatten_berMin_four]
  exact fun _ => rfl

theorem u64_address {a : U64} (h : a = 3 ∨ a = 4 ∨ a = 6) : a.toNat = 3 ∨ a.toNat = 4 ∨ a.toNat = 6 := by
  rcases h with rfl | rfl | rfl <;> decide

theorem begins_address {a : U64} (b c d e f g h j : U64) (ha : a = 3 ∨ a = 4 ∨ a = 6) :
    Begins (.beginAddress a b c d e f g h j) .addressPacket
      ((addressFields a.toNat b.toNat c.toNat d.toNat e.toNat f.toNat g.toNat h.toNat j.toNat).map berMin).flatten
      none := by
  intro s
  show execBeginAddress a b c d e f g h j s = _
  rw [execBeginAddress, addressTypeLegal_of (u64_address ha), if_neg (by decide), addressHeader_fields]

/-! ### The kinds with a PacketHeader (44_encode.md R150 to R152) -/

/-- The check of streamType and errorControlType passes legal values, the latter given by its code. -/
theorem checkStreamEct_code {st : U64} (h : st = 0 ∨ st = 1) (x : Ect) (k : Ect → Res State) :
    checkStreamEct st.toNat (BitVec.ofNat 64 (ectCode x)).toNat k = k x :=
  checkStreamEct_legal h (by cases x <;> decide) k

/-- reserved = 1, streamType and errorControlType have one byte each. -/
theorem pktHeader_bytes {st : U64} (h : st = 0 ∨ st = 1) (x : Ect) :
    pktHeader st.toNat x = [0x01] ++ [st.setWidth 8] ++ [(BitVec.ofNat 64 (ectCode x)).setWidth 8] := by
  rcases h with rfl | rfl <;> cases x <;> decide

theorem flatten_packetFields (st : Nat) (x : Ect) (vals : List Nat) :
    ((1 :: st :: ectCode x :: vals).map berMin).flatten = pktHeader st x ++ (vals.map berMin).flatten := by
  simp [pktHeader]

theorem flatten_berMin_one (a : Nat) : ([a].map berMin).flatten = berMin a := by simp

theorem flatten_berMin_two (a b : Nat) : ([a, b].map berMin).flatten = berMin a ++ berMin b := by simp

theorem begins_exchange {st ws seq : U64} (x : Ect) (hst : st = 0 ∨ st = 1) (hw : ws.toNat ≤ maxWindow)
    (hq : seq.toNat ≤ maxCounter) : Begins (.beginExchange st (BitVec.ofNat 64 (ectCode x)) ws seq) .exchangePacket
      ([1, st.toNat, ectCode x, ws.toNat, seq.toNat].map berMin).flatten (some x) := by
  intro s
  show execBeginExchange st (BitVec.ofNat 64 (ectCode x)) ws seq s = _
  rw [execBeginExchange, checkStreamEct_code hst, if_neg (Nat.not_lt.2 hw), if_neg (Nat.not_lt.2 hq),
    flatten_packetFields, flatten_berMin_two, List.append_assoc]

theorem begins_counteradj {st ctr : U64} (x : Ect) (hst : st = 0 ∨ st = 1) (hc : ctr.toNat ≤ maxCounter) :
    Begins (.beginCounteradj st (BitVec.ofNat 64 (ectCode x)) ctr) .counterAdjustmentPacket
      ([1, st.toNat, ectCode x, ctr.toNat].map berMin).flatten (some x) := by
  intro s
  show execBeginCounteradj st (BitVec.ofNat 64 (ectCode x)) ctr s = _
  rw [execBeginCounteradj, checkStreamEct_code hst, if_neg (Nat.not_lt.2 hc), flatten_packetFields,
    flatten_berMin_one]

theorem begins_receipt {st last : U64} (x : Ect) (hst : st = 0 ∨ st = 1) (hc : last.toNat ≤ maxCounter) :
    Begins (.beginReceipt st (BitVec.ofNat 64 (ectCode x)) last) .receiptPacket
      ([1, st.toNat, ectCode x, last.toNat].map berMin).flatten (some x) := by
  intro s
  show execBeginReceipt st (BitVec.ofNat 64 (ectCode x)) last s = _
  rw [execBeginReceipt, checkStreamEct_code hst, if_neg (Nat.not_lt.2 hc), flatten_packetFields,
    flatten_berMin_one]

/-- A BEGIN command with its values in range is Begin of some kind. -/
theorem BeginForm.begins {i : Instr} {header : List Byte} {ect : Option Ect} (h : BeginForm i header ect) :
    ∃ k, Begins i k header ect := by
  rcases h with ⟨rfl | rfl, rfl, rfl⟩ | ⟨a, b, c, d, rfl | rfl, rfl, rfl⟩ | ⟨a, b, c, d, e, f, g, h, j, rfl, ha, rfl, rfl⟩ |
    ⟨st, ws, seq, x, rfl, hst, hw, hq, rfl, rfl⟩ | ⟨st, ctr, x, rfl | rfl, hst, hc, rfl, rfl⟩
  · exact ⟨_, begins_cmdmsg⟩
  · exact ⟨_, begins_cmdresult⟩
  · exact ⟨_, begins_tmstatus a b c d⟩
  · exact ⟨_, begins_tmevent a b c d⟩
  · exact ⟨_, begins_address b c d e f g h j ha⟩
  · exact ⟨_, begins_exchange x hst hw hq⟩
  · exact ⟨_, begins_counteradj x hst hc⟩
  · exact ⟨_, begins_receipt x hst hc⟩

/-! ### Values out of range (44_encode.md R144) -/

theorem checkStreamEct_badStream {st : U64} (h0 : st ≠ 0) (h1 : st ≠ 1) (e : Nat) (k : Ect → Res State) :
    checkStreamEct st.toNat e k = .error (.raised .invalidStreamType) := by
  have h : ¬ st.toNat ≤ 1 := by bv_omega
  exact if_pos (Bool.eq_false_iff.2 (mt (streamTypeLegal_iff _).1 h))

theorem checkStreamEct_badEct {st e : U64} (h : st = 0 ∨ st = 1) (h1 : e ≠ 1) (h2 : e ≠ 2) (k : Ect → Res State) :
    checkStreamEct st.toNat e.toNat k = .error (.raised .invalidErrorControlType) := by
  have hst : streamTypeLegal st.toNat = true := by rcases h with rfl | rfl <;> rfl
  have he : ectOf e.toNat = none := by
    unfold ectOf
    split
    · bv_omega
    · bv_omega
    · rfl
  unfold checkStreamEct
  rw [hst, if_neg (by decide), he]

/-- A legal errorControlType is the code of one of the two. -/
theorem exists_ectCode {e : U64} (h : e = 1 ∨ e = 2) : ∃ x, e = BitVec.ofNat 64 (ectCode x) := by
  rcases h with rfl | rfl
  · exact ⟨.crc16, rfl⟩
  · exact ⟨.reedSolomon, rfl⟩

theorem exec_beginAddress_illegal {a : U64} (b c d e f g h j : U64) (s : State) (h3 : a ≠ 3) (h4 : a ≠ 4) (h6 : a ≠ 6) :
    exec (.beginAddress a b c d e f g h j) s = .next (raise .invalidAddressType s) := by
  have hl : addressTypeLegal a.toNat = false := by
    simp only [addressTypeLegal, Bool.or_eq_false_iff, decide_eq_false_iff_not]
    bv_omega
  show execBeginAddress a b c d e f g h j s = _
  rw [execBeginAddress, if_pos hl, conclude_raised]

section PacketChecks

variable {s : State} {st e : U64} {k : Ect → Res State}

theorem conclude_badStream (h0 : st ≠ 0) (h1 : st ≠ 1) :
    conclude s (checkStreamEct st.toNat e.toNat k) = .next (raise .invalidStreamType s) := by
  rw [checkStreamEct_badStream h0 h1, conclude_raised]

theorem conclude_badEct (h : st = 0 ∨ st = 1) (h1 : e ≠ 1) (h2 : e ≠ 2) :
    conclude s (checkStreamEct st.toNat e.toNat k) = .next (raise .invalidErrorControlType s) := by
  rw [checkStreamEct_badEct h h1 h2, conclude_raised]

/-- With both legal, what the kind's own checks raise is raised. -/
theorem conclude_badField {x : Status} (h : st = 0 ∨ st = 1) (he : e = 1 ∨ e = 2)
    (hk : ∀ ect, k ect = .error (.raised x)) :
    conclude s (checkStreamEct st.toNat e.toNat k) = .next (raise x s) := by
  obtain ⟨ect, rfl⟩ := exists_ectCode he
  rw [checkStreamEct_code h, hk, conclude_raised]

end PacketChecks

/-! ### END_FRAME (44_encode.md R153) -/

theorem exec_endFrame_none {s : State} (h : s.fstack = []) : exec .endFrame s = .next (raise .frameStackError s) := by
  show execEndFrame s = _
  rw [execEndFrame, h]
  rfl

/-- END_FRAME with a frame open: the two size checks, then the frame is closed. -/
theorem exec_endFrame_open {s : State} {e : FrameEntry} {rest : List FrameEntry} {len : Nat} (h : s.fstack = e :: rest)
    (hl : len = (s.w0.cur - e.bodyStart) + e.trailer) :
    exec .endFrame s = conclude s (
      if s.cfg.maxPacket < 2 + (berMin len).length + len then
        .ok (finish .frameTooLarge [] [] [] (abortFrame e rest s))
      else if e.savedEnd < s.w0.cur + ((berMin len).length - 1) + e.trailer then
        .ok (finish .notEnoughSpace [] [] [] (abortFrame e rest s))
      else closeFrame e rest (berMin len) (2 + (berMin len).length + len) s) := by
  show execEndFrame s = _
  rw [execEndFrame, h, hl]

/-- The trailer behind the bytes of a frame: none for a kind with a DataHeader, else TrailerFn of them (44_encode.md
R153). -/
def frameTail (u : TrailerUnit) (ect : Option Ect) (bytes : List Byte) : List Byte :=
  match ect with
  | none => []
  | some x => trailerFn u x bytes

theorem frameTail_length (u : TrailerUnit) (ect : Option Ect) (bytes : List Byte) :
    (frameTail u ect bytes).length = frameTrailer ect := by
  cases ect with
  | none => rfl
  | some x => rw [frameTail, trailerFn_length]; cases x <;> rfl

/-! ### The statements -/

/-- Settles O49: the two size checks of END_FRAME come before it moves a byte. -/
theorem endFrameDropsWhatDoesNotFit : Obligations.EndFrameDropsWhatDoesNotFit := by
  refine ⟨?_, fun s => exec_endFrame_none⟩
  rintro s e rest len _ hf hl rfl
  rw [exec_endFrame_open hf hl]
  refine ⟨fun hbig => ?_, fun hfit hfull => ?_⟩
  · rw [if_pos hbig, conclude_ok]
    rfl
  · rw [if_neg (by omega), if_pos hfull, conclude_ok]
    rfl

/-- Settles O45: each of the five commands is Begin of its kind, and none has a trailer. -/
theorem beginsDataHeaderFrames : Obligations.BeginsDataHeaderFrames := by
  intro s a b c d e f g h j hd
  refine ⟨fun hs => ⟨?_, ?_⟩, ?_, ?_⟩
  · exact begins_cmdmsg.opensFrame hd hs
  · exact begins_cmdresult.opensFrame hd hs
  · rintro _ rfl hs
    rw [← flatten_berMin_four] at hs ⊢
    exact ⟨(begins_tmstatus a b c d).opensFrame hd hs, (begins_tmevent a b c d).opensFrame hd hs⟩
  · rintro _ rfl ha hs
    exact (begins_address b c d e f g h j ha).opensFrame hd hs

/-- Settles O46: reserved, streamType and errorControlType have one byte each, and the trailer twice the latter's code. -/
theorem beginsPacketHeaderFrames : Obligations.BeginsPacketHeaderFrames := by
  intro s st e ws ctr ect hd hst he hc
  obtain ⟨rfl, hsize⟩ : e = BitVec.ofNat 64 (ectCode ect) ∧ 2 * e.toNat = frameTrailer (some ect) := by
    rcases he with ⟨rfl, rfl⟩ | ⟨rfl, rfl⟩ <;> exact ⟨rfl, rfl⟩
  refine ⟨?_, ?_⟩
  · rintro _ rfl hw hs
    rw [hsize, ← pktHeader_bytes hst, List.append_assoc, ← flatten_berMin_two, ← flatten_packetFields] at hs
    rw [← pktHeader_bytes hst, List.append_assoc, ← flatten_berMin_two, ← flatten_packetFields]
    exact (begins_exchange ect hst hw hc).opensFrame hd hs
  · rintro _ rfl hs
    rw [hsize, ← pktHeader_bytes hst, ← flatten_berMin_one, ← flatten_packetFields] at hs
    rw [← pktHeader_bytes hst, ← flatten_berMin_one, ← flatten_packetFields]
    exact ⟨(begins_counteradj ect hst hc).opensFrame hd hs, (begins_receipt ect hst hc).opensFrame hd hs⟩

/-- Settles O47: the value checks stand in front of Begin, which checks the frame stack before the space. -/
theorem beginChecksInOrder : Obligations.BeginChecksInOrder := by
  intro s a b c d e f g h j st ect ws seq ctr
  refine ⟨exec_beginAddress_illegal b c d e f g h j s, conclude_badStream, conclude_badEct, fun hst he hw => ?_,
    fun hst he hw hq => ?_, ?_, ?_⟩
  · exact conclude_badField hst he fun _ => if_pos hw
  · exact conclude_badField hst he fun _ => (if_neg (Nat.not_lt.2 hw)).trans (if_pos hq)
  · rintro i (rfl | rfl)
    · exact ⟨conclude_badStream, conclude_badEct, fun hst he hc => conclude_badField hst he fun _ => if_pos hc⟩
    · exact ⟨conclude_badStream, conclude_badEct, fun hst he hc => conclude_badField hst he fun _ => if_pos hc⟩
  · intro i header x hi
    obtain ⟨k, hk⟩ := hi.begins
    exact ⟨hk.exec_deep, hk.exec_full⟩

/-- Settles O48: `closeFrame_form` gives what is stored; the size checks pass. -/
theorem endFrameClosesTheNewest : Obligations.EndFrameClosesTheNewest := by
  intro s e rest c0 c1 body tr len hf hb htr hc hbody hcur hlen hmax hfit hnone hsome
  have hpos := berMin_length_pos len
  obtain ⟨m, hm, hclose⟩ := closeFrame_form (rest := rest) (n := 2 + (berMin len).length + len) hb hc hbody hcur hpos
  obtain rfl : tr = frameTail s.cfg.trailer e.ect ([c0, c1] ++ berMin len ++ body) := by
    cases he : e.ect with
    | none => exact hnone he
    | some x => exact hsome x he
  refine ⟨m, hm, ?_⟩
  rw [exec_endFrame_open (len := len) hf (by omega), if_neg (by omega), if_neg (by omega), hclose, conclude_ok,
    show s.w0.cur + ((berMin len).length - 1) + e.trailer = e.start + 2 + (berMin len).length + len by omega]

end Sys2Proof.Machine
end

section
/-! PROOFS. The frame round trip (44_encode.md R155): the frame BEGIN, WR_BYTES and END_FRAME leave in ASM is the message
of its kind, and the kind's decoder reads a message back (43_decode.md R130). -/

namespace Sys2Proof.Machine

/-! ### The frame built -/

/-- The declared length of a frame: header fields, body and trailer (30_encoding.md R65, R66). -/
def bodyLength (header body : List Byte) (ect : Option Ect) : Nat := header.length + body.length + frameTrailer ect

/-- The frame before its trailer: code, minimal length, header fields and body (44_encode.md R153). -/
def untrailed (k : Kind) (header body : List Byte) (ect : Option Ect) : List Byte :=
  wireCode k ++ berMin (bodyLength header body ect) ++ (header ++ body)

/-- The frame that BEGIN of kind `k` with `header`, WR_BYTES of `body` and END_FRAME build. -/
def builtFrame (u : TrailerUnit) (k : Kind) (header body : List Byte) (ect : Option Ect) : List Byte :=
  untrailed k header body ect ++ frameTail u ect (untrailed k header body ect)

section Frames

variable (u : TrailerUnit) (k : Kind) (header body : List Byte) (ect : Option Ect)

theorem builtFrame_length : (builtFrame u k header body ect).length =
    2 + (berMin (bodyLength header body ect)).length + bodyLength header body ect := by
  simp only [builtFrame, untrailed, bodyLength, List.length_append, wireCode_length, frameTail_length]
  omega

theorem builtFrame_take : (builtFrame u k header body ect).take
    ((builtFrame u k header body ect).length - frameTrailer ect) = untrailed k header body ect := by
  rw [builtFrame, List.length_append, frameTail_length, Nat.add_sub_cancel, List.take_left]

end Frames

/-- The built frame is a message of its kind, its declared length minimal (30_encoding.md R61, R65). -/
theorem builtFrame_msgForm {u : TrailerUnit} {k : Kind} {header body : List Byte} {ect : Option Ect}
    (h : bodyLength header body ect < 2 ^ 64) :
    MsgForm k (header ++ body ++ frameTail u ect (untrailed k header body ect)) (builtFrame u k header body ect) := by
  refine ⟨berMin (bodyLength header body ect), ?_, ?_⟩
  · have hl : (header ++ body ++ frameTail u ect (untrailed k header body ect)).length = bodyLength header body ect := by
      rw [List.length_append, List.length_append, frameTail_length, bodyLength]
    rw [hl]
    exact berForm_berMin h
  · rw [builtFrame, untrailed, List.append_assoc (wireCode k ++ _)]

theorem wireCode_two (k : Kind) : ∃ c0 c1, wireCode k = [c0, c1] := by cases k <;> exact ⟨_, _, rfl⟩

/-- BEGIN and WR_BYTES with room for both leave the frame open: code, header and body stand in ASM (44_encode.md R143). -/
theorem exec_openFrame {i : Instr} {k : Kind} {header body : List Byte} {ect : Option Ect} {s : State}
    (hi : Begins i k header ect) (hd : s.fstack.length < 4)
    (hroom : s.w0.cur + 3 + header.length + body.length + frameTrailer ect ≤ s.w0.stop) :
    ∃ t u, exec i s = .next t ∧ exec (.wrBytes body) t = .next u ∧ u.cfg = s.cfg ∧
      u.fstack = ⟨k, s.w0.cur, s.w0.cur + 3, s.w0.stop, frameTrailer ect, ect⟩ :: s.fstack ∧
      u.w0.start = s.w0.start ∧ u.w0.cur = s.w0.cur + 3 + (header ++ body).length ∧
      u.asm.Holds s.w0.cur (wireCode k) ∧ u.asm.Holds (s.w0.cur + 3) (header ++ body) := by
  obtain ⟨m, hm, e⟩ := hi.opensFrame hd (by omega)
  have hopen := hm.holds
  rw [List.append_assoc, Memory.Holds.append, Memory.Holds.append, wireCode_length] at hopen
  obtain ⟨hcode, -, hheader⟩ := hopen
  generalize ht : finish .ok [] [] [] { s with
    asm := m
    w0 := { s.w0 with cur := s.w0.cur + 3 + header.length, stop := s.w0.stop - frameTrailer ect }
    fstack := ⟨k, s.w0.cur, s.w0.cur + 3, s.w0.stop, frameTrailer ect, ect⟩ :: s.fstack } = t at e
  obtain rfl : m = t.asm := congrArg State.asm ht
  have hw0 : t.w0 = ⟨s.w0.start, s.w0.cur + 3 + header.length, s.w0.stop - frameTrailer ect⟩ :=
    (congrArg State.w0 ht).symm
  obtain ⟨m', hm', e'⟩ := writesAtW0_of_fits (i := .wrBytes body) (bytes := body) (s := t) rfl
    (by rw [hw0]; simp only [Cursor.avail]; omega)
  simp only [hw0] at hm' e'
  refine ⟨t, _, e, e', (congrArg State.cfg ht).symm, (congrArg State.fstack ht).symm, rfl, ?_, ?_, ?_⟩
  · rw [List.length_append, ← Nat.add_assoc]
    rfl
  · exact hm'.holds_other hcode (.inl (by rw [wireCode_length]; omega))
  · exact Memory.Holds.append.2 ⟨hm'.holds_other hheader (.inl (Nat.le_refl _)), hm'.holds⟩

/-- BEGIN, WR_BYTES and END_FRAME on an empty writer with room leave the built frame, closed, as all that is assembled
(44_encode.md R143, R153). -/
theorem execAll_buildFrame {i : Instr} {k : Kind} {header : List Byte} {ect : Option Ect} {s : State} (body : List Byte)
    (hi : Begins i k header ect) (hf : s.fstack = []) (hw : s.w0.start = s.w0.cur)
    (hroom : s.w0.cur + s.cfg.maxPacket ≤ s.w0.stop)
    (hmax : (builtFrame s.cfg.trailer k header body ect).length ≤ s.cfg.maxPacket) :
    ∃ t, execAll [i, .wrBytes body, .endFrame] s = .next t ∧ t.fstack = [] ∧ t.cfg = s.cfg ∧
      t.assembled = .ok (builtFrame s.cfg.trailer k header body ect) := by
  have hlen := builtFrame_length s.cfg.trailer k header body ect
  have hpos := berMin_length_pos (bodyLength header body ect)
  have hbl : bodyLength header body ect = (header ++ body).length + frameTrailer ect := by
    rw [List.length_append, bodyLength]
  have happ : (header ++ body).length = header.length + body.length := List.length_append
  obtain ⟨t, u, e1, e2, hcfg, hstack, hstart, hcur, hcode, hbody⟩ :=
    exec_openFrame (body := body) hi (by rw [hf]; decide) (by omega)
  obtain ⟨c0, c1, hk⟩ := wireCode_two k
  rw [hk] at hcode
  obtain ⟨m, hm, e3⟩ := endFrameClosesTheNewest u _ _ c0 c1 (header ++ body)
    (frameTail s.cfg.trailer ect (untrailed k header body ect)) (bodyLength header body ect) hstack rfl rfl hcode hbody
    hcur hbl (by rw [hcfg]; omega) (by dsimp only; omega) (fun h => by subst h; rfl)
    (fun x h => by subst h; rw [untrailed, hk, hcfg]; rfl)
  rw [← hk] at hm
  refine ⟨_, (execAll_cons e1).trans ((execAll_cons e2).trans (execAll_cons e3)), hf, hcfg, ?_⟩
  refine assembled_of_holds ?_ ?_
  · show m.Holds u.w0.start _
    rw [hstart, hw]
    exact hm.holds
  · show s.w0.cur + 2 + _ + _ = u.w0.start + _
    rw [hstart, hw, hlen]
    omega

/-! ### Decoders on a built frame -/

/-- On a message of kind `k` whose body is `header`, any payload and the trailer of `ect`, the decoder command reports the
length, `vals` and the trailer, and views the payload (43_decode.md R130). -/
def ReadsBack (dec : Instr) (src dst : RdSel) (k : Kind) (header : List Byte) (vals : List Nat) (ect : Option Ect) :
    Prop :=
  ∀ (s : State) (payload tail msg : List Byte), tail.length = frameTrailer ect →
    MsgForm k (header ++ payload ++ tail) msg → s.scr.Holds (s.reader src).cur msg →
    (s.reader src).cur + msg.length ≤ (s.reader src).stop →
    exec dec s = .next (finish .ok ((header ++ payload ++ tail).length :: vals) tail [] (s.decoded src dst msg.length
      ((s.reader src).cur + (msg.length - tail.length - payload.length)) ((s.reader src).cur + (msg.length - tail.length))))

/-- For a kind without a trailer it is enough to read the message that ends with its payload. -/
theorem readsBack_of_untrailed {dec : Instr} {src dst : RdSel} {k : Kind} {header : List Byte} {vals : List Nat}
    (h : ∀ (s : State) (payload msg : List Byte), MsgForm k (header ++ payload) msg →
      s.scr.Holds (s.reader src).cur msg → (s.reader src).cur + msg.length ≤ (s.reader src).stop →
      exec dec s = .next (finish .ok ((header ++ payload).length :: vals) [] [] (s.decoded src dst msg.length
        ((s.reader src).cur + (msg.length - payload.length)) ((s.reader src).cur + msg.length)))) :
    ReadsBack dec src dst k header vals none := by
  intro s payload tail msg ht hmsg hm hs
  obtain rfl : tail = [] := List.eq_nil_of_length_eq_zero ht
  rw [List.append_nil] at hmsg ⊢
  exact h s payload msg hmsg hm hs

/-- The minimal forms of V elements make a sequence of BER values (30_encoding.md R55, R61). -/
theorem fieldsForm_u64 (vs : List U64) : FieldsForm ((vs.map (·.toNat)).map berMin).flatten (vs.map (·.toNat)) :=
  fieldsForm_berMin fun _ hv => by
    obtain ⟨x, -, rfl⟩ := List.mem_map.1 hv
    exact x.isLt

section Decoders

variable (src dst : RdSel)

theorem readsBack_cmdmsg : ReadsBack (.decCmdmsg src dst) src dst .commandMessage [] [] none :=
  readsBack_of_untrailed fun s payload msg h hm hs => (decodesCommandMessages src dst s payload msg _ rfl hm hs).1 h

theorem readsBack_cmdresult : ReadsBack (.decCmdresult src dst) src dst .commandResult [] [] none :=
  readsBack_of_untrailed fun s payload msg h hm hs => (decodesCommandMessages src dst s payload msg _ rfl hm hs).2 h

variable {header : List Byte}

theorem readsBack_tmstatus {a b c d : Nat} (hf : FieldsForm header [a, b, c, d]) :
    ReadsBack (.decTmstatus src dst) src dst .tmStatusMessage header [a, b, c, d] none := by
  refine readsBack_of_untrailed fun s payload msg h hm hs => ?_
  rw [List.length_append]
  exact (decodesTelemetryMessages src dst s header payload msg a b c d _ rfl hm hs hf).1 h

theorem readsBack_tmevent {a b c d : Nat} (hf : FieldsForm header [a, b, c, d]) :
    ReadsBack (.decTmevent src dst) src dst .tmEventMessage header [a, b, c, d] none := by
  refine readsBack_of_untrailed fun s payload msg h hm hs => ?_
  rw [List.length_append]
  exact (decodesTelemetryMessages src dst s header payload msg a b c d _ rfl hm hs hf).2 h

theorem readsBack_address {at_ a b c da sg dg tst ts : Nat} (hat : at_ = 3 ∨ at_ = 4 ∨ at_ = 6) (h3 : at_ = 3 → da = 0)
    (h6 : at_ ≠ 6 → sg = 0 ∧ dg = 0) (hf : FieldsForm header (addressFields at_ a b c da sg dg tst ts)) :
    ReadsBack (.decAddress src dst) src dst .addressPacket header [at_, a, b, c, da, sg, dg, tst, ts] none := by
  refine readsBack_of_untrailed fun s payload msg h hm hs => ?_
  obtain ⟨_, body, hb, rfl, e⟩ := decodesAddressPackets src dst s msg payload _ _ rfl hm hs
    ⟨at_, a, b, c, da, sg, dg, tst, ts, header, hat, h3, h6, rfl, hf, h⟩
  rw [e, hb.body_unique h]

/-- The values given to BEGIN_ADDRESS: those that the type does not carry come back as 0. -/
theorem readsBack_beginAddress {a : U64} (b c d e f g h j : U64) (ha : a = 3 ∨ a = 4 ∨ a = 6) :
    ReadsBack (.decAddress src dst) src dst .addressPacket
      ((addressFields a.toNat b.toNat c.toNat d.toNat e.toNat f.toNat g.toNat h.toNat j.toNat).map berMin).flatten
      [a.toNat, b.toNat, c.toNat, d.toNat, if a = 3 then 0 else e.toNat, if a = 6 then f.toNat else 0,
        if a = 6 then g.toNat else 0, h.toNat, j.toNat] none := by
  rcases ha with rfl | rfl | rfl
  · exact readsBack_address src dst (.inl rfl) (fun _ => rfl) (fun _ => ⟨rfl, rfl⟩) (fieldsForm_u64 [3, b, c, d, h, j])
  · exact readsBack_address src dst (.inr (.inl rfl)) (fun h3 => absurd h3 (by decide)) (fun _ => ⟨rfl, rfl⟩)
      (fieldsForm_u64 [4, b, c, d, e, h, j])
  · exact readsBack_address src dst (.inr (.inr rfl)) (fun h3 => absurd h3 (by decide))
      (fun h6 => absurd rfl h6) (fieldsForm_u64 [6, b, c, d, e, f, g, h, j])

theorem readsBack_exchange {st ws seq : Nat} (x : Ect) (hst : st ≤ 1) (hw : ws ≤ 32767) (hq : seq ≤ 65535)
    (hf : FieldsForm header [1, st, ectCode x, ws, seq]) :
    ReadsBack (.decExchange src dst) src dst .exchangePacket header [1, st, ectCode x, ws, seq] (some x) := by
  intro s payload tail msg ht h hm hs
  have htail : tail.length = trailerSize x := ht.trans (frameTrailer_eq (some x)).symm
  obtain ⟨_, body, hb, rfl, e⟩ := decodesExchangePackets src dst s msg payload tail 1 st ws seq _ x rfl hm hs
    ⟨header, hst, hf, htail, h⟩ hw hq
  rw [e, hb.body_unique h, ectCode_eq_ite]

/-- The values given to BEGIN_EXCHANGE, with reserved = 1. -/
theorem readsBack_beginExchange {st ws seq : U64} (x : Ect) (hst : st = 0 ∨ st = 1) (hw : ws.toNat ≤ 32767)
    (hq : seq.toNat ≤ 65535) : ReadsBack (.decExchange src dst) src dst .exchangePacket
      ([1, st.toNat, ectCode x, ws.toNat, seq.toNat].map berMin).flatten
      [1, st.toNat, ectCode x, ws.toNat, seq.toNat] (some x) := by
  have hle : st.toNat ≤ 1 := by rcases hst with rfl | rfl <;> decide
  refine readsBack_exchange src dst x hle hw hq ?_
  cases x with
  | crc16 => exact fieldsForm_u64 [1, st, 1, ws, seq]
  | reedSolomon => exact fieldsForm_u64 [1, st, 2, ws, seq]

end Decoders

/-- The payload of a message in a buffer, found from the message's end. -/
theorem Memory.Holds.payload {m : Memory} {i : Nat} {k : Kind} {header payload tail msg : List Byte}
    (h : MsgForm k (header ++ payload ++ tail) msg) (hm : m.Holds i msg) :
    m.Holds (i + (msg.length - tail.length - payload.length)) payload := by
  obtain ⟨len, -, rfl⟩ := h
  have hsplit : wireCode k ++ len ++ (header ++ payload ++ tail) = (wireCode k ++ len ++ header) ++ payload ++ tail := by
    simp only [List.append_assoc]
  rw [hsplit] at hm ⊢
  obtain ⟨hm, -⟩ := Memory.Holds.append.1 hm
  obtain ⟨-, hm⟩ := Memory.Holds.append.1 hm
  rwa [List.length_append, Nat.add_sub_cancel, List.length_append, Nat.add_sub_cancel]

/-- A state with a frame in SCR from cell 0 on and R0 over it: the matching decoder command reads it back. -/
theorem exec_decoder_builtFrame {dec : Instr} {k : Kind} {header body : List Byte} {vals : List Nat} {ect : Option Ect}
    {u : TrailerUnit} {s : State} (hd : ReadsBack dec .r0 .r1 k header vals ect)
    (h64 : bodyLength header body ect < 2 ^ 64) (hm : s.scr.Holds 0 (builtFrame u k header body ect))
    (hr : s.r0 = ⟨0, 0, (builtFrame u k header body ect).length⟩) :
    ∃ v, exec dec s = .next v ∧ v.resp = some ⟨.ok, bodyLength header body ect :: vals,
        frameTail u ect (untrailed k header body ect), []⟩ ∧
      v.scr.Holds v.r1.cur body ∧ v.r1.stop = v.r1.cur + body.length := by
  have hform := builtFrame_msgForm (u := u) (k := k) h64
  have hcur : (s.reader .r0).cur = 0 := congrArg Cursor.cur hr
  have hstop : (s.reader .r0).stop = (builtFrame u k header body ect).length := congrArg Cursor.stop hr
  have hlen := builtFrame_length u k header body ect
  have htail := frameTail_length u ect (untrailed k header body ect)
  have e := hd s body _ _ htail hform (by rwa [hcur]) (by omega)
  rw [hcur] at e
  refine ⟨_, e, ?_, hm.payload hform, ?_⟩
  · rw [finish_resp, List.length_append, List.length_append, htail]
    rfl
  · show 0 + _ = 0 + _ + _
    rw [htail, hlen, bodyLength]
    omega

/-- The whole round trip of a frame whose BEGIN is Begin of `k` and `header` and whose decoder reads it back. -/
theorem frame_roundTrip {begin_ dec : Instr} {k : Kind} {header : List Byte} {vals : List Nat} {ect : Option Ect}
    {s : State} (body : List Byte) (hi : Begins begin_ k header ect) (hd : ReadsBack dec .r0 .r1 k header vals ect)
    (hf : s.fstack = []) (hw : s.w0.start = s.w0.cur) (hroom : s.w0.cur + s.cfg.maxPacket ≤ s.w0.stop)
    (hmax : (builtFrame s.cfg.trailer k header body ect).length ≤ s.cfg.maxPacket)
    (h64 : bodyLength header body ect < 2 ^ 64) :
    ∃ t u v, execAll [begin_, .wrBytes body, .endFrame] s = .next t ∧ exec .asmTake t = .next u ∧
      u.resp = some ⟨.ok, [], builtFrame s.cfg.trailer k header body ect, []⟩ ∧
      execAll [.scrLoad (builtFrame s.cfg.trailer k header body ect), dec] u = .next v ∧
      v.resp = some ⟨.ok, bodyLength header body ect :: vals,
        frameTail s.cfg.trailer ect (untrailed k header body ect), []⟩ ∧
      v.scr.Holds v.r1.cur body ∧ v.r1.stop = v.r1.cur + body.length := by
  obtain ⟨t, ht, htf, htc, hta⟩ := execAll_buildFrame body hi hf hw hroom hmax
  have hu := exec_asmTake_closed htf hta
  obtain ⟨m, hm, hload⟩ := scrLoadCopiesData (builtFrame s.cfg.trailer k header body ect)
    (finish .ok [] (builtFrame s.cfg.trailer k header body ect) [] t.rewind) (by
      rw [finish_cfg]
      exact hmax.trans_eq (congrArg Config.maxPacket htc.symm))
  obtain ⟨v, hv, hresp, hview⟩ := exec_decoder_builtFrame hd h64
    (s := finish .ok [] [] [] { finish .ok [] (builtFrame s.cfg.trailer k header body ect) [] t.rewind with
      scr := m, scrLen := (builtFrame s.cfg.trailer k header body ect).length
      r0 := ⟨0, 0, (builtFrame s.cfg.trailer k header body ect).length⟩
      r1 := ⟨0, 0, 0⟩, r2 := ⟨0, 0, 0⟩, r3 := ⟨0, 0, 0⟩ }) hm.holds rfl
  exact ⟨t, _, v, ht, hu, rfl, (execAll_cons hload).trans (execAll_cons hv), hresp, hview⟩

/-! ### The statement -/

/-- Settles O50: each of the six BEGIN commands is Begin of its kind and values, and the kind's decoder reads them back. -/
theorem frameRoundTrip : Obligations.FrameRoundTrip := by
  intro s begin_ dec vals header body ect len hcfg hf hw hroom hkind hlen hmax
  obtain ⟨k, hi, hd⟩ : ∃ k, Begins begin_ k header ect ∧ ReadsBack dec .r0 .r1 k header vals ect := by
    rcases hkind with ⟨rfl, rfl, rfl, rfl, rfl⟩ | ⟨rfl, rfl, rfl, rfl, rfl⟩ |
      ⟨a, b, c, d, ⟨rfl, rfl⟩ | ⟨rfl, rfl⟩, rfl, rfl, rfl⟩ |
      ⟨a, b, c, d, e, f, g, h, j, rfl, rfl, ha, rfl, rfl, rfl⟩ |
      ⟨st, ws, seq, x, rfl, rfl, hst, hws, hseq, rfl, rfl, rfl⟩
    · exact ⟨_, begins_cmdmsg, readsBack_cmdmsg .r0 .r1⟩
    · exact ⟨_, begins_cmdresult, readsBack_cmdresult .r0 .r1⟩
    · exact ⟨_, begins_tmstatus a b c d, readsBack_tmstatus .r0 .r1 (fieldsForm_u64 [a, b, c, d])⟩
    · exact ⟨_, begins_tmevent a b c d, readsBack_tmevent .r0 .r1 (fieldsForm_u64 [a, b, c, d])⟩
    · exact ⟨_, begins_address b c d e f g h j ha, readsBack_beginAddress .r0 .r1 b c d e f g h j ha⟩
    · exact ⟨_, begins_exchange x hst hws hseq, readsBack_beginExchange .r0 .r1 x hst hws hseq⟩
  obtain rfl : len = bodyLength header body ect := hlen
  have hl := builtFrame_length s.cfg.trailer k header body ect
  obtain ⟨-, hasm, -⟩ := Config.wf_iff.1 hcfg
  obtain ⟨t, u, v, ht, hu, hur, hv, hvr, hpayload, hstop⟩ := frame_roundTrip body hi hd hf hw hroom
    (hl.trans_le hmax) (by unfold Config.asmSize at hasm; omega)
  rw [← builtFrame_take s.cfg.trailer] at hvr
  exact ⟨t, u, v, _, ht, hu, hur, hl, hv, hvr, hpayload, hstop⟩

end Sys2Proof.Machine
end

section
/-! PROOFS. The send commands (45_agent.md §4): the frame a send queues, and the commands with which a host builds the same
frame in ASM. -/

namespace Sys2Proof.Machine

/-- STATUS reads 0 after OK alone (60_exceptions.md R175). -/
theorem finish_status_zero {st : Status} {result : List Nat} {dataOut : List Byte} {events : List Event} {s : State} :
    (finish st result dataOut events s).status = 0 ↔ st = .ok := status_eq_iff (b := .ok)

/-! ### The frame a send queues (45_agent.md R158, R166) -/

/-- The ExchangePacket of Send around the AddressPacket, as two built frames, one in the other. -/
theorem sendPacket_builtFrame (s : State) (ws : Nat) (address payload : List Byte) :
    sendPacket s ws address payload = builtFrame s.cfg.trailer .exchangePacket
      (pktHeader (sendStream s.cfg.role) s.cfg.outEct ++ (berMin ws ++ berMin s.outCtr.toNat))
      (builtFrame s.cfg.trailer .addressPacket address payload none) (some s.cfg.outEct) := by
  have haddress : dMsg .addressPacket address payload =
      builtFrame s.cfg.trailer .addressPacket address payload none := by
    simp [dMsg, builtFrame, untrailed, bodyLength, frameTail, frameTrailer, codeBytes_wire]
  have hlen : (pktHeader (sendStream s.cfg.role) s.cfg.outEct).length = 3 := by
    cases s.cfg.role <;> cases s.cfg.outEct <;> rfl
  have hsize : frameTrailer (some s.cfg.outEct) = trailerSize s.cfg.outEct := (frameTrailer_eq _).symm
  have hpre : ∀ body, pMsgPre .exchangePacket (sendStream s.cfg.role) (berMin ws ++ berMin s.outCtr.toNat) body s.cfg.outEct =
      untrailed .exchangePacket
        (pktHeader (sendStream s.cfg.role) s.cfg.outEct ++ (berMin ws ++ berMin s.outCtr.toNat)) body (some s.cfg.outEct) :=
    fun body => by simp only [pMsgPre, untrailed, bodyLength, codeBytes_wire, List.length_append, hlen, hsize, List.append_assoc]
  rw [sendPacket, haddress, pMsg, hpre]
  rfl

/-- A built frame with a trailer: the length of header, body and trailer in front of them, the trailer over all before it. -/
theorem builtFrame_trailed (u : TrailerUnit) (k : Kind) (header body pre : List Byte) (x : Ect)
    (hp : pre = wireCode k ++ berMin ((header ++ body).length + frameTrailer (some x)) ++ (header ++ body)) :
    builtFrame u k header body (some x) = pre ++ trailerFn u x pre := by
  rw [hp, List.length_append]
  rfl

/-- The frame of Safety.lean is the one Send builds. -/
theorem sentFrame_sendPacket (s : State) (ws : Nat) (vals : List Nat) (payload : List Byte) :
    sentFrame s ws vals payload = sendPacket s ws (vals.map berMin).flatten payload := by
  have haddress : builtFrame s.cfg.trailer .addressPacket (vals.map berMin).flatten payload none =
      [0xAC, 0x5E] ++ berMin ((vals.map berMin).flatten.length + payload.length) ++ (vals.map berMin).flatten ++ payload := by
    simp [builtFrame, untrailed, bodyLength, frameTail, frameTrailer, wireCode]
  have hsize : frameTrailer (some s.cfg.outEct) = match s.cfg.outEct with | .crc16 => 2 | .reedSolomon => 4 := by
    cases s.cfg.outEct <;> rfl
  rw [sendPacket_builtFrame, builtFrame_trailed _ _ _ _ _ _ rfl, haddress, hsize, sentFrame]
  cases s.cfg.role <;> cases s.cfg.outEct <;> simp only [List.append_assoc] <;> rfl

/-! ### Send (45_agent.md R166) -/

/-- The command is Send with the address fields `header` (45_agent.md R167 to R169). -/
def Sends (i : Instr) (ws : Nat) (header payload : List Byte) : Prop := ∀ s : State, exec i s = send ws header payload s

section Sends

variable {i : Instr} {ws : Nat} {header payload frame : List Byte} {s t : State}

theorem sends_network (ws src sc dc da tst ts : U64) (payload : List Byte) :
    Sends (.agSendNetwork ws src sc dc da tst ts payload) ws.toNat
      ([4, src.toNat, sc.toNat, dc.toNat, da.toNat, tst.toNat, ts.toNat].map berMin).flatten payload :=
  fun s => congrArg (send ws.toNat · payload s)
    (addressHeader_fields 4 src.toNat sc.toNat dc.toNat da.toNat 0 0 tst.toNat ts.toNat)

theorem sends_group (ws src sc dc da sg dg tst ts : U64) (payload : List Byte) :
    Sends (.agSendGroup ws src sc dc da sg dg tst ts payload) ws.toNat
      ([6, src.toNat, sc.toNat, dc.toNat, da.toNat, sg.toNat, dg.toNat, tst.toNat, ts.toNat].map berMin).flatten payload :=
  fun s => congrArg (send ws.toNat · payload s) (addressHeader_fields 6 src.toNat sc.toNat dc.toNat da.toNat
    sg.toNat dg.toNat tst.toNat ts.toNat)

theorem sends_multicast (ws src sc dc tst ts : U64) (payload : List Byte) :
    Sends (.agSendMulticast ws src sc dc tst ts payload) ws.toNat
      ([3, src.toNat, sc.toNat, dc.toNat, tst.toNat, ts.toNat].map berMin).flatten payload :=
  fun s => congrArg (send ws.toNat · payload s)
    (addressHeader_fields 3 src.toNat sc.toNat dc.toNat 0 0 0 tst.toNat ts.toNat)

/-- A send in range queues its frame and notes what it sent. -/
theorem Sends.queues (h : Sends i ws header payload) (ha : s.cfg.hasAgent = true) (hw : ws ≤ maxWindow)
    (hf : frame = sendPacket s ws header payload) (hl : frame.length ≤ s.cfg.maxPacket) :
    exec i s = .next (finish .ok [s.outCtr.toNat, frame.length] [] [] (s.queued frame).noteSent) := by
  subst hf
  rw [h s, send, withAgent_present _ ha, if_neg (Nat.not_lt.2 hw)]
  dsimp only
  rw [if_neg (Nat.not_lt.2 hl), queueFrame_eq, ok_bind]
  rfl

theorem Sends.badWindow (h : Sends i ws header payload) (ha : s.cfg.hasAgent = true) (hw : maxWindow < ws) :
    exec i s = .next (raise .invalidWindowSize s) := by
  rw [h s, send, withAgent_present _ ha, if_pos hw, conclude_raised]

theorem Sends.tooLarge (h : Sends i ws header payload) (ha : s.cfg.hasAgent = true) (hw : ws ≤ maxWindow)
    (hl : s.cfg.maxPacket < (sendPacket s ws header payload).length) : exec i s = .next (raise .frameTooLarge s) := by
  rw [h s, send, withAgent_present _ ha, if_neg (Nat.not_lt.2 hw)]
  dsimp only
  rw [if_pos hl, conclude_raised]

end Sends

/-- A frame queued is the separator of the peer and the frame written to OUT, as RB_WRITE writes them (45_agent.md R158,
41_ring.md R112). -/
theorem queued_as_rbWrite {s : State} {x bytes : List Byte} (hi : s.outRing.Inv s.cfg.capOut)
    (hb : bytes = wireSep s.cfg.role .outb ++ x) :
    (s.queued x).outRing.Inv s.cfg.capOut ∧
    exec (.rbWrite .outb bytes) s = .next (finish .ok [] [] [] (s.setRing .outb (s.queued x).outRing)) ∧
    (s.queued x).outRing.contents s.cfg.capOut =
      (s.contents .outb ++ bytes).drop ((s.contents .outb ++ bytes).length - s.cfg.capOut) := by
  have hq : (s.queued x).outRing = ringWrite s.cfg.capOut bytes s.outRing := by
    rw [hb, ← sepBytes_sepOf]
    rfl
  rw [hq]
  exact ⟨ringWrite_Inv bytes hi, exec_rbWrite_present bytes rfl, ringWrite_contents bytes hi⟩

/-- Settles O51: each of the three commands is Send with its address values. -/
theorem sendsQueueTheFrame : Obligations.SendsQueueTheFrame := by
  intro s ws src sc dc da sg dg tst ts payload i vals frame ha hi hsend hframe
  have h : Sends i ws.toNat (vals.map berMin).flatten payload := by
    rcases hsend with ⟨rfl, rfl⟩ | ⟨rfl, rfl⟩ | ⟨rfl, rfl⟩
    · exact sends_network ws src sc dc da tst ts payload
    · exact sends_group ws src sc dc da sg dg tst ts payload
    · exact sends_multicast ws src sc dc tst ts payload
  rw [sentFrame_sendPacket] at hframe
  refine ⟨fun hw hl => ?_, h.badWindow ha, fun hw hl => h.tooLarge ha hw (hframe ▸ hl)⟩
  obtain ⟨hinv, hwrite, hcontents⟩ := queued_as_rbWrite (x := frame) hi rfl
  refine ⟨(s.queued frame).outRing, memWrite s.agb 0 frame, h.queues ha hw hframe hl, memWrite_stores _ _ _, hinv, hwrite,
    ?_⟩
  rintro all rfl
  rw [hcontents, List.append_assoc]

end Sys2Proof.Machine
end

section
/-! PROOFS. Send equals the host's encoder commands (45_agent.md R166 to R169; 44_encode.md R143, R153). -/

namespace Sys2Proof.Machine

section Assembling

/-! ### Bytes assembled in ASM, with frames open in them -/

/-- After commands that started at `s` with an empty writer, ASM holds `bytes` from W0.start up to W0.cur, the writer's
limit is `stop` and the frames `frames` are open; OUT and the configuration are those of `s`. -/
structure Assembling (s t : State) (bytes : List Byte) (stop : Nat) (frames : List FrameEntry) : Prop where
  held : t.asm.Holds s.w0.start bytes
  w0 : t.w0 = ⟨s.w0.start, s.w0.start + bytes.length, stop⟩
  fstack : t.fstack = frames
  outRing : t.outRing = s.outRing
  cfg : t.cfg = s.cfg

variable {s t : State} {bytes more pre header body : List Byte} {stop start : Nat} {frames : List FrameEntry} {i : Instr}
  {k : Kind} {ect : Option Ect}

theorem Assembling.empty (hf : s.fstack = []) (hw : s.w0.start = s.w0.cur) : Assembling s s [] s.w0.stop [] where
  held := fun k hk => absurd hk (Nat.not_lt_zero k)
  w0 := by rw [List.length_nil, Nat.add_zero]; nth_rw 2 [hw]
  fstack := hf
  outRing := rfl
  cfg := rfl

/-- A command of the writer appends its bytes (40_cursor_ber.md R79). -/
theorem Assembling.write (h : Assembling s t bytes stop frames) (hi : exec i t = writeThrough more t)
    (hroom : s.w0.start + (bytes ++ more).length ≤ stop) :
    ∃ u, exec i t = .next u ∧ Assembling s u (bytes ++ more) stop frames := by
  rw [List.length_append] at hroom
  obtain ⟨m, hm, e⟩ := writesAtW0_of_fits hi (by rw [h.w0]; dsimp only [Cursor.avail]; omega)
  rw [h.w0] at hm e
  exact ⟨_, e, Memory.Holds.append.2 ⟨hm.holds_other h.held (.inl (Nat.le_refl _)), hm.holds⟩,
    by rw [List.length_append, ← Nat.add_assoc]; rfl, h.fstack, h.outRing, h.cfg⟩

/-- A BEGIN command appends the code, the placeholder and the header, and opens its frame there (44_encode.md R143). -/
theorem Assembling.begin (h : Assembling s t bytes stop frames) (hi : Begins i k header ect) (hd : frames.length < 4)
    (hroom : s.w0.start + (bytes ++ (wireCode k ++ [0x00] ++ header)).length + frameTrailer ect ≤ stop)
    (hs : start = s.w0.start + bytes.length) :
    ∃ u, exec i t = .next u ∧ Assembling s u (bytes ++ (wireCode k ++ [0x00] ++ header)) (stop - frameTrailer ect)
      (⟨k, start, start + 3, stop, frameTrailer ect, ect⟩ :: frames) := by
  subst hs
  simp only [List.length_append, wireCode_length, List.length_singleton] at hroom
  obtain ⟨m, hm, e⟩ := hi.opensFrame (s := t) (by rw [h.fstack]; exact hd) (by rw [h.w0]; dsimp only; omega)
  rw [h.w0] at hm e
  refine ⟨_, e, Memory.Holds.append.2 ⟨hm.holds_other h.held (.inl (Nat.le_refl _)), hm.holds⟩, ?_, ?_, h.outRing, h.cfg⟩
  · rw [finish_w0, List.length_append, List.length_append, List.length_append, wireCode_length, List.length_singleton,
      ← Nat.add_assoc, ← Nat.add_assoc]
  · rw [finish_fstack, h.fstack]

/-- END_FRAME turns the newest open frame, and the body assembled behind it, into the built frame (44_encode.md R153). -/
theorem Assembling.endFrame
    (h : Assembling s t (pre ++ (wireCode k ++ [0x00] ++ (header ++ body))) (stop - frameTrailer ect)
      (⟨k, start, start + 3, stop, frameTrailer ect, ect⟩ :: frames))
    (hmax : (builtFrame s.cfg.trailer k header body ect).length ≤ s.cfg.maxPacket)
    (hroom : s.w0.start + (pre ++ builtFrame s.cfg.trailer k header body ect).length ≤ stop)
    (hs : start = s.w0.start + pre.length) :
    ∃ u, exec .endFrame t = .next u ∧ Assembling s u (pre ++ builtFrame s.cfg.trailer k header body ect) stop frames := by
  subst hs
  have hlen := builtFrame_length s.cfg.trailer k header body ect
  have hbl : bodyLength header body ect = (header ++ body).length + frameTrailer ect := by
    rw [List.length_append, bodyLength]
  have hcur := congrArg Cursor.cur h.w0
  obtain ⟨hpre, hframe⟩ := Memory.Holds.append.1 h.held
  obtain ⟨hcode, hbody⟩ := Memory.Holds.append.1 hframe
  obtain ⟨hcode, -⟩ := Memory.Holds.append.1 hcode
  simp only [List.length_append, wireCode_length, List.length_singleton] at hbody hcur hroom
  obtain ⟨c0, c1, hk⟩ := wireCode_two k
  rw [hk] at hcode
  obtain ⟨m, hm, e⟩ := endFrameClosesTheNewest t _ frames c0 c1 (header ++ body)
    (frameTail s.cfg.trailer ect (untrailed k header body ect)) (bodyLength header body ect) h.fstack rfl rfl hcode hbody
    (by rw [hcur, List.length_append]; dsimp only; omega) hbl (by rw [h.cfg]; omega) (by dsimp only; omega)
    (fun hn => by subst hn; rfl) (fun x hx => by subst hx; rw [untrailed, hk, h.cfg]; rfl)
  rw [← hk] at hm
  refine ⟨_, e, Memory.Holds.append.2 ⟨hm.holds_other hpre (.inl (Nat.le_refl _)), hm.holds⟩, ?_, rfl, h.outRing, h.cfg⟩
  show (⟨t.w0.start, s.w0.start + pre.length + 2 + _ + _, stop⟩ : Cursor) = _
  rw [h.w0, List.length_append (as := pre) (bs := builtFrame ..), hlen]
  simp only [Nat.add_assoc]

/-- ASM_COMMIT OUT appends the bytes assembled to OUT (41_ring.md R117). -/
theorem Assembling.commit (h : Assembling s t bytes stop []) :
    ∃ u, exec (.asmCommit .outb) t = .next u ∧ u.outRing = ringWrite s.cfg.capOut bytes s.outRing := by
  have hb : t.assembled = .ok bytes := assembled_of_holds (by rw [h.w0]; exact h.held) (by rw [h.w0])
  refine ⟨_, exec_asmCommit_closed rfl h.fstack hb, ?_⟩
  show ringWrite t.cfg.capOut bytes t.outRing = _
  rw [h.cfg, h.outRing]

end Assembling

/-! ### A frame in a frame -/

/-- The host's commands, given as what they write and open: a separator, a frame in a frame around a payload, and the
commit leave in OUT the separator and the built frame. -/
theorem execAll_nestedFrame {write outer inner : Instr} {s : State} {sep payload frame header header' : List Byte}
    {k k' : Kind} {x : Ect} (hf : s.fstack = []) (hw : s.w0.start = s.w0.cur)
    (hroom : s.w0.cur + s.cfg.maxPacket + 2 ≤ s.w0.stop) (h2 : sep.length = 2)
    (hwrite : ∀ t, exec write t = writeThrough sep t) (ho : Begins outer k header (some x))
    (hi : Begins inner k' header' none)
    (hframe : frame = builtFrame s.cfg.trailer k header (builtFrame s.cfg.trailer k' header' payload none) (some x))
    (hmax : frame.length ≤ s.cfg.maxPacket) :
    ∃ u, execAll [write, outer, inner, .wrBytes payload, .endFrame, .endFrame, .asmCommit .outb] s = .next u ∧
      u.outRing = ringWrite s.cfg.capOut (sep ++ frame) s.outRing := by
  have hin := builtFrame_length s.cfg.trailer k' header' payload none
  have hout := builtFrame_length s.cfg.trailer k header (builtFrame s.cfg.trailer k' header' payload none) (some x)
  have hpos := berMin_length_pos (bodyLength header' payload none)
  have hpos' := berMin_length_pos (bodyLength header (builtFrame s.cfg.trailer k' header' payload none) (some x))
  rw [← hframe] at hout
  simp only [bodyLength] at hin hout hpos hpos'
  obtain ⟨t1, e1, h⟩ := (Assembling.empty hf hw).write (hwrite s) (by rw [List.nil_append]; omega)
  obtain ⟨t2, e2, h⟩ := h.begin ho (by decide)
    (by simp only [List.length_append, List.length_nil, wireCode_length, List.length_singleton]; omega) rfl
  obtain ⟨t3, e3, h⟩ := h.begin hi (by simp)
    (by simp only [List.length_append, List.length_nil, wireCode_length, List.length_singleton]; omega) rfl
  obtain ⟨t4, e4, h⟩ := h.write (i := .wrBytes payload) (more := payload) rfl
    (by simp only [List.length_append, List.length_nil, wireCode_length, List.length_singleton]; omega)
  rw [List.append_assoc (_ ++ _), List.append_assoc (wireCode k' ++ _)] at h
  obtain ⟨t5, e5, h⟩ := h.endFrame (by omega)
    (by simp only [List.length_append, List.length_nil, wireCode_length, List.length_singleton]; omega) rfl
  rw [List.append_assoc ([] ++ sep), List.append_assoc (wireCode k ++ _)] at h
  obtain ⟨t6, e6, h⟩ := h.endFrame (by rwa [← hframe]) (by rw [← hframe, List.nil_append, List.length_append]; omega) rfl
  rw [List.nil_append, ← hframe] at h
  obtain ⟨u, e7, hu⟩ := h.commit
  exact ⟨u, by rw [execAll_cons e1, execAll_cons e2, execAll_cons e3, execAll_cons e4, execAll_cons e5, execAll_cons e6,
    execAll_cons e7]; rfl, hu⟩

/-! ### The statement -/

/-- The separator of the peer, given to WR_U16BE as the host's program writes it. -/
theorem exec_wrU16be_sepOut (role : Role) (t : State) :
    exec (.wrU16be (if role = .gc then 0x4f07 else 0xacac)) t = writeThrough (sepBytes (sepOut role)) t := by
  cases role <;> rfl

/-- BEGIN_EXCHANGE with the values of Send (45_agent.md R166). -/
theorem begins_sentExchange (s : State) {ws : U64} (hw : ws.toNat ≤ maxWindow) :
    Begins (.beginExchange (if s.cfg.role = .gc then 0 else 1) (if s.cfg.outEct = .crc16 then 1 else 2) ws
      (s.outCtr.setWidth 64)) .exchangePacket
      (pktHeader (sendStream s.cfg.role) s.cfg.outEct ++ (berMin ws.toNat ++ berMin s.outCtr.toNat))
      (some s.cfg.outEct) := by
  have hctr : (s.outCtr.setWidth 64).toNat = s.outCtr.toNat := by
    rw [BitVec.toNat_setWidth]
    exact Nat.mod_eq_of_lt (by have := s.outCtr.isLt; omega)
  have hle : (s.outCtr.setWidth 64).toNat ≤ maxCounter := by
    rw [hctr]
    have := s.outCtr.isLt
    unfold maxCounter
    omega
  have hect : (if s.cfg.outEct = .crc16 then (1 : U64) else 2) = BitVec.ofNat 64 (ectCode s.cfg.outEct) := by
    cases s.cfg.outEct <;> rfl
  have hst : sendStream s.cfg.role = (if s.cfg.role = .gc then (0 : U64) else 1).toNat := by
    cases s.cfg.role <;> rfl
  rw [hect, hst, ← hctr, ← flatten_berMin_two, ← flatten_packetFields]
  exact begins_exchange _ (by split <;> simp) hw hle

/-- A send that ended OK queued its frame (45_agent.md R166). -/
theorem Sends.completed {i : Instr} {ws : Nat} {header payload : List Byte} {s t : State}
    (h : Sends i ws header payload) (ht : exec i s = .next t) (hst : t.status = 0) :
    ws ≤ maxWindow ∧ (sendPacket s ws header payload).length ≤ s.cfg.maxPacket ∧
      t = finish .ok [s.outCtr.toNat, (sendPacket s ws header payload).length] [] []
        (s.queued (sendPacket s ws header payload)).noteSent := by
  cases ha : s.cfg.hasAgent with
  | false =>
    rw [h s, send, withAgent_absent _ ha] at ht
    cases ht
    exact absurd (finish_status_zero.1 hst) (by decide)
  | true =>
    rcases Nat.lt_or_ge maxWindow ws with hw | hw
    · rw [h.badWindow ha hw] at ht
      cases ht
      exact absurd (finish_status_zero.1 hst) (by decide)
    rcases Nat.lt_or_ge s.cfg.maxPacket (sendPacket s ws header payload).length with hl | hl
    · rw [h.tooLarge ha hw hl] at ht
      cases ht
      exact absurd (finish_status_zero.1 hst) (by decide)
    rw [h.queues ha hw rfl hl] at ht
    cases ht
    exact ⟨hw, hl, rfl⟩

/-- Settles O52: the address commands are Begin of the send's address values, and the host's frame is the one Send builds. -/
theorem sendEqualsHostBuiltFrame : Obligations.SendEqualsHostBuiltFrame := by
  intro s t ws src sc dc da sg dg tst ts payload send address hpair hf hw hroom ht hst
  obtain ⟨header, hs, ha⟩ : ∃ header, Sends send ws.toNat header payload ∧ Begins address .addressPacket header none := by
    rcases hpair with ⟨rfl, rfl⟩ | ⟨rfl, rfl⟩ | ⟨rfl, rfl⟩
    · exact ⟨_, sends_network ws src sc dc da tst ts payload, begins_address src sc dc da 0 0 tst ts (.inr (.inl rfl))⟩
    · exact ⟨_, sends_group ws src sc dc da sg dg tst ts payload,
        begins_address src sc dc da sg dg tst ts (.inr (.inr rfl))⟩
    · exact ⟨_, sends_multicast ws src sc dc tst ts payload, begins_address src sc dc 0 0 0 tst ts (.inl rfl)⟩
  obtain ⟨hws, hl, rfl⟩ := hs.completed ht hst
  obtain ⟨u, hu, hring⟩ := execAll_nestedFrame (payload := payload) hf hw hroom (toBE_length _ 2)
    (exec_wrU16be_sepOut s.cfg.role) (begins_sentExchange s hws) ha (sendPacket_builtFrame ..) hl
  exact ⟨u, hu, hring⟩

end Sys2Proof.Machine
end

section
/-! PROOFS. AG_HANDLE on a whole frame (45_agent.md §3): what the dispatchers do with a packet of each kind, and what they
reject. -/

namespace Sys2Proof.Machine

/-! ### The frame in SCR and its dispatch (45_agent.md R159, R160) -/

/-- The dispatcher of a role (45_agent.md R159). -/
def agDispatch : Role → Nat → Progress → Res State
  | .uav => uavDispatch
  | .gc => gcDispatch

/-- What AG_HANDLE hands to its dispatcher after it took `frame` with the code `code`; `m` is SCR and `rb` the rest of IN
(45_agent.md R159). -/
def State.progress (s : State) (rb : Ring) (m : Memory) (code : Nat) (frame : List Byte) : Progress :=
  ⟨s.took .inb rb m frame.length, [code, frame.length], [], []⟩

/-- `frame` stands in SCR, and nothing else (45_agent.md R160). -/
def Progress.Frame (p : Progress) (frame : List Byte) : Prop := Views p.state.scr p.state.frameView frame

theorem progress_frame {s : State} {rb : Ring} {m : Memory} {code : Nat} {frame : List Byte}
    (h : s.scr.Stores m 0 frame) : (s.progress rb m code frame).Frame frame :=
  ⟨h.holds, (Nat.zero_add _).symm⟩

/-- AG_HANDLE on a whole frame takes it and dispatches on its code (45_agent.md R159). -/
theorem agHandle_frame {s : State} {c0 c1 : Byte} {garbage len body rest frame : List Byte} {code : Nat}
    (ha : s.cfg.hasAgent = true) (hi : s.inRing.Inv s.cfg.capIn) (hf : frame = [c0, c1] ++ len ++ body)
    (hb : BerForm len body.length) (hs : FirstSep (wireSep s.cfg.role .inb) (s.contents .inb) garbage (frame ++ rest))
    (hmax : frame.length ≤ s.cfg.maxPacket) (hcode : code = c0.toNat * 256 + c1.toNat) :
    ∃ rb m, rb = s.consumed .inb (garbage.length + 2 + frame.length) ∧ rb.Inv s.cfg.capIn ∧
      rb.contents s.cfg.capIn = rest ∧ s.scr.Stores m 0 frame ∧
      exec .agHandle s = conclude s (agDispatch s.cfg.role code (s.progress rb m code frame)) := by
  obtain ⟨rb, m, hrb, hinv, hrest, hm, e⟩ := agHandle_whole ha hi hf hb hs hmax
  refine ⟨rb, m, hrb, hinv, hrest, hm, ?_⟩
  rw [e _ rfl, hcode]
  cases s.cfg.role <;> rfl

/-- A message is a whole frame, and its code is that of its kind. -/
theorem agHandle_message {s : State} {k : Kind} {garbage frame body rest : List Byte} (ha : s.cfg.hasAgent = true)
    (hi : s.inRing.Inv s.cfg.capIn)
    (hs : FirstSep (wireSep s.cfg.role .inb) (s.contents .inb) garbage (frame ++ rest))
    (hmax : frame.length ≤ s.cfg.maxPacket) (hf : MsgForm k body frame) :
    ∃ rb m, rb = s.consumed .inb (garbage.length + 2 + frame.length) ∧ rb.Inv s.cfg.capIn ∧
      rb.contents s.cfg.capIn = rest ∧ s.scr.Stores m 0 frame ∧
      exec .agHandle s = conclude s (agDispatch s.cfg.role (codeOf k) (s.progress rb m (codeOf k) frame)) := by
  obtain ⟨len, hb, hframe⟩ := hf
  obtain ⟨c0, c1, hw, hcode⟩ := wireCode_pair k
  rw [hw] at hframe
  exact agHandle_frame ha hi hframe hb hs hmax hcode

/-- AG_HANDLE on a message that the dispatcher answers, whatever SCR held before. -/
theorem agHandle_answers {s : State} {k : Kind} {garbage frame body rest : List Byte} {reply : Ring → Memory → State}
    (ha : s.cfg.hasAgent = true) (hi : s.inRing.Inv s.cfg.capIn)
    (hs : FirstSep (wireSep s.cfg.role .inb) (s.contents .inb) garbage (frame ++ rest))
    (hmax : frame.length ≤ s.cfg.maxPacket) (hf : MsgForm k body frame)
    (hreply : ∀ rb m, (s.progress rb m (codeOf k) frame).Frame frame →
      agDispatch s.cfg.role (codeOf k) (s.progress rb m (codeOf k) frame) = .ok (reply rb m)) :
    ∃ rb m, rb = s.consumed .inb (garbage.length + 2 + frame.length) ∧ exec .agHandle s = .next (reply rb m) ∧
      rb.Inv s.cfg.capIn ∧ rb.contents s.cfg.capIn = rest ∧ s.scr.Stores m 0 frame := by
  obtain ⟨rb, m, hrb, hinv, hrest, hm, e⟩ := agHandle_message ha hi hs hmax hf
  rw [hreply rb m (progress_frame hm), conclude_ok] at e
  exact ⟨rb, m, hrb, e, hinv, hrest, hm⟩

/-! ### What the dispatchers do with a packet that decodes (45_agent.md R161 to R163) -/

section Dispatch

variable {p : Progress} {frame payload trailer extra : List Byte} {rsv st ws seq ctr : Nat} {ect : Ect} {k : Kind}
  {e : Status} {packets : List (List Byte × List Nat × List Byte)}

theorem orFinish_of_ok {α : Type} {r : Res α} {a : α} (f : α → Res State) (h : r = .ok a) : p.orFinish r f = f a := by
  rw [h]
  rfl

theorem orFinish_of_raised {α : Type} {r : Res α} (f : α → Res State) (h : r = .error (.raised e)) :
    p.orFinish r f = p.finish e := by
  rw [h]
  rfl

/-- DEC_EXCHANGE on the frame: the stream, the counter, the trailer and a view of the payload (43_decode.md R137). -/
theorem Progress.Frame.exchange (hv : p.Frame frame)
    (h : PacketForm .exchangePacket rsv st ect [ws, seq] payload trailer frame) (hw : ws ≤ maxWindow)
    (hq : seq ≤ maxCounter) :
    ∃ d, decExchange p.state.scr p.state.frameView = .ok d ∧ d.fields.getD 2 0 = st ∧ d.fields.getD 5 0 = seq ∧
      d.trailer = trailer ∧ Views p.state.scr d.payload payload := by
  obtain ⟨body, q, at_, -, -, -, hp, hd⟩ := decExchange_form h hw hq hv.holds hv.stop.ge
  exact ⟨_, hd, rfl, rfl, rfl, hp, rfl⟩

/-- DEC_COUNTERADJ or DEC_RECEIPT on the frame: the stream, the counter and the trailer (43_decode.md R138, R139). -/
theorem Progress.Frame.counter (hv : p.Frame frame) (h : PacketForm k rsv st ect [ctr] extra trailer frame)
    (hq : ctr ≤ maxCounter) :
    ∃ d, decCounter k p.state.scr p.state.frameView = .ok d ∧ d.fields.getD 2 0 = st ∧ d.fields.getD 4 0 = ctr ∧
      d.trailer = trailer := by
  obtain ⟨body, view, -, hd⟩ := decCounter_form h hq hv.holds hv.stop.ge
  exact ⟨_, hd, rfl, rfl, rfl⟩

/-- DecAddrSeq on a payload that is a sequence of AddressPackets, with the turns the dispatchers allow it. -/
theorem decAddrSeq_payload {scr : Memory} {c : Cursor} (hv : Views scr c payload)
    (hp : payload = (packets.map (·.1)).flatten) (hf : ∀ a ∈ packets, AddressForm a.1 a.2.1 a.2.2) :
    decAddrSeq scr c.avail c = .ok (packets.map (·.2)) := by
  subst hp
  refine decAddrSeq_forms hf hv.holds hv.stop.symm ?_
  rw [Cursor.avail, hv.stop, Nat.add_sub_cancel_left]
  exact packets_length_le hf

/-- A command ExchangePacket with the expected counter (45_agent.md R161). -/
theorem uavExchange_inSequence (hv : p.Frame frame)
    (h : PacketForm .exchangePacket rsv 0 ect [ws, seq] payload trailer frame) (hw : ws ≤ maxWindow)
    (hq : seq ≤ maxCounter) (hs : seq = p.state.cmdInCtr.toNat) (hp : payload = (packets.map (·.1)).flatten)
    (hf : ∀ a ∈ packets, AddressForm a.1 a.2.1 a.2.2) :
    uavExchange p = .ok (finish .ok p.result (p.dataOut ++ trailer)
      (p.events ++ packets.map fun a => ⟨.address, a.2.1, a.2.2⟩) p.state.advanceCmdIn) := by
  obtain ⟨d, hd, h2, h5, rfl, hview⟩ := hv.exchange h hw hq
  rw [uavExchange]
  dsimp only
  rw [orFinish_of_ok _ hd, h2, h5, if_neg (by simp), if_neg (by simp [hs]),
    orFinish_of_ok _ (decAddrSeq_payload hview hp hf), addressEvents, List.map_map]
  rfl

/-- A command ExchangePacket with another counter (45_agent.md R161). -/
theorem uavExchange_gap (hv : p.Frame frame)
    (h : PacketForm .exchangePacket rsv 0 ect [ws, seq] payload trailer frame) (hw : ws ≤ maxWindow)
    (hq : seq ≤ maxCounter) (hs : seq ≠ p.state.cmdInCtr.toNat) :
    uavExchange p = .ok (finish .sequenceMismatch (p.result ++ [p.state.cmdInCtr.toNat] ++ [seq]) (p.dataOut ++ trailer)
      p.events (p.state.queued (pMsg p.state.cfg.trailer .counterAdjustmentPacket 0 (berMin p.state.cmdInCtr.toNat) []
        p.state.cfg.outEct))) := by
  obtain ⟨d, hd, h2, h5, rfl, -⟩ := hv.exchange h hw hq
  rw [uavExchange]
  dsimp only
  rw [orFinish_of_ok _ hd, h2, h5, if_neg (by simp), if_pos hs, queueFrame_eq, ok_bind]
  rfl

theorem uavCounterAdj_answers (hv : p.Frame frame)
    (h : PacketForm .counterAdjustmentPacket rsv st ect [ctr] extra trailer frame) (hq : ctr ≤ maxCounter) :
    uavCounterAdj p = .ok (finish .ok p.result (p.dataOut ++ trailer) p.events (p.state.setCmdIn ctr)) := by
  obtain ⟨d, hd, -, h4, rfl⟩ := hv.counter h hq
  rw [uavCounterAdj]
  dsimp only
  rw [orFinish_of_ok _ hd, h4]
  rfl

theorem gcCounterAdj_answers (hv : p.Frame frame)
    (h : PacketForm .counterAdjustmentPacket rsv st ect [ctr] extra trailer frame) (hq : ctr ≤ maxCounter) :
    gcCounterAdj p = .ok (finish .ok p.result (p.dataOut ++ trailer) (p.events ++ [⟨.counterAdj, [ctr], []⟩])
      p.state) := by
  obtain ⟨d, hd, -, h4, rfl⟩ := hv.counter h hq
  rw [gcCounterAdj]
  rw [orFinish_of_ok _ hd, h4]
  rfl

/-- A command-stream ReceiptPacket (45_agent.md R163). -/
theorem gcReceipt_answers (hv : p.Frame frame) (h : PacketForm .receiptPacket rsv 0 ect [ctr] extra trailer frame)
    (hq : ctr ≤ maxCounter) :
    gcReceipt p = .ok (finish .ok p.result (p.dataOut ++ trailer)
      (p.events ++ [⟨.receipt, [ctr, if p.state.receiptMatches ctr then 1 else 0], []⟩]) (p.state.noteReceipt ctr)) := by
  obtain ⟨d, hd, h2, h4, rfl⟩ := hv.counter h hq
  rw [gcReceipt]
  dsimp only
  rw [orFinish_of_ok _ hd, h2, h4, if_neg (by simp)]
  rfl

/-- A telemetry ExchangePacket: its payloads go to TM, then TM is scanned (45_agent.md R162, R164). -/
theorem gcExchange_answers {u : State} {events ev : List Event} (hv : p.Frame frame)
    (h : PacketForm .exchangePacket rsv 1 ect [ws, seq] payload trailer frame) (hw : ws ≤ maxWindow)
    (hq : seq ≤ maxCounter) (hp : payload = (packets.map (·.1)).flatten)
    (hf : ∀ a ∈ packets, AddressForm a.1 a.2.1 a.2.2)
    (hev : ev = p.events ++
      if seq = p.state.tmCtr.toNat then [] else [⟨.tmSeqMismatch, [p.state.tmCtr.toNat, seq], []⟩])
    (hscan : ∀ t, t = (packets.map (·.2)).foldl (fun (u : State) a => u.push .tm a.2) p.state.advanceTm →
      tmRescan (t.readable .tm + 1) t ev = .ok (u, events)) :
    gcExchange p = .ok (finish .ok p.result (p.dataOut ++ trailer) events u) := by
  obtain ⟨d, hd, h2, h5, rfl, hview⟩ := hv.exchange h hw hq
  rw [gcExchange]
  dsimp only
  rw [orFinish_of_ok _ hd, h2, h5, if_neg (by simp), orFinish_of_ok _ (decAddrSeq_payload hview hp hf)]
  by_cases hs : seq = p.state.tmCtr.toNat
  · rw [if_neg (not_not.2 hs)]
    rw [if_pos hs, List.append_nil] at hev
    subst hev
    exact congrArg (· >>= _) (hscan _ rfl)
  · rw [if_pos hs]
    rw [if_neg hs] at hev
    subst hev
    exact congrArg (· >>= _) (hscan _ rfl)

/-! ### What the dispatchers reject (45_agent.md R159 to R163) -/

/-- A code the role has no handler for. -/
theorem agDispatch_unknown {role : Role} {code : Nat} (he : code ≠ codeOf .exchangePacket)
    (hc : code ≠ codeOf .counterAdjustmentPacket) (hr : role = .gc → code ≠ codeOf .receiptPacket) :
    agDispatch role code p = p.finish .invalidDataHeader := by
  cases role with
  | uav => exact (if_neg he).trans (if_neg hc)
  | gc => exact (if_neg he).trans ((if_neg (hr rfl)).trans (if_neg hc))

/-- A body that its decoder rejects (45_agent.md R160). -/
theorem agDispatch_badBody {role : Role} (hv : p.Frame frame)
    (hk : k = .exchangePacket ∨ k = .counterAdjustmentPacket ∨ (k = .receiptPacket ∧ role = .gc))
    (hb : MsgFails k frame e) : agDispatch role (codeOf k) p = p.finish e := by
  rcases hk with rfl | rfl | ⟨rfl, rfl⟩
  · cases role <;> exact orFinish_of_raised _ (decExchange_fails hv hb)
  · cases role <;> exact orFinish_of_raised _ (decCounter_fails (.inl rfl) hv hb)
  · exact orFinish_of_raised _ (decCounter_fails (.inr rfl) hv hb)

/-- The stream that a role's ExchangePackets are on: commands go to a Uav, telemetry to a Gc (45_agent.md R161, R162). -/
def handledStream (role : Role) : Nat := if role = .uav then 0 else 1

/-- An ExchangePacket of the other stream (45_agent.md R161, R162). -/
theorem agDispatch_otherStream {role : Role} (hv : p.Frame frame)
    (h : PacketForm .exchangePacket rsv st ect [ws, seq] payload trailer frame) (hw : ws ≤ maxWindow)
    (hq : seq ≤ maxCounter) (hst : st ≠ handledStream role) :
    agDispatch role (codeOf .exchangePacket) p = (p.outb trailer).finish .unexpectedStream := by
  obtain ⟨d, hd, h2, -, rfl, -⟩ := hv.exchange h hw hq
  cases role with
  | uav => exact (orFinish_of_ok _ hd).trans (if_pos (by rw [h2]; exact hst))
  | gc => exact (orFinish_of_ok _ hd).trans (if_pos (by rw [h2]; exact hst))

/-- An ExchangePacket of the right stream and, on a Uav, with the expected counter, around AddressPackets followed by bytes
that are none (45_agent.md R161, R162). -/
theorem agDispatch_badPayload {role : Role} {bad : List Byte} (hv : p.Frame frame)
    (h : PacketForm .exchangePacket rsv st ect [ws, seq] payload trailer frame) (hw : ws ≤ maxWindow)
    (hq : seq ≤ maxCounter) (hst : st = handledStream role) (hs : role = .uav → seq = p.state.cmdInCtr.toNat)
    (hp : payload = (packets.map (·.1)).flatten ++ bad) (hf : ∀ a ∈ packets, AddressForm a.1 a.2.1 a.2.2)
    (hn : bad ≠ []) (hb : MsgFails .addressPacket bad e) :
    agDispatch role (codeOf .exchangePacket) p = (p.outb trailer).finish e := by
  obtain ⟨d, hd, h2, h5, rfl, hview⟩ := hv.exchange h hw hq
  have hseq : decAddrSeq p.state.scr d.payload.avail d.payload = .error (.raised e) := by
    have hle := packets_length_le hf
    have hpos := List.length_pos_iff.2 hn
    rw [hp] at hview
    refine decAddrSeq_fails hf hview hn hb ?_
    rw [Cursor.avail, hview.stop, Nat.add_sub_cancel_left, List.length_append]
    omega
  cases role with
  | uav =>
    refine (orFinish_of_ok _ hd).trans ?_
    dsimp only
    rw [h2, h5, if_neg (not_not.2 (show st = 0 from hst)), if_neg (not_not.2 (hs rfl))]
    exact orFinish_of_raised _ hseq
  | gc =>
    refine (orFinish_of_ok _ hd).trans ?_
    dsimp only
    rw [h2, if_neg (not_not.2 (show st = 1 from hst))]
    exact orFinish_of_raised _ hseq

/-- A telemetry-stream ReceiptPacket (45_agent.md R163). -/
theorem gcReceipt_otherStream (hv : p.Frame frame) (h : PacketForm .receiptPacket rsv 1 ect [ctr] extra trailer frame)
    (hq : ctr ≤ maxCounter) : gcReceipt p = (p.outb trailer).finish .unexpectedStream := by
  obtain ⟨d, hd, h2, -, rfl⟩ := hv.counter h hq
  refine (orFinish_of_ok _ hd).trans (if_pos ?_)
  rw [h2]
  decide

end Dispatch

end Sys2Proof.Machine
end

section
/-! PROOFS. What AG_HANDLE does with a packet it handles, and with a frame it rejects (45_agent.md §3). -/

namespace Sys2Proof.Machine

/-! ### Packets handled -/

/-- Settles O53: the packet decodes, its counter is the expected one, and DecAddrSeq reads its AddressPackets. -/
theorem uavHandlesCommandsInSequence : Obligations.UavHandlesCommandsInSequence := by
  intro s garbage frame rest payload trailer rsv ws ect packets ha hr hi hs hmax hp hw hpayload hpackets
  obtain ⟨body, hf⟩ := hp.msgForm
  refine agHandle_answers ha hi (by rw [hr]; exact hs) hmax hf fun rb m hv => ?_
  rw [hr]
  exact uavExchange_inSequence hv hp hw (Nat.le_of_lt_succ s.cmdInCtr.isLt) rfl hpayload hpackets

/-- The bytes of the CounterAdjustmentPacket that a Uav answers a gap with (45_agent.md R158, R161). -/
theorem pMsg_counterAdj {u : TrailerUnit} {ect : Ect} {ctr : Nat} {pre : List Byte}
    (hp : pre = [0x6C, 0x5B] ++ berMin (3 + (berMin ctr).length + if ect = .crc16 then 2 else 4) ++
      [0x01, 0x00, if ect = .crc16 then 0x01 else 0x02] ++ berMin ctr) :
    pMsg u .counterAdjustmentPacket 0 (berMin ctr) [] ect = pre ++ trailerFn u ect pre := by
  have hpre : pMsgPre .counterAdjustmentPacket 0 (berMin ctr) [] ect = pre := by
    rw [hp, pMsgPre, List.append_nil]
    cases ect <;> rfl
  rw [pMsg, hpre]

/-- Settles O54: the packet decodes, its counter is another, and the answer is queued. -/
theorem uavAnswersAGapWithCounterAdjustment : Obligations.UavAnswersAGapWithCounterAdjustment := by
  rintro s garbage frame rest payload trailer pre rsv ws seq ect ha hr hi ho hs hmax hp hw hq hne hpre x rfl
  rw [← pMsg_counterAdj (u := s.cfg.trailer) hpre]
  generalize hx : pMsg s.cfg.trailer .counterAdjustmentPacket 0 (berMin s.cmdInCtr.toNat) [] s.cfg.outEct = x
  obtain ⟨body, hf⟩ := hp.msgForm
  obtain ⟨rb, m, hrb, e, hinv, hrest, hm⟩ := agHandle_answers ha hi (by rw [hr]; exact hs) hmax hf
    (reply := fun rb m => finish .sequenceMismatch [0x6c5a, frame.length, s.cmdInCtr.toNat, seq] trailer []
      ((s.took .inb rb m frame.length).queued x))
    fun rb m hv => by
      rw [hr, ← hx]
      exact uavExchange_gap hv hp hw hq hne
  obtain ⟨hout, hwrite, hcontents⟩ := queued_as_rbWrite (x := x) (bytes := [0xAC, 0xAC] ++ x) ho (by rw [hr]; rfl)
  refine ⟨rb, m, (s.queued x).outRing, memWrite s.agb 0 x, hrb, e, hinv, hrest, hm, memWrite_stores _ _ _, hwrite, hout, ?_⟩
  rintro all rfl
  rw [hcontents, List.append_assoc]

/-- Settles O55: on each role the packet decodes, whatever its stream. -/
theorem counterAdjustmentIsHandled : Obligations.CounterAdjustmentIsHandled := by
  intro s garbage frame rest extra trailer rsv st ctr ect ha hi hs hmax hp hq
  obtain ⟨body, hf⟩ := hp.msgForm
  refine agHandle_answers ha hi hs hmax hf fun rb m hv => ?_
  cases hr : s.cfg.role with
  | uav => exact uavCounterAdj_answers hv hp hq
  | gc => exact gcCounterAdj_answers hv hp hq

theorem noteReceipt_eq (s : State) (last : Nat) :
    s.noteReceipt last = { s with readyToSend := s.receiptMatches last || s.readyToSend } := by
  unfold State.noteReceipt
  cases s.receiptMatches last <;> rfl

theorem receiptMatches_iff {s : State} {last : Nat} :
    s.receiptMatches last = true ↔ s.lastSentValid = true ∧ last = s.lastSent.toNat := by
  rw [State.receiptMatches, Bool.and_eq_true, decide_eq_true_eq]

/-- Settles O56: the packet decodes, and GcReceipt notes whether it matches. -/
theorem gcHandlesReceipts : Obligations.GcHandlesReceipts := by
  intro s garbage frame rest extra trailer rsv last ect hit ha hr hi hs hmax hp hq hhit
  obtain rfl : s.receiptMatches last = hit := Bool.eq_iff_iff.2 (receiptMatches_iff.trans hhit.symm)
  obtain ⟨body, hf⟩ := hp.msgForm
  refine agHandle_answers ha hi (by rw [hr]; exact hs) hmax hf fun rb m hv => ?_
  rw [hr]
  refine (gcReceipt_answers hv hp hq).trans ?_
  rw [noteReceipt_eq]
  rfl

/-! ### Telemetry (45_agent.md R162, R164) -/

/-- The payloads of AddressPackets are no longer than the packets. -/
theorem payloads_length_le {packets : List (List Byte × List Nat × List Byte)}
    (hf : ∀ p ∈ packets, AddressForm p.1 p.2.1 p.2.2) :
    (packets.map (·.2.2)).flatten.length ≤ (packets.map (·.1)).flatten.length := by
  induction packets with
  | nil => exact Nat.le_refl _
  | cons p rest ih =>
    have hrest := ih fun x hx => hf x (List.mem_cons_of_mem _ hx)
    have hp := (hf p (List.mem_cons_self ..)).lengths.2
    simp only [List.map_cons, List.flatten_cons, List.length_append]
    omega

theorem PacketForm.payload_length_le {k : Kind} {rsv st : Nat} {ect : Ect} {vals : List Nat}
    {payload trailer msg : List Byte} (h : PacketForm k rsv st ect vals payload trailer msg) :
    payload.length ≤ msg.length := by
  obtain ⟨header, -, -, -, len, -, rfl⟩ := h
  simp only [List.length_append]
  omega

/-- On a Gc that took `frame` from IN, the payloads `added` go to TM and the scan takes `frames`: TM keeps what the scan
leaves, and SCR has the last frame taken. -/
theorem tmRescan_payloads {s t : State} {rb : Ring} {m : Memory} {packets : List (List Nat × List Byte)}
    {frame added left last : List Byte} {frames : List (List Byte)} {ev events : List Event}
    (ht : t = packets.foldl (fun (u : State) a => u.push .tm a.2) (s.took .inb rb m frame.length).advanceTm)
    (hm : m.Holds 0 frame) (hi : s.tmRing.Inv s.cfg.capTm) (hadded : added = (packets.map (·.2)).flatten)
    (hl : added.length ≤ s.cfg.capTm) (hlast : last = frames.getLast?.getD frame)
    (hscan : TmScan s.cfg.maxPacket
      ((s.contents .tm ++ added).drop ((s.contents .tm ++ added).length - s.cfg.capTm)) frames events left) :
    ∃ tm m', tmRescan (t.readable .tm + 1) t ev = .ok
        ({ s.took .inb rb m' last.length with tmRing := tm, tmCtr := s.tmCtr + 1 }, ev ++ events) ∧
      tm.Inv s.cfg.capTm ∧ tm.contents s.cfg.capTm = left ∧ tm.wr = (s.tmRing.wr + added.length) % s.cfg.capTm ∧
      (∀ a, (∀ k, k < added.length → a ≠ (s.tmRing.wr + k) % s.cfg.capTm) → tm.data.read a = s.tmRing.data.read a) ∧
      m'.Holds 0 last ∧ ∀ a, (∀ f ∈ frames, f.length ≤ a) → m'.read a = m.read a := by
  subst hadded hlast
  have hold : s.contents .tm = (s.contents .tm).drop ((s.contents .tm).length - s.cap .tm) := by
    rw [State.contents_length, Nat.sub_eq_zero_of_le (Ring.readable_le _ _), List.drop_zero]
  obtain ⟨tm, hfold, htm, hcontents, hwr, hcells⟩ := foldl_push_tm (packets := packets)
    (s := (s.took .inb rb m frame.length).advanceTm) (old := s.contents .tm) hi hold hl
  have hcontents : tm.contents s.cfg.capTm = _ := hcontents
  rw [hfold] at ht
  rw [advanceTm_cfg, took_cfg] at hcontents
  rw [← hcontents] at hscan
  obtain ⟨n, tm', hn, rfl, hleft, htook⟩ := tmRescan_scan hscan (fuel := t.readable .tm + 1) (s := t) (ev := ev)
    (by rw [ht]; rfl) (by rw [ht]; exact htm) (by rw [ht]; rfl) (by
      rw [Ring.contents_length, ht]
      exact Nat.lt_succ_self _)
  subst ht
  rcases htook with ⟨rfl, e⟩ | ⟨last, m', hlast, hheld, hscr, e⟩
  · exact ⟨_, m, e, htm.drop hn, hleft, hwr, hcells, hm, fun _ _ => rfl⟩
  · rw [hlast]
    exact ⟨_, m', e, htm.drop hn, hleft, hwr, hcells, hheld, hscr⟩

/-- Settles O57: the packet decodes, its payloads go to TM, and the scan over TM is the one of `TmScan`. -/
theorem gcHandlesTelemetry : Obligations.GcHandlesTelemetry := by
  rintro s garbage frame rest payload trailer stream left rsv ws seq added ect packets frames events ha hr hi ht hcap hs
    hmax hp hw hq hpayload hpackets rfl rfl hscan
  have hflat : (packets.map (·.2.2)).flatten = ((packets.map (·.2)).map (·.2)).flatten := by rw [List.map_map]; rfl
  have hl : (packets.map (·.2.2)).flatten.length ≤ s.cfg.capTm :=
    calc _ ≤ payload.length := hpayload ▸ payloads_length_le hpackets
      _ ≤ frame.length := hp.payload_length_le
      _ ≤ s.cfg.capTm := hmax.trans hcap
  obtain ⟨body, hf⟩ := hp.msgForm
  obtain ⟨rb, m, hrb, hinv, hrest, hm, e⟩ := agHandle_message ha hi (by rw [hr]; exact hs) hmax hf
  obtain ⟨tm, m', hrescan, htm, hleft, hwr, hcells, hheld, hscr⟩ := tmRescan_payloads (rb := rb)
    (ev := if seq = s.tmCtr.toNat then [] else [⟨.tmSeqMismatch, [s.tmCtr.toNat, seq], []⟩]) rfl hm.holds ht hflat hl rfl
    hscan
  have hanswer := gcExchange_answers (p := s.progress rb m (codeOf .exchangePacket) frame) (progress_frame hm) hp hw hq
    hpayload hpackets rfl fun t h => h ▸ hrescan
  refine ⟨rb, tm, m', _, rfl, hrb, ?_, hinv, hrest, htm, hleft, hwr, hcells, hheld, fun a hle => ?_⟩
  · rw [e, hr]
    exact congrArg (conclude s) hanswer
  · rw [hscr a fun f hf => hle f (List.mem_cons_of_mem _ hf)]
    exact hm.read_of_ge (by rw [Nat.zero_add]; exact hle frame (List.mem_cons_self ..))

/-! ### Frames rejected (45_agent.md R159 to R165) -/

/-- The first two bytes of a message are its code. -/
theorem MsgForm.code {k : Kind} {c0 c1 : Byte} {len body body' : List Byte}
    (h : MsgForm k body' ([c0, c1] ++ len ++ body)) : [c0, c1] = wireCode k := by
  obtain ⟨len', -, h⟩ := h
  rw [List.append_assoc, List.append_assoc] at h
  exact (List.append_inj h (wireCode_length k).symm).1

theorem codeOf_of_wireCode {k : Kind} {c0 c1 : Byte} (h : [c0, c1] = wireCode k) :
    c0.toNat * 256 + c1.toNat = codeOf k := by
  obtain ⟨b0, b1, hw, hcode⟩ := wireCode_pair k
  rw [hw] at h
  cases h
  exact hcode.symm

/-- Settles O60: each way to reject a frame ends its dispatch with `finish`, on the state that took the frame. -/
theorem handleFailuresFinish : Obligations.HandleFailuresFinish := by
  rintro s garbage frame rest len body c0 c1 ha hi hs hframe hb hmax
  obtain ⟨rb, m, hrb, -, hrest, hm, e⟩ := agHandle_frame ha hi hframe hb hs hmax rfl
  have hv := progress_frame (rb := rb) (code := c0.toNat * 256 + c1.toNat) hm
  refine ⟨rb, m, hrb, hrest, hm, ?_⟩
  rintro _ _ rfl rfl
  refine ⟨fun he hc hr => ?_, fun k x hk hcode hx => ?_, fun rsv st ect ws seq payload trailer hp hw hq => ?_,
    fun rsv ect last extra trailer hp hq hr => ?_⟩
  · rw [e, agDispatch_unknown (beNat_pair_ne he) (beNat_pair_ne hc) fun h => beNat_pair_ne (hr h)]
    rfl
  · have hf : MsgForm k body frame := ⟨len, hb, by rw [hframe, hcode]⟩
    rw [codeOf_of_wireCode hcode] at e hv ⊢
    rw [e, agDispatch_badBody hv hk (hf.fails hx)]
    rfl
  · obtain ⟨body', hf⟩ := hp.msgForm
    rw [codeOf_of_wireCode (hframe ▸ hf).code] at e hv ⊢
    refine ⟨fun hst => ?_, fun good bad x hst hseq hpayload hgood hbad hx => ?_⟩
    · rw [e, agDispatch_otherStream hv hp hw hq hst]
      rfl
    · rw [e, agDispatch_badPayload hv hp hw hq hst hseq hpayload hgood hbad hx]
      rfl
  · obtain ⟨body', hf⟩ := hp.msgForm
    rw [codeOf_of_wireCode (hframe ▸ hf).code] at e hv ⊢
    rw [e, hr]
    exact congrArg (conclude s) (gcReceipt_otherStream hv hp hq)

end Sys2Proof.Machine
end

section
/-! PROOFS. Everything AG_HANDLE can leave, by how it ends (45_agent.md R159 to R165). -/

namespace Sys2Proof.Machine

/-! ### The ways AG_HANDLE ends -/

/-- From `s` to `t` nothing changed but IN, SCR and the readers: all that taking a frame from IN can change (42_framer.md
R123). -/
def InputChange (s t : State) : Prop :=
  t = { s with inRing := t.inRing, scr := t.scr, scrLen := t.scrLen, r0 := t.r0, r1 := t.r1, r2 := t.r2, r3 := t.r3 }

theorem InputChange.refl (s : State) : InputChange s s := rfl

theorem discover_in_change {sep : Nat} {s t : State} {st : Status} (h : discover .inb sep s = .ok (st, t)) :
    InputChange s t := by
  obtain ⟨c, -, -, rfl⟩ := discover_ok h
  split <;> rfl

/-- How an AG_HANDLE ends. -/
inductive Handled (s : State) : State → Prop where
  /-- without a frame, or with one that is rejected (45_agent.md R165) -/
  | failed {u : State} (hu : InputChange s u) (st : Status) (result : List Nat) (dataOut : List Byte) :
      Handled s (finish st result dataOut [] u)
  /-- a gap, answered in OUT (45_agent.md R161) -/
  | gap {u : State} (hu : InputChange s u) (result : List Nat) (dataOut x : List Byte) :
      Handled s (finish .sequenceMismatch result dataOut [] (u.queued x))
  /-- a packet handled that is no receipt (45_agent.md R161, R162) -/
  | handled {u : State} (hready : u.readyToSend = s.readyToSend) (hvalid : u.lastSentValid = s.lastSentValid)
      (result : List Nat) (dataOut : List Byte) (events : List Event) : Handled s (finish .ok result dataOut events u)
  /-- a receipt handled (45_agent.md R163) -/
  | receipt {u : State} (hrole : s.cfg.role = .gc) (hu : InputChange s u) (size last : Nat) (dataOut : List Byte) :
      Handled s (finish .ok [codeOf .receiptPacket, size] dataOut
        [⟨.receipt, [last, if u.receiptMatches last then 1 else 0], []⟩] (u.noteReceipt last))

theorem InputChange.readyToSend {s u : State} (h : InputChange s u) : u.readyToSend = s.readyToSend := by rw [h]

theorem InputChange.lastSentValid {s u : State} (h : InputChange s u) : u.lastSentValid = s.lastSentValid := by rw [h]

theorem InputChange.receiptMatches {s u : State} (h : InputChange s u) (last : Nat) :
    u.receiptMatches last = s.receiptMatches last := by rw [h]; rfl

theorem TelemetryChange.readyToSend {s u : State} (h : TelemetryChange s u) : u.readyToSend = s.readyToSend := by rw [h]

theorem TelemetryChange.lastSentValid {s u : State} (h : TelemetryChange s u) : u.lastSentValid = s.lastSentValid := by
  rw [h]

section Endings

variable {s t u : State} {code size : Nat}

theorem uavDispatch_handled (hu : InputChange s u) (h : uavDispatch code ⟨u, [code, size], [], []⟩ = .ok t) :
    Handled s t := by
  rcases uavDispatch_cases h with ⟨d, seq, x, rfl, -, -⟩ | ⟨d, packets, rfl⟩ | ⟨d, ctr, rfl⟩ | ⟨st, d, rfl⟩
  · exact .gap hu _ d x
  · exact .handled (u := u.advanceCmdIn) hu.readyToSend hu.lastSentValid _ d _
  · exact .handled (u := u.setCmdIn ctr) hu.readyToSend hu.lastSentValid _ d _
  · exact .failed hu st _ d

theorem gcDispatch_handled (hr : s.cfg.role = .gc) (hu : InputChange s u)
    (h : gcDispatch code ⟨u, [code, size], [], []⟩ = .ok t) : Handled s t := by
  rcases gcDispatch_cases h with ⟨d, packets, before, events, v, hscan, rfl⟩ | ⟨d, last, rfl, rfl⟩ | ⟨d, ctr, rfl⟩ |
    ⟨st, d, rfl⟩
  · have hv := (foldl_push_tm_change packets u.advanceTm).trans (tmRescan_change hscan)
    exact .handled (hv.readyToSend.trans hu.readyToSend) (hv.lastSentValid.trans hu.lastSentValid) _ d events
  · exact .receipt hr hu size last d
  · exact .handled hu.readyToSend hu.lastSentValid _ d _
  · exact .failed hu st _ d

theorem Raised.handled (h : Raised s t) : Handled s t := by
  obtain ⟨st, rfl⟩ := h
  exact .failed (.refl s) st [] []

theorem agHandle_handled (h : exec .agHandle s = .next t) : Handled s t := by
  rcases execAgHandle_cases h with ⟨st, u, -, hd, ⟨-, rfl⟩ | ⟨-, code, -, ⟨-, h⟩ | ⟨hr, h⟩⟩⟩ | h
  · exact .failed (discover_in_change hd) st [] []
  · exact uavDispatch_handled (discover_in_change hd) h
  · exact gcDispatch_handled hr (discover_in_change hd) h
  · exact h.handled

end Endings

/-- AG_HANDLE where DISCOVER IN takes no frame: it ends as DISCOVER IN does (45_agent.md R159). -/
theorem agHandle_as_discover {s t : State} (ha : s.cfg.hasAgent = true) (h : exec (.discover .inb) s = .next t)
    (hst : t.status ≠ 0) : exec .agHandle s = .next t := by
  have hd : conclude s (discover .inb (sepIn s.cfg.role) s >>= fun (st, u) =>
    if st = .ok then u.frameCode >>= fun code => .ok (finish .ok [code, u.scrLen] [] [] u)
    else .ok (finish st [] [] [] u)) = .next t := h
  show withAgent s (conclude s (discover .inb (sepIn s.cfg.role) s >>= _)) = _
  rw [withAgent_present _ ha]
  cases hc : discover .inb (sepIn s.cfg.role) s with
  | error e =>
    rw [hc, error_bind] at hd
    rw [error_bind]
    exact hd
  | ok c =>
    obtain ⟨st, u⟩ := c
    rw [hc, ok_bind] at hd
    rw [ok_bind]
    dsimp only at hd ⊢
    by_cases hok : st = .ok
    · rw [if_pos hok] at hd
      rw [if_neg (not_not.2 hok)]
      cases hcode : u.frameCode with
      | error e =>
        rw [hcode] at hd
        exact hd
      | ok code =>
        rw [hcode, ok_bind, conclude_ok] at hd
        cases hd
        exact absurd (finish_status_zero.2 rfl) hst
    · rw [if_neg hok] at hd
      rw [if_pos hok]
      exact hd

/-- Settles O58: of the ways AG_HANDLE ends, the two that fail leave the agent alone. -/
theorem failingHandleKeepsTheAgent : Obligations.FailingHandleKeepsTheAgent := by
  refine ⟨fun s t h hst => ?_, fun s t => agHandle_as_discover⟩
  cases agHandle_handled h with
  | failed hu st result dataOut =>
    rw [hu]
    exact ⟨rfl, rfl, rfl, rfl, rfl, rfl, rfl, rfl, fun _ => rfl⟩
  | gap hu result dataOut x =>
    rw [hu]
    exact ⟨rfl, rfl, rfl, rfl, rfl, rfl, rfl, rfl, fun h14 => absurd rfl h14⟩
  | handled => exact absurd (finish_status_zero.2 rfl) hst
  | receipt => exact absurd (finish_status_zero.2 rfl) hst

end Sys2Proof.Machine
end

section
/-! PROOFS. The gate READY_TO_SEND (45_agent.md R163, R166, R171; 10_state.md R28): only a receipt opens it and only a send
closes it. -/

namespace Sys2Proof.Machine

/-- The flags READY_TO_SEND and LAST_SENT_VALID are those of before (10_state.md R28). -/
def FlagsKept (s t : State) : Prop := t.readyToSend = s.readyToSend ∧ t.lastSentValid = s.lastSentValid

section Flags

variable {s t u : State}

/-! ### The updates of State that leave the flags alone -/

theorem FlagsKept.refl (s : State) : FlagsKept s s := ⟨rfl, rfl⟩

theorem FlagsKept.finish {st : Status} {result : List Nat} {dataOut : List Byte} {events : List Event}
    (h : FlagsKept s u) : FlagsKept s (finish st result dataOut events u) := h

theorem flagsKept_setRing (r : RingSel) (rb : Ring) : FlagsKept s (s.setRing r rb) :=
  ⟨setRing_readyToSend .., setRing_lastSentValid ..⟩

theorem FlagsKept.setReader (c : RdSel) (x : Cursor) (h : FlagsKept s u) : FlagsKept s (u.setReader c x) :=
  ⟨(setReader_readyToSend ..).trans h.1, (setReader_lastSentValid ..).trans h.2⟩

theorem flagsKept_setReader (c : RdSel) (x : Cursor) : FlagsKept s (s.setReader c x) := (FlagsKept.refl s).setReader c x

theorem Raised.flagsKept (h : Raised s t) : FlagsKept s t := by
  obtain ⟨st, rfl⟩ := h
  exact .refl s

theorem flagsKept_unless_raised {P : Prop} (h : P ∨ Raised s t) (hp : P → FlagsKept s t) : FlagsKept s t :=
  h.elim hp Raised.flagsKept

theorem FlagsKept.no_change {b : Bool} (h : FlagsKept s t) (hs : s.readyToSend = b) (ht : t.readyToSend = !b) : False := by
  rw [h.1, hs] at ht
  cases b <;> cases ht

/-! ### The commands of an opcode below 0x70 -/

theorem readFixed_flagsKept {n : Nat} {value : List Byte → Nat} {c : RdSel} (h : readFixed n value c s = .next t) :
    FlagsKept s t :=
  flagsKept_unless_raised (readFixed_cases h) fun ⟨_, _, _, e⟩ => e ▸ (flagsKept_setReader ..).finish

theorem writeThrough_flagsKept {bytes : List Byte} (h : writeThrough bytes s = .next t) : FlagsKept s t :=
  flagsKept_unless_raised (writeThrough_cases h) fun ⟨_, e⟩ => e ▸ .refl s

theorem decodeTo_flagsKept {dec : Memory → Cursor → Res Decoded} {src dst : RdSel}
    (h : decodeTo dec src dst s = .next t) : FlagsKept s t :=
  flagsKept_unless_raised (decodeTo_cases h) fun ⟨_, _, e⟩ => e ▸ ((flagsKept_setReader ..).setReader ..).finish

theorem decodeOnly_flagsKept {dec : Memory → Cursor → Res Decoded} {src : RdSel} (h : decodeOnly dec src s = .next t) :
    FlagsKept s t :=
  flagsKept_unless_raised (decodeOnly_cases h) fun ⟨_, _, e⟩ => e ▸ (flagsKept_setReader ..).finish

theorem begun_flagsKept {k : Kind} (h : Begun k s t ∨ Raised s t) : FlagsKept s t :=
  flagsKept_unless_raised h fun ⟨_, _, _, _, _, e⟩ => e ▸ .refl s

theorem endFrame_flagsKept (h : execEndFrame s = .next t) : FlagsKept s t := by
  rcases execEndFrame_cases h with ⟨e, rest, lb, -, -, ⟨st, -, rfl⟩ | ⟨-, -, hc⟩⟩ | h
  · exact .refl s
  · obtain ⟨asm, rfl⟩ := closeFrame_ok hc
    exact .refl s
  · exact h.flagsKept

theorem discover_flagsKept {r : RingSel} (h : execDiscover r s = .next t) : FlagsKept s t := by
  rcases execDiscover_cases h with ⟨st, u, -, hd, hu⟩ | h
  · obtain ⟨c, -, -, rfl⟩ := discover_ok hd
    have hkept : FlagsKept s (if st = .ok then (s.setRing r c.ring).loadScr c.frame else s.setRing r c.ring) := by
      split <;> exact flagsKept_setRing ..
    rcases hu with ⟨-, code, -, rfl⟩ | ⟨-, rfl⟩
    · exact hkept.finish
    · exact hkept.finish
  · exact h.flagsKept

/-- The opcodes from 0x70 on are AG_HANDLE and, from 0x71 on, the three sends (30_encoding.md R56). -/
theorem agent_opcode {i : Instr} (h : 0x70 ≤ (encode i).word.toNat / 2 ^ 24) :
    i = .agHandle ∨ 0x71 ≤ (encode i).word.toNat / 2 ^ 24 ∧ ∃ ws header payload, Sends i ws header payload := by
  rw [← op_toNat] at h ⊢
  cases i with
  | agHandle => exact .inl rfl
  | agSendNetwork ws src sc dc da tst ts payload =>
    exact .inr ⟨by rw [encode, cmdWord_op]; decide, _, _, _, sends_network ws src sc dc da tst ts payload⟩
  | agSendGroup ws src sc dc da sg dg tst ts payload =>
    exact .inr ⟨by rw [encode, cmdWord_op]; decide, _, _, _, sends_group ws src sc dc da sg dg tst ts payload⟩
  | agSendMulticast ws src sc dc tst ts payload =>
    exact .inr ⟨by rw [encode, cmdWord_op]; decide, _, _, _, sends_multicast ws src sc dc tst ts payload⟩
  | _ =>
    rw [encode, cmdWord_op] at h
    exact absurd h (by decide)

/-- No other command changes a flag (46_system.md R174). -/
theorem exec_flagsKept {i : Instr} (hi : (encode i).word.toNat / 2 ^ 24 < 0x70) (h : exec i s = .next t) :
    FlagsKept s t := by
  cases i with
  | regRd index => exact flagsKept_unless_raised (execRegRd_cases h) fun ⟨_, _, e⟩ => e ▸ .refl s
  | rbWrite r data => exact flagsKept_unless_raised (execRbWrite_cases h) fun ⟨_, e⟩ => e ▸ (flagsKept_setRing ..).finish
  | rbPeek r n off => exact flagsKept_unless_raised (execRbPeek_cases h) fun ⟨_, _, _, e⟩ => e ▸ .refl s
  | rbRead r n =>
    exact flagsKept_unless_raised (execRbRead_cases h) fun ⟨_, _, _, _, _, e⟩ => e ▸ (flagsKept_setRing ..).finish
  | rbErase r n =>
    exact flagsKept_unless_raised (execRbErase_cases h) fun ⟨_, _, _, e⟩ => e ▸ (flagsKept_setRing ..).finish
  | rbStatus r => exact flagsKept_unless_raised (execRbStatus_cases h) fun ⟨_, e⟩ => e ▸ .refl s
  | curSet tg a b =>
    rcases execCurSet_cases h with ⟨_, -, -, -, rfl⟩ | ⟨-, -, -, -, rfl⟩ | h
    · exact (flagsKept_setReader ..).finish
    · exact .refl s
    · exact h.flagsKept
  | scrLoad data => exact flagsKept_unless_raised (execScrLoad_cases h) fun ⟨_, e⟩ => e ▸ .refl s
  | rdU8 c => exact readFixed_flagsKept h
  | rdU16be c => exact readFixed_flagsKept h
  | rdU16le c => exact readFixed_flagsKept h
  | rdU32be c => exact readFixed_flagsKept h
  | rdU32le c => exact readFixed_flagsKept h
  | rdU64be c => exact readFixed_flagsKept h
  | rdU64le c => exact readFixed_flagsKept h
  | rdBer c =>
    exact flagsKept_unless_raised (execRdBer_cases h) fun ⟨_, _, _, e⟩ => e ▸ (flagsKept_setReader ..).finish
  | rdSlice src dst n =>
    exact flagsKept_unless_raised (execRdSlice_cases h) fun ⟨_, e⟩ => e ▸ ((flagsKept_setReader ..).setReader ..).finish
  | rdBytes c n =>
    exact flagsKept_unless_raised (execRdBytes_cases h) fun ⟨_, _, _, e⟩ => e ▸ (flagsKept_setReader ..).finish
  | wrU8 v => exact writeThrough_flagsKept h
  | wrU16be v => exact writeThrough_flagsKept h
  | wrU16le v => exact writeThrough_flagsKept h
  | wrU32be v => exact writeThrough_flagsKept h
  | wrU32le v => exact writeThrough_flagsKept h
  | wrU64be v => exact writeThrough_flagsKept h
  | wrU64le v => exact writeThrough_flagsKept h
  | wrBer v => exact writeThrough_flagsKept (bytes := berMin v.toNat) h
  | wrBytes data => exact writeThrough_flagsKept h
  | asmTake => exact flagsKept_unless_raised (execAsmTake_cases h) fun ⟨_, _, _, e⟩ => e ▸ .refl s
  | asmCommit r =>
    exact flagsKept_unless_raised (execAsmCommit_cases h) fun ⟨_, _, _, _, e⟩ => e ▸ flagsKept_setRing (s := s) ..
  | discover r => exact discover_flagsKept h
  | decCmdmsg src dst => exact decodeTo_flagsKept h
  | decCmdresult src dst => exact decodeTo_flagsKept h
  | decTmstatus src dst => exact decodeTo_flagsKept h
  | decTmevent src dst => exact decodeTo_flagsKept h
  | decAddress src dst => exact decodeTo_flagsKept h
  | decExchange src dst => exact decodeTo_flagsKept h
  | decCounteradj src => exact decodeOnly_flagsKept h
  | decReceipt src => exact decodeOnly_flagsKept h
  | beginCmdmsg => exact begun_flagsKept (execBeginCmdmsg_cases h)
  | beginCmdresult => exact begun_flagsKept (execBeginCmdresult_cases h)
  | beginTmstatus => exact begun_flagsKept (execBeginTmstatus_cases h)
  | beginTmevent => exact begun_flagsKept (execBeginTmevent_cases h)
  | beginAddress => exact begun_flagsKept (execBeginAddress_cases h)
  | beginExchange => exact begun_flagsKept (execBeginExchange_cases h)
  | beginCounteradj => exact begun_flagsKept (execBeginCounteradj_cases h)
  | beginReceipt => exact begun_flagsKept (execBeginReceipt_cases h)
  | endFrame => exact endFrame_flagsKept h
  | agHandle | agSendNetwork | agSendGroup | agSendMulticast =>
    rw [← op_toNat, encode, cmdWord_op] at hi
    exact absurd hi (by decide)

/-! ### The agent commands -/

/-- A send that completes clears READY_TO_SEND on a Gc, leaves it alone on a Uav, and sets LAST_SENT_VALID; one that does
not changes no flag (45_agent.md R166). -/
theorem Sends.flags {i : Instr} {ws : Nat} {header payload : List Byte} (hi : Sends i ws header payload)
    (h : exec i s = .next t) :
    (t.status = 0 ∧ t.lastSentValid = true ∧ t.readyToSend = if s.cfg.role = .gc then false else s.readyToSend) ∨
      (t.status ≠ 0 ∧ FlagsKept s t) := by
  by_cases hst : t.status = 0
  · obtain ⟨-, -, rfl⟩ := hi.completed h hst
    exact .inl ⟨rfl, rfl, rfl⟩
  · rw [hi s] at h
    rcases send_cases h with ⟨-, -, -, rfl⟩ | h
    · exact absurd rfl hst
    · exact .inr ⟨hst, h.flagsKept⟩

/-- AG_HANDLE changes no flag, but that a matching receipt on a Gc sets READY_TO_SEND (45_agent.md R163). -/
theorem agHandle_flags (h : exec .agHandle s = .next t) :
    (s.cfg.role = .gc ∧ s.lastSentValid = true ∧ t.readyToSend = true ∧ t.lastSentValid = true ∧
      ∃ r, t.resp = some r ∧ r.status = .ok ∧ r.result.head? = some 0x3c5c ∧
        r.events = [⟨.receipt, [s.lastSent.toNat, 1], []⟩]) ∨ FlagsKept s t := by
  cases agHandle_handled h with
  | failed hu => exact .inr ⟨hu.readyToSend, hu.lastSentValid⟩
  | gap hu => exact .inr ⟨hu.readyToSend, hu.lastSentValid⟩
  | handled hready hvalid => exact .inr ⟨hready, hvalid⟩
  | @receipt u hrole hu size last dataOut =>
    have hmatch := hu.receiptMatches last
    rw [noteReceipt_eq, hmatch]
    cases hm : s.receiptMatches last with
    | false => exact .inr ⟨hu.readyToSend, hu.lastSentValid⟩
    | true =>
      obtain ⟨hvalid, rfl⟩ := receiptMatches_iff.1 hm
      exact .inl ⟨hrole, hvalid, rfl, hu.lastSentValid.trans hvalid, _, rfl, rfl, rfl, rfl⟩

end Flags

/-- Settles O16: only AG_HANDLE and the sends touch the flags, as `agHandle_flags` and `Sends.flags` say. -/
theorem readyToSendGate : Obligations.ReadyToSendGate := by
  intro i s t h
  rcases Nat.lt_or_ge ((encode i).word.toNat / 2 ^ 24) 0x70 with hop | hop
  · have hk := exec_flagsKept hop h
    exact ⟨fun h0 h1 => (hk.no_change h0 h1).elim, fun h1 h0 => (hk.no_change h1 h0).elim, fun _ hle => by omega,
      hk.2.trans⟩
  rcases agent_opcode hop with rfl | ⟨hop, ws, header, payload, hsend⟩
  · rcases agHandle_flags h with ⟨hrole, hvalid, hready, hkeeps, hresp⟩ | hk
    · exact ⟨fun _ _ => ⟨rfl, hrole, hvalid, hresp⟩, fun _ h0 => absurd (hready.symm.trans h0) (by decide),
        fun _ hle => absurd hle (by decide), fun _ => hkeeps⟩
    · exact ⟨fun h0 h1 => (hk.no_change h0 h1).elim, fun h1 h0 => (hk.no_change h1 h0).elim,
        fun _ hle => absurd hle (by decide), hk.2.trans⟩
  · rcases hsend.flags h with ⟨hst, hvalid, hready⟩ | ⟨hst, hk⟩
    · refine ⟨fun h0 h1 => ?_, fun h1 h0 => ⟨?_, hop, hst⟩, fun hr _ _ => hready.trans (if_pos hr), fun _ => hvalid⟩
      · rw [hready, h0, ite_self] at h1
        cases h1
      · by_contra hr
        rw [hready, if_neg hr, h1] at h0
        cases h0
    · exact ⟨fun h0 h1 => (hk.no_change h0 h1).elim, fun h1 h0 => (hk.no_change h1 h0).elim,
        fun _ _ h0 => absurd h0 hst, hk.2.trans⟩

end Sys2Proof.Machine
end

section
/-! PROOFS. Who owns each piece of state (46_system.md R174): the pieces a command may change, and that no command depends
on what AGB holds (10_state.md R30). -/

namespace Sys2Proof.Machine

/-! ### The pieces of state and the commands that own them -/

/-- The pieces of state: the rings, SCR with its length, the readers, the writer with ASM and FSTACK, the agent unit, and
what belongs to no command: the configuration, the ports and the reset input. -/
inductive Piece where
  | environment
  | ring (r : RingSel)
  | scr
  | readers
  | writer
  | agent

/-- From `s` to `t` the piece is unchanged. -/
def Piece.Kept (s t : State) : Piece → Prop
  | .environment => (t.cfg, t.cmdQ, t.tpQ, t.granted, t.resetIn, t.grants) =
      (s.cfg, s.cmdQ, s.tpQ, s.granted, s.resetIn, s.grants)
  | .ring r => t.ring r = s.ring r
  | .scr => (t.scr, t.scrLen) = (s.scr, s.scrLen)
  | .readers => t.reader = s.reader
  | .writer => (t.asm, t.w0, t.fstack) = (s.asm, s.w0, s.fstack)
  | .agent => (t.cmdInCtr, t.tmCtr, t.outCtr, t.lastSent, t.lastSentValid, t.readyToSend, t.agb) =
      (s.cmdInCtr, s.tmCtr, s.outCtr, s.lastSent, s.lastSentValid, s.readyToSend, s.agb)

/-- The pieces a command may change, beside STATUS and the response (46_system.md R174). -/
def ownedPieces : Instr → List Piece
  | .regRd _ | .rbPeek _ _ _ | .rbStatus _ => []
  | .rbWrite r _ | .rbRead r _ | .rbErase r _ => [.ring r]
  | .asmCommit r => [.ring r, .writer]
  | .curSet (.rd _) _ _ => [.readers]
  | .curSet .w0 _ _ => [.writer]
  | .scrLoad _ => [.scr, .readers]
  | .discover r => [.ring r, .scr, .readers]
  | .rdU8 _ | .rdU16be _ | .rdU16le _ | .rdU32be _ | .rdU32le _ | .rdU64be _ | .rdU64le _ | .rdBer _ | .rdSlice _ _ _
  | .rdBytes _ _ | .decCmdmsg _ _ | .decCmdresult _ _ | .decTmstatus _ _ | .decTmevent _ _ | .decAddress _ _
  | .decExchange _ _ | .decCounteradj _ | .decReceipt _ => [.readers]
  | .wrU8 _ | .wrU16be _ | .wrU16le _ | .wrU32be _ | .wrU32le _ | .wrU64be _ | .wrU64le _ | .wrBer _ | .wrBytes _
  | .asmTake | .beginCmdmsg | .beginCmdresult | .beginTmstatus _ _ _ _ | .beginTmevent _ _ _ _
  | .beginAddress _ _ _ _ _ _ _ _ _ | .beginExchange _ _ _ _ | .beginCounteradj _ _ _ | .beginReceipt _ _ _
  | .endFrame => [.writer]
  | .agHandle => [.ring .inb, .ring .outb, .ring .tm, .scr, .readers, .agent]
  | .agSendNetwork _ _ _ _ _ _ _ _ | .agSendGroup _ _ _ _ _ _ _ _ _ _ | .agSendMulticast _ _ _ _ _ _ _ =>
    [.ring .outb, .agent]

/-- From `s` to `t` nothing changed but `pieces`, STATUS and the response. -/
def Changes (pieces : List Piece) (s t : State) : Prop := ∀ p, p ∉ pieces → p.Kept s t

section Updates

variable {s t u : State} {ps : List Piece}

theorem Piece.Kept.trans {p : Piece} (h : p.Kept s t) (h' : p.Kept t u) : p.Kept s u := by
  cases p <;> exact Eq.trans h' h

theorem Changes.trans (h : Changes ps s t) (h' : Changes ps t u) : Changes ps s u := fun p hp => (h p hp).trans (h' p hp)

/-! ### What each update of State changes -/

theorem changes_finish {st : Status} {result : List Nat} {dataOut : List Byte} {events : List Event} :
    Changes ps s (finish st result dataOut events s) := by
  intro p _
  cases p <;> rfl

theorem changes_setRing {r : RingSel} (rb : Ring) (hr : .ring r ∈ ps) : Changes ps s (s.setRing r rb) := by
  intro p hp
  cases p with
  | ring q => exact setRing_ring_other s r q rb fun h => hp (h ▸ hr)
  | readers => exact funext (setRing_reader s r rb)
  | _ => simp only [Piece.Kept, setRing_cfg, setRing_cmdQ, setRing_tpQ, setRing_granted, setRing_resetIn, setRing_grants,
      setRing_scr, setRing_scrLen, setRing_asm, setRing_w0, setRing_fstack, setRing_cmdInCtr, setRing_tmCtr,
      setRing_outCtr, setRing_lastSent, setRing_lastSentValid, setRing_readyToSend, setRing_agb]

theorem changes_setReader (c : RdSel) (x : Cursor) (hr : .readers ∈ ps) : Changes ps s (s.setReader c x) := by
  intro p hp
  cases p with
  | readers => exact absurd hr hp
  | ring q => exact setReader_ring s c x q
  | _ => cases c <;> rfl

theorem changes_loadScr (bytes : List Byte) (hs : .scr ∈ ps) (hr : .readers ∈ ps) : Changes ps s (s.loadScr bytes) := by
  intro p hp
  cases p with
  | scr => exact absurd hs hp
  | readers => exact absurd hr hp
  | _ => rfl

theorem changes_writer (asm : Memory) (w0 : Cursor) (fstack : List FrameEntry) (hw : .writer ∈ ps) :
    Changes ps s { s with asm := asm, w0 := w0, fstack := fstack } := by
  intro p hp
  cases p with
  | writer => exact absurd hw hp
  | _ => rfl

theorem changes_queued (x : List Byte) (hr : .ring .outb ∈ ps) (ha : .agent ∈ ps) : Changes ps s (s.queued x) := by
  have hagb : Changes ps s (s.setAgb (memWrite s.agb 0 x)) := by
    intro p hp
    cases p with
    | agent => exact absurd ha hp
    | _ => rfl
  exact hagb.trans (changes_setRing _ hr)

theorem changes_noteSent (ha : .agent ∈ ps) : Changes ps s s.noteSent := by
  intro p hp
  cases p with
  | agent => exact absurd ha hp
  | _ => rfl

end Updates

/-! ### What each command changes -/

section Commands

variable {s t u : State} {ps : List Piece}

theorem Raised.changes (h : Raised s t) : Changes ps s t := by
  obtain ⟨st, rfl⟩ := h
  exact changes_finish

theorem changes_unless_raised {P : Prop} (h : P ∨ Raised s t) (hp : P → Changes ps s t) : Changes ps s t :=
  h.elim hp Raised.changes

theorem Changes.finish {st : Status} {result : List Nat} {dataOut : List Byte} {events : List Event}
    (h : Changes ps s u) : Changes ps s (finish st result dataOut events u) := h.trans (changes_finish)

theorem readFixed_changes {n : Nat} {value : List Byte → Nat} {c : RdSel} (h : readFixed n value c s = .next t) :
    Changes [.readers] s t :=
  changes_unless_raised (readFixed_cases h) fun ⟨_, _, _, e⟩ => e ▸ (changes_setReader _ _ (.head _)).finish

theorem writeThrough_changes {bytes : List Byte} (h : writeThrough bytes s = .next t) : Changes [.writer] s t :=
  changes_unless_raised (writeThrough_cases h) fun ⟨_, e⟩ => e ▸ (changes_writer _ _ s.fstack (.head _)).finish

theorem decodeTo_changes {dec : Memory → Cursor → Res Decoded} {src dst : RdSel} (h : decodeTo dec src dst s = .next t) :
    Changes [.readers] s t :=
  changes_unless_raised (decodeTo_cases h) fun ⟨_, _, e⟩ =>
    e ▸ ((changes_setReader _ _ (.head _)).trans (changes_setReader _ _ (.head _))).finish

theorem decodeOnly_changes {dec : Memory → Cursor → Res Decoded} {src : RdSel} (h : decodeOnly dec src s = .next t) :
    Changes [.readers] s t :=
  changes_unless_raised (decodeOnly_cases h) fun ⟨_, _, e⟩ => e ▸ (changes_setReader _ _ (.head _)).finish

theorem begun_changes {k : Kind} (h : Begun k s t ∨ Raised s t) : Changes [.writer] s t :=
  changes_unless_raised h fun ⟨_, _, _, _, _, e⟩ => e ▸ (changes_writer _ _ _ (.head _)).finish

theorem endFrame_changes (h : execEndFrame s = .next t) : Changes [.writer] s t := by
  rcases execEndFrame_cases h with ⟨e, rest, lb, -, -, ⟨st, -, rfl⟩ | ⟨-, -, hc⟩⟩ | h
  · exact (changes_writer s.asm _ rest (.head _)).finish
  · obtain ⟨asm, rfl⟩ := closeFrame_ok hc
    exact (changes_writer asm _ rest (.head _)).finish
  · exact h.changes

theorem discover_changes {r : RingSel} {sep : Nat} {st : Status} (h : discover r sep s = .ok (st, u))
    (hr : .ring r ∈ ps) (hs : .scr ∈ ps) (hd : .readers ∈ ps) : Changes ps s u := by
  obtain ⟨c, -, -, rfl⟩ := discover_ok h
  have hring : Changes ps s (s.setRing r c.ring) := changes_setRing _ hr
  split
  · exact hring.trans (changes_loadScr _ hs hd)
  · exact hring

theorem execDiscover_changes {r : RingSel} (h : execDiscover r s = .next t) :
    Changes [.ring r, .scr, .readers] s t := by
  rcases execDiscover_cases h with ⟨st, u, -, hd, hu⟩ | h
  · have hkept : Changes [.ring r, .scr, .readers] s u := discover_changes hd (by simp) (by simp) (by simp)
    rcases hu with ⟨-, code, -, rfl⟩ | ⟨-, rfl⟩
    · exact hkept.finish
    · exact hkept.finish
  · exact h.changes

theorem send_changes {ws : Nat} {address payload : List Byte} (h : send ws address payload s = .next t) :
    Changes [.ring .outb, .agent] s t :=
  changes_unless_raised (send_cases h) fun ⟨_, _, _, e⟩ =>
    e ▸ ((changes_queued _ (by simp) (by simp)).trans (changes_noteSent (by simp))).finish

/-- AG_HANDLE owns every piece but two (45_agent.md §3). -/
theorem changes_agHandle (he : Piece.environment.Kept s t) (hw : Piece.writer.Kept s t) :
    Changes (ownedPieces .agHandle) s t := by
  intro p hp
  cases p with
  | environment => exact he
  | writer => exact hw
  | ring r => cases r <;> exact absurd (by simp [ownedPieces]) hp
  | _ => exact absurd (by simp [ownedPieces]) hp

theorem TelemetryChange.changes (h : TelemetryChange s t) : Changes (ownedPieces .agHandle) s t := by
  rw [h]
  exact changes_agHandle rfl rfl

theorem noteReceipt_changes (s : State) (last : Nat) : Changes (ownedPieces .agHandle) s (s.noteReceipt last) := by
  rw [noteReceipt_eq]
  exact changes_agHandle rfl rfl

theorem uavDispatch_changes {code : Nat} {p : Progress} (h : uavDispatch code p = .ok t) :
    Changes (ownedPieces .agHandle) p.state t := by
  rcases uavDispatch_cases h with ⟨d, seq, x, rfl, -, -⟩ | ⟨d, packets, rfl⟩ | ⟨d, ctr, rfl⟩ | ⟨st, d, rfl⟩
  · exact changes_agHandle rfl rfl
  · exact changes_agHandle rfl rfl
  · exact changes_agHandle rfl rfl
  · exact changes_finish

theorem gcDispatch_changes {code : Nat} {p : Progress} (h : gcDispatch code p = .ok t) :
    Changes (ownedPieces .agHandle) p.state t := by
  rcases gcDispatch_cases h with ⟨d, packets, before, events, v, hscan, rfl⟩ | ⟨d, last, -, rfl⟩ | ⟨d, ctr, rfl⟩ |
    ⟨st, d, rfl⟩
  · have hcounted : Changes (ownedPieces .agHandle) p.state p.state.advanceTm := changes_agHandle rfl rfl
    exact (hcounted.trans ((foldl_push_tm_change packets _).trans (tmRescan_change hscan)).changes).finish
  · exact (noteReceipt_changes _ _).finish
  · exact changes_finish
  · exact changes_finish

theorem agHandle_changes (h : execAgHandle s = .next t) : Changes (ownedPieces .agHandle) s t := by
  rcases execAgHandle_cases h with ⟨st, u, -, hd, hu⟩ | h
  · have hkept : Changes (ownedPieces .agHandle) s u :=
      discover_changes hd (by simp [ownedPieces]) (by simp [ownedPieces]) (by simp [ownedPieces])
    rcases hu with ⟨-, rfl⟩ | ⟨-, code, -, ⟨-, h⟩ | ⟨-, h⟩⟩
    · exact hkept.finish
    · exact hkept.trans (uavDispatch_changes h)
    · exact hkept.trans (gcDispatch_changes h)
  · exact h.changes

/-- Every command changes only the pieces it owns. -/
theorem exec_changes {i : Instr} (h : exec i s = .next t) : Changes (ownedPieces i) s t := by
  cases i with
  | regRd index => exact changes_unless_raised (execRegRd_cases h) fun ⟨_, _, e⟩ => e ▸ changes_finish
  | rbWrite r data =>
    exact changes_unless_raised (execRbWrite_cases h) fun ⟨_, e⟩ => e ▸ (changes_setRing _ (.head _)).finish
  | rbPeek r n off => exact changes_unless_raised (execRbPeek_cases h) fun ⟨_, _, _, e⟩ => e ▸ changes_finish
  | rbRead r n =>
    exact changes_unless_raised (execRbRead_cases h) fun ⟨_, _, _, _, _, e⟩ => e ▸ (changes_setRing _ (.head _)).finish
  | rbErase r n =>
    exact changes_unless_raised (execRbErase_cases h) fun ⟨_, _, _, e⟩ => e ▸ (changes_setRing _ (.head _)).finish
  | rbStatus r => exact changes_unless_raised (execRbStatus_cases h) fun ⟨_, e⟩ => e ▸ changes_finish
  | curSet tg a b =>
    rcases execCurSet_cases h with ⟨_, rfl, -, -, rfl⟩ | ⟨rfl, -, -, -, rfl⟩ | h
    · exact (changes_setReader _ _ (.head _)).finish
    · exact (changes_writer s.asm _ s.fstack (.head _)).finish
    · exact h.changes
  | scrLoad data =>
    exact changes_unless_raised (execScrLoad_cases h) fun ⟨_, e⟩ =>
      e ▸ (changes_loadScr _ (.head _) (.tail _ (.head _))).finish
  | rdU8 c => exact readFixed_changes h
  | rdU16be c => exact readFixed_changes h
  | rdU16le c => exact readFixed_changes h
  | rdU32be c => exact readFixed_changes h
  | rdU32le c => exact readFixed_changes h
  | rdU64be c => exact readFixed_changes h
  | rdU64le c => exact readFixed_changes h
  | rdBer c =>
    exact changes_unless_raised (execRdBer_cases h) fun ⟨_, _, _, e⟩ => e ▸ (changes_setReader _ _ (.head _)).finish
  | rdSlice src dst n =>
    exact changes_unless_raised (execRdSlice_cases h) fun ⟨_, e⟩ =>
      e ▸ ((changes_setReader _ _ (.head _)).trans (changes_setReader _ _ (.head _))).finish
  | rdBytes c n =>
    exact changes_unless_raised (execRdBytes_cases h) fun ⟨_, _, _, e⟩ => e ▸ (changes_setReader _ _ (.head _)).finish
  | wrU8 v => exact writeThrough_changes h
  | wrU16be v => exact writeThrough_changes h
  | wrU16le v => exact writeThrough_changes h
  | wrU32be v => exact writeThrough_changes h
  | wrU32le v => exact writeThrough_changes h
  | wrU64be v => exact writeThrough_changes h
  | wrU64le v => exact writeThrough_changes h
  | wrBer v => exact writeThrough_changes (bytes := berMin v.toNat) h
  | wrBytes data => exact writeThrough_changes h
  | asmTake =>
    exact changes_unless_raised (execAsmTake_cases h) fun ⟨_, _, _, e⟩ =>
      e ▸ (changes_writer s.asm _ s.fstack (.head _)).finish
  | asmCommit r =>
    refine changes_unless_raised (execAsmCommit_cases h) fun ⟨bytes, _, _, _, e⟩ => e ▸ ?_
    have hpush : Changes [.ring r, .writer] s (s.push r bytes) := changes_setRing _ (.head _)
    exact (hpush.trans (changes_writer _ _ _ (.tail _ (.head _)))).finish
  | discover r => exact execDiscover_changes h
  | decCmdmsg src dst => exact decodeTo_changes h
  | decCmdresult src dst => exact decodeTo_changes h
  | decTmstatus src dst => exact decodeTo_changes h
  | decTmevent src dst => exact decodeTo_changes h
  | decAddress src dst => exact decodeTo_changes h
  | decExchange src dst => exact decodeTo_changes h
  | decCounteradj src => exact decodeOnly_changes h
  | decReceipt src => exact decodeOnly_changes h
  | beginCmdmsg => exact begun_changes (execBeginCmdmsg_cases h)
  | beginCmdresult => exact begun_changes (execBeginCmdresult_cases h)
  | beginTmstatus => exact begun_changes (execBeginTmstatus_cases h)
  | beginTmevent => exact begun_changes (execBeginTmevent_cases h)
  | beginAddress => exact begun_changes (execBeginAddress_cases h)
  | beginExchange => exact begun_changes (execBeginExchange_cases h)
  | beginCounteradj => exact begun_changes (execBeginCounteradj_cases h)
  | beginReceipt => exact begun_changes (execBeginReceipt_cases h)
  | endFrame => exact endFrame_changes h
  | agHandle => exact agHandle_changes h
  | agSendNetwork => exact send_changes h
  | agSendGroup => exact send_changes h
  | agSendMulticast => exact send_changes h

end Commands

/-! ### AGB has no effect but on AGB (10_state.md R30) -/

/-- The second result is the first, but that AGB may hold something else. -/
def Res.UpToAgb (r r' : Res State) : Prop := ∃ m, r' = r.map (·.setAgb m)

/-- The second outcome goes on wherever the first does, to the same state but for AGB. -/
def Out.UpToAgb (o o' : Out) : Prop := ∀ t, o = .next t → ∃ m, o' = .next (t.setAgb m)

/-- A dispatcher's progress with another AGB. -/
def Progress.setAgb (p : Progress) (m : Memory) : Progress := { p with state := p.state.setAgb m }

section Updates

variable (s : State) (m : Memory)

theorem setRing_setAgb (r : RingSel) (rb : Ring) : (s.setAgb m).setRing r rb = (s.setRing r rb).setAgb m := by
  cases r <;> rfl

theorem setReader_setAgb (c : RdSel) (x : Cursor) : (s.setAgb m).setReader c x = (s.setReader c x).setAgb m := by
  cases c <;> rfl

theorem setReader_setReader_setAgb (c d : RdSel) (x y : Cursor) :
    ((s.setAgb m).setReader c x).setReader d y = ((s.setReader c x).setReader d y).setAgb m := by
  rw [setReader_setAgb, setReader_setAgb]

theorem push_setAgb (r : RingSel) (bytes : List Byte) : (s.setAgb m).push r bytes = (s.push r bytes).setAgb m := by
  cases r <;> rfl

theorem foldl_push_setAgb (packets : List (List Nat × List Byte)) :
    packets.foldl (fun (u : State) a => u.push .tm a.2) (s.setAgb m) =
      (packets.foldl (fun (u : State) a => u.push .tm a.2) s).setAgb m := by
  induction packets generalizing s with
  | nil => rfl
  | cons a rest ih => exact ih (s.push .tm a.2)

theorem noteReceipt_setAgb (last : Nat) : (s.setAgb m).noteReceipt last = (s.noteReceipt last).setAgb m := by
  rw [noteReceipt_eq, noteReceipt_eq]
  rfl

theorem discover_setAgb (r : RingSel) (sep : Nat) :
    discover r sep (s.setAgb m) = (discover r sep s).map fun (st, t) => (st, t.setAgb m) := by
  unfold discover
  rw [setAgb_cap, setAgb_ring, setAgb_cfg]
  cases discoverRing (s.cap r) s.cfg.maxPacket sep (s.ring r) with
  | error e => rfl
  | ok c =>
    simp only [ok_bind, setRing_setAgb]
    by_cases hc : c.status = .ok
    · rw [if_pos hc, if_pos hc]
      rfl
    · rw [if_neg hc, if_neg hc]
      rfl

theorem tmRescan_setAgb (fuel : Nat) (events : List Event) :
    tmRescan fuel (s.setAgb m) events = (tmRescan fuel s events).map fun (t, ev) => (t.setAgb m, ev) := by
  induction fuel generalizing s events with
  | zero => rfl
  | succ n ih =>
    unfold tmRescan
    rw [discover_setAgb]
    rcases discover .tm sepTm s with e | ⟨st, t⟩
    · rfl
    · cases st with
      | noFrame | incomplete => rfl
      | ok =>
        show (subFrameEvent t >>= _) = ((subFrameEvent t >>= _ : Res (State × List Event))).map _
        cases subFrameEvent t with
        | error e => rfl
        | ok e => exact ih t _
      | _ => exact ih t _

/-- The whole scan of TM, on states that agree but for AGB. -/
theorem tmRescan_of_setAgb {s t : State} {m : Memory} (h : t = s.setAgb m) (events : List Event) :
    tmRescan (t.readable .tm + 1) t events =
      (tmRescan (s.readable .tm + 1) s events).map fun (u, ev) => (u.setAgb m, ev) := by
  subst h
  exact tmRescan_setAgb s m _ events

end Updates

section Combinators

variable {s : State} {m : Memory}

theorem upToAgb_ok (t : State) (m : Memory) : Res.UpToAgb (.ok t) (.ok (t.setAgb m)) := ⟨m, rfl⟩

theorem upToAgb_error (e : Stop) : Res.UpToAgb (.error e) (.error e) := ⟨[], rfl⟩

theorem upToAgb_ite {c : Prop} [Decidable c] {a a' b b' : Res State} (ha : Res.UpToAgb a a') (hb : Res.UpToAgb b b') :
    Res.UpToAgb (if c then a else b) (if c then a' else b') := by
  split
  · exact ha
  · exact hb

theorem upToAgb_finish {st : Status} {result : List Nat} {dataOut : List Byte} {events : List Event} {t t' : State}
    (h : t' = t.setAgb m) :
    Res.UpToAgb (.ok (finish st result dataOut events t)) (.ok (finish st result dataOut events t')) :=
  h ▸ upToAgb_ok _ m

/-- After a computation that gives the same but for `g`, the rest need agree only up to AGB. -/
theorem upToAgb_bind_map {α : Type} {g : α → α} {x x' : Res α} {f f' : α → Res State} (hx : x' = x.map g)
    (h : ∀ a, Res.UpToAgb (f a) (f' (g a))) : Res.UpToAgb (x >>= f) (x' >>= f') := by
  subst hx
  cases x with
  | error e => exact upToAgb_error e
  | ok a => exact h a

theorem upToAgb_bind {α : Type} {x : Res α} {f f' : α → Res State} (h : ∀ a, Res.UpToAgb (f a) (f' a)) :
    Res.UpToAgb (x >>= f) (x >>= f') :=
  upToAgb_bind_map (g := id) (by cases x <;> rfl) h

theorem upToAgb_bind_state {x x' : Res State} {f f' : State → Res State} (hx : Res.UpToAgb x x')
    (h : ∀ t m, Res.UpToAgb (f t) (f' (t.setAgb m))) : Res.UpToAgb (x >>= f) (x' >>= f') := by
  obtain ⟨m, hx⟩ := hx
  exact upToAgb_bind_map hx fun t => h t m

theorem upToAgb_orFinish {α : Type} {p : Progress} {r : Res α} {k k' : α → Res State}
    (h : ∀ a, Res.UpToAgb (k a) (k' a)) : Res.UpToAgb (p.orFinish r k) ((p.setAgb m).orFinish r k') := by
  rcases r with (st | -) | a
  · exact upToAgb_ok _ m
  · exact upToAgb_error _
  · exact h a

theorem upToAgb_next (t : State) (m : Memory) : Out.UpToAgb (.next t) (.next (t.setAgb m)) := by
  rintro _ ⟨⟩
  exact ⟨m, rfl⟩

theorem upToAgb_conclude {r r' : Res State} (h : Res.UpToAgb r r') :
    Out.UpToAgb (conclude s r) (conclude (s.setAgb m) r') := by
  obtain ⟨m', rfl⟩ := h
  rcases r with (st | -) | t
  · exact upToAgb_next (raise st s) m
  · intro t h
    cases h
  · exact upToAgb_next t m'

theorem upToAgb_withRing {r : RingSel} {k k' : Out} (h : Out.UpToAgb k k') :
    Out.UpToAgb (withRing s r k) (withRing (s.setAgb m) r k') := by
  unfold withRing
  rw [setAgb_cfg]
  split
  · exact h
  · exact upToAgb_next _ m

theorem upToAgb_withAgent {k k' : Out} (h : Out.UpToAgb k k') :
    Out.UpToAgb (withAgent s k) (withAgent (s.setAgb m) k') := by
  unfold withAgent
  rw [setAgb_cfg]
  split
  · exact h
  · exact upToAgb_next _ m

end Combinators

/-- What AGB holds has no effect on the command but on AGB. -/
def HidesAgb (f : State → Out) : Prop := ∀ s m, Out.UpToAgb (f s) (f (s.setAgb m))

theorem readFixed_hidesAgb (n : Nat) (value : List Byte → Nat) (c : RdSel) : HidesAgb (readFixed n value c) := fun _ _ =>
  upToAgb_conclude <| upToAgb_bind fun (_, _) => upToAgb_finish (setReader_setAgb ..)

theorem writeThrough_hidesAgb (bytes : List Byte) : HidesAgb (writeThrough bytes) := fun _ m =>
  upToAgb_conclude <| upToAgb_bind fun _ => upToAgb_ok _ m

theorem decodeTo_hidesAgb (dec : Memory → Cursor → Res Decoded) (src dst : RdSel) : HidesAgb (decodeTo dec src dst) :=
  fun _ _ => upToAgb_conclude <| upToAgb_bind fun _ => upToAgb_finish (setReader_setReader_setAgb ..)

theorem decodeOnly_hidesAgb (dec : Memory → Cursor → Res Decoded) (src : RdSel) : HidesAgb (decodeOnly dec src) :=
  fun _ _ => upToAgb_conclude <| upToAgb_bind fun _ => upToAgb_finish (setReader_setAgb ..)

theorem curSet_hidesAgb (tg : CurTarget) (a b : U64) : HidesAgb (execCurSet tg a b) := fun s m => by
  cases tg with
  | rd c =>
    exact upToAgb_conclude (upToAgb_ite (upToAgb_finish (setReader_setAgb ..)) (upToAgb_error _))
  | w0 => exact upToAgb_conclude (upToAgb_ite (upToAgb_error _) (upToAgb_ite (upToAgb_ok _ m) (upToAgb_error _)))

theorem scrLoad_hidesAgb (data : List Byte) : HidesAgb (execScrLoad data) := fun s m => by
  unfold execScrLoad
  rw [setAgb_cfg]
  split
  · exact upToAgb_next _ m
  · exact upToAgb_next _ m

theorem regRd_hidesAgb (index : BitVec 8) : HidesAgb (execRegRd index) := fun s m => by
  have hreg : (s.setAgb m).reg index = s.reg index := rfl
  unfold execRegRd
  rw [hreg]
  cases s.reg index with
  | none => exact upToAgb_next _ m
  | some v => exact upToAgb_next _ m

theorem rdBer_hidesAgb (c : RdSel) : HidesAgb (execRdBer c) := fun _ _ =>
  upToAgb_conclude <| upToAgb_bind fun (_, _) => upToAgb_finish (setReader_setAgb ..)

theorem rdSlice_hidesAgb (src dst : RdSel) (n : U64) : HidesAgb (execRdSlice src dst n) := fun _ _ =>
  upToAgb_conclude <| upToAgb_ite (upToAgb_error _) <| upToAgb_finish (setReader_setReader_setAgb ..)

theorem rdBytes_hidesAgb (c : RdSel) (n : U64) : HidesAgb (execRdBytes c n) := fun _ _ =>
  upToAgb_conclude <| upToAgb_bind fun (_, _) => upToAgb_finish (setReader_setAgb ..)

theorem asmTake_hidesAgb : HidesAgb execAsmTake := fun _ m =>
  upToAgb_conclude <| upToAgb_ite (upToAgb_error _) <| upToAgb_bind fun _ => upToAgb_ok _ m

/-! The ring commands -/

theorem rbWrite_hidesAgb (r : RingSel) (data : List Byte) : HidesAgb (execRbWrite r data) := fun s m =>
  upToAgb_withRing <| by
    rw [push_setAgb]
    exact upToAgb_next _ m

theorem rbPeek_hidesAgb (r : RingSel) (n off : U64) : HidesAgb (execRbPeek r n off) := fun _ m =>
  upToAgb_withRing <| upToAgb_conclude <| upToAgb_bind fun _ => upToAgb_ok _ m

theorem rbRead_hidesAgb (r : RingSel) (n : U64) : HidesAgb (execRbRead r n) := fun _ _ =>
  upToAgb_withRing <| upToAgb_conclude <| upToAgb_bind fun _ => upToAgb_bind fun _ => upToAgb_finish (setRing_setAgb ..)

theorem rbErase_hidesAgb (r : RingSel) (n : U64) : HidesAgb (execRbErase r n) := fun _ _ =>
  upToAgb_withRing <| upToAgb_conclude <| upToAgb_bind fun _ => upToAgb_finish (setRing_setAgb ..)

theorem rbStatus_hidesAgb (r : RingSel) : HidesAgb (execRbStatus r) := fun _ m =>
  upToAgb_withRing (upToAgb_next _ m)

theorem asmCommit_hidesAgb (r : RingSel) : HidesAgb (execAsmCommit r) := fun s m =>
  upToAgb_withRing <| upToAgb_conclude <| upToAgb_ite (upToAgb_error _) <| upToAgb_bind fun _ => by
    rw [push_setAgb]
    exact upToAgb_ok _ m

theorem discover_hidesAgb (r : RingSel) : HidesAgb (execDiscover r) := fun s m =>
  upToAgb_withRing <| upToAgb_conclude <| upToAgb_bind_map (discover_setAgb s m r _) fun (_, _) =>
    upToAgb_ite (upToAgb_bind fun _ => upToAgb_ok _ m) (upToAgb_ok _ m)

/-! The encoders -/

theorem beginFrame_upToAgb (k : Kind) (header : List Byte) (ect : Option Ect) (s : State) (m : Memory) :
    Res.UpToAgb (beginFrame k header ect s) (beginFrame k header ect (s.setAgb m)) :=
  upToAgb_ite (upToAgb_error _) <| upToAgb_ite (upToAgb_error _) (upToAgb_ok _ m)

theorem beginWith_upToAgb (k : Kind) (header : List Byte) (ect : Option Ect) (s : State) (m : Memory) :
    Res.UpToAgb (beginWith k header ect s) (beginWith k header ect (s.setAgb m)) :=
  upToAgb_bind_state (beginFrame_upToAgb k header ect s m) fun _ m' => upToAgb_ok _ m'

theorem checkStreamEct_upToAgb {st e : Nat} {k k' : Ect → Res State} (h : ∀ ect, Res.UpToAgb (k ect) (k' ect)) :
    Res.UpToAgb (checkStreamEct st e k) (checkStreamEct st e k') := by
  unfold checkStreamEct
  refine upToAgb_ite (upToAgb_error _) ?_
  cases ectOf e with
  | none => exact upToAgb_error _
  | some ect => exact h ect

theorem endFrame_hidesAgb : HidesAgb execEndFrame := fun s m => upToAgb_conclude <| by
  rw [setAgb_fstack]
  cases s.fstack with
  | nil => exact upToAgb_error _
  | cons e rest =>
    exact upToAgb_ite (upToAgb_ok _ m) <| upToAgb_ite (upToAgb_ok _ m) <|
      upToAgb_bind fun _ => upToAgb_bind fun _ => upToAgb_ok _ m

/-! The agent unit -/

theorem send_hidesAgb (ws : Nat) (address payload : List Byte) : HidesAgb (send ws address payload) := fun s m =>
  upToAgb_withAgent <| upToAgb_conclude <| upToAgb_ite (upToAgb_error _) <| upToAgb_ite (upToAgb_error _) <| by
    rw [queueFrame_eq, queueFrame_eq, ok_bind, ok_bind]
    exact upToAgb_ok _ (memWrite m 0 (sendPacket s ws address payload))

theorem uavExchange_upToAgb (p : Progress) (m : Memory) : Res.UpToAgb (uavExchange p) (uavExchange (p.setAgb m)) :=
  upToAgb_orFinish fun d => upToAgb_ite (upToAgb_ok _ m) <| upToAgb_ite
    (by
      rw [queueFrame_eq, queueFrame_eq]
      exact upToAgb_ok _ (memWrite m 0 _))
    (upToAgb_orFinish fun packets => upToAgb_ok _ m)

theorem uavDispatch_upToAgb (code : Nat) (p : Progress) (m : Memory) :
    Res.UpToAgb (uavDispatch code p) (uavDispatch code (p.setAgb m)) :=
  upToAgb_ite (uavExchange_upToAgb p m) <| upToAgb_ite (upToAgb_orFinish fun _ => upToAgb_ok _ m) (upToAgb_ok _ m)

theorem gcExchange_upToAgb (p : Progress) (m : Memory) : Res.UpToAgb (gcExchange p) (gcExchange (p.setAgb m)) :=
  upToAgb_orFinish fun d => upToAgb_ite (upToAgb_ok _ m) <| upToAgb_orFinish fun packets => by
    have hpush := foldl_push_setAgb p.state.advanceTm m packets
    dsimp only
    by_cases hs : d.fields.getD 5 0 ≠ p.state.tmCtr.toNat
    · have hs' : d.fields.getD 5 0 ≠ (p.setAgb m).state.tmCtr.toNat := hs
      rw [if_pos hs, if_pos hs']
      exact upToAgb_bind_map (tmRescan_of_setAgb hpush _) fun (_, _) => upToAgb_ok _ m
    · have hs' : ¬ d.fields.getD 5 0 ≠ (p.setAgb m).state.tmCtr.toNat := hs
      rw [if_neg hs, if_neg hs']
      exact upToAgb_bind_map (tmRescan_of_setAgb hpush _) fun (_, _) => upToAgb_ok _ m

theorem gcReceipt_upToAgb (p : Progress) (m : Memory) : Res.UpToAgb (gcReceipt p) (gcReceipt (p.setAgb m)) :=
  upToAgb_orFinish fun _ => upToAgb_ite (upToAgb_ok _ m) (upToAgb_finish (noteReceipt_setAgb ..))

theorem gcDispatch_upToAgb (code : Nat) (p : Progress) (m : Memory) :
    Res.UpToAgb (gcDispatch code p) (gcDispatch code (p.setAgb m)) :=
  upToAgb_ite (gcExchange_upToAgb p m) <| upToAgb_ite (gcReceipt_upToAgb p m) <|
    upToAgb_ite (upToAgb_orFinish fun _ => upToAgb_ok _ m) (upToAgb_ok _ m)

theorem agHandle_hidesAgb : HidesAgb execAgHandle := fun s m =>
  upToAgb_withAgent <| upToAgb_conclude <| upToAgb_bind_map (discover_setAgb s m .inb _) fun (st, t) =>
    upToAgb_ite (upToAgb_ok _ m) <| upToAgb_bind fun code => by
      show Res.UpToAgb (match s.cfg.role with | .uav => _ | .gc => _) (match s.cfg.role with | .uav => _ | .gc => _)
      cases s.cfg.role with
      | uav => exact uavDispatch_upToAgb code _ m
      | gc => exact gcDispatch_upToAgb code _ m

/-- No command depends on what AGB holds. -/
theorem exec_hidesAgb (i : Instr) : HidesAgb (exec i) := by
  cases i with
  | regRd index => exact regRd_hidesAgb index
  | rbWrite r data => exact rbWrite_hidesAgb r data
  | rbPeek r n off => exact rbPeek_hidesAgb r n off
  | rbRead r n => exact rbRead_hidesAgb r n
  | rbErase r n => exact rbErase_hidesAgb r n
  | rbStatus r => exact rbStatus_hidesAgb r
  | curSet tg a b => exact curSet_hidesAgb tg a b
  | scrLoad data => exact scrLoad_hidesAgb data
  | rdU8 c => exact readFixed_hidesAgb 1 beNat c
  | rdU16be c => exact readFixed_hidesAgb 2 beNat c
  | rdU16le c => exact readFixed_hidesAgb 2 leNat c
  | rdU32be c => exact readFixed_hidesAgb 4 beNat c
  | rdU32le c => exact readFixed_hidesAgb 4 leNat c
  | rdU64be c => exact readFixed_hidesAgb 8 beNat c
  | rdU64le c => exact readFixed_hidesAgb 8 leNat c
  | rdBer c => exact rdBer_hidesAgb c
  | rdSlice src dst n => exact rdSlice_hidesAgb src dst n
  | rdBytes c n => exact rdBytes_hidesAgb c n
  | wrU8 v => exact writeThrough_hidesAgb (toBE v.toNat 1)
  | wrU16be v => exact writeThrough_hidesAgb (toBE v.toNat 2)
  | wrU16le v => exact writeThrough_hidesAgb (toLE v.toNat 2)
  | wrU32be v => exact writeThrough_hidesAgb (toBE v.toNat 4)
  | wrU32le v => exact writeThrough_hidesAgb (toLE v.toNat 4)
  | wrU64be v => exact writeThrough_hidesAgb (toBE v.toNat 8)
  | wrU64le v => exact writeThrough_hidesAgb (toLE v.toNat 8)
  | wrBer v => exact writeThrough_hidesAgb (berMin v.toNat)
  | wrBytes data => exact writeThrough_hidesAgb data
  | asmTake => exact asmTake_hidesAgb
  | asmCommit r => exact asmCommit_hidesAgb r
  | discover r => exact discover_hidesAgb r
  | decCmdmsg src dst => exact decodeTo_hidesAgb (decBody .commandMessage) src dst
  | decCmdresult src dst => exact decodeTo_hidesAgb (decBody .commandResult) src dst
  | decTmstatus src dst => exact decodeTo_hidesAgb (decFour .tmStatusMessage) src dst
  | decTmevent src dst => exact decodeTo_hidesAgb (decFour .tmEventMessage) src dst
  | decAddress src dst => exact decodeTo_hidesAgb Machine.decAddress src dst
  | decExchange src dst => exact decodeTo_hidesAgb Machine.decExchange src dst
  | decCounteradj src => exact decodeOnly_hidesAgb (decCounter .counterAdjustmentPacket) src
  | decReceipt src => exact decodeOnly_hidesAgb (decCounter .receiptPacket) src
  | beginCmdmsg | beginCmdresult | beginTmstatus | beginTmevent =>
    exact fun s m => upToAgb_conclude (beginWith_upToAgb _ _ _ s m)
  | beginAddress => exact fun s m => upToAgb_conclude (upToAgb_ite (upToAgb_error _) (beginWith_upToAgb _ _ _ s m))
  | beginExchange =>
    exact fun s m => upToAgb_conclude <| checkStreamEct_upToAgb fun _ => upToAgb_ite (upToAgb_error _) <|
      upToAgb_ite (upToAgb_error _) (beginWith_upToAgb _ _ _ s m)
  | beginCounteradj | beginReceipt =>
    exact fun s m => upToAgb_conclude <| checkStreamEct_upToAgb fun _ =>
      upToAgb_ite (upToAgb_error _) (beginWith_upToAgb _ _ _ s m)
  | endFrame => exact endFrame_hidesAgb
  | agHandle => exact agHandle_hidesAgb
  | agSendNetwork ws src sc dc da tst ts payload => exact send_hidesAgb ws.toNat _ payload
  | agSendGroup ws src sc dc da sg dg tst ts payload => exact send_hidesAgb ws.toNat _ payload
  | agSendMulticast ws src sc dc tst ts payload => exact send_hidesAgb ws.toNat _ payload

/-! ### The owners by opcode (30_encoding.md R56) -/

section Owners

variable {i : Instr}

theorem environment_not_owned : .environment ∉ ownedPieces i := by
  cases i with
  | curSet tg a b => cases tg <;> simp [ownedPieces]
  | _ => simp [ownedPieces]

/-- A ring belongs to the commands that name it, to AG_HANDLE and, if it is OUT, to the sends. -/
theorem owns_ring {q : RingSel} (h : .ring q ∈ ownedPieces i) :
    (∃ d, i = .rbWrite q d) ∨ (∃ n, i = .rbRead q n) ∨ (∃ n, i = .rbErase q n) ∨ i = .asmCommit q ∨ i = .discover q ∨
      i = .agHandle ∨ q = .outb ∧ 0x70 ≤ (encode i).word.toNat / 2 ^ 24 := by
  rw [← op_toNat]
  cases i with
  | rbWrite r d =>
    obtain rfl : q = r := by simpa [ownedPieces] using h
    exact .inl ⟨d, rfl⟩
  | rbRead r n =>
    obtain rfl : q = r := by simpa [ownedPieces] using h
    exact .inr (.inl ⟨n, rfl⟩)
  | rbErase r n =>
    obtain rfl : q = r := by simpa [ownedPieces] using h
    exact .inr (.inr (.inl ⟨n, rfl⟩))
  | asmCommit r =>
    obtain rfl : q = r := by simpa [ownedPieces] using h
    simp
  | discover r =>
    obtain rfl : q = r := by simpa [ownedPieces] using h
    simp
  | agHandle => simp
  | agSendNetwork | agSendGroup | agSendMulticast =>
    rw [encode, cmdWord_op]
    simpa [ownedPieces] using h
  | curSet tg a b => cases tg <;> simp [ownedPieces] at h
  | _ => simp [ownedPieces] at h

theorem owns_scr (h : .scr ∈ ownedPieces i) : (∃ d, i = .scrLoad d) ∨ (∃ r, i = .discover r) ∨ i = .agHandle := by
  cases i with
  | curSet tg a b => cases tg <;> simp [ownedPieces] at h
  | _ => simp [ownedPieces] at h ⊢

theorem owns_readers (h : .readers ∈ ownedPieces i) :
    0x20 ≤ (encode i).word.toNat / 2 ^ 24 ∧ (encode i).word.toNat / 2 ^ 24 < 0x30 ∨
    0x40 ≤ (encode i).word.toNat / 2 ^ 24 ∧ (encode i).word.toNat / 2 ^ 24 < 0x60 ∨ i = .agHandle := by
  rw [← op_toNat]
  cases i with
  | curSet | scrLoad | rdU8 | rdU16be | rdU16le | rdU32be | rdU32le | rdU64be | rdU64le | rdBer | rdSlice | rdBytes =>
    rw [encode, cmdWord_op]
    exact .inl (by decide)
  | discover | decCmdmsg | decCmdresult | decTmstatus | decTmevent | decAddress | decExchange | decCounteradj
  | decReceipt =>
    rw [encode, cmdWord_op]
    exact .inr (.inl (by decide))
  | _ => simp [ownedPieces] at h ⊢

theorem owns_writer (h : .writer ∈ ownedPieces i) :
    (∃ a b, i = .curSet .w0 a b) ∨
    0x30 ≤ (encode i).word.toNat / 2 ^ 24 ∧ (encode i).word.toNat / 2 ^ 24 < 0x40 ∨
    0x60 ≤ (encode i).word.toNat / 2 ^ 24 ∧ (encode i).word.toNat / 2 ^ 24 < 0x70 := by
  rw [← op_toNat]
  cases i with
  | curSet tg a b =>
    cases tg with
    | rd c => simp [ownedPieces] at h
    | w0 => exact .inl ⟨a, b, rfl⟩
  | wrU8 | wrU16be | wrU16le | wrU32be | wrU32le | wrU64be | wrU64le | wrBer | wrBytes | asmTake | asmCommit =>
    rw [encode, cmdWord_op]
    exact .inr (.inl (by decide))
  | beginCmdmsg | beginCmdresult | beginTmstatus | beginTmevent | beginAddress | beginExchange | beginCounteradj
  | beginReceipt | endFrame =>
    rw [encode, cmdWord_op]
    exact .inr (.inr (by decide))
  | _ => simp [ownedPieces] at h

theorem owns_agent (h : .agent ∈ ownedPieces i) : 0x70 ≤ (encode i).word.toNat / 2 ^ 24 := by
  rw [← op_toNat]
  cases i with
  | agHandle | agSendNetwork | agSendGroup | agSendMulticast =>
    rw [encode, cmdWord_op]
    decide
  | curSet tg a b => cases tg <;> simp [ownedPieces] at h
  | _ => simp [ownedPieces] at h

theorem opcode_agHandle : (encode .agHandle).word.toNat / 2 ^ 24 = 0x70 := by decide

end Owners

/-- A ring that none of its owners among the ring commands was given is kept, by every command but AG_HANDLE and, for OUT,
the agent commands. -/
theorem exec_keeps_ring {i : Instr} {s t : State} {q : RingSel} (h : exec i s = .next t) (hw : ∀ d, i ≠ .rbWrite q d)
    (hr : ∀ n, i ≠ .rbRead q n) (he : ∀ n, i ≠ .rbErase q n) (hc : i ≠ .asmCommit q) (hd : i ≠ .discover q)
    (ha : i ≠ .agHandle) (ho : q = .outb → (encode i).word.toNat / 2 ^ 24 < 0x70) : t.ring q = s.ring q := by
  refine exec_changes h (.ring q) fun howns => ?_
  rcases owns_ring howns with ⟨d, e⟩ | ⟨n, e⟩ | ⟨n, e⟩ | e | e | e | ⟨e, hop⟩
  · exact hw d e
  · exact hr n e
  · exact he n e
  · exact hc e
  · exact hd e
  · exact ha e
  · exact absurd (ho e) (by omega)

/-- Settles O14: the frames are `exec_changes` with the owners of each piece, the last clause is `exec_hidesAgb`. -/
theorem stateChangesOnlyThroughItsOwners : Obligations.StateChangesOnlyThroughItsOwners := by
  intro i s t h
  have hkept := exec_changes h
  refine ⟨?_, fun hw hr he hc hd ha => exec_keeps_ring (q := .inb) h hw hr he hc hd ha nofun,
    fun hw hr he hc hd hop => exec_keeps_ring (q := .outb) h hw hr he hc hd ?_ fun _ => hop,
    fun hw hr he hc hd ha => exec_keeps_ring (q := .tm) h hw hr he hc hd ha nofun, fun hl hd ha => ?_,
    fun hop ha c => ?_, fun hc hop => ?_, fun hop => ?_, fun m => exec_hidesAgb i s m t h⟩
  · simpa [Piece.Kept] using hkept .environment environment_not_owned
  · rintro rfl
    exact absurd hop (by rw [opcode_agHandle]; decide)
  · have hnot : .scr ∉ ownedPieces i := fun howns => by
      rcases owns_scr howns with ⟨d, e⟩ | ⟨r, e⟩ | e
      exacts [hl d e, hd r e, ha e]
    simpa [Piece.Kept] using hkept .scr hnot
  · have hnot : .readers ∉ ownedPieces i := fun howns => by
      rcases owns_readers howns with hop' | hop' | e
      exacts [by omega, by omega, ha e]
    exact congrFun (hkept .readers hnot) c
  · have hnot : .writer ∉ ownedPieces i := fun howns => by
      rcases owns_writer howns with ⟨a, b, e⟩ | hop' | hop'
      exacts [hc a b e, by omega, by omega]
    simpa [Piece.Kept] using hkept .writer hnot
  · have hnot : .agent ∉ ownedPieces i := fun howns => absurd (owns_agent howns) (by omega)
    simpa [Piece.Kept] using hkept .agent hnot

end Sys2Proof.Machine
end

section
/-! PROOFS. Failures (60_exceptions.md R177 to R179): who raises IllegalCommand, and that a command which does not
complete raises, unless it is one of the three that `finish` a failure. -/

namespace Sys2Proof.Machine

section Illegal

variable {s : State} {c : Command} {i : Instr} {p : Port}

/-! ### What the decoder and the port refuse -/

theorem issue_of_not_decoded (h : ∀ i, decode c ≠ .ok i) : issue p c s = .next (raise .illegalCommand s) := by
  cases hd : decode c with
  | error e => simp [issue, hd]
  | ok i => exact absurd hd (h i)

theorem issue_of_not_allowed (hd : decode c = .ok i) (ha : portAllows p i = false) :
    issue p c s = .next (raise .illegalCommand s) := by
  simp [issue, hd, ha]

/-! ### What the instance lacks -/

/-- The register map has a value only at the legal indices of the instance (10_state.md R31). -/
theorem hasReg_of_reg {index : BitVec 8} {v : Nat} (h : s.reg index = some v) : s.cfg.hasReg index = true := by
  unfold State.reg at h
  split at h
  all_goals simp only [onAgent_eq_some, onUav_eq_some, onGc_eq_some, Option.some.injEq, reduceCtorEq] at h
  all_goals next hindex => simp [Config.hasReg, hindex, h]

theorem exec_regRd_absent {index : BitVec 8} (h : s.cfg.hasReg index = false) :
    exec (.regRd index) s = .next (raise .illegalCommand s) := by
  show execRegRd index s = _
  unfold execRegRd
  cases hreg : s.reg index with
  | none => rfl
  | some v =>
    rw [hasReg_of_reg hreg] at h
    cases h

theorem exec_scrLoad_tooLong {data : List Byte} (h : s.cfg.maxPacket < data.length) :
    exec (.scrLoad data) s = .next (raise .illegalCommand s) := if_pos h

theorem tm_absent_of_uav {cfg : Config} (h : cfg.role = .uav) : RingSel.tm.present cfg = false := by
  simp [RingSel.present, h]

/-- Without the agent unit each of its commands, from opcode 0x70 on, is refused (00_scope.md R4). -/
theorem exec_agent_absent (hop : 0x70 ≤ (encode i).word.toNat / 2 ^ 24) (ha : s.cfg.hasAgent = false) :
    exec i s = .next (raise .illegalCommand s) := by
  rcases agent_opcode hop with rfl | ⟨-, ws, header, payload, hsend⟩
  · exact withAgent_absent _ ha
  · rw [hsend s]
    exact withAgent_absent _ ha

end Illegal

/-- Settles O8: each case is refused by the decoder, by the port, or by the first check of the command. -/
theorem illegalCommands : Obligations.IllegalCommands := by
  refine ⟨fun p c s hrow => ?_, fun c i s hd hwrite hstatus hread => ?_, fun i s hu htm => ?_,
    fun _ _ => exec_scrLoad_tooLong, fun _ _ => exec_regRd_absent, fun c i s hd ha hop => ?_⟩
  · exact issue_of_not_decoded fun i hd => hrow ((decodesExactlyTheMap c).1 ⟨i, hd⟩)
  · refine issue_of_not_allowed hd (Bool.eq_false_iff.2 fun ha => ?_)
    rcases portAllows_transport.1 ha with ⟨data, e⟩ | e | ⟨n, e⟩
    exacts [hwrite data e, hstatus e, hread n e]
  · have htmAbsent := tm_absent_of_uav hu
    rcases htm with ⟨data, rfl⟩ | ⟨n, off, rfl⟩ | ⟨n, rfl⟩ | ⟨n, rfl⟩ | rfl | rfl | rfl
    all_goals exact withRing_absent _ htmAbsent
  · rw [← encode_of_decode hd] at hop
    exact exec_agent_absent hop ha

/-! ### A command completes or raises -/

section Failures

variable {s t : State} {i : Instr}

theorem status_of_finish_ok {result : List Nat} {dataOut : List Byte} {events : List Event} {u : State}
    (h : t = finish .ok result dataOut events u) : t.status = 0 := h ▸ rfl

theorem readFixed_ok_or_raised {n : Nat} {value : List Byte → Nat} {c : RdSel} (h : readFixed n value c s = .next t) :
    t.status = 0 ∨ Raised s t :=
  (readFixed_cases h).imp_left fun ⟨_, _, _, e⟩ => status_of_finish_ok e

theorem writeThrough_ok_or_raised {bytes : List Byte} (h : writeThrough bytes s = .next t) :
    t.status = 0 ∨ Raised s t :=
  (writeThrough_cases h).imp_left fun ⟨_, e⟩ => status_of_finish_ok e

theorem decodeTo_ok_or_raised {dec : Memory → Cursor → Res Decoded} {src dst : RdSel}
    (h : decodeTo dec src dst s = .next t) : t.status = 0 ∨ Raised s t :=
  (decodeTo_cases h).imp_left fun ⟨_, _, e⟩ => status_of_finish_ok e

theorem decodeOnly_ok_or_raised {dec : Memory → Cursor → Res Decoded} {src : RdSel}
    (h : decodeOnly dec src s = .next t) : t.status = 0 ∨ Raised s t :=
  (decodeOnly_cases h).imp_left fun ⟨_, _, e⟩ => status_of_finish_ok e

theorem begun_ok_or_raised {k : Kind} (h : Begun k s t ∨ Raised s t) : t.status = 0 ∨ Raised s t :=
  h.imp_left fun ⟨_, _, _, _, _, e⟩ => status_of_finish_ok e

theorem send_ok_or_raised {ws : Nat} {address payload : List Byte} (h : send ws address payload s = .next t) :
    t.status = 0 ∨ Raised s t :=
  (send_cases h).imp_left fun ⟨_, _, _, e⟩ => status_of_finish_ok e

/-- Every command but the three that `finish` a failure ends with status OK or raises (60_exceptions.md R177, R178). -/
theorem exec_ok_or_raised (hd : ∀ r, i ≠ .discover r) (he : i ≠ .endFrame) (ha : i ≠ .agHandle)
    (h : exec i s = .next t) : t.status = 0 ∨ Raised s t := by
  cases i with
  | discover r => exact absurd rfl (hd r)
  | endFrame => exact absurd rfl he
  | agHandle => exact absurd rfl ha
  | regRd => exact (execRegRd_cases h).imp_left fun ⟨_, _, e⟩ => status_of_finish_ok e
  | rbWrite => exact (execRbWrite_cases h).imp_left fun ⟨_, e⟩ => status_of_finish_ok e
  | rbPeek => exact (execRbPeek_cases h).imp_left fun ⟨_, _, _, e⟩ => status_of_finish_ok e
  | rbRead => exact (execRbRead_cases h).imp_left fun ⟨_, _, _, _, _, e⟩ => status_of_finish_ok e
  | rbErase => exact (execRbErase_cases h).imp_left fun ⟨_, _, _, e⟩ => status_of_finish_ok e
  | rbStatus => exact (execRbStatus_cases h).imp_left fun ⟨_, e⟩ => status_of_finish_ok e
  | curSet =>
    rcases execCurSet_cases h with ⟨_, -, -, -, e⟩ | ⟨-, -, -, -, e⟩ | h
    · exact .inl (status_of_finish_ok e)
    · exact .inl (status_of_finish_ok e)
    · exact .inr h
  | scrLoad => exact (execScrLoad_cases h).imp_left fun ⟨_, e⟩ => status_of_finish_ok e
  | rdU8 | rdU16be | rdU16le | rdU32be | rdU32le | rdU64be | rdU64le => exact readFixed_ok_or_raised h
  | rdBer => exact (execRdBer_cases h).imp_left fun ⟨_, _, _, e⟩ => status_of_finish_ok e
  | rdSlice => exact (execRdSlice_cases h).imp_left fun ⟨_, e⟩ => status_of_finish_ok e
  | rdBytes => exact (execRdBytes_cases h).imp_left fun ⟨_, _, _, e⟩ => status_of_finish_ok e
  | wrU8 | wrU16be | wrU16le | wrU32be | wrU32le | wrU64be | wrU64le | wrBytes => exact writeThrough_ok_or_raised h
  | wrBer => exact (execWrBer_cases h).imp_left fun ⟨_, e⟩ => status_of_finish_ok e
  | asmTake => exact (execAsmTake_cases h).imp_left fun ⟨_, _, _, e⟩ => status_of_finish_ok e
  | asmCommit => exact (execAsmCommit_cases h).imp_left fun ⟨_, _, _, _, e⟩ => status_of_finish_ok e
  | decCmdmsg | decCmdresult | decTmstatus | decTmevent | decAddress | decExchange => exact decodeTo_ok_or_raised h
  | decCounteradj | decReceipt => exact decodeOnly_ok_or_raised h
  | beginCmdmsg => exact begun_ok_or_raised (execBeginCmdmsg_cases h)
  | beginCmdresult => exact begun_ok_or_raised (execBeginCmdresult_cases h)
  | beginTmstatus => exact begun_ok_or_raised (execBeginTmstatus_cases h)
  | beginTmevent => exact begun_ok_or_raised (execBeginTmevent_cases h)
  | beginAddress => exact begun_ok_or_raised (execBeginAddress_cases h)
  | beginExchange => exact begun_ok_or_raised (execBeginExchange_cases h)
  | beginCounteradj => exact begun_ok_or_raised (execBeginCounteradj_cases h)
  | beginReceipt => exact begun_ok_or_raised (execBeginReceipt_cases h)
  | agSendNetwork | agSendGroup | agSendMulticast => exact send_ok_or_raised h

end Failures

/-- Settles O9: of the two endings the one with a failure is `raise`. -/
theorem failuresRaise : Obligations.FailuresRaise := by
  intro i s t hd he ha h hst
  obtain ⟨st, rfl⟩ := (exec_ok_or_raised hd he ha h).resolve_left hst
  exact ⟨st, mt finish_status_zero.2 hst, rfl⟩

end Sys2Proof.Machine
end

section
/-! PROOFS. The reset input (70_reset_and_hazards.md R192, R194): the step that takes it, and the state it leaves. -/

namespace Sys2Proof.Machine

section Reset

variable {s : State}

/-- The reset input comes before whatever command is pending (70_reset_and_hazards.md R192). -/
theorem step_of_reset (hr : s.resetIn = true) : step s = .next s.applyReset := by
  simp [step, tick, hr]

@[simp] theorem applyReset_reader (c : RdSel) : s.applyReset.reader c = ⟨0, 0, 0⟩ := by cases c <;> rfl

/-- An empty ring, field by field (10_state.md R21): no cell holds a value and all of `cap` is free. -/
theorem Ring.empty_eq (cap : Nat) : Ring.empty cap = ⟨[], 0, 0, cap⟩ := rfl

end Reset

/-- Settles O7: the step is `applyReset`, which the laws of `State.applyReset` give field by field; the capacities and
ASM_SIZE are written out in K and MAX_PACKET (00_scope.md R9, R14). -/
theorem resetStep : Obligations.ResetStep := by
  intro s hr
  refine ⟨s.applyReset, step_of_reset hr, ?_⟩
  simp [Ring.empty_eq, Config.capIn, Config.capOut, Config.capTm, Config.asmSize]

end Sys2Proof.Machine
end
